-- ==== Sys2Proof/Word.lean ====
section
/-! DEFINITION. The word types of GBXC: what the spec treats as bits (`00_scope.md` R11). -/

namespace Sys2Proof

/-- One byte: a data byte of either cartridge bus, an SPI byte, a byte of the host buffer space. -/
abbrev Byte := BitVec 8

/-- A 16-bit value: a GB/GBC or save-bus address, a GBA ROM halfword, the `IMM` field. -/
abbrev Half := BitVec 16

/-- A 32-bit value: `RES`, `BUFP`, a lock key, the `ARG` field. -/
abbrev Word := BitVec 32

/-- A 64-bit host command word (`30_encoding.md` R120). -/
abbrev CmdWord := BitVec 64

end Sys2Proof
end

