-- ==== Sys2Proof/Syntax.lean ====
section
/-! DEFINITION. The operations of GBXC as data: one constructor of `Instr` per row of
`spec/opcode_table.json` (67 command words and 9 wire frames), and the operand names they use. -/

namespace Sys2Proof

/-- The two cartridge connectors (`00_scope.md` R19). -/
inductive Slot where
  | gb
  | gba
deriving DecidableEq, Repr

/-- The strobe pins of `10_state.md` R28. -/
inductive Pin where
  | gbPwr
  | gbCs
  | gbRd
  | gbWr
  | gbaPwr
  | gbaCs
  | gbaCs2
  | gbaRd
  | gbaWr
  | det
deriving DecidableEq, Repr

/-- The direction of a strobe pin (`10_state.md` R28: `in` or `out`). -/
inductive PinDir where
  | input
  | output
deriving DecidableEq, Repr

/-- The four logical expander ports (`10_state.md` R30). -/
inductive Port where
  | a
  | b
  | c
  | d
deriving DecidableEq, Repr

/-- The two expander chips (`41_expander.md` R200): chip 0 carries ports A and B, chip 1 ports C and D. -/
inductive Chip where
  | ab
  | cd
deriving DecidableEq, Repr

/-- The memory-bank controllers GBXC knows (`10_state.md` R34); `noMbc` is the spec's `None`. -/
inductive Mbc where
  | noMbc
  | mbc1
  | mbc2
  | mbc3
  | mbc5
deriving DecidableEq, Repr

/-- EEPROM request framing (`30_encoding.md` R124): a 6-bit or a 14-bit row address. -/
inductive Framing where
  | k4
  | k64
deriving DecidableEq, Repr

/-- `SaveClassification` (`10_state.md` R41). -/
inductive SaveType where
  | unknown
  | eeprom4k
  | eeprom64k
  | sram256k
  | sram512k
  | flash512k
  | flash1m
deriving DecidableEq, Repr

/-- One operation. The first 67 constructors are the command words of `30_encoding.md` R126, in the
order of the opcode map; the last nine are the wire frames of R134, R135, R136 and R150. -/
inductive Instr where
  -- transport and lock
  | init (hz : Word)
  | xfer (len : Half)
  | stbDir (pin : Pin) (dir : PinDir)
  | stbWr (pin : Pin) (level : Bool)
  | stbRd (pin : Pin)
  | lock (force : Bool) (key : Word)
  | unlock (key : Word)
  | setbuf (buf : Word)
  -- port expander
  | expDir (port : Port) (mask : Byte)
  | expPull (port : Port) (mask : Byte)
  | expWr (port : Port) (val : Byte)
  | expRd (port : Port)
  | expDir2 (chip : Chip) (pair : Half)
  | expPull2 (chip : Chip) (pair : Half)
  | expWr2 (chip : Chip) (pair : Half)
  | expRd2 (chip : Chip)
  | crdStart (chip : Chip)
  | crdCont
  | crdEnd
  -- power sequencer
  | gbPwrup
  | gbPwrdn
  | gbaPwrup
  | gbaPwrdn
  -- GB/GBC engine
  | gbBusrd (addr : Half)
  | gbBuswr (addr : Half) (data : Byte)
  | gbRombank (mbc : Mbc) (bank : BitVec 9)
  | gbRamopen (mbc : Mbc)
  | gbRambank (mbc : Mbc) (bank : BitVec 4)
  | gbRamclose (mbc : Mbc)
  | gbLoadhdr
  | gbIsloaded
  | gbReadrom
  | gbReadsave
  | gbWritesave
  | gbClear
  -- GBA ROM engine
  | gbaRomrd (addr : BitVec 25) (len : Half)
  | gbaLoadhdr
  | gbaIsloaded
  | gbaReadrom
  | gbaProbesize
  | gbaClear
  -- GBA save engine
  | gbaClassify
  | eepRdrow (frm : Framing) (row : BitVec 14)
  | eepWrrow (frm : Framing) (row : BitVec 14)
  | saveRd (addr : Half)
  | saveWr (addr : Half) (data : Byte)
  | flashId
  | flashBank (bank : Bool)
  | flashErase (addr : Half)
  | flashProg (addr : Half) (data : Byte)
  | flashProg128 (addr : Half)
  | gbaReadsave
  | gbaWritesave
  -- GBx dispatcher
  | gbxLoadhdr
  | gbxIsloaded
  | gbxType
  | gbxTitle
  | gbxIdent
  | gbxRomsize
  | gbxSavesize
  | gbxReadrom
  | gbxReadsave
  | gbxWritesave
  | gbxTRom
  | gbxTRdsave
  | gbxTWrsave
  | gbxClear
  -- wire frames
  | wireExpFrame3Wr (chip : Chip) (reg : Byte) (data : Byte)
  | wireExpFrame3Rd (chip : Chip) (reg : Byte)
  | wireExpFrame4Wr (chip : Chip) (reg : Byte) (first : Byte) (second : Byte)
  | wireExpFrame4Rd (chip : Chip)
  | wireCrdHeader (chip : Chip)
  | wireEepRead4k (row : BitVec 6)
  | wireEepRead64k (row : BitVec 14)
  | wireEepWrite4k (row : BitVec 6) (data : BitVec 64)
  | wireEepWrite64k (row : BitVec 14) (data : BitVec 64)
deriving DecidableEq, Repr

/-- What the sequencer can be given to carry out: a command word in `CMD` (`10_state.md` R21), an
expander frame as the bytes sent with `SPI_CS0` asserted (`30_encoding.md` R134 to R136), or an EEPROM
bit string as clocked on AD0, first bit first (R150). The last two are the model's way to run the
table's wire rows (log entry 8). -/
inductive Request where
  | word (w : CmdWord)
  | frame (bytes : List Byte)
  | eep (bits : List Bool)
deriving DecidableEq, Repr

end Sys2Proof
end

