-- ==== Sys2Proof/WellFormed.lean ====
section
/-! DEFINITION. Which operations an encoding can name (`30_encoding.md` R121, R127): the operand
ranges that the operand types do not already carry. -/

namespace Sys2Proof

/-- The expander register addresses of `30_encoding.md` R138: direction, pull-up and pin/latch of the
first and second port. `41_expander.md` R216 gives no other address a meaning. -/
def knownExpReg (reg : Byte) : Bool :=
  reg == 0x00 || reg == 0x01 || reg == 0x0C || reg == 0x0D || reg == 0x12 || reg == 0x13

/-- The number of EEPROM rows a framing may address (`30_encoding.md` R127): 64 or 1024. -/
def Framing.rowLimit : Framing → Nat
  | .k4 => 64
  | .k64 => 1024

/-- The operand ranges of `30_encoding.md` R127. Where a range fails, the word is reserved. DESIGN CHOICE, log entry 8:
a 14-bit EEPROM wire request has no range, so one run by itself with row 1024 or more is run, where `20_memory.md` R74
says only that GBXC never sends it. -/
def Instr.wellFormed : Instr → Bool
  | .xfer len => len != 0
  | .stbDir pin dir => !(pin == .det && dir == .output)
  | .stbWr pin _ => pin != .det
  | .lock _ key => key != 0
  | .unlock key => key != 0
  | .gbaRomrd addr len => !addr.getLsbD 0 && !len.getLsbD 0 && len != 0
  | .eepRdrow frm row => decide (row.toNat < frm.rowLimit)
  | .eepWrrow frm row => decide (row.toNat < frm.rowLimit)
  | .flashProg128 addr => decide (addr.toNat % 128 = 0)
  | .wireExpFrame3Wr _ reg _ => knownExpReg reg
  | .wireExpFrame3Rd _ reg => knownExpReg reg
  | .wireExpFrame4Wr _ reg _ _ => knownExpReg reg
  | .init _ | .stbRd _ | .setbuf _
  | .expDir _ _ | .expPull _ _ | .expWr _ _ | .expRd _
  | .expDir2 _ _ | .expPull2 _ _ | .expWr2 _ _ | .expRd2 _
  | .crdStart _ | .crdCont | .crdEnd
  | .gbPwrup | .gbPwrdn | .gbaPwrup | .gbaPwrdn
  | .gbBusrd _ | .gbBuswr _ _ | .gbRombank _ _ | .gbRamopen _ | .gbRambank _ _ | .gbRamclose _
  | .gbLoadhdr | .gbIsloaded | .gbReadrom | .gbReadsave | .gbWritesave | .gbClear
  | .gbaLoadhdr | .gbaIsloaded | .gbaReadrom | .gbaProbesize | .gbaClear
  | .gbaClassify | .saveRd _ | .saveWr _ _
  | .flashId | .flashBank _ | .flashErase _ | .flashProg _ _ | .gbaReadsave | .gbaWritesave
  | .gbxLoadhdr | .gbxIsloaded | .gbxType | .gbxTitle | .gbxIdent | .gbxRomsize | .gbxSavesize
  | .gbxReadrom | .gbxReadsave | .gbxWritesave | .gbxTRom | .gbxTRdsave | .gbxTWrsave | .gbxClear
  | .wireExpFrame4Rd _ | .wireCrdHeader _
  | .wireEepRead4k _ | .wireEepRead64k _ | .wireEepWrite4k _ _ | .wireEepWrite64k _ _ => true

end Sys2Proof
end

