-- ==== Sys2Proof/Decode.lean ====
section
/-! DEFINITION. Decoding and encoding. A command word is read field by field (`30_encoding.md` R120 to
R127); a reserved word is rejected by name. The wire rows are read from their bytes (R134 to R138) or
bits (R150). `encode` is the other direction, from the same tables. -/

namespace Sys2Proof

/-- Why a request names no operation (`30_encoding.md` R127). -/
inductive DecodeError where
  /-- The operation code is not in the opcode map. -/
  | opcode
  /-- A bit that the format demands 0 is set (R121). -/
  | mustBeZero
  /-- A reserved selector code (R123, R124). -/
  | selector
  /-- An operand outside its range. -/
  | operand
  /-- Bytes or bits that are no wire row of the opcode table. -/
  | frame
deriving DecidableEq, Repr

/-- The four fields of a command word (`30_encoding.md` R120). -/
structure Fields where
  opc : BitVec 8
  sel : BitVec 8
  imm : BitVec 16
  arg : BitVec 32
deriving DecidableEq, Repr

/-- The fields of a word (R120). -/
def fieldsOf (w : CmdWord) : Fields where
  opc := w.extractLsb' 56 8
  sel := w.extractLsb' 48 8
  imm := w.extractLsb' 32 16
  arg := w.extractLsb' 0 32

/-- The word with given fields (R120). -/
def wordOf (f : Fields) : CmdWord := f.opc ++ f.sel ++ f.imm ++ f.arg

/-- The value of the low `n` bits of a field; the bits above them must be 0 (R121, R122). -/
def narrow {m : Nat} (n : Nat) (v : BitVec m) : Except DecodeError (BitVec n) :=
  if v.toNat < 2 ^ n then .ok (v.setWidth n) else .error .mustBeZero

/-- A one-bit field (R122). -/
def oneBit {m : Nat} (v : BitVec m) : Except DecodeError Bool :=
  if v = 0 then .ok false else if v = 1 then .ok true else .error .mustBeZero

/-- The code of a strobe pin (R123). -/
def pinCode : Pin → BitVec 8
  | .gbPwr => 0
  | .gbCs => 1
  | .gbRd => 2
  | .gbWr => 3
  | .gbaPwr => 4
  | .gbaCs => 5
  | .gbaCs2 => 6
  | .gbaRd => 7
  | .gbaWr => 8
  | .det => 9

/-- The strobe pin a code names (R123). -/
def pinOf (c : BitVec 8) : Except DecodeError Pin :=
  if c = 0 then .ok .gbPwr
  else if c = 1 then .ok .gbCs
  else if c = 2 then .ok .gbRd
  else if c = 3 then .ok .gbWr
  else if c = 4 then .ok .gbaPwr
  else if c = 5 then .ok .gbaCs
  else if c = 6 then .ok .gbaCs2
  else if c = 7 then .ok .gbaRd
  else if c = 8 then .ok .gbaWr
  else if c = 9 then .ok .det
  else .error .selector

/-- The code of a port (R124). -/
def portCode : Port → BitVec 8
  | .a => 0
  | .b => 1
  | .c => 2
  | .d => 3

/-- The port a code names (R124). -/
def portOf (c : BitVec 8) : Except DecodeError Port :=
  if c = 0 then .ok .a
  else if c = 1 then .ok .b
  else if c = 2 then .ok .c
  else if c = 3 then .ok .d
  else .error .selector

/-- The code of a chip (R124). -/
def chipCode : Chip → BitVec 8
  | .ab => 0
  | .cd => 1

/-- The chip a code names (R124). -/
def chipOf (c : BitVec 8) : Except DecodeError Chip :=
  if c = 0 then .ok .ab else if c = 1 then .ok .cd else .error .selector

/-- The code of a controller (R124). -/
def mbcCode : Mbc → BitVec 8
  | .noMbc => 0
  | .mbc1 => 1
  | .mbc2 => 2
  | .mbc3 => 3
  | .mbc5 => 5

/-- The controller a code names (R124): 4 and 6 to 255 are reserved. -/
def mbcOf (c : BitVec 8) : Except DecodeError Mbc :=
  if c = 0 then .ok .noMbc
  else if c = 1 then .ok .mbc1
  else if c = 2 then .ok .mbc2
  else if c = 3 then .ok .mbc3
  else if c = 5 then .ok .mbc5
  else .error .selector

/-- The code of a framing (R124). -/
def framingCode : Framing → BitVec 8
  | .k4 => 0
  | .k64 => 1

/-- The framing a code names (R122: one bit of `SEL`). -/
def framingOf (c : BitVec 8) : Except DecodeError Framing :=
  if c = 0 then .ok .k4 else if c = 1 then .ok .k64 else .error .mustBeZero

/-- A direction as `IMM[0]` (R126): 1 out, 0 in. -/
def dirCode : PinDir → BitVec 16
  | .input => 0
  | .output => 1

/-- The direction `IMM[0]` names. -/
def dirOf (v : BitVec 16) : Except DecodeError PinDir :=
  if v = 0 then .ok .input else if v = 1 then .ok .output else .error .mustBeZero

/-- A one-bit value in a field. -/
def bitCode {m : Nat} (b : Bool) : BitVec m := if b then 1 else 0

/-- Format `Z` (R121): no field used. -/
def fmtZ (f : Fields) (i : Instr) : Except DecodeError Instr :=
  if f.sel = 0 ∧ f.imm = 0 ∧ f.arg = 0 then .ok i else .error .mustBeZero

/-- Format `S` (R121): `SEL` only. -/
def fmtS (f : Fields) (k : BitVec 8 → Except DecodeError Instr) : Except DecodeError Instr :=
  if f.imm = 0 ∧ f.arg = 0 then k f.sel else .error .mustBeZero

/-- Format `I` (R121): `IMM` only. -/
def fmtI (f : Fields) (k : BitVec 16 → Except DecodeError Instr) : Except DecodeError Instr :=
  if f.sel = 0 ∧ f.arg = 0 then k f.imm else .error .mustBeZero

/-- Format `SI` (R121): `SEL` and `IMM`. -/
def fmtSI (f : Fields) (k : BitVec 8 → BitVec 16 → Except DecodeError Instr) : Except DecodeError Instr :=
  if f.arg = 0 then k f.sel f.imm else .error .mustBeZero

/-- Format `A` (R121): `ARG` only. -/
def fmtA (f : Fields) (k : BitVec 32 → Except DecodeError Instr) : Except DecodeError Instr :=
  if f.sel = 0 ∧ f.imm = 0 then k f.arg else .error .mustBeZero

/-- Format `AI` (R121): `ARG` and `IMM`. -/
def fmtAI (f : Fields) (k : BitVec 32 → BitVec 16 → Except DecodeError Instr) : Except DecodeError Instr :=
  if f.sel = 0 then k f.arg f.imm else .error .mustBeZero

/-- Format `SA` (R121): `SEL` and `ARG`. -/
def fmtSA (f : Fields) (k : BitVec 8 → BitVec 32 → Except DecodeError Instr) : Except DecodeError Instr :=
  if f.imm = 0 then k f.sel f.arg else .error .mustBeZero

/-- The opcode map of R126: the operation its fields name, operand ranges not yet checked. -/
def decodeFields (f : Fields) : Except DecodeError Instr :=
  match f.opc.toNat with
  | 0x01 => fmtA f fun hz => .ok (.init hz)
  | 0x02 => fmtI f fun len => .ok (.xfer len)
  | 0x03 => fmtSI f fun s v => do .ok (.stbDir (← pinOf s) (← dirOf v))
  | 0x04 => fmtSI f fun s v => do .ok (.stbWr (← pinOf s) (← oneBit v))
  | 0x05 => fmtS f fun s => do .ok (.stbRd (← pinOf s))
  | 0x06 => fmtSA f fun s key => do .ok (.lock (← oneBit s) key)
  | 0x07 => fmtA f fun key => .ok (.unlock key)
  | 0x08 => fmtA f fun buf => .ok (.setbuf buf)
  | 0x10 => fmtSI f fun s v => do .ok (.expDir (← portOf s) (← narrow 8 v))
  | 0x11 => fmtSI f fun s v => do .ok (.expPull (← portOf s) (← narrow 8 v))
  | 0x12 => fmtSI f fun s v => do .ok (.expWr (← portOf s) (← narrow 8 v))
  | 0x13 => fmtS f fun s => do .ok (.expRd (← portOf s))
  | 0x14 => fmtSI f fun s v => do .ok (.expDir2 (← chipOf s) v)
  | 0x15 => fmtSI f fun s v => do .ok (.expPull2 (← chipOf s) v)
  | 0x16 => fmtSI f fun s v => do .ok (.expWr2 (← chipOf s) v)
  | 0x17 => fmtS f fun s => do .ok (.expRd2 (← chipOf s))
  | 0x18 => fmtS f fun s => do .ok (.crdStart (← chipOf s))
  | 0x19 => fmtZ f .crdCont
  | 0x1A => fmtZ f .crdEnd
  | 0x20 => fmtZ f .gbPwrup
  | 0x21 => fmtZ f .gbPwrdn
  | 0x22 => fmtZ f .gbaPwrup
  | 0x23 => fmtZ f .gbaPwrdn
  | 0x30 => fmtA f fun a => do .ok (.gbBusrd (← narrow 16 a))
  | 0x31 => fmtAI f fun a v => do .ok (.gbBuswr (← narrow 16 a) (← narrow 8 v))
  | 0x32 => fmtSI f fun s v => do .ok (.gbRombank (← mbcOf s) (← narrow 9 v))
  | 0x33 => fmtS f fun s => do .ok (.gbRamopen (← mbcOf s))
  | 0x34 => fmtSI f fun s v => do .ok (.gbRambank (← mbcOf s) (← narrow 4 v))
  | 0x35 => fmtS f fun s => do .ok (.gbRamclose (← mbcOf s))
  | 0x36 => fmtZ f .gbLoadhdr
  | 0x37 => fmtZ f .gbIsloaded
  | 0x38 => fmtZ f .gbReadrom
  | 0x39 => fmtZ f .gbReadsave
  | 0x3A => fmtZ f .gbWritesave
  | 0x3B => fmtZ f .gbClear
  | 0x40 => fmtAI f fun a v => do .ok (.gbaRomrd (← narrow 25 a) v)
  | 0x41 => fmtZ f .gbaLoadhdr
  | 0x42 => fmtZ f .gbaIsloaded
  | 0x43 => fmtZ f .gbaReadrom
  | 0x44 => fmtZ f .gbaProbesize
  | 0x45 => fmtZ f .gbaClear
  | 0x50 => fmtZ f .gbaClassify
  | 0x51 => fmtSI f fun s v => do .ok (.eepRdrow (← framingOf s) (← narrow 14 v))
  | 0x52 => fmtSI f fun s v => do .ok (.eepWrrow (← framingOf s) (← narrow 14 v))
  | 0x53 => fmtA f fun a => do .ok (.saveRd (← narrow 16 a))
  | 0x54 => fmtAI f fun a v => do .ok (.saveWr (← narrow 16 a) (← narrow 8 v))
  | 0x55 => fmtZ f .flashId
  | 0x56 => fmtI f fun v => do .ok (.flashBank (← oneBit v))
  | 0x57 => fmtA f fun a => do .ok (.flashErase (← narrow 16 a))
  | 0x58 => fmtAI f fun a v => do .ok (.flashProg (← narrow 16 a) (← narrow 8 v))
  | 0x59 => fmtA f fun a => do .ok (.flashProg128 (← narrow 16 a))
  | 0x5A => fmtZ f .gbaReadsave
  | 0x5B => fmtZ f .gbaWritesave
  | 0x60 => fmtZ f .gbxLoadhdr
  | 0x61 => fmtZ f .gbxIsloaded
  | 0x62 => fmtZ f .gbxType
  | 0x63 => fmtZ f .gbxTitle
  | 0x64 => fmtZ f .gbxIdent
  | 0x65 => fmtZ f .gbxRomsize
  | 0x66 => fmtZ f .gbxSavesize
  | 0x67 => fmtZ f .gbxReadrom
  | 0x68 => fmtZ f .gbxReadsave
  | 0x69 => fmtZ f .gbxWritesave
  | 0x6A => fmtZ f .gbxTRom
  | 0x6B => fmtZ f .gbxTRdsave
  | 0x6C => fmtZ f .gbxTWrsave
  | 0x6D => fmtZ f .gbxClear
  | _ => .error .opcode

/-- The operand ranges of R127. -/
def inRange (i : Instr) : Except DecodeError Instr :=
  if i.wellFormed then .ok i else .error .operand

/-- The operation a command word names, or why it is reserved (R127). -/
def decodeWord (w : CmdWord) : Except DecodeError Instr := do
  inRange (← decodeFields (fieldsOf w))

/-- The device opcode byte of a chip (R137): `0100 00c` and the read bit. -/
def devOpcode (c : Chip) (read : Bool) : Byte :=
  match c, read with
  | .ab, false => 0x40
  | .ab, true => 0x41
  | .cd, false => 0x42
  | .cd, true => 0x43

/-- The chip and direction (true for a read) a device opcode byte names (R137, `41_expander.md` R216). -/
def devOf (v : Byte) : Option (Chip × Bool) :=
  if v = 0x40 then some (.ab, false)
  else if v = 0x41 then some (.ab, true)
  else if v = 0x42 then some (.cd, false)
  else if v = 0x43 then some (.cd, true)
  else none

/-- The wire row of the opcode table that a frame's bytes are (R134, R135, R136). -/
def decodeFrame (bytes : List Byte) : Except DecodeError Instr :=
  match bytes with
  | [op, reg] =>
    match devOf op with
    | some (c, true) => if reg = 0x12 then .ok (.wireCrdHeader c) else .error .frame
    | _ => .error .frame
  | [op, reg, d] =>
    match devOf op with
    | some (c, false) => .ok (.wireExpFrame3Wr c reg d)
    | some (c, true) => if d = 0 then .ok (.wireExpFrame3Rd c reg) else .error .frame
    | none => .error .frame
  | [op, reg, d, e] =>
    match devOf op with
    | some (c, false) => .ok (.wireExpFrame4Wr c reg d e)
    | some (c, true) => if reg = 0x12 ∧ d = 0 ∧ e = 0 then .ok (.wireExpFrame4Rd c) else .error .frame
    | none => .error .frame
  | _ => .error .frame

/-- The `n` bits of a number, most significant first. -/
def bitsOf (n : Nat) (v : Nat) : List Bool := (List.range n).map fun i => v.testBit (n - 1 - i)

/-- The number a list of bits writes, most significant first. -/
def numberOf (bits : List Bool) : Nat := bits.foldl (fun acc b => 2 * acc + b.toNat) 0

/-- The wire row of the opcode table that an EEPROM bit string is (R150): the length chooses the framing
and the kind, the two command bits and the stop bit must be the row's. -/
def decodeEep (bits : List Bool) : Except DecodeError Instr :=
  let body := (bits.drop 2).dropLast
  let good := bits.head? = some true ∧ bits.getLast? = some false
  if bits.length = 9 ∧ bits[1]? = some true ∧ good then
    .ok (.wireEepRead4k (BitVec.ofNat 6 (numberOf body)))
  else if bits.length = 17 ∧ bits[1]? = some true ∧ good then
    .ok (.wireEepRead64k (BitVec.ofNat 14 (numberOf body)))
  else if bits.length = 73 ∧ bits[1]? = some false ∧ good then
    .ok (.wireEepWrite4k (BitVec.ofNat 6 (numberOf (body.take 6))) (BitVec.ofNat 64 (numberOf (body.drop 6))))
  else if bits.length = 81 ∧ bits[1]? = some false ∧ good then
    .ok (.wireEepWrite64k (BitVec.ofNat 14 (numberOf (body.take 14))) (BitVec.ofNat 64 (numberOf (body.drop 14))))
  else .error .frame

/-- The operation a request names, or why it names none. -/
def decodeRequest : Request → Except DecodeError Instr
  | .word w => decodeWord w
  | .frame bytes => do inRange (← decodeFrame bytes)
  | .eep bits => decodeEep bits

/-- The fields of a command word with nothing but an operation code. -/
def bare (opc : BitVec 8) : Fields := { opc := opc, sel := 0, imm := 0, arg := 0 }

/-- A read request of R150: `11`, the row, a stop bit. -/
def eepReadBits {n : Nat} (row : BitVec n) : List Bool :=
  [true, true] ++ bitsOf n row.toNat ++ [false]

/-- A write request of R150: `10`, the row, the 64 data bits, a stop bit. -/
def eepWriteBits {n : Nat} (row : BitVec n) (data : BitVec 64) : List Bool :=
  [true, false] ++ bitsOf n row.toNat ++ bitsOf 64 data.toNat ++ [false]

/-- The request that names an operation: its command word, bytes or bits, from the encoding tables of
`30_encoding.md`. -/
def encode : Instr → Request
  | .init hz => .word (wordOf { bare 0x01 with arg := hz })
  | .xfer len => .word (wordOf { bare 0x02 with imm := len })
  | .stbDir pin dir => .word (wordOf { bare 0x03 with sel := pinCode pin, imm := dirCode dir })
  | .stbWr pin level => .word (wordOf { bare 0x04 with sel := pinCode pin, imm := bitCode level })
  | .stbRd pin => .word (wordOf { bare 0x05 with sel := pinCode pin })
  | .lock force key => .word (wordOf { bare 0x06 with sel := bitCode force, arg := key })
  | .unlock key => .word (wordOf { bare 0x07 with arg := key })
  | .setbuf buf => .word (wordOf { bare 0x08 with arg := buf })
  | .expDir port mask => .word (wordOf { bare 0x10 with sel := portCode port, imm := mask.setWidth 16 })
  | .expPull port mask => .word (wordOf { bare 0x11 with sel := portCode port, imm := mask.setWidth 16 })
  | .expWr port val => .word (wordOf { bare 0x12 with sel := portCode port, imm := val.setWidth 16 })
  | .expRd port => .word (wordOf { bare 0x13 with sel := portCode port })
  | .expDir2 chip pair => .word (wordOf { bare 0x14 with sel := chipCode chip, imm := pair })
  | .expPull2 chip pair => .word (wordOf { bare 0x15 with sel := chipCode chip, imm := pair })
  | .expWr2 chip pair => .word (wordOf { bare 0x16 with sel := chipCode chip, imm := pair })
  | .expRd2 chip => .word (wordOf { bare 0x17 with sel := chipCode chip })
  | .crdStart chip => .word (wordOf { bare 0x18 with sel := chipCode chip })
  | .crdCont => .word (wordOf (bare 0x19))
  | .crdEnd => .word (wordOf (bare 0x1A))
  | .gbPwrup => .word (wordOf (bare 0x20))
  | .gbPwrdn => .word (wordOf (bare 0x21))
  | .gbaPwrup => .word (wordOf (bare 0x22))
  | .gbaPwrdn => .word (wordOf (bare 0x23))
  | .gbBusrd addr => .word (wordOf { bare 0x30 with arg := addr.setWidth 32 })
  | .gbBuswr addr data => .word (wordOf { bare 0x31 with imm := data.setWidth 16, arg := addr.setWidth 32 })
  | .gbRombank mbc bank => .word (wordOf { bare 0x32 with sel := mbcCode mbc, imm := bank.setWidth 16 })
  | .gbRamopen mbc => .word (wordOf { bare 0x33 with sel := mbcCode mbc })
  | .gbRambank mbc bank => .word (wordOf { bare 0x34 with sel := mbcCode mbc, imm := bank.setWidth 16 })
  | .gbRamclose mbc => .word (wordOf { bare 0x35 with sel := mbcCode mbc })
  | .gbLoadhdr => .word (wordOf (bare 0x36))
  | .gbIsloaded => .word (wordOf (bare 0x37))
  | .gbReadrom => .word (wordOf (bare 0x38))
  | .gbReadsave => .word (wordOf (bare 0x39))
  | .gbWritesave => .word (wordOf (bare 0x3A))
  | .gbClear => .word (wordOf (bare 0x3B))
  | .gbaRomrd addr len => .word (wordOf { bare 0x40 with imm := len, arg := addr.setWidth 32 })
  | .gbaLoadhdr => .word (wordOf (bare 0x41))
  | .gbaIsloaded => .word (wordOf (bare 0x42))
  | .gbaReadrom => .word (wordOf (bare 0x43))
  | .gbaProbesize => .word (wordOf (bare 0x44))
  | .gbaClear => .word (wordOf (bare 0x45))
  | .gbaClassify => .word (wordOf (bare 0x50))
  | .eepRdrow frm row => .word (wordOf { bare 0x51 with sel := framingCode frm, imm := row.setWidth 16 })
  | .eepWrrow frm row => .word (wordOf { bare 0x52 with sel := framingCode frm, imm := row.setWidth 16 })
  | .saveRd addr => .word (wordOf { bare 0x53 with arg := addr.setWidth 32 })
  | .saveWr addr data => .word (wordOf { bare 0x54 with imm := data.setWidth 16, arg := addr.setWidth 32 })
  | .flashId => .word (wordOf (bare 0x55))
  | .flashBank bank => .word (wordOf { bare 0x56 with imm := bitCode bank })
  | .flashErase addr => .word (wordOf { bare 0x57 with arg := addr.setWidth 32 })
  | .flashProg addr data => .word (wordOf { bare 0x58 with imm := data.setWidth 16, arg := addr.setWidth 32 })
  | .flashProg128 addr => .word (wordOf { bare 0x59 with arg := addr.setWidth 32 })
  | .gbaReadsave => .word (wordOf (bare 0x5A))
  | .gbaWritesave => .word (wordOf (bare 0x5B))
  | .gbxLoadhdr => .word (wordOf (bare 0x60))
  | .gbxIsloaded => .word (wordOf (bare 0x61))
  | .gbxType => .word (wordOf (bare 0x62))
  | .gbxTitle => .word (wordOf (bare 0x63))
  | .gbxIdent => .word (wordOf (bare 0x64))
  | .gbxRomsize => .word (wordOf (bare 0x65))
  | .gbxSavesize => .word (wordOf (bare 0x66))
  | .gbxReadrom => .word (wordOf (bare 0x67))
  | .gbxReadsave => .word (wordOf (bare 0x68))
  | .gbxWritesave => .word (wordOf (bare 0x69))
  | .gbxTRom => .word (wordOf (bare 0x6A))
  | .gbxTRdsave => .word (wordOf (bare 0x6B))
  | .gbxTWrsave => .word (wordOf (bare 0x6C))
  | .gbxClear => .word (wordOf (bare 0x6D))
  | .wireExpFrame3Wr chip reg data => .frame [devOpcode chip false, reg, data]
  | .wireExpFrame3Rd chip reg => .frame [devOpcode chip true, reg, 0x00]
  | .wireExpFrame4Wr chip reg first second => .frame [devOpcode chip false, reg, first, second]
  | .wireExpFrame4Rd chip => .frame [devOpcode chip true, 0x12, 0x00, 0x00]
  | .wireCrdHeader chip => .frame [devOpcode chip true, 0x12]
  | .wireEepRead4k row => .eep (eepReadBits row)
  | .wireEepRead64k row => .eep (eepReadBits row)
  | .wireEepWrite4k row data => .eep (eepWriteBits row data)
  | .wireEepWrite64k row data => .eep (eepWriteBits row data)

/-- The `n` bytes of a number, most significant first (the table numbers a frame's first byte highest). -/
def bytesOf (n : Nat) (v : Nat) : List Byte :=
  (List.range n).map fun i => BitVec.ofNat 8 (v >>> (8 * (n - 1 - i)))

/-- The request whose bits, numbered as `spec/opcode_table.json` numbers them, are `w`. The table's row
lengths tell the rows apart: 64 bits is a command word, and of two rows that round up to the same number
of bytes the EEPROM row is the one with zeros above its 9 or 17 bits. -/
def tableRequest (nbits w : Nat) : Request :=
  if nbits ≤ 16 then
    if w < 2 ^ 9 then .eep (bitsOf 9 w) else .frame (bytesOf 2 w)
  else if nbits ≤ 24 then
    if w < 2 ^ 17 then .eep (bitsOf 17 w) else .frame (bytesOf 3 w)
  else if nbits ≤ 32 then .frame (bytesOf 4 w)
  else if nbits ≤ 64 then .word (BitVec.ofNat 64 w)
  else if nbits ≤ 80 then .eep (bitsOf 73 w)
  else .eep (bitsOf 81 w)

/-- The instruction the decoder reads from an instruction whose bits are `w`. -/
def decodeTableWord (nbits w : Nat) : Option Instr := (decodeRequest (tableRequest nbits w)).toOption

end Sys2Proof
end

