-- ==== Sys2Proof/Machine/Cells.lean ====
section
/-! DEFINITION. Sparse byte arrays: a list of (address, byte) pairs in one canonical form, with a given
byte at every address the list does not hold. The host buffer space and the byte images of the
reference cartridges are both kept this way. -/

namespace Sys2Proof.Machine

/-- The byte at an address; `unl` says what an unlisted address reads as. -/
def cellRead (unl : Nat → Byte) (cs : List Host.Cell) (a : Nat) : Byte := (cs.lookup a).getD (unl a)

/-- The entries of a block of bytes from address `a` up: none for a byte that is what its address reads
as when unlisted. -/
def freshCells (unl : Nat → Byte) : Nat → List Byte → List Host.Cell
  | _, [] => []
  | a, v :: vs => if v = unl a then freshCells unl (a + 1) vs else (a, v) :: freshCells unl (a + 1) vs

/-- Store a block of bytes from address `a` up. -/
def cellWrite (unl : Nat → Byte) (a : Nat) (bytes : List Byte) (cs : List Host.Cell) : List Host.Cell :=
  cs.filter (fun c => c.1 < a) ++ freshCells unl a bytes ++ cs.filter (fun c => a + bytes.length ≤ c.1)

/-- The canonical form: addresses strictly rising, no entry equal to what its address reads as unlisted. -/
abbrev CellsCanonical (unl : Nat → Byte) (cs : List Host.Cell) : Prop :=
  cs.Pairwise (fun x y => x.1 < y.1) ∧ ∀ c ∈ cs, c.2 ≠ unl c.1

end Sys2Proof.Machine
end

