-- ==== Sys2Proof/Machine/Trace.lean ====
section
/-! DEFINITION. What GBXC does to the outside, as data: the bus events of `20_memory.md` R96, the
pin-level refinement R96 allows beneath them, and the questions the outside answers (R97). -/

namespace Sys2Proof.Machine

/-- The named delays (`70_reset_and_hazards.md` R528). -/
inductive DelayName where
  | settle
  | eepWrite
  | flashAtmel
  | flashErase
  | flashProg
  | eepBit
deriving DecidableEq, Repr

/-- The bus events of `20_memory.md` R96, one per cartridge primitive. -/
inductive BusEvent where
  | gbR (addr : Half) (v : Byte)
  | gbW (addr : Half) (d : Byte)
  | romLatch (ha : BitVec 24)
  | romNext (v : Half)
  | romEnd
  | saveR (addr : Half) (v : Byte)
  | saveW (addr : Half) (d : Byte)
  | eepOpen
  | eepOutBit (b : Bool)
  | eepTurn
  | eepInBit (v : Bool)
  | eepClose
  | power (slot : Slot) (on : Bool)
  | delay (t : DelayName)
deriving DecidableEq, Repr

/-- The pin-level refinement of R96: the SPI bytes GBXC sends and the strobe pins it moves. -/
inductive WireEvent where
  /-- One `Spi` call with `SPI_CS0` asserted for exactly this call: the bytes sent. -/
  | frame (tx : List Byte)
  /-- One `Spi` call with no expander chip selected (`40_transport_lock.md` R175). -/
  | bare (tx : List Byte)
  /-- `SPI_CS0` asserted and left asserted, with the continuous-read header sent. -/
  | crdOpen (tx : List Byte)
  /-- Bytes sent inside a continuous read. -/
  | crdBytes (tx : List Byte)
  /-- `SPI_CS0` deasserted at the end of a continuous read. -/
  | crdClose
  | pinLevel (p : Pin) (level : Bool)
  | pinDir (p : Pin) (dir : PinDir)
  /-- A busy-wait (`00_scope.md` R15). -/
  | wait (t : DelayName)
deriving DecidableEq, Repr

/-- The questions an oracle answers (`20_memory.md` R97). -/
inductive Query where
  | gbRead (addr : Half)
  | romNext
  | saveRead (addr : Half)
  | eepIn
  | pinLevel (p : Pin)
  | portPins (p : Port)
  | spiByte (tx : Byte)
  | hostMapOk
deriving DecidableEq, Repr

/-- The three estimators of `46_dispatcher.md` R440 to R442. -/
inductive EstOp where
  | rom
  | rdSave
  | wrSave
deriving DecidableEq, Repr

/-- What an estimator's constants may depend on (`46_dispatcher.md` R440 to R442): the platform for a
ROM, the save type for a save, and for a write whether the flash is an Atmel part. -/
inductive EstKind where
  | gb
  | gba
  | save (t : SaveType) (atmel : Bool)
deriving DecidableEq, Repr

end Sys2Proof.Machine
end

