-- ==== Sys2Proof/Config.lean ====
section
/-! DEFINITION. The implementation parameters of `00_scope.md` R9. A value the spec gives is a `def`;
a parameter the spec leaves `OPEN`, and every value that comes from outside GBXC, is an `opaque`
constant with no body, so that no proof can rest on what it is. -/

namespace Sys2Proof.Config

open Sys2Proof.Machine

/-- EEPROM leniency, percent (R9). -/
def lenEeprom : Nat := 97
/-- SRAM leniency, percent (R9). -/
def lenSram : Nat := 95
/-- Flash leniency, percent (R9). -/
def lenFlash : Nat := 95
/-- Flash-or-SRAM-presence leniency, percent (R9). -/
def lenPresence : Nat := 95

/-- Rows the EEPROM probe reads: `EEP_PROBE_LEN` = 520 bytes of 8-byte rows (R9, `45_gba_save.md` R356). -/
def eepProbeRows : Nat := 65
/-- `PRES_WINDOWS` (R9). -/
def presWindows : Nat := 128
/-- `PRES_WINLEN` (R9). -/
def presWinLen : Nat := 64
/-- `PRES_SPAN` (R9). -/
def presSpan : Nat := 65536
/-- `SAVE_WRAP_SAMPLE` (R9). -/
def saveWrapSample : Nat := 192
/-- `GBA_RELATCH`, in halfwords (R9). -/
def gbaRelatch : Nat := 65536
/-- `EEP_BUS_HA` (R9). -/
def eepBusHa : BitVec 24 := 0xFFFF80
/-- The last byte of the GBA checksum range, `0xBB` (`93_implementation_defined.md` U12). -/
def gbaCsumLast : Nat := 0xBB
/-- `HBUF_SIZE` (R9). -/
def hbufSize : Nat := 4294967296

/-- The strobe wiring generations of `40_transport_lock.md` R178. -/
inductive Wiring where
  | discrete
  | expander
deriving DecidableEq, Repr

/-- `WIRING` (R9): `discrete`. -/
def wiring : Wiring := .discrete

/-- The duration of a named delay in nanoseconds, where the source gives a figure (`70_reset_and_hazards.md`
R528, all approximate lower bounds). No rule reads it: the model has no clock (`00_scope.md` R10). -/
def delayNanos : DelayName → Option Nat
  | .settle => some 10000000
  | .eepWrite => some 7000000
  | .flashAtmel => some 20000000
  | .flashErase => some 100000000
  | .flashProg => some 20000
  | .eepBit => none

/-- `ClockDivider(hz)`: an OPEN total function (R9). -/
opaque clockDivider : Word → Nat

/-- `PWR_ON_LEVEL[slot]`: OPEN (R9). -/
opaque pwrOnLevel : Slot → Bool

/-- `DET_GBA_LEVEL`: OPEN (R9). -/
opaque detGbaLevel : Bool

/-- The bits behind `GBX_KEY`: OPEN (R9). -/
opaque gbxKeyBits : Word

/-- `GBX_KEY`, "the 32-bit lock key the dispatcher uses, nonzero" (R9): any nonzero word. -/
def gbxKey : Word := if gbxKeyBits = 0 then 1 else gbxKeyBits

/-- The numerator of `EST_A[op, kind]`, milliseconds per byte: OPEN (`46_dispatcher.md` R440). -/
opaque estNum : EstOp → EstKind → Nat
/-- One less than the denominator of `EST_A[op, kind]`: OPEN. -/
opaque estDen : EstOp → EstKind → Nat
/-- `EST_B[op, kind]`, milliseconds: OPEN. -/
opaque estBase : EstOp → EstKind → Nat

/-- The unconstrained oracle (`20_memory.md` R97): the answer to a question, seeing the free-value
counter, the event history and the pin-level trace so far. A narrower answer is its low bits. -/
opaque oracle : Nat → List BusEvent → List WireEvent → Query → Half

end Sys2Proof.Config
end

