-- ==== Sys2Proof/Machine/Env.lean ====
section
/-! DEFINITION. The environment of GBXC as plain data: what is in each slot, where the detector
stands and whether the host lets `INIT` map its registers. A slot holds nothing the model knows
(`unconstrained`: every answer is the oracle's, `20_memory.md` R97) or one of the reference
cartridges of R100 to R110, which are simulation oracles and no part of GBXC. -/

namespace Sys2Proof.Machine

/-- What a byte of an image reads as where the image lists no byte of its own: a constant, or one of the
two computable patterns of `95_test_vectors.md` section 0. -/
inductive ImageBase where
  | const (v : Byte)
  | fill
  | sv
deriving DecidableEq, Repr

/-- A byte array of a reference cartridge: `size` bytes, a base pattern and the bytes that differ from
it, addresses strictly rising. -/
structure Image where
  size : Nat
  base : ImageBase
  edits : List Host.Cell
deriving DecidableEq, Repr

/-- The reference GB/GBC cartridge (`20_memory.md` R100). -/
structure GbCart where
  kind : Mbc
  rom : Image
  ram : Image
  ramen : Bool
  romb : BitVec 9
  b2 : BitVec 2
  mode : Bool
  ramb : BitVec 4
deriving DecidableEq, Repr

/-- The command state of the reference flash (`20_memory.md` R107). `idOn` remembers whether ID mode was
on when an unlock began; `page n sector` has taken `n` bytes of the 128. -/
inductive FlashState where
  | read
  | u1 (idOn : Bool)
  | u2 (idOn : Bool)
  | id
  | prog
  | page (n : Nat) (sector : Nat)
  | eraseArmed
  | e1
  | e2
  | bankset
deriving DecidableEq, Repr

/-- The reference flash (`20_memory.md` R107); its size is its image's. -/
structure FlashChip where
  mem : Image
  bank : Bool
  mfr : Byte
  dev : Byte
  st : FlashState
deriving DecidableEq, Repr

/-- The reference EEPROM (`20_memory.md` R108): its rows as one byte image, its address width, the bits
clocked in since it was opened (newest first) and how many bits it has given out. -/
structure EepChip where
  mem : Image
  abits : Nat
  bits : List Bool
  given : Nat
deriving DecidableEq, Repr

/-- The save device of a reference GBA cartridge (`20_memory.md` R110). -/
inductive SaveDev where
  | none
  | sram (mem : Image)
  | flash (chip : FlashChip)
  | eeprom (chip : EepChip)
deriving DecidableEq, Repr

/-- The reference GBA cartridge (`20_memory.md` R105, R110). -/
structure GbaCart where
  rom : Image
  ctr : BitVec 24
  save : SaveDev
deriving DecidableEq, Repr

/-- What answers on the GB/GBC slot; `absent` is R109 with the byte every read returns. -/
inductive GbSlot where
  | unconstrained
  | absent (v : Byte)
  | ref (c : GbCart)
deriving DecidableEq, Repr

/-- What answers on the GBA slot; `absent` is R109 with the level every line reads. -/
inductive GbaSlot where
  | unconstrained
  | absent (level : Bool)
  | ref (c : GbaCart)
deriving DecidableEq, Repr

/-- The environment. `hostMap` and `det` are `none` where the oracle answers (`20_memory.md` R97, R98). -/
structure Env where
  hostMap : Option Bool
  det : Option Bool
  gb : GbSlot
  gba : GbaSlot
deriving DecidableEq, Repr

end Sys2Proof.Machine
end

