-- ==== Sys2Proof/Machine/State.lean ====
section
/-! DEFINITION. The state of GBXC (`10_state.md` R20 to R41) as plain data, the environment and the
model's own bookkeeping beside it, the faults, and the state after reset (R58). -/

namespace Sys2Proof.Machine

/-- The host buffer space `HBUF` (`20_memory.md` R70): the bytes that differ from what an unlisted
address reads as, addresses strictly rising. -/
structure Memory where
  cells : List Host.Cell
deriving DecidableEq, Repr

/-- The CGB-support flag (`10_state.md` R34). -/
inductive Cgb where
  | unsupported
  | compatible
  | only
deriving DecidableEq, Repr

/-- The GB/GBC session (`10_state.md` R34). -/
structure GbSession where
  loaded : Bool
  title : List Byte
  cgb : Cgb
  mbc : Mbc
  romSize : Word
  saveSize : Word
  sha1 : List Byte
deriving DecidableEq, Repr

/-- The GBA session (`10_state.md` R36). -/
structure GbaSession where
  loaded : Bool
  title : List Byte
  code : List Byte
  maker : List Byte
  romSize : Word
  saveType : SaveType
  saveSize : Word
  flashMfr : Byte
  flashDev : Byte
deriving DecidableEq, Repr

/-- What one step of an operation hands to the steps after it: nothing, a value read, or a session. -/
inductive Reply where
  | none
  | bit (v : Bool)
  | byte (v : Byte)
  | half (v : Half)
  | word (v : Word)
  | bytes (v : List Byte)
  | gb (v : GbSession)
  | gba (v : GbaSession)
deriving DecidableEq, Repr

/-- Where the sequencer stands (`10_state.md` R24) between two steps of the model: idle, held at the `LOCK`
step of an operation that waits for the lock (`40_transport_lock.md` R184), or part of the way through an
operation while other agents move. -/
inductive Seq where
  | idle
  | held (op : Instr)
  /-- `done` is what the steps taken so far handed on, oldest first, so that its length is the index of the
  next step; `busy` says that a power session or a cartridge transaction of this operation is open
  (`60_exceptions.md` R469); `selected` that the next step has begun and has `SPI_CS0` asserted. -/
  | running (op : Instr) (done : List Reply) (busy : Bool) (selected : Bool)
deriving DecidableEq, Repr

/-- The registers of one host agent (`10_state.md` R21 to R24, `60_exceptions.md` R480). -/
structure Agent where
  /-- The agent's name, for `BusRace` only; GBXC itself cannot tell agents apart (R480). -/
  id : Nat
  /-- `CMD`: the command that is pending, if any (R21, R58). -/
  cmd : Option Request
  /-- `SEQ` (R24). -/
  seq : Seq
  /-- `RES` (R22). -/
  res : Word
  /-- Whether an operation of this agent has completed, so that `RES` may be read (R58). -/
  resSet : Bool
  /-- `BUFP` (R23). -/
  bufp : Word
  /-- Whether this agent has issued `SETBUF` (R58). -/
  bufSet : Bool
  /-- The value the agent last read from `RES` or `BUFP`: the host's own copy, not GBXC's. -/
  seen : Option Word
deriving DecidableEq, Repr

/-- One strobe pin (`10_state.md` R28). -/
structure PinReg where
  dir : PinDir
  out : Bool
deriving DecidableEq, Repr

/-- The ten strobe pins (`10_state.md` R28). -/
structure Pins where
  gbPwr : PinReg
  gbCs : PinReg
  gbRd : PinReg
  gbWr : PinReg
  gbaPwr : PinReg
  gbaCs : PinReg
  gbaCs2 : PinReg
  gbaRd : PinReg
  gbaWr : PinReg
  det : PinReg
deriving DecidableEq, Repr

/-- The registers of one expander port (`10_state.md` R30): `dir` bit 1 is an input. -/
structure PortReg where
  dir : Byte
  pull : Byte
  out : Byte
deriving DecidableEq, Repr

/-- The four ports (`10_state.md` R30). -/
structure Ports where
  a : PortReg
  b : PortReg
  c : PortReg
  d : PortReg
deriving DecidableEq, Repr

/-- The ghost record `X.mbcw` of `10_state.md` R44: what GBXC last wrote to each MBC register in this
power-on period, `none` where it has written nothing. -/
structure Mbcw where
  romBank : Option (BitVec 9)
  mode : Option Bool
  ramBank : Option (BitVec 4)
  ramEn : Option Bool
deriving DecidableEq, Repr

/-- Everything a cartridge or expander step can touch: pins, ports, the continuous read, the power
flags, the ghost record, the traces, the free-value counter and the environment. -/
structure Bus where
  pins : Pins
  exp : Ports
  crdActive : Bool
  crdChip : Chip
  pwrGb : Bool
  pwrGba : Bool
  /-- The agent whose `GB_PWRUP` has no matching `GB_PWRDN` yet (for `BusRace`, `60_exceptions.md` R469). -/
  ownGb : Option Nat
  /-- The same for the GBA slot. -/
  ownGba : Option Nat
  mbcw : Mbcw
  /-- The event history of `20_memory.md` R96, newest first. -/
  hist : List BusEvent
  /-- Its pin-level refinement, newest first. -/
  wire : List WireEvent
  /-- The free-value counter: advanced by every oracle answer and every completed operation. -/
  tick : Nat
  env : Env
deriving DecidableEq, Repr

/-- What the outside world does next, in the order it does it (`60_exceptions.md` R473, R480). -/
inductive Input where
  /-- The agent at this place among the others takes its turn. -/
  | turn (k : Nat)
  /-- The current agent writes a command to `CMD`. -/
  | issue (r : Request)
  /-- The current agent reads `RES`. -/
  | readRes
  /-- The current agent reads `BUFP`. -/
  | readBufp
  /-- The host writes a byte of its own buffer space. -/
  | poke (addr : Nat) (v : Byte)
  /-- A cartridge is pulled or swapped, or the detector moves (`60_exceptions.md` R473). -/
  | setEnv (e : Env)
  /-- The current agent's operation takes `n` more steps and then stops for a while; with `mid` it has begun
  the step after them (`10_state.md` R24, `20_memory.md` R92). -/
  | pause (n : Nat) (mid : Bool)
  /-- The radio peripheral's own SPI transfer, one that is no operation of GBXC (`60_exceptions.md` R469, R481). -/
  | radio
deriving DecidableEq, Repr

/-- Who takes part in a `BusRace` (`60_exceptions.md` R469): a host agent, GBXC where it holds `SPI_CS0`
asserted, or the radio peripheral. -/
inductive Party where
  | agent (id : Nat)
  | gbxc
  | radio
deriving DecidableEq, Repr

/-- Why a step stops. Every one is a model fault of `60_exceptions.md` R467: "the source gives this
situation no meaning", so the run has no final state. Each is safe: the model stops where hardware
would do something the spec does not say. -/
inductive Fault where
  /-- A hardware operation with `spi_ready = 0` (`40_transport_lock.md` R171). Raised by `needInit`. Safe. -/
  | notInitialised (op : Instr)
  /-- An expander or cartridge operation while `cs_force_idle = 1` (`40_transport_lock.md` R188). Raised by
  `busReady`. Safe. -/
  | chipSelectForcedIdle (op : Instr)
  /-- `XFER`, an expander operation or `CRD_START` while a continuous read is open (`41_expander.md` R215).
  Raised by `busReady` and `xferReady`. Safe. -/
  | continuousReadActive (op : Instr)
  /-- `CRD_CONT` or `CRD_END` with no continuous read open (`41_expander.md` R213, R214). Safe. -/
  | continuousReadInactive (op : Instr)
  /-- Bytes sent to the expander chips that are no frame of `41_expander.md` R216. Raised by `XFER`. Safe. -/
  | unknownExpanderFrame (bytes : List Byte)
  /-- A `PWRUP` while the other slot's flag is 1 (`42_power.md` R240). Safe. -/
  | bothSlotsPowered
  /-- An agent reads `RES` before its first operation completed: the model fault `ResultUnset` of the table of faults
  (`60_exceptions.md` R470), so stated in `10_state.md` R58, `92_eei_decisions.md` D42 and `93_implementation_defined.md`
  U2 as well. Raised by the host's read, by no operation. Safe. -/
  | resultUnset
  /-- A bulk operation by an agent that never issued `SETBUF` (`60_exceptions.md` R468). Safe. -/
  | bufferUnset
  /-- A buffer that runs past `HBUF_SIZE` (`60_exceptions.md` R468). Safe. -/
  | bufferRange (addr : Nat) (n : Nat)
  /-- A bus step falls inside another agent's transaction or power session, or a radio transfer falls where
  `SPI_CS0` is asserted (`60_exceptions.md` R469): first the owner of what is broken into, then the intruder
  (`95_test_vectors.md` P5 (b)). Raised by `raceFree` and `radioTransfer`. Safe. -/
  | busRace (agent1 : Party) (agent2 : Party)
deriving DecidableEq, Repr

/-- What the model has no meaning for. -/
inductive Refusal where
  /-- An operation whose arm of `exec` has no meaning yet. Raised by `exec` only. Safe. -/
  | notModelled (mnemonic : String)
  /-- Bytes or bits handed to the model's wire access path that are no wire row of the opcode table (log
  entry 8). Raised by `step` only; hosts reach the wire through `XFER`, which runs every frame. Safe. -/
  | notATableFrame (r : Request)
deriving DecidableEq, Repr

/-- The state of the machine: `10_state.md` R20, the environment, and the inputs still to come. -/
structure State where
  /-- The agent whose turn it is. -/
  me : Agent
  /-- The other agents. -/
  others : List Agent
  /-- What the outside world does next. -/
  inputs : List Input
  hbuf : Memory
  spiReady : Bool
  spiDiv : Nat
  /-- Bytes queued in the SPI controller's FIFOs (`10_state.md` R25). -/
  fifo : List Byte
  lock : Word
  csForceIdle : Bool
  bus : Bus
  gb : GbSession
  gba : GbaSession
  /-- What the last wire frame run by itself received; the model's own (log entry 8). -/
  rx : List Byte
deriving DecidableEq, Repr

/-- The empty GB/GBC session (`10_state.md` R35). -/
def GbSession.empty : GbSession where
  loaded := false
  title := []
  cgb := .unsupported
  mbc := .noMbc
  romSize := 0
  saveSize := 0
  sha1 := []

/-- The empty GBA session (`10_state.md` R38). -/
def GbaSession.empty : GbaSession where
  loaded := false
  title := List.replicate 12 0
  code := List.replicate 4 0
  maker := List.replicate 2 0
  romSize := 0
  saveType := .unknown
  saveSize := 0
  flashMfr := 0
  flashDev := 0

/-- An agent that has issued nothing (`10_state.md` R58; the register values are log entry 1). -/
def Agent.reset (id : Nat) : Agent where
  id := id
  cmd := none
  seq := .idle
  res := 0
  resSet := false
  bufp := 0
  bufSet := false
  seen := none

/-- A strobe pin at reset: `unspecified` in R58, the value is log entry 2. -/
def PinReg.reset : PinReg where
  dir := .input
  out := false

/-- An expander port at reset: `unspecified` in R58, the value is log entry 3. -/
def PortReg.reset : PortReg where
  dir := 0xFF
  pull := 0x00
  out := 0x00

/-- `X.mbcw` with nothing written (`10_state.md` R44). -/
def Mbcw.nothing : Mbcw where
  romBank := none
  mode := none
  ramBank := none
  ramEn := none

/-- An environment the model knows nothing about (`20_memory.md` R97). -/
def Env.unconstrained : Env where
  hostMap := none
  det := none
  gb := .unconstrained
  gba := .unconstrained

/-- The bus side of the reset state (`10_state.md` R58). -/
def Bus.reset : Bus where
  pins :=
    { gbPwr := .reset, gbCs := .reset, gbRd := .reset, gbWr := .reset, gbaPwr := .reset, gbaCs := .reset,
      gbaCs2 := .reset, gbaRd := .reset, gbaWr := .reset, det := .reset }
  exp := { a := .reset, b := .reset, c := .reset, d := .reset }
  crdActive := false
  crdChip := .ab
  pwrGb := false
  pwrGba := false
  ownGb := none
  ownGba := none
  mbcw := .nothing
  hist := []
  wire := []
  tick := 0
  env := .unconstrained

/-- The machine right after reset (`10_state.md` R58, `70_reset_and_hazards.md` R500, R501), with the
three agents the source names (`60_exceptions.md` R480). -/
def State.reset : State where
  me := .reset 0
  others := [.reset 1, .reset 2]
  inputs := []
  hbuf := { cells := [] }
  spiReady := false
  spiDiv := 0
  fifo := []
  lock := 0
  csForceIdle := false
  bus := .reset
  gb := .empty
  gba := .empty
  rx := []

end Sys2Proof.Machine
end

