-- ==== Sys2Proof/Machine/Operands.lean ====
section
/-! DEFINITION. Operand assembly (`30_encoding.md` R122): how a value is cut into the bytes and bits that
go out on ports and wires, and put together from those that come in. -/

namespace Sys2Proof.Machine

/-- Bits 7 to 0: the byte for a chip's first port (R122). -/
def loByte (v : Half) : Byte := v.extractLsb' 0 8

/-- Bits 15 to 8: the byte for a chip's second port (R122). -/
def hiByte (v : Half) : Byte := v.extractLsb' 8 8

/-- A pair of port bytes as one value, first port low (`41_expander.md` R210, `20_memory.md` R79). -/
def pairOf (first second : Byte) : Half := second ++ first

/-- The three bytes of a halfword address, lowest first (`44_gba_rom.md` R311). -/
def haByte0 (ha : BitVec 24) : Byte := ha.extractLsb' 0 8

/-- Bits 15 to 8 of a halfword address. -/
def haByte1 (ha : BitVec 24) : Byte := ha.extractLsb' 8 8

/-- Bits 23 to 16 of a halfword address. -/
def haByte2 (ha : BitVec 24) : Byte := ha.extractLsb' 16 8

/-- A level as the byte that drives AD0 and holds AD1 to AD7 at 0 (`45_gba_save.md` R371). -/
def ad0Byte (b : Bool) : Byte := if b then 1 else 0

/-- A level or boolean as a result (`10_state.md` R22). -/
def boolWord (b : Bool) : Word := if b then 1 else 0

/-- A byte count as a result (`10_state.md` R22). -/
def countWord (n : Nat) : Word := BitVec.ofNat 32 n

/-- The bits of a byte, bit 7 first (`20_memory.md` R80). -/
def byteBits (v : Byte) : List Bool := (List.range 8).map fun i => v.getLsbD (7 - i)

/-- The byte whose bit 7 is the first of eight bits (`45_gba_save.md` R376). -/
def byteOfBits (bits : List Bool) : Byte := bits.foldl (fun acc b => (acc <<< 1) ||| (if b then 1 else 0)) 0

/-- The `n` bytes that `8 n` bits spell, first bit first. -/
def bytesOfBits : Nat → List Bool → List Byte
  | 0, _ => []
  | n + 1, bits => byteOfBits (bits.take 8) :: bytesOfBits n (bits.drop 8)

/-- The low `w` bits of a row number, most significant first (`45_gba_save.md` R376). -/
def rowBits (w : Nat) (row : Nat) : List Bool := (List.range w).map fun i => row.testBit (w - 1 - i)

/-- The address width of a framing (`30_encoding.md` R150). -/
def framingWidth : Framing → Nat
  | .k4 => 6
  | .k64 => 14

/-- The bytes of a 64-bit row value, byte 0 holding the bits that go first on the wire (R150). -/
def rowBytesOf (d : BitVec 64) : List Byte := (List.range 8).map fun j => d.extractLsb' (56 - 8 * j) 8

/-- Bytes `lo` to `lo + n - 1` of an array (`00_scope.md` R12). -/
def slice (lo n : Nat) (bytes : List Byte) : List Byte := (bytes.drop lo).take n

end Sys2Proof.Machine
end

