-- ==== Sys2Proof/Machine/Cartridge.lean ====
section
/-! DEFINITION. The reference cartridges of `20_memory.md` R100 to R110 as deterministic oracles: what
each answers, and how each bus event changes it. None of this is GBXC. -/

namespace Sys2Proof.Machine

/-- The pattern `fill(k)` of `95_test_vectors.md` section 0. -/
def fillByte (k : Nat) : Byte := BitVec.ofNat 8 (k ^^^ (k >>> 8) ^^^ (k >>> 16))

/-- What an unlisted byte of an image reads as. -/
def imageBaseByte (base : ImageBase) (k : Nat) : Byte :=
  match base with
  | .const v => v
  | .fill => fillByte k
  | .sv => fillByte k * 13 + 7

/-- Byte `k` of an image. -/
def imageGet (m : Image) (k : Nat) : Byte := cellRead (imageBaseByte m.base) m.edits k

/-- An image with byte `k` stored. -/
def imageSet (m : Image) (k : Nat) (v : Byte) : Image :=
  { m with edits := cellWrite (imageBaseByte m.base) k [v] m.edits }

/-- An image with `n` bytes from `k` up all set to `0xFF`. -/
def imageErase (m : Image) (k n : Nat) : Image :=
  { m with edits := cellWrite (imageBaseByte m.base) k (List.replicate n 0xFF) m.edits }

/-- The bank in the switched window (R100 to R104). -/
def gbCartBank (c : GbCart) : Nat :=
  match c.kind with
  | .noMbc => 1
  | .mbc1 => c.b2.toNat * 32 + c.romb.toNat % 32
  | .mbc2 | .mbc3 | .mbc5 => c.romb.toNat

/-- The RAM bank `rb` (R101, R103, R104). -/
def gbCartRamBank (c : GbCart) : Nat :=
  match c.kind with
  | .mbc1 => if c.mode then c.b2.toNat else 0
  | .mbc3 => c.ramb.toNat % 4
  | .mbc5 => c.ramb.toNat
  | .mbc2 | .noMbc => 0

/-- Whether the cartridge RAM answers (R100, R104: always on a `None` cartridge that has RAM). -/
def gbCartRamOn (c : GbCart) : Bool :=
  (c.ramen || c.kind == .noMbc) && decide (0 < c.ram.size)

/-- The RAM cell an address in `0xA000..0xBFFF` reaches (R100; 512 mirrored cells on an MBC2, R102). -/
def gbCartRamIndex (c : GbCart) (a : Nat) : Nat :=
  match c.kind with
  | .mbc2 => (a - 0xA000) % 512
  | _ => (gbCartRamBank c * 0x2000 + (a - 0xA000)) % c.ram.size

/-- What the reference GB cartridge answers to a read (R100). -/
def gbCartRead (c : GbCart) (addr : Half) : Byte :=
  let a := addr.toNat
  let banks := c.rom.size / 0x4000
  if a < 0x4000 then
    if c.kind = .mbc1 ∧ c.mode = true then imageGet c.rom ((c.b2.toNat * 32) % banks * 0x4000 + a)
    else imageGet c.rom a
  else if a < 0x8000 then imageGet c.rom (gbCartBank c % banks * 0x4000 + (a - 0x4000))
  else if 0xA000 ≤ a ∧ a < 0xC000 then
    if gbCartRamOn c then
      if c.kind = .mbc2 then 0xF0 ||| (imageGet c.ram (gbCartRamIndex c a) &&& 0x0F)
      else imageGet c.ram (gbCartRamIndex c a)
    else 0xFF
  else 0xFF

/-- A register write to the reference GB cartridge, by kind (R101 to R104). -/
def gbCartRegWrite (c : GbCart) (a : Nat) (d : Byte) : GbCart :=
  match c.kind with
  | .noMbc => c
  | .mbc1 =>
    if a < 0x2000 then { c with ramen := d.extractLsb' 0 4 == 0xA }
    else if a < 0x4000 then
      { c with romb := if d.extractLsb' 0 5 = 0 then 1 else (d.extractLsb' 0 5).setWidth 9 }
    else if a < 0x6000 then { c with b2 := d.extractLsb' 0 2 }
    else { c with mode := d.getLsbD 0 }
  | .mbc2 =>
    if a < 0x4000 then
      if a / 256 % 2 = 0 then { c with ramen := d.extractLsb' 0 4 == 0xA }
      else { c with romb := if d.extractLsb' 0 4 = 0 then 1 else (d.extractLsb' 0 4).setWidth 9 }
    else c
  | .mbc3 =>
    if a < 0x2000 then { c with ramen := d.extractLsb' 0 4 == 0xA }
    else if a < 0x4000 then
      { c with romb := if d.extractLsb' 0 7 = 0 then 1 else (d.extractLsb' 0 7).setWidth 9 }
    else if a < 0x6000 then { c with ramb := d.extractLsb' 0 4 }
    else c
  | .mbc5 =>
    if a < 0x2000 then { c with ramen := d == 0x0A }
    else if a < 0x3000 then { c with romb := c.romb.extractLsb' 8 1 ++ d }
    else if a < 0x4000 then { c with romb := d.extractLsb' 0 1 ++ c.romb.extractLsb' 0 8 }
    else if a < 0x6000 then { c with ramb := d.extractLsb' 0 4 }
    else c

/-- A write to the reference GB cartridge (R100 to R104; an MBC2 cell keeps four bits, R102). -/
def gbCartWrite (c : GbCart) (addr : Half) (d : Byte) : GbCart :=
  let a := addr.toNat
  if a < 0x8000 then gbCartRegWrite c a d
  else if 0xA000 ≤ a ∧ a < 0xC000 ∧ gbCartRamOn c = true then
    { c with ram := imageSet c.ram (gbCartRamIndex c a) (if c.kind = .mbc2 then d &&& 0x0F else d) }
  else c

/-- The reference GB cartridge at power-on (R100). -/
def gbCartPowerOn (c : GbCart) : GbCart :=
  { c with ramen := false, romb := 1, b2 := 0, mode := false, ramb := 0 }

/-- The halfword at the reference ROM's counter (R105). -/
def gbaCartNext (c : GbaCart) : Half :=
  imageGet c.rom ((2 * c.ctr.toNat + 1) % c.rom.size) ++ imageGet c.rom (2 * c.ctr.toNat % c.rom.size)

/-- The flash byte an address reaches in the selected bank (R107). -/
def flashIndex (f : FlashChip) (a : Nat) : Nat := (if f.bank then 0x10000 else 0) + a

/-- What the reference flash answers to a read (R107). -/
def flashRead (f : FlashChip) (addr : Half) : Byte :=
  if f.st = .id ∧ addr = 0 then f.mfr
  else if f.st = .id ∧ addr = 1 then f.dev
  else imageGet f.mem (flashIndex f addr.toNat)

/-- The state an unlock that did not complete falls back to (R107: "else back"). -/
def flashBack (idOn : Bool) : FlashState := if idOn then .id else .read

/-- A command byte in state `u2` (R107). DESIGN CHOICE, log entry 18: at an address other than 0x5555, and for a
byte that is no command, the flash falls back to `read`, or to `id` if the unlock began there. -/
def flashCommand (f : FlashChip) (idOn : Bool) (a : Nat) (d : Byte) : FlashChip :=
  if a ≠ 0x5555 then { f with st := flashBack idOn }
  else if d = 0x90 then { f with st := .id }
  else if d = 0xF0 then { f with st := .read }
  else if d = 0xA0 then { f with st := if f.mfr = 0x1F then .page 0 0 else .prog }
  else if d = 0x80 then { f with st := .eraseArmed }
  else if d = 0xB0 ∧ f.mem.size = 131072 then { f with st := .bankset }
  else { f with st := flashBack idOn }

/-- A write to the reference flash (R107). DESIGN CHOICE, log entry 18: a write that does not match in `eraseArmed`,
`e1`, `e2` or `bankset` goes back to `read` and changes nothing else. -/
def flashWrite (f : FlashChip) (addr : Half) (d : Byte) : FlashChip :=
  let a := addr.toNat
  match f.st with
  | .read => if a = 0x5555 ∧ d = 0xAA then { f with st := .u1 false } else f
  | .id => if a = 0x5555 ∧ d = 0xAA then { f with st := .u1 true } else f
  | .u1 idOn => { f with st := if a = 0x2AAA ∧ d = 0x55 then .u2 idOn else flashBack idOn }
  | .u2 idOn => flashCommand f idOn a d
  | .prog =>
    { f with mem := imageSet f.mem (flashIndex f a) (imageGet f.mem (flashIndex f a) &&& d), st := .read }
  | .page 0 _ =>
    let base := flashIndex f (a / 128 * 128)
    { f with mem := imageSet (imageErase f.mem base 128) (flashIndex f a) d, st := .page 1 (a / 128) }
  | .page (n + 1) sector =>
    { f with mem := imageSet f.mem (flashIndex f a) d, st := if n + 2 = 128 then .read else .page (n + 2) sector }
  | .eraseArmed => { f with st := if a = 0x5555 ∧ d = 0xAA then .e1 else .read }
  | .e1 => { f with st := if a = 0x2AAA ∧ d = 0x55 then .e2 else .read }
  | .e2 =>
    if d = 0x30 then { f with mem := imageErase f.mem (flashIndex f (a / 4096 * 4096)) 4096, st := .read }
    else { f with st := .read }
  | .bankset => if a = 0 then { f with bank := d.getLsbD 0, st := .read } else { f with st := .read }

/-- The row number a request in the EEPROM's first `abits` address bits names (R108). -/
def eepRowOf (e : EepChip) (request : List Bool) : Nat :=
  ((request.drop 2).take e.abits).foldl (fun acc b => 2 * acc + b.toNat) 0 % (e.mem.size / 8)

/-- The reply bits of a complete read request: four zeros, then the row (R108). -/
def eepReply (e : EepChip) : List Bool :=
  let request := e.bits.reverse
  if request.take 2 = [true, true] ∧ 2 + e.abits + 1 ≤ request.length then
    List.replicate 4 false ++
      ((List.range 8).map fun j => byteBits (imageGet e.mem (8 * eepRowOf e request + j))).flatten
  else []

/-- The bit the reference EEPROM gives next (R108, R110). DESIGN CHOICE, log entry 18: the released line reads 1 past the
reply, and wherever no complete read request was collected. -/
def eepBit (e : EepChip) : Bool := ((eepReply e)[e.given]?).getD true

/-- A bit clocked into the reference EEPROM; the last bit of a write request stores its row (R108). -/
def eepTake (e : EepChip) (b : Bool) : EepChip :=
  let request := (b :: e.bits).reverse
  let stored : Image :=
    if request.take 2 = [true, false] ∧ request.length = 2 + e.abits + 64 + 1 then
      { e.mem with
        edits := cellWrite (imageBaseByte e.mem.base) (8 * eepRowOf e request)
          (bytesOfBits 8 (request.drop (2 + e.abits))) e.mem.edits }
    else e.mem
  { e with bits := b :: e.bits, mem := stored }

/-- What the save bus of the reference GBA cartridge answers (R106, R107, R110). -/
def saveDevRead (d : SaveDev) (addr : Half) : Byte :=
  match d with
  | .sram m => imageGet m (addr.toNat % m.size)
  | .flash f => flashRead f addr
  | .none | .eeprom _ => 0xFF

/-- A save-bus write to the reference GBA cartridge (R106, R107, R110). -/
def saveDevWrite (d : SaveDev) (addr : Half) (v : Byte) : SaveDev :=
  match d with
  | .sram m => .sram (imageSet m (addr.toNat % m.size) v)
  | .flash f => .flash (flashWrite f addr v)
  | .none => .none
  | .eeprom e => .eeprom e

/-- An EEPROM event at the reference GBA cartridge (R108, R110). -/
def saveDevEep (k : EepChip → EepChip) (d : SaveDev) : SaveDev :=
  match d with
  | .eeprom e => .eeprom (k e)
  | .none => .none
  | .sram m => .sram m
  | .flash f => .flash f

/-- The bit the reference GBA cartridge gives on AD0 (R108, R110). -/
def saveDevEepBit (d : SaveDev) : Bool :=
  match d with
  | .eeprom e => eepBit e
  | .none | .sram _ | .flash _ => true

/-- The volatile state of a save device at power-on: the flash as R107 says. DESIGN CHOICE, log entry 18: R108 gives
the EEPROM no power-on state; it holds no bits collected and has given none out. -/
def saveDevPowerOn (d : SaveDev) : SaveDev :=
  match d with
  | .flash f => .flash { f with st := .read, bank := false }
  | .eeprom e => .eeprom { e with bits := [], given := 0 }
  | .none => .none
  | .sram m => .sram m

/-- What a reference GB cartridge becomes at an event, given whether its slot is powered (R100, R109). -/
def gbSlotAfter (powered : Bool) (e : BusEvent) (slot : GbSlot) : GbSlot :=
  match slot with
  | .unconstrained => .unconstrained
  | .absent v => .absent v
  | .ref c =>
    match e with
    | .gbW a d => .ref (if powered then gbCartWrite c a d else c)
    | .power .gb true => .ref (gbCartPowerOn c)
    | _ => .ref c

/-- What a reference GBA cartridge becomes at an event (R105 to R108, R110). -/
def gbaCartAfter (e : BusEvent) (c : GbaCart) : GbaCart :=
  match e with
  | .romLatch ha => { c with ctr := ha }
  | .romNext _ => { c with ctr := c.ctr + 1 }
  | .saveW a d => { c with save := saveDevWrite c.save a d }
  | .eepOpen => { c with save := saveDevEep (fun x => { x with bits := [], given := 0 }) c.save }
  | .eepOutBit b => { c with save := saveDevEep (fun x => eepTake x b) c.save }
  | .eepInBit _ => { c with save := saveDevEep (fun x => { x with given := x.given + 1 }) c.save }
  | _ => c

/-- What a GBA slot becomes at an event, given whether it is powered (R105 to R110). DESIGN CHOICE, log entry 18: the
ROM counter is 0 after `Power(GBA, on)`, which R105, R110 and `42_power.md` R242 leave open. -/
def gbaSlotAfter (powered : Bool) (e : BusEvent) (slot : GbaSlot) : GbaSlot :=
  match slot with
  | .unconstrained => .unconstrained
  | .absent l => .absent l
  | .ref c =>
    if e = .power .gba true then .ref { c with ctr := 0, save := saveDevPowerOn c.save }
    else if powered then .ref (gbaCartAfter e c)
    else .ref c

/-- The environment after a bus event. -/
def envAfter (e : BusEvent) (b : Bus) : Env :=
  { b.env with gb := gbSlotAfter b.pwrGb e b.env.gb, gba := gbaSlotAfter b.pwrGba e b.env.gba }

/-- A level on every line, as the bits of an answer. -/
def levelHalf (l : Bool) : Half := if l then 0xFFFF else 0

/-- Whether a raw pin state addresses the GB cartridge for a read: `GB_RD` driven low. DESIGN CHOICE, log entry 18:
that `GB_CS` does not count; `95_test_vectors.md` P4 builds a write only. -/
def rawGbReading (b : Bus) : Bool := b.pins.gbRd.dir == .output && !b.pins.gbRd.out

/-- The address on ports A and B. -/
def rawGbAddr (b : Bus) : Half := pairOf b.exp.a.out b.exp.b.out

/-- The answer of a GB slot that is not left to the oracle. -/
def gbSlotAnswer (b : Bus) (addr : Half) : Option Half :=
  match b.env.gb with
  | .unconstrained => none
  | .absent v => some (v.setWidth 16)
  | .ref c => if b.pwrGb then some ((gbCartRead c addr).setWidth 16) else none

/-- The answer of a GBA slot that is not left to the oracle: `lines` what an absent cartridge's level
gives, `k` what a powered reference cartridge gives. -/
def gbaSlotAnswer (b : Bus) (k : GbaCart → Half) : Option Half :=
  match b.env.gba with
  | .unconstrained => none
  | .absent l => some (levelHalf l)
  | .ref c => if b.pwrGba then some (k c) else none

/-- The answer of the environment, where it is not the oracle's. -/
def envAnswer (q : Query) (b : Bus) : Option Half :=
  match q with
  | .gbRead a => gbSlotAnswer b a
  | .romNext => gbaSlotAnswer b gbaCartNext
  | .saveRead a => gbaSlotAnswer b fun c => (saveDevRead c.save a).setWidth 16
  | .eepIn => gbaSlotAnswer b fun c => levelHalf (saveDevEepBit c.save)
  | .pinLevel p => if p = .det then b.env.det.map levelHalf else none
  | .portPins p => if p = .c ∧ rawGbReading b = true then gbSlotAnswer b (rawGbAddr b) else none
  | .spiByte _ => none
  | .hostMapOk => b.env.hostMap.map levelHalf

/-- A raw write pulse: the GB cartridge takes the byte on port C as `GB_WR` rises (P4). DESIGN CHOICE, log entry 18:
that port C must be an output on all eight lines, and that `GB_CS` and the directions of ports A and B do not count;
P4 and `20_memory.md` R100 show one case only. -/
def rawGbWritePulse (b : Bus) : Env :=
  match b.env.gb with
  | .ref c =>
    if b.pwrGb ∧ b.exp.c.dir = 0 then
      { b.env with gb := .ref (gbCartWrite c (rawGbAddr b) b.exp.c.out) }
    else b.env
  | .unconstrained | .absent _ => b.env

end Sys2Proof.Machine
end

