-- ==== Sys2Proof/Machine/Flags.lean ====
section
/-! DEFINITION. Result codes (`60_exceptions.md` R461), the derived level of `SPI_CS0`
(`10_state.md` R29), the leniency comparisons (`45_gba_save.md` R362) and the codes results are
written with (`10_state.md` R35, R41). -/

namespace Sys2Proof.Machine

/-- `NO_CARTRIDGE` = -1 (`60_exceptions.md` R461). -/
def noCartridge : Word := 0xFFFFFFFF
/-- `CARTRIDGE_CHANGED` = -2. -/
def cartridgeChanged : Word := 0xFFFFFFFE
/-- `CARTRIDGE_NOT_LOADED` = -3. -/
def cartridgeNotLoaded : Word := 0xFFFFFFFD
/-- `ERR_HWINIT` = -4. -/
def errHwinit : Word := 0xFFFFFFFC
/-- `ERR_ILLEGAL` = -5. -/
def errIllegal : Word := 0xFFFFFFFB

/-- The platforms of `30_encoding.md` R125. -/
inductive Platform where
  | none
  | gb
  | gba
deriving DecidableEq, Repr

/-- The platform code (R125). -/
def platformCode : Platform → Word
  | .none => 0
  | .gb => 1
  | .gba => 2

/-- The code of a save classification (`10_state.md` R41). -/
def saveTypeCode : SaveType → Word
  | .unknown => 0
  | .eeprom4k => 1
  | .eeprom64k => 2
  | .sram256k => 3
  | .sram512k => 4
  | .flash512k => 5
  | .flash1m => 6

/-- The derived byte size of a save classification (`10_state.md` R41). -/
def saveTypeSize : SaveType → Word
  | .unknown => 0
  | .eeprom4k => 512
  | .eeprom64k => 8192
  | .sram256k => 32768
  | .sram512k => 65536
  | .flash512k => 65536
  | .flash1m => 131072

/-- The numeric code of a CGB flag (`10_state.md` R34). -/
def cgbCode : Cgb → BitVec 2
  | .unsupported => 0
  | .compatible => 1
  | .only => 2

/-- Whether `SPI_CS0` is asserted between two steps: only inside a continuous read, and never while the
lock holder forces it idle (`10_state.md` R27, R29, R31). -/
def spiCs0Asserted (s : State) : Bool := s.bus.crdActive && !s.csForceIdle

/-- Whether the lock can be taken with a key: free, or held by that key (`40_transport_lock.md` R183). -/
def lockFree (key : Word) (s : State) : Bool := s.lock == 0 || s.lock == key

/-- The number of 1 bits of a byte (`00_scope.md` R11). -/
def popByte (v : Byte) : Nat := (List.range 8).countP fun i => v.getLsbD i

/-- The number of 1 bits of a byte array (`00_scope.md` R11). -/
def popcount (bytes : List Byte) : Nat := (bytes.map popByte).sum

/-- The number of bits in which two byte arrays of one length differ. -/
def bitDiff (x y : List Byte) : Nat := popcount (List.zipWith (· ^^^ ·) x y)

/-- Whether a proportion of 1 bits lies outside a leniency band (`45_gba_save.md` R356, R358, R362):
more than `len` percent or fewer than its complement. -/
def outsideBand (len ones tot : Nat) : Bool :=
  decide (ones * 100 > len * tot) || decide (ones * 100 < (100 - len) * tot)

/-- Whether enough bits agree (`45_gba_save.md` R360, R365, R362). -/
def agrees (len same tot : Nat) : Bool := decide (same * 100 ≥ len * tot)

end Sys2Proof.Machine
end

