-- ==== Sys2Proof/Machine/Ops.lean ====
section
/-! DEFINITION. The named operations every meaning is built from: host buffer, traces, oracle answers,
strobe pins, SPI frames, the checks made before an operation runs (`60_exceptions.md` R471), the
bus lock, and how an operation ends. GBXC takes no exception and returns from none (R472, R475): what
stands in their place is `refuse` (a reserved word), the result codes and the model faults. -/

namespace Sys2Proof.Machine

/-! ## Host buffer space (`00_scope.md` R13) -/

/-- What an unlisted byte of the host buffer space reads as (log entry 4). -/
def unlistedByte (_ : Nat) : Byte := 0x00

/-- `HBUF[a]`. -/
def Memory.read (m : Memory) (a : Nat) : Byte := cellRead unlistedByte m.cells a

/-- `MemRead(a, n)`. -/
def Memory.readBlock (m : Memory) (a n : Nat) : List Byte := (List.range n).map fun i => m.read (a + i)

/-- `MemWrite(a, n, v)` of the `n` bytes `v`. -/
def Memory.writeBlock (m : Memory) (a : Nat) (bytes : List Byte) : Memory :=
  { cells := cellWrite unlistedByte a bytes m.cells }

/-- The canonical form of the host buffer space: addresses strictly rising and inside the space, no entry
equal to what its address reads as unlisted. -/
abbrev Memory.wf (m : Memory) : Prop :=
  CellsCanonical unlistedByte m.cells ∧ ∀ c ∈ m.cells, c.1 < Config.hbufSize

/-! ## Traces, oracle and pins -/

/-- Record a bus event (`20_memory.md` R96) and let the environment see it. -/
def record (e : BusEvent) (b : Bus) : Bus := { b with hist := e :: b.hist, env := envAfter e b }

/-- Record a step of the pin-level refinement (R96). -/
def trace (w : WireEvent) (b : Bus) : Bus := { b with wire := w :: b.wire }

/-- `Wait(T)` (`00_scope.md` R15): it changes no state beyond the pin-level trace. -/
def busyWait (t : DelayName) (b : Bus) : Bus := trace (.wait t) b

/-- A wait that is also a bus event `Delay(T)` (`70_reset_and_hazards.md` R529). -/
def delay (t : DelayName) (b : Bus) : Bus := record (.delay t) (busyWait t b)

/-- What the outside answers (`20_memory.md` R97): the reference cartridge or the oracle. -/
def answerValue (q : Query) (b : Bus) : Half :=
  match envAnswer q b with
  | some v => v
  | none => Config.oracle b.tick b.hist b.wire q

/-- Ask the outside (R97): the answer, and the counter that keeps answers apart advanced. -/
def answer (q : Query) (b : Bus) : Half × Bus := (answerValue q b, { b with tick := b.tick + 1 })

/-- The register of a strobe pin (`10_state.md` R28). -/
def getPin (p : Pin) (pins : Pins) : PinReg :=
  match p with
  | .gbPwr => pins.gbPwr
  | .gbCs => pins.gbCs
  | .gbRd => pins.gbRd
  | .gbWr => pins.gbWr
  | .gbaPwr => pins.gbaPwr
  | .gbaCs => pins.gbaCs
  | .gbaCs2 => pins.gbaCs2
  | .gbaRd => pins.gbaRd
  | .gbaWr => pins.gbaWr
  | .det => pins.det

/-- The pins with one register replaced. -/
def setPin (p : Pin) (r : PinReg) (pins : Pins) : Pins :=
  match p with
  | .gbPwr => { pins with gbPwr := r }
  | .gbCs => { pins with gbCs := r }
  | .gbRd => { pins with gbRd := r }
  | .gbWr => { pins with gbWr := r }
  | .gbaPwr => { pins with gbaPwr := r }
  | .gbaCs => { pins with gbaCs := r }
  | .gbaCs2 => { pins with gbaCs2 := r }
  | .gbaRd => { pins with gbaRd := r }
  | .gbaWr => { pins with gbaWr := r }
  | .det => { pins with det := r }

/-- `Pin(p) <- v` (`40_transport_lock.md` R180). -/
def pinWrite (p : Pin) (v : Bool) (b : Bus) : Bus :=
  trace (.pinLevel p v) { b with pins := setPin p { getPin p b.pins with out := v } b.pins }

/-- `PinDir(p) <- d` (R179). -/
def pinDirect (p : Pin) (d : PinDir) (b : Bus) : Bus :=
  trace (.pinDir p d) { b with pins := setPin p { getPin p b.pins with dir := d } b.pins }

/-- `PinRead(p)` (R181): the driven level of an output, the oracle's answer for an input. -/
def pinRead (p : Pin) (b : Bus) : Bool × Bus :=
  if (getPin p b.pins).dir = .output then ((getPin p b.pins).out, b)
  else
    let r := answer (.pinLevel p) b
    (r.1.getLsbD 0, r.2)

/-! ## Expander ports -/

/-- The register of a port (`10_state.md` R30). -/
def getPort (p : Port) (x : Ports) : PortReg :=
  match p with
  | .a => x.a
  | .b => x.b
  | .c => x.c
  | .d => x.d

/-- The ports with one register replaced. -/
def setPort (p : Port) (r : PortReg) (x : Ports) : Ports :=
  match p with
  | .a => { x with a := r }
  | .b => { x with b := r }
  | .c => { x with c := r }
  | .d => { x with d := r }

/-- The chip that carries a port (`41_expander.md` R200). -/
def portChip : Port → Chip
  | .a | .b => .ab
  | .c | .d => .cd

/-- Whether a port is its chip's second (R200). -/
def isSecond : Port → Bool
  | .a | .c => false
  | .b | .d => true

/-- A port of a chip by its place (R200). -/
def chipPort (c : Chip) (second : Bool) : Port :=
  match c, second with
  | .ab, false => .a
  | .ab, true => .b
  | .cd, false => .c
  | .cd, true => .d

/-- The three register kinds of the expander (`41_expander.md` R216). -/
inductive RegKind where
  | dir
  | pull
  | io
deriving DecidableEq, Repr

/-- The register address of a kind at a place (`30_encoding.md` R138). -/
def regAddr (k : RegKind) (second : Bool) : Byte :=
  match k, second with
  | .dir, false => 0x00
  | .dir, true => 0x01
  | .pull, false => 0x0C
  | .pull, true => 0x0D
  | .io, false => 0x12
  | .io, true => 0x13

/-- The kind and place a register address names (R138, `41_expander.md` R216). -/
def regOf (v : Byte) : Option (RegKind × Bool) :=
  if v = 0x00 then some (.dir, false)
  else if v = 0x01 then some (.dir, true)
  else if v = 0x0C then some (.pull, false)
  else if v = 0x0D then some (.pull, true)
  else if v = 0x12 then some (.io, false)
  else if v = 0x13 then some (.io, true)
  else none

/-- A port's register of a kind set to a byte (`41_expander.md` R216: `io` writes the latch). -/
def setReg (k : RegKind) (v : Byte) (r : PortReg) : PortReg :=
  match k with
  | .dir => { r with dir := v }
  | .pull => { r with pull := v }
  | .io => { r with out := v }

/-- One register of one port written. -/
def writeReg (k : RegKind) (p : Port) (v : Byte) (b : Bus) : Bus :=
  { b with exp := setPort p (setReg k v (getPort p b.exp)) b.exp }

/-- `PortPins(P)` (`41_expander.md` R201), `v` the oracle's levels: an output bit shows the latch. -/
def portMix (r : PortReg) (v : Byte) : Byte := (r.out &&& ~~~r.dir) ||| (v &&& r.dir)

/-- A port's pins with the input levels the answer to `q` gives. -/
def samplePort (q : Query) (p : Port) (b : Bus) : Byte × Bus :=
  let r := answer q b
  (portMix (getPort p b.exp) (loByte r.1), r.2)

/-- A single-port write frame (`30_encoding.md` R134) and its effect. -/
def portWrite (k : RegKind) (p : Port) (v : Byte) (b : Bus) : Bus :=
  writeReg k p v (trace (.frame [devOpcode (portChip p) false, regAddr k (isSecond p), v]) b)

/-- `ExpDir(P, m)` (`41_expander.md` R202). -/
def expDir (p : Port) (m : Byte) (b : Bus) : Bus := portWrite .dir p m b
/-- `ExpPull(P, m)` (R203). -/
def expPull (p : Port) (m : Byte) (b : Bus) : Bus := portWrite .pull p m b
/-- `ExpWrite(P, v)` (R204). -/
def expWrite (p : Port) (v : Byte) (b : Bus) : Bus := portWrite .io p v b

/-- `ExpRead(P)` (R205), the input levels being the answer to `q`. -/
def expReadAs (q : Query) (p : Port) (b : Bus) : Byte × Bus :=
  samplePort q p (trace (.frame [devOpcode (portChip p) true, regAddr .io (isSecond p), 0x00]) b)

/-- A batched write frame (`30_encoding.md` R135) and its effect on both ports of a chip. -/
def chipWrite (k : RegKind) (c : Chip) (v1 v2 : Byte) (b : Bus) : Bus :=
  writeReg k (chipPort c true) v2 (writeReg k (chipPort c false) v1
    (trace (.frame [devOpcode c false, regAddr k false, v1, v2]) b))

/-- `ExpDir2(c, m1, m2)` (`41_expander.md` R207). -/
def expDir2 (c : Chip) (m1 m2 : Byte) (b : Bus) : Bus := chipWrite .dir c m1 m2 b
/-- `ExpPull2(c, m1, m2)` (R208). -/
def expPull2 (c : Chip) (m1 m2 : Byte) (b : Bus) : Bus := chipWrite .pull c m1 m2 b
/-- `ExpWrite2(c, v1, v2)` (R209). -/
def expWrite2 (c : Chip) (v1 v2 : Byte) (b : Bus) : Bus := chipWrite .io c v1 v2 b

/-- `ExpRead2(c)` (R210): the two ports' pins, first port low. -/
def expRead2 (c : Chip) (b : Bus) : Half × Bus :=
  let b := trace (.frame [devOpcode c true, regAddr .io false, 0x00, 0x00]) b
  let r1 := samplePort (.portPins (chipPort c false)) (chipPort c false) b
  let r2 := samplePort (.portPins (chipPort c true)) (chipPort c true) r1.2
  (pairOf r1.1 r2.1, r2.2)

/-- `CrdStart(c)` (R212) once no continuous read is open. -/
def crdStart (c : Chip) (b : Bus) : Bus :=
  trace (.crdOpen [devOpcode c true, regAddr .io false]) { b with crdActive := true, crdChip := c }

/-- `CrdCont()` (R213): both ports of the addressed chip, sampled anew. -/
def crdCont (b : Bus) : Half × Bus :=
  let b := trace (.crdBytes [0x00, 0x00]) b
  let first := chipPort b.crdChip false
  let second := chipPort b.crdChip true
  let r1 := samplePort (.portPins first) first b
  let r2 := samplePort (.portPins second) second r1.2
  (pairOf r1.1 r2.1, r2.2)

/-- `CrdCont()` inside a ROM burst (`44_gba_rom.md` R312): one halfword answers for both ports. -/
def crdContRom (b : Bus) : Half × Bus :=
  let b := trace (.crdBytes [0x00, 0x00]) b
  let r := answer .romNext b
  let first := getPort (chipPort b.crdChip false) b.exp
  let second := getPort (chipPort b.crdChip true) b.exp
  (pairOf (portMix first (loByte r.1)) (portMix second (hiByte r.1)), r.2)

/-- `CrdEnd()` (R214). -/
def crdEnd (b : Bus) : Bus := trace .crdClose { b with crdActive := false }

/-! ## Expander frames as the chips see them (`41_expander.md` R216) -/

/-- A byte nothing constrains: a reply the spec leaves unspecified (U15). -/
def anyReply (tx : Byte) (b : Bus) : Byte × Bus :=
  let r := answer (.spiByte tx) b
  (loByte r.1, r.2)

/-- The replies to bytes that no expander chip sees, one oracle answer each (`40_transport_lock.md` R175). -/
def anyReplies : List Byte → Bus → List Byte × Bus
  | [], b => ([], b)
  | t :: ts, b =>
    let r := anyReply t b
    let rest := anyReplies ts r.2
    (r.1 :: rest.1, rest.2)

/-- The data slots of a write frame, alternating from the named port (R216). -/
def frameWrites (k : RegKind) (c : Chip) : Bool → List Byte → Bus → List Byte × Bus
  | _, [], b => ([], b)
  | second, v :: vs, b =>
    let r := anyReply v (writeReg k (chipPort c second) v b)
    let rest := frameWrites k c (!second) vs r.2
    (r.1 :: rest.1, rest.2)

/-- The reply byte of one data slot of a read frame (R216). -/
def slotReply (k : RegKind) (p : Port) (b : Bus) : Byte × Bus :=
  match k with
  | .dir => ((getPort p b.exp).dir, b)
  | .pull => ((getPort p b.exp).pull, b)
  | .io => samplePort (.portPins p) p b

/-- The data slots of a read frame, alternating from the named port (R216). -/
def frameReads (k : RegKind) (c : Chip) : Bool → List Byte → Bus → List Byte × Bus
  | _, [], b => ([], b)
  | second, _ :: vs, b =>
    let r := slotReply k (chipPort c second) b
    let rest := frameReads k c (!second) vs r.2
    (r.1 :: rest.1, rest.2)

/-- What a frame's first two bytes name: chip, read flag, register kind and starting port (R216). -/
def frameHead (op reg : Byte) : Option (Chip × Bool × RegKind × Bool) :=
  match devOf op, regOf reg with
  | some (c, rd), some (k, second) => some (c, rd, k, second)
  | _, _ => none

/-- Whether bytes sent with `SPI_CS0` asserted are a frame (R216): a known head and a data byte, or the
two-byte continuous-read header. -/
def isFrame (bytes : List Byte) : Bool :=
  match bytes with
  | op :: reg :: data =>
    match frameHead op reg with
    | some (_, rd, k, second) => !data.isEmpty || (rd && k == .io && !second)
    | none => false
  | _ => false

/-- `ExpFrame` (R216) of bytes that are a frame: the replies and the effect. -/
def expFrame (bytes : List Byte) (b : Bus) : List Byte × Bus :=
  match bytes with
  | op :: reg :: data =>
    let r0 := anyReply op b
    let r1 := anyReply reg r0.2
    match frameHead op reg with
    | some (c, rd, k, second) =>
      let rest := if rd then frameReads k c second data r1.2 else frameWrites k c second data r1.2
      (r0.1 :: r1.1 :: rest.1, rest.2)
    | none => ([], b)
  | _ => ([], b)

/-! ## How an operation ends -/

/-- `return v` (`00_scope.md` R16): `RES` written, the command done, the sequencer idle. -/
def finish (v : Word) (s : State) : State :=
  { s with
    me := { s.me with res := v, resSet := true, cmd := none, seq := .idle }
    bus := { s.bus with tick := s.bus.tick + 1 } }

/-- A reserved word (`30_encoding.md` R127): `RES <- ERR_ILLEGAL` and nothing else. -/
def refuse (s : State) : State := finish errIllegal s

/-- A blocked operation (`40_transport_lock.md` R184): no step of it happens, and the sequencer stays at
its `LOCK` step. -/
def hold (op : Instr) (s : State) : State :=
  { s with
    me := { s.me with seq := .held op }
    bus := { s.bus with tick := s.bus.tick + 1 } }

/-- An operation whose operands lie in their ranges runs; any other is refused (R127). -/
def guarded (op : Instr) (s : State) (body : Host.Outcome State Fault Refusal) :
    Host.Outcome State Fault Refusal :=
  if op.wellFormed then body else .next (refuse s)

/-! ## Checks before an operation runs (`60_exceptions.md` R471) -/

/-- `spi_ready` (`40_transport_lock.md` R171). -/
def needInit (op : Instr) (s : State) : Except Fault Unit :=
  if s.spiReady then .ok () else .error (.notInitialised op)

/-- The buffer of a bulk operation (`60_exceptions.md` R468): set, and inside `HBUF`. -/
def needBuf (n : Nat) (s : State) : Except Fault Unit :=
  if s.me.bufSet = false then .error .bufferUnset
  else if s.me.bufp.toNat + n ≤ Config.hbufSize then .ok ()
  else .error (.bufferRange s.me.bufp.toNat n)

/-- The owner of an open power session, if it is another agent. -/
def otherOwner (owner : Option Nat) (me : Nat) : Option Nat :=
  match owner with
  | some o => if o = me then none else some o
  | none => none

/-- Whether an agent stands inside a power session or a cartridge transaction of a running operation. -/
def busyAgent (a : Agent) : Bool :=
  match a.seq with
  | .running _ _ busy _ => busy
  | .idle | .held _ => false

/-- The agent, other than this one, inside whose power session or cartridge transaction a bus step of this
agent would fall (`60_exceptions.md` R469): the owner of a `PWRUP` that has no `PWRDN` yet, or one in the
middle of an operation. -/
def intruded (s : State) : Option Nat :=
  ((otherOwner s.bus.ownGb s.me.id).or (otherOwner s.bus.ownGba s.me.id)).or
    ((s.others.find? busyAgent).map fun a => a.id)

/-- A bus step of this agent does not break into another agent's session or transaction (R469); the owner
is named first (`95_test_vectors.md` P5 (b)). -/
def raceFree (s : State) : Except Fault Unit :=
  match intruded s with
  | some o => .error (.busRace (.agent o) (.agent s.me.id))
  | none => .ok ()

/-- The faults of an expander step or cartridge transaction (`60_exceptions.md` R469, `41_expander.md` R215,
`40_transport_lock.md` R188; their order is log entry 14). -/
def busReady (op : Instr) (s : State) : Except Fault Unit := do
  raceFree s
  if s.bus.crdActive then .error (.continuousReadActive op)
  else if s.csForceIdle then .error (.chipSelectForcedIdle op)
  else .ok ()

/-- The faults of a step inside a continuous read (`41_expander.md` R213, R214, R215). -/
def streamReady (op : Instr) (s : State) : Except Fault Unit := do
  raceFree s
  if s.bus.crdActive = false then .error (.continuousReadInactive op)
  else if s.csForceIdle then .error (.chipSelectForcedIdle op)
  else .ok ()

/-- The faults of `Spi` called by `XFER` (`41_expander.md` R215). -/
def xferReady (op : Instr) (s : State) : Except Fault Unit := do
  raceFree s
  if s.bus.crdActive then .error (.continuousReadActive op) else .ok ()

/-- The faults of a strobe step (`40_transport_lock.md` R178, `41_expander.md` R215). -/
def strobeReady (op : Instr) (s : State) : Except Fault Unit := do
  raceFree s
  if Config.wiring = .expander ∧ s.bus.crdActive = true then .error (.continuousReadActive op) else .ok ()

/-! ## The bus lock (`40_transport_lock.md` R183 to R188) -/

/-- The write of a `LOCK` that succeeds (R183). -/
def takeLock (force : Bool) (key : Word) (s : State) : State :=
  { s with lock := key, csForceIdle := s.csForceIdle || force }

/-- `UNLOCK key` (R185). -/
def releaseLock (key : Word) (s : State) : State :=
  if s.lock = key then { s with lock := 0, csForceIdle := false } else s

end Sys2Proof.Machine
end

