-- ==== Sys2Proof/Machine/Prog.lean ====
section
/-! DEFINITION. An operation as the steps of its pseudocode (`10_state.md` R24, `00_scope.md` R19): one at a
time, each a primitive of R14 and R15 or one state read or write, with what it hands to the steps after it.
A run of an operation takes its steps one after another; between two of them other agents may move
(`20_memory.md` R92). -/

namespace Sys2Proof.Machine

/-- What keeps a step from happening: its enabling condition (`00_scope.md` R16: only `LOCK` has one), or a
model fault. -/
inductive Stop where
  | blocked
  | fault (f : Fault)
deriving DecidableEq, Repr

/-- What a step is to the other users of the bus: a state access or a wait, a strobe pin, an expander frame,
or a whole cartridge transaction. -/
inductive StepKind where
  | quiet
  | pin
  | frame
  | transaction
deriving DecidableEq, Repr

/-- One step: its kind, whether a power session or a cartridge transaction of the operation is open once it
has happened (`60_exceptions.md` R469), and its effect. -/
structure Act where
  kind : StepKind
  within : Bool
  run : State → Except Stop (Reply × State)

/-- The steps of an operation that ends in a value: each step depends on what the earlier ones handed on. -/
inductive Prog (α : Type) where
  | ret (v : α)
  | act (a : Act) (k : Reply → Prog α)

/-- The steps of `p`, then those of `f` at the value `p` ends in. -/
def Prog.bind {α β : Type} (p : Prog α) (f : α → Prog β) : Prog β :=
  match p with
  | .ret v => f v
  | .act a k => .act a fun r => (k r).bind f

/-- The steps of `p`, then those of `q`. -/
def Prog.then {α β : Type} (p : Prog α) (q : Prog β) : Prog β := p.bind fun _ => q

/-- The steps of `p`, with a value of them. -/
def Prog.map {α β : Type} (f : α → β) (p : Prog α) : Prog β := p.bind fun v => .ret (f v)

/-- Steps in order. -/
def Prog.steps : List (Prog Unit) → Prog Unit
  | [] => .ret ()
  | p :: ps => p.then (Prog.steps ps)

/-- `for i in a..a+n-1` (`00_scope.md` R12: increasing order). -/
def Prog.loop (f : Nat → Prog Unit) : Nat → Nat → Prog Unit
  | _, 0 => .ret ()
  | i, n + 1 => (f i).then (Prog.loop f (i + 1) n)

/-- The values of `for i in a..a+n-1`, in order. -/
def Prog.collect {α : Type} (f : Nat → Prog α) : Nat → Nat → Prog (List α)
  | _, 0 => .ret []
  | i, n + 1 => (f i).bind fun v => (Prog.collect f (i + 1) n).map fun vs => v :: vs

/-- Steps between which a power session or a transaction is open, and after the last of them still is. -/
def Prog.within {α : Type} (p : Prog α) : Prog α :=
  match p with
  | .ret v => .ret v
  | .act a k => .act { a with within := true } fun r => (k r).within

/-! ## Running an operation -/

/-- All steps, one after another, with nothing in between. -/
def Prog.run {α : Type} (p : Prog α) (s : State) : Except Stop (α × State) :=
  match p with
  | .ret v => .ok (v, s)
  | .act a k =>
    match a.run s with
    | .ok (r, t) => (k r).run t
    | .error e => .error e

/-- Where a run of some steps of an operation stands: ended, or in front of a step of a kind, with what the
steps handed on and whether a session or transaction is open. -/
inductive Part (α : Type) where
  | ended (v : α) (s : State)
  | paused (next : StepKind) (done : List Reply) (within : Bool) (s : State)

/-- At most `n` steps; `done` is what earlier ones handed on. -/
def Prog.part {α : Type} (p : Prog α) (n : Nat) (done : List Reply) (within : Bool) (s : State) :
    Except Stop (Part α) :=
  match p with
  | .ret v => .ok (.ended v s)
  | .act a k =>
    match n with
    | 0 => .ok (.paused a.kind done within s)
    | n + 1 =>
      match a.run s with
      | .ok (r, t) => (k r).part n (done ++ [r]) a.within t
      | .error e => .error e

/-- The steps that are left after some, given what those handed on. -/
def Prog.after {α : Type} (p : Prog α) (done : List Reply) : Prog α :=
  match done with
  | [] => p
  | r :: rs =>
    match p with
    | .ret v => .ret v
    | .act _ k => (k r).after rs

/-- How an operation that has taken its steps ends: `RES` written, held at its `LOCK`, or a fault that gives
the run no final state (`60_exceptions.md` R467). -/
def settle (op : Instr) (s : State) (r : Except Stop (Word × State)) : Host.Outcome State Fault Refusal :=
  match r with
  | .ok (v, t) => .next (finish v t)
  | .error .blocked => .next (hold op s)
  | .error (.fault f) => .fault f

/-- An operation run from its first step to its last with nothing in between (`10_state.md` R24). -/
def perform (op : Instr) (p : Prog Word) (s : State) : Host.Outcome State Fault Refusal :=
  guarded op s (settle op s (p.run s))

/-! ## How a value read is handed on -/

/-- A kind of value as what a step hands on, and back. -/
structure Coding (α : Type) where
  enc : α → Reply
  dec : Reply → α

def asUnit : Coding Unit where
  enc _ := .none
  dec _ := ()

def asBit : Coding Bool where
  enc v := .bit v
  dec r := match r with
    | .bit v => v
    | _ => false

def asByte : Coding Byte where
  enc v := .byte v
  dec r := match r with
    | .byte v => v
    | _ => 0

def asHalf : Coding Half where
  enc v := .half v
  dec r := match r with
    | .half v => v
    | _ => 0

def asWord : Coding Word where
  enc v := .word v
  dec r := match r with
    | .word v => v
    | _ => 0

def asBytes : Coding (List Byte) where
  enc v := .bytes v
  dec r := match r with
    | .bytes v => v
    | _ => []

def asGb : Coding GbSession where
  enc v := .gb v
  dec r := match r with
    | .gb v => v
    | _ => .empty

def asGba : Coding GbaSession where
  enc v := .gba v
  dec r := match r with
    | .gba v => v
    | _ => .empty

/-! ## Single steps -/

/-- A step with a value, after its check. -/
def Prog.step {α : Type} (kind : StepKind) (check : State → Except Fault Unit) (c : Coding α)
    (f : State → α × State) : Prog α :=
  .act
    { kind := kind
      within := false
      run := fun s =>
        match check s with
        | .ok _ => .ok (c.enc (f s).1, (f s).2)
        | .error e => .error (.fault e) }
    fun r => .ret (c.dec r)

/-- A step that cannot fail. -/
def always (_ : State) : Except Fault Unit := .ok ()

/-- A bus step with a value read. -/
def busRead {α : Type} (kind : StepKind) (check : State → Except Fault Unit) (c : Coding α) (f : Bus → α × Bus) :
    Prog α :=
  .step kind check c fun s => ((f s.bus).1, { s with bus := (f s.bus).2 })

/-- A bus step. -/
def busDo (kind : StepKind) (check : State → Except Fault Unit) (f : Bus → Bus) : Prog Unit :=
  .step kind check asUnit fun s => ((), { s with bus := f s.bus })

/-- A wait that is a bus event (`70_reset_and_hazards.md` R529). -/
def delayStep (t : DelayName) : Prog Unit := busDo .quiet always (delay t)

/-- A check that an operation makes (`60_exceptions.md` R471). -/
def ensure (check : State → Except Fault Unit) : Prog Unit := .step .quiet check asUnit fun s => ((), s)

/-- A state read. -/
def look {α : Type} (c : Coding α) (f : State → α) : Prog α := .step .quiet always c fun s => (f s, s)

/-- A state write. -/
def update (f : State → State) : Prog Unit := .step .quiet always asUnit fun s => ((), f s)

/-- The `LOCK` step: the test of the lock and its write are one, and it is blocked while another key holds
the lock (`40_transport_lock.md` R183, R184). -/
def lockStep (force : Bool) (key : Word) : Prog Unit :=
  .act
    { kind := .quiet
      within := false
      run := fun s => if lockFree key s then .ok (.none, takeLock force key s) else .error .blocked }
    fun _ => .ret ()

/-- The bytes `BUFP + k` to `BUFP + k + n - 1` lie inside `HBUF` (`00_scope.md` R13). -/
def inHbuf (k n : Nat) (s : State) : Except Fault Unit :=
  if s.me.bufp.toNat + k + n ≤ Config.hbufSize then .ok () else .error (.bufferRange (s.me.bufp.toNat + k) n)

/-- `MemWrite(BUFP + k, n, v)` of the `n` bytes `v` (`00_scope.md` R13). -/
def memWrite (k : Nat) (bytes : List Byte) : Prog Unit :=
  .step .quiet (inHbuf k bytes.length) asUnit fun s =>
    ((), { s with hbuf := s.hbuf.writeBlock (s.me.bufp.toNat + k) bytes })

/-- `MemRead(BUFP + k, n)` (`00_scope.md` R13). -/
def memRead (k n : Nat) : Prog (List Byte) :=
  .step .quiet (inHbuf k n) asBytes fun s => (s.hbuf.readBlock (s.me.bufp.toNat + k) n, s)

/-- The value of `p` stored at `BUFP + k`. -/
def storeByte (k : Nat) (p : Prog Byte) : Prog Unit := p.bind fun v => memWrite k [v]

/-- An operation of the dispatcher under the bus lock (`46_dispatcher.md` R420). -/
def underLock {α : Type} (p : Prog α) : Prog α :=
  (lockStep false Config.gbxKey).then (p.bind fun v => (update (releaseLock Config.gbxKey)).then (.ret v))

end Sys2Proof.Machine
end

