-- ==== Sys2Proof/Machine/Expander.lean ====
section
/-! DEFINITION. The port expander operations (`41_expander.md` R200 to R220). -/

namespace Sys2Proof.Machine

/-- The steps of an operation that is one bus step after the check of `spi_ready`, with its value as the
result (`41_expander.md` R202 to R214). -/
def oneStep {α : Type} (op : Instr) (kind : StepKind) (check : State → Except Fault Unit) (c : Coding α)
    (f : Bus → α × Bus) (v : α → Word) : Prog Word :=
  (ensure (needInit op)).then ((busRead kind check c f).map v)

/-- The steps of an operation that is one bus step and returns 0 (`30_encoding.md` R125). -/
def oneWrite (op : Instr) (kind : StepKind) (check : State → Except Fault Unit) (f : Bus → Bus) : Prog Word :=
  (ensure (needInit op)).then ((busDo kind check f).then (.ret 0))

/-- The steps of `EXP_DIR port, mask` (`41_expander.md` R202). -/
def expDirSteps (port : Port) (mask : Byte) : Prog Word :=
  oneWrite (.expDir port mask) .frame (busReady (.expDir port mask)) (expDir port mask)

/-- `EXP_DIR port, mask` (`41_expander.md` R202). -/
def execExpDir (port : Port) (mask : Byte) (s : State) : Host.Outcome State Fault Refusal :=
  perform (.expDir port mask) (expDirSteps port mask) s

/-- The steps of `EXP_PULL port, mask` (`41_expander.md` R203). -/
def expPullSteps (port : Port) (mask : Byte) : Prog Word :=
  oneWrite (.expPull port mask) .frame (busReady (.expPull port mask)) (expPull port mask)

/-- `EXP_PULL port, mask` (`41_expander.md` R203). -/
def execExpPull (port : Port) (mask : Byte) (s : State) : Host.Outcome State Fault Refusal :=
  perform (.expPull port mask) (expPullSteps port mask) s

/-- The steps of `EXP_WR port, val` (`41_expander.md` R204). -/
def expWrSteps (port : Port) (val : Byte) : Prog Word :=
  oneWrite (.expWr port val) .frame (busReady (.expWr port val)) (expWrite port val)

/-- `EXP_WR port, val` (`41_expander.md` R204). -/
def execExpWr (port : Port) (val : Byte) (s : State) : Host.Outcome State Fault Refusal :=
  perform (.expWr port val) (expWrSteps port val) s

/-- The steps of `EXP_RD port` (`41_expander.md` R205). -/
def expRdSteps (port : Port) : Prog Word :=
  oneStep (.expRd port) .frame (busReady (.expRd port)) asByte (expReadAs (.portPins port) port) (·.setWidth 32)

/-- `EXP_RD port` (`41_expander.md` R205). -/
def execExpRd (port : Port) (s : State) : Host.Outcome State Fault Refusal :=
  perform (.expRd port) (expRdSteps port) s

/-- The steps of `EXP_DIR2 chip, pair` (`41_expander.md` R207). -/
def expDir2Steps (chip : Chip) (pair : Half) : Prog Word :=
  oneWrite (.expDir2 chip pair) .frame (busReady (.expDir2 chip pair)) (expDir2 chip (loByte pair) (hiByte pair))

/-- `EXP_DIR2 chip, pair` (`41_expander.md` R207). -/
def execExpDir2 (chip : Chip) (pair : Half) (s : State) : Host.Outcome State Fault Refusal :=
  perform (.expDir2 chip pair) (expDir2Steps chip pair) s

/-- The steps of `EXP_PULL2 chip, pair` (`41_expander.md` R208). -/
def expPull2Steps (chip : Chip) (pair : Half) : Prog Word :=
  oneWrite (.expPull2 chip pair) .frame (busReady (.expPull2 chip pair)) (expPull2 chip (loByte pair) (hiByte pair))

/-- `EXP_PULL2 chip, pair` (`41_expander.md` R208). -/
def execExpPull2 (chip : Chip) (pair : Half) (s : State) : Host.Outcome State Fault Refusal :=
  perform (.expPull2 chip pair) (expPull2Steps chip pair) s

/-- The steps of `EXP_WR2 chip, pair` (`41_expander.md` R209). -/
def expWr2Steps (chip : Chip) (pair : Half) : Prog Word :=
  oneWrite (.expWr2 chip pair) .frame (busReady (.expWr2 chip pair)) (expWrite2 chip (loByte pair) (hiByte pair))

/-- `EXP_WR2 chip, pair` (`41_expander.md` R209). -/
def execExpWr2 (chip : Chip) (pair : Half) (s : State) : Host.Outcome State Fault Refusal :=
  perform (.expWr2 chip pair) (expWr2Steps chip pair) s

/-- The steps of `EXP_RD2 chip` (`41_expander.md` R210). -/
def expRd2Steps (chip : Chip) : Prog Word :=
  oneStep (.expRd2 chip) .frame (busReady (.expRd2 chip)) asHalf (expRead2 chip) (·.setWidth 32)

/-- `EXP_RD2 chip` (`41_expander.md` R210). -/
def execExpRd2 (chip : Chip) (s : State) : Host.Outcome State Fault Refusal :=
  perform (.expRd2 chip) (expRd2Steps chip) s

/-- The steps of `CRD_START chip` (`41_expander.md` R212). -/
def crdStartSteps (chip : Chip) : Prog Word :=
  oneWrite (.crdStart chip) .frame (busReady (.crdStart chip)) (crdStart chip)

/-- `CRD_START chip` (`41_expander.md` R212). -/
def execCrdStart (chip : Chip) (s : State) : Host.Outcome State Fault Refusal :=
  perform (.crdStart chip) (crdStartSteps chip) s

/-- The steps of `CRD_CONT` (`41_expander.md` R213). -/
def crdContSteps : Prog Word := oneStep .crdCont .frame (streamReady .crdCont) asHalf crdCont (·.setWidth 32)

/-- `CRD_CONT` (`41_expander.md` R213). -/
def execCrdCont (s : State) : Host.Outcome State Fault Refusal := perform .crdCont crdContSteps s

/-- The steps of `CRD_END` (`41_expander.md` R214). -/
def crdEndSteps : Prog Word := oneWrite .crdEnd .frame (streamReady .crdEnd) crdEnd

/-- `CRD_END` (`41_expander.md` R214). -/
def execCrdEnd (s : State) : Host.Outcome State Fault Refusal := perform .crdEnd crdEndSteps s

end Sys2Proof.Machine
end

