-- ==== Sys2Proof/Machine/Header.lean ====
section
/-! DEFINITION. Cartridge headers: the tables, the title normalisation and the verification of both
platforms (`30_encoding.md` R141 to R147, R153, `43_gb_engine.md` R258 to R261). -/

namespace Sys2Proof.Machine

/-- The 48-byte reference logo (`30_encoding.md` R145). -/
def logo : List Byte :=
  [0xCE, 0xED, 0x66, 0x66, 0xCC, 0x0D, 0x00, 0x0B, 0x03, 0x73, 0x00, 0x83, 0x00, 0x0C, 0x00, 0x0D,
   0x00, 0x08, 0x11, 0x1F, 0x88, 0x89, 0x00, 0x0E, 0xDC, 0xCC, 0x6E, 0xE6, 0xDD, 0xDD, 0xD9, 0x99,
   0xBB, 0xBB, 0x67, 0x63, 0x6E, 0x0E, 0xEC, 0xCC, 0xDD, 0xDC, 0x99, 0x9F, 0xBB, 0xB9, 0x33, 0x3E]

/-- `CgbFlag(b)` (`43_gb_engine.md` R259). -/
def cgbFlag (b : Byte) : Cgb :=
  if b.getLsbD 7 = false then .unsupported else if b.getLsbD 6 = false then .compatible else .only

/-- The cartridge-type table: controller and battery flag (`30_encoding.md` R142). -/
def typeTable (b : Byte) : Mbc × Bool :=
  match b.toNat with
  | 0x00 => (.noMbc, false)
  | 0x01 => (.mbc1, false)
  | 0x02 => (.mbc1, false)
  | 0x03 => (.mbc1, true)
  | 0x05 => (.mbc2, false)
  | 0x06 => (.mbc2, true)
  | 0x08 => (.noMbc, false)
  | 0x09 => (.noMbc, true)
  | 0x0F => (.mbc3, true)
  | 0x10 => (.mbc3, true)
  | 0x11 => (.mbc3, false)
  | 0x12 => (.mbc3, false)
  | 0x13 => (.mbc3, true)
  | 0x19 => (.mbc5, false)
  | 0x1A => (.mbc5, false)
  | 0x1B => (.mbc5, true)
  | 0x1C => (.mbc5, false)
  | 0x1D => (.mbc5, false)
  | 0x1E => (.mbc5, true)
  | _ => (.noMbc, false)

/-- The ROM-size table: `32768 << n` for `n` in `0..8`, otherwise unknown (`30_encoding.md` R143). -/
def romSizeTable (b : Byte) : Option Word :=
  if b.toNat ≤ 8 then some (BitVec.ofNat 32 (32768 <<< b.toNat)) else none

/-- The RAM-size table (`30_encoding.md` R144). -/
def ramSizeTable (b : Byte) : Word :=
  match b.toNat with
  | 0x00 => 0
  | 0x01 => 2048
  | 0x02 => 8192
  | 0x03 => 32768
  | 0x04 => 131072
  | 0x05 => 65536
  | _ => 0

/-- `SaveSize(m, batt, code)` (`43_gb_engine.md` R261). -/
def gbSaveSize (m : Mbc) (batt : Bool) (code : Byte) : Word :=
  if batt = false then 0 else if m = .mbc2 then 512 else ramSizeTable code

/-- Drop the underscores at the end of a title (`43_gb_engine.md` R260). -/
def trimUnderscores (t : List Byte) : List Byte := (t.reverse.dropWhile (· == 0x5F)).reverse

/-- `NormTitle(f)` of the 16-byte title field (`43_gb_engine.md` R260). -/
def normTitle (f : List Byte) : List Byte :=
  let kept := if (f.getD 15 0).getLsbD 7 then f.take 15 else f
  trimUnderscores ((kept.filter (· != 0x00)).map fun v => if v = 0x20 then 0x5F else v)

/-- The session that a verified 1024-byte header gives, `none` where the logo or the ROM-size code does
not verify (`43_gb_engine.md` R258, R264, R265); `sha` is the SHA-1 text of the header. -/
def gbSessionOf (h : List Byte) (sha : List Byte) : Option GbSession :=
  if slice 0x104 48 h = logo then
    match romSizeTable (h.getD 0x148 0) with
    | none => none
    | some rs =>
      let kind := typeTable (h.getD 0x147 0)
      some
        { loaded := true
          title := normTitle (slice 0x134 16 h)
          cgb := cgbFlag (h.getD 0x143 0)
          mbc := kind.1
          romSize := rs
          saveSize := gbSaveSize kind.1 kind.2 (h.getD 0x149 0)
          sha1 := sha }
  else none

/-- The GBA header checksum (`30_encoding.md` R147). -/
def gbaChecksum (h : List Byte) : Byte :=
  (slice 0xA0 (Config.gbaCsumLast - 0xA0 + 1) h).foldl (fun c v => c - v) 0 - 0x19

/-- Whether a 192-byte GBA header verifies (`30_encoding.md` R147). -/
def gbaChecksumOk (h : List Byte) : Bool := gbaChecksum h == h.getD 0xBD 0

/-- The title field of a GBA header (`30_encoding.md` R146). -/
def gbaTitle (h : List Byte) : List Byte := slice 0xA0 12 h
/-- The game code of a GBA header (R146). -/
def gbaCode (h : List Byte) : List Byte := slice 0xAC 4 h
/-- The maker code of a GBA header (R146). -/
def gbaMaker (h : List Byte) : List Byte := slice 0xB0 2 h

/-- The flash ID table (`30_encoding.md` R153). -/
def flashTable (mfr dev : Byte) : Option SaveType :=
  match mfr.toNat, dev.toNat with
  | 0xBF, 0xD4 => some .flash512k
  | 0x1F, 0x3D => some .flash512k
  | 0xC2, 0x1C => some .flash512k
  | 0x32, 0x1B => some .flash512k
  | 0xC2, 0x09 => some .flash1m
  | 0x62, 0x13 => some .flash1m
  | _, _ => none

/-- The manufacturer code that selects the Atmel write algorithm (R153). -/
def atmel : Byte := 0x1F

end Sys2Proof.Machine
end

