-- ==== Sys2Proof/Machine/Power.lean ====
section
/-! DEFINITION. The cartridge power sequencers (`42_power.md` R230 to R243). -/

namespace Sys2Proof.Machine

/-- A step at a strobe pin. -/
def pinStep (op : Instr) (f : Bus → Bus) : Prog Unit := busDo .pin (strobeReady op) f

/-- A step that sends one expander frame. -/
def frameStep (op : Instr) (f : Bus → Bus) : Prog Unit := busDo .frame (busReady op) f

/-- `Pin(p) <- v; PinDir(p) <- out`, two steps. -/
def drive (op : Instr) (p : Pin) (v : Bool) : Prog Unit :=
  (pinStep op (pinWrite p v)).then (pinStep op (pinDirect p .output))

/-- The power pin of a slot driven to a level, with the bus event `Power` (`42_power.md` R232, R236). -/
def drivePower (op : Instr) (p : Pin) (level : Bool) (slot : Slot) (on : Bool) : Prog Unit :=
  (pinStep op (pinWrite p level)).then
    (pinStep op fun b => record (.power slot on) (pinDirect p .output b))

/-- The steps that set the GB/GBC default pin state: strobes high, address lines low, data port released with
pull-ups (`42_power.md` R232 step 1). DESIGN CHOICE, log entry 18: a `GB_WR` that an `STB_WR` holds low is raised here
without completing a raw write at a reference cartridge. -/
def gbDefaultsSteps (op : Instr) : Prog Unit :=
  .steps [
    drive op .gbCs true, drive op .gbRd true, drive op .gbWr true,
    frameStep op (expWrite2 .ab 0x00 0x00), frameStep op (expPull2 .ab 0x00 0x00),
    frameStep op (expDir2 .ab 0x00 0x00),
    frameStep op (expPull .c 0xFF), frameStep op (expDir .c 0xFF)]

/-- The check of a `PWRUP` of the GB slot: the other slot's flag (`42_power.md` R240, `60_exceptions.md` R471 (6)). -/
def gbaIsOff (s : State) : Except Fault Unit := if s.bus.pwrGba then .error .bothSlotsPowered else .ok ()

/-- The check of a `PWRUP` of the GBA slot. -/
def gbIsOff (s : State) : Except Fault Unit := if s.bus.pwrGb then .error .bothSlotsPowered else .ok ()

/-- A slot's power flag set, with no MBC register written yet (`42_power.md` R232, `10_state.md` R44). -/
def gbFlagOn (b : Bus) : Bus := { b with pwrGb := true, mbcw := .nothing }

/-- The steps of `GbPowerUp()` (`42_power.md` R231, R232); the flag is set only where the other slot's is 0
(`10_state.md` R33). -/
def gbPowerUpSteps (op : Instr) : Prog Unit :=
  (gbDefaultsSteps op).then <|
  (look asBit fun s => s.bus.pwrGb).bind fun on =>
  if on then .ret ()
  else
    .steps [
      drivePower op .gbPwr (Config.pwrOnLevel .gb) .gb true,
      delayStep .settle, busDo .quiet gbaIsOff gbFlagOn]

/-- The steps that set the GBA default pin state: strobes high, all 24 lines driven low, pull-ups on
(`42_power.md` R234). -/
def gbaDefaultsSteps (op : Instr) : Prog Unit :=
  .steps [
    drive op .gbaCs true, drive op .gbaCs2 true, drive op .gbaRd true, drive op .gbaWr true,
    frameStep op (expWrite2 .ab 0x00 0x00), frameStep op (expWrite .c 0x00),
    frameStep op (expPull2 .ab 0xFF 0xFF), frameStep op (expPull .c 0xFF),
    frameStep op (expDir2 .ab 0x00 0x00), frameStep op (expDir .c 0x00)]

/-- The GBA slot's power flag set (`42_power.md` R234). -/
def gbaFlagOn (b : Bus) : Bus := { b with pwrGba := true }

/-- The steps of `GbaPowerUp()` (`42_power.md` R231, R234; the flag as R33 says). -/
def gbaPowerUpSteps (op : Instr) : Prog Unit :=
  (gbaDefaultsSteps op).then <|
  (look asBit fun s => s.bus.pwrGba).bind fun on =>
  if on then .ret ()
  else
    .steps [
      drivePower op .gbaPwr (Config.pwrOnLevel .gba) .gba true,
      delayStep .settle, busDo .quiet gbIsOff gbaFlagOn]

/-- The steps of a power-down that turn the pull-ups off and every line into an input (`42_power.md` R236). -/
def floatSteps (op : Instr) : Prog Unit :=
  .steps [
    frameStep op (expPull2 .ab 0x00 0x00), frameStep op (expPull2 .cd 0x00 0x00),
    frameStep op (expDir2 .ab 0xFF 0xFF), frameStep op (expDir2 .cd 0xFF 0xFF)]

/-- The steps of a power-down that drive every line low (`42_power.md` R236). -/
def groundSteps (op : Instr) : Prog Unit :=
  .steps [
    frameStep op (expWrite2 .ab 0x00 0x00), frameStep op (expWrite2 .cd 0x00 0x00),
    frameStep op (expDir2 .ab 0x00 0x00), frameStep op (expDir2 .cd 0x00 0x00)]

/-- The steps of `GbPowerDown()` but for the flag: lines floating, strobes inputs, power off, everything
grounded (`42_power.md` R235, R236). -/
def gbPowerDownSteps (op : Instr) : Prog Unit :=
  .steps [
    floatSteps op,
    pinStep op (pinDirect .gbCs .input), pinStep op (pinDirect .gbRd .input), pinStep op (pinDirect .gbWr .input),
    drivePower op .gbPwr (!Config.pwrOnLevel .gb) .gb false,
    groundSteps op,
    drive op .gbCs false, drive op .gbRd false, drive op .gbWr false]

/-- The GB slot's flag cleared; a power session that was open is not any more (`60_exceptions.md` R469). -/
def gbFlagOff (b : Bus) : Bus := { b with pwrGb := false, ownGb := none }

/-- The last step of `GbPowerDown()` (`42_power.md` R236). -/
def gbFlagOffStep : Prog Unit := busDo .quiet always gbFlagOff

/-- The steps of `GbaPowerDown()` but for the flag (`42_power.md` R237). -/
def gbaPowerDownSteps (op : Instr) : Prog Unit :=
  .steps [
    floatSteps op,
    pinStep op (pinDirect .gbaCs .input), pinStep op (pinDirect .gbaCs2 .input),
    pinStep op (pinDirect .gbaRd .input), pinStep op (pinDirect .gbaWr .input),
    drivePower op .gbaPwr (!Config.pwrOnLevel .gba) .gba false,
    groundSteps op,
    drive op .gbaCs false, drive op .gbaCs2 false, drive op .gbaRd false, drive op .gbaWr false]

/-- The GBA slot's flag cleared. -/
def gbaFlagOff (b : Bus) : Bus := { b with pwrGba := false, ownGba := none }

/-- The last step of `GbaPowerDown()` (`42_power.md` R237). -/
def gbaFlagOffStep : Prog Unit := busDo .quiet always gbaFlagOff

/-- Steps between a power-up and a power-down of the GB slot, after the check: one power session
(`60_exceptions.md` R469). -/
def withGbPower {α : Type} (op : Instr) (body : Prog α) : Prog α :=
  (ensure gbaIsOff).then <|
  (((gbPowerUpSteps op).then (body.bind fun v => (gbPowerDownSteps op).then (.ret v))).within).bind fun v =>
    gbFlagOffStep.then (.ret v)

/-- The same for the GBA slot. -/
def withGbaPower {α : Type} (op : Instr) (body : Prog α) : Prog α :=
  (ensure gbIsOff).then <|
  (((gbaPowerUpSteps op).then (body.bind fun v => (gbaPowerDownSteps op).then (.ret v))).within).bind fun v =>
    gbaFlagOffStep.then (.ret v)

/-- The power session that a `GB_PWRUP` leaves open is its agent's (`60_exceptions.md` R469). -/
def gbClaim (s : State) : State := { s with bus := { s.bus with ownGb := some s.me.id } }

/-- The same for the GBA slot. -/
def gbaClaim (s : State) : State := { s with bus := { s.bus with ownGba := some s.me.id } }

/-- The steps of `GB_PWRUP` (`42_power.md` R232, R240). -/
def gbPwrupSteps : Prog Word :=
  (ensure (needInit .gbPwrup)).then <| (ensure gbaIsOff).then <|
  (gbPowerUpSteps .gbPwrup).within.then <| (update gbClaim).then (.ret 0)

/-- `GB_PWRUP` (`42_power.md` R232, R240). -/
def execGbPwrup (s : State) : Host.Outcome State Fault Refusal := perform .gbPwrup gbPwrupSteps s

/-- The steps of `GB_PWRDN` (`42_power.md` R236). -/
def gbPwrdnSteps : Prog Word :=
  (ensure (needInit .gbPwrdn)).then <| (gbPowerDownSteps .gbPwrdn).then <| gbFlagOffStep.then (.ret 0)

/-- `GB_PWRDN` (`42_power.md` R236). -/
def execGbPwrdn (s : State) : Host.Outcome State Fault Refusal := perform .gbPwrdn gbPwrdnSteps s

/-- The steps of `GBA_PWRUP` (`42_power.md` R234, R240). -/
def gbaPwrupSteps : Prog Word :=
  (ensure (needInit .gbaPwrup)).then <| (ensure gbIsOff).then <|
  (gbaPowerUpSteps .gbaPwrup).within.then <| (update gbaClaim).then (.ret 0)

/-- `GBA_PWRUP` (`42_power.md` R234, R240). -/
def execGbaPwrup (s : State) : Host.Outcome State Fault Refusal := perform .gbaPwrup gbaPwrupSteps s

/-- The steps of `GBA_PWRDN` (`42_power.md` R237). -/
def gbaPwrdnSteps : Prog Word :=
  (ensure (needInit .gbaPwrdn)).then <| (gbaPowerDownSteps .gbaPwrdn).then <| gbaFlagOffStep.then (.ret 0)

/-- `GBA_PWRDN` (`42_power.md` R237). -/
def execGbaPwrdn (s : State) : Host.Outcome State Fault Refusal := perform .gbaPwrdn gbaPwrdnSteps s

end Sys2Proof.Machine
end

