-- ==== Sys2Proof/Machine/Sha1.lean ====
section
/-! DEFINITION. SHA-1 and its lower-case hexadecimal text (`43_gb_engine.md` R263). -/

namespace Sys2Proof.Machine

/-- The five chaining values of SHA-1. -/
structure ShaState where
  a : Word
  b : Word
  c : Word
  d : Word
  e : Word
deriving DecidableEq, Repr

/-- The initial chaining values (R263). -/
def shaInit : ShaState where
  a := 0x67452301
  b := 0xEFCDAB89
  c := 0x98BADCFE
  d := 0x10325476
  e := 0xC3D2E1F0

/-- The message with its padding: `0x80`, zeros, the bit length as 64 big-endian bits (R263). -/
def shaPad (msg : List Byte) : List Byte :=
  let zeros := List.replicate ((119 - msg.length % 64) % 64) (0x00 : Byte)
  let bitLength : List Byte :=
    (List.range 8).map fun i => BitVec.ofNat 8 ((8 * msg.length) >>> (8 * (7 - i)))
  msg ++ [(0x80 : Byte)] ++ zeros ++ bitLength

/-- The big-endian words of a block, newest first, so that `W[t-1]` is the head (R263). -/
def shaBlockWords : List Byte → List Word → List Word
  | w :: x :: y :: z :: rest, acc => shaBlockWords rest ((w ++ x ++ y ++ z) :: acc)
  | _, acc => acc

/-- `n` further words of the schedule (R263: `t` from 16 up). -/
def shaExtend : Nat → List Word → List Word
  | 0, ws => ws
  | n + 1, ws =>
    shaExtend n (((ws.getD 2 0) ^^^ (ws.getD 7 0) ^^^ (ws.getD 13 0) ^^^ (ws.getD 15 0)).rotateLeft 1 :: ws)

/-- `f` and `k` of round `t` (R263). -/
def shaFK (t : Nat) (s : ShaState) : Word × Word :=
  if t < 20 then ((s.b &&& s.c) ||| (~~~s.b &&& s.d), 0x5A827999)
  else if t < 40 then (s.b ^^^ s.c ^^^ s.d, 0x6ED9EBA1)
  else if t < 60 then ((s.b &&& s.c) ||| (s.b &&& s.d) ||| (s.c &&& s.d), 0x8F1BBCDC)
  else (s.b ^^^ s.c ^^^ s.d, 0xCA62C1D6)

/-- One round (R263). -/
def shaRound (t : Nat) (w : Word) (s : ShaState) : ShaState :=
  let fk := shaFK t s
  { a := s.a.rotateLeft 5 + fk.1 + s.e + fk.2 + w
    b := s.a
    c := s.b.rotateLeft 30
    d := s.c
    e := s.d }

/-- The rounds over a schedule, from round `t` on. -/
def shaRounds : List Word → Nat → ShaState → ShaState
  | [], _, s => s
  | w :: ws, t, s => shaRounds ws (t + 1) (shaRound t w s)

/-- One 64-byte block (R263). -/
def shaBlock (block : List Byte) (h : ShaState) : ShaState :=
  let s := shaRounds (shaExtend 64 (shaBlockWords block [])).reverse 0 h
  { a := h.a + s.a, b := h.b + s.b, c := h.c + s.c, d := h.d + s.d, e := h.e + s.e }

/-- `n` blocks of a padded message. -/
def shaBlocks : Nat → List Byte → ShaState → ShaState
  | 0, _, h => h
  | n + 1, m, h => shaBlocks n (m.drop 64) (shaBlock (m.take 64) h)

/-- The SHA-1 digest of a message (R263). -/
def sha1 (msg : List Byte) : ShaState :=
  let m := shaPad msg
  shaBlocks (m.length / 64) m shaInit

/-- The lower-case ASCII character of a hexadecimal digit (R263). -/
def hexDigit (n : Nat) : Byte := BitVec.ofNat 8 (if n < 10 then 48 + n else 87 + n)

/-- The eight hexadecimal characters of a word, most significant first (R263). -/
def hexWord (w : Word) : List Byte := (List.range 8).map fun i => hexDigit (w.toNat >>> (4 * (7 - i)) % 16)

/-- `HexLower(SHA1(msg))`: 40 characters (R263). -/
def sha1Hex (msg : List Byte) : List Byte :=
  let h := sha1 msg
  hexWord h.a ++ hexWord h.b ++ hexWord h.c ++ hexWord h.d ++ hexWord h.e

end Sys2Proof.Machine
end

