-- ==== Sys2Proof/Machine/GbEngine.lean ====
section
/-! DEFINITION. The GB/GBC protocol engine (`43_gb_engine.md` R250 to R295). -/

namespace Sys2Proof.Machine

/-! ## Bus cycles -/

/-- The cartridge RAM window `0xA000..0xBFFF`, the only addresses with `GB_CS` low (`43_gb_engine.md` R251). -/
def inRamWindow (a : Half) : Bool := decide (0xA000 ≤ a.toNat) && decide (a.toNat ≤ 0xBFFF)

/-- `GB_CS` moved for an access to the cartridge RAM window. -/
def ramSelect (a : Half) (level : Bool) (b : Bus) : Bus :=
  if inRamWindow a then pinWrite .gbCs level b else b

/-- `GbRead(a)` (`43_gb_engine.md` R251). -/
def gbRead (a : Half) (b : Bus) : Byte × Bus :=
  let b := pinWrite .gbRd false (ramSelect a false (expWrite2 .ab (loByte a) (hiByte a) b))
  let r := expReadAs (.gbRead a) .c b
  (r.1, record (.gbR a r.1) (ramSelect a true (pinWrite .gbRd true r.2)))

/-- `GbWrite(a, d)` (`43_gb_engine.md` R252). -/
def gbWrite (a : Half) (d : Byte) (b : Bus) : Bus :=
  let b := expDir .c 0x00 (expWrite .c d (expWrite2 .ab (loByte a) (hiByte a) b))
  let b := pinWrite .gbWr true (pinWrite .gbWr false (ramSelect a false b))
  record (.gbW a d) (expDir .c 0xFF (ramSelect a true b))

/-- `GbRead(a)` as a step. -/
def gbReadStep (op : Instr) (a : Half) : Prog Byte := busRead .transaction (busReady op) asByte (gbRead a)

/-- `GbWrite(a, d)` as a step. -/
def gbWriteStep (op : Instr) (a : Half) (d : Byte) : Prog Unit := busDo .transaction (busReady op) (gbWrite a d)

/-- `GbRead` of `n` addresses from `a` up. -/
def gbReadMany (op : Instr) (a n : Nat) : Prog (List Byte) :=
  .collect (fun k => gbReadStep op (BitVec.ofNat 16 (a + k))) 0 n

/-- `HBUF[BUFP + off + o] <- GbRead(a + o)` for `n` bytes. -/
def gbStore (op : Instr) (off a n : Nat) : Prog Unit :=
  .loop (fun o => storeByte (off + o) (gbReadStep op (BitVec.ofNat 16 (a + o)))) 0 n

/-- A list of `GbWrite`s, in order. -/
def gbWriteSteps (op : Instr) (ws : List (Half × Byte)) : Prog Unit :=
  .steps (ws.map fun w => gbWriteStep op w.1 w.2)

/-! ## Bank switching (`30_encoding.md` R140) -/

/-- The writes that select ROM bank `i` (`43_gb_engine.md` R270). -/
def romBankWrites (m : Mbc) (i : BitVec 9) : List (Half × Byte) :=
  match m with
  | .mbc1 =>
    [(0x2000, (i.extractLsb' 0 5).setWidth 8), (0x4000, (i.extractLsb' 5 2).setWidth 8), (0x6000, 0x00)]
  | .mbc2 => [(0x2100, (i.extractLsb' 0 4).setWidth 8)]
  | .mbc3 => [(0x2000, (i.extractLsb' 0 7).setWidth 8)]
  | .mbc5 => [(0x2000, i.extractLsb' 0 8), (0x3000, (i.extractLsb' 8 1).setWidth 8)]
  | .noMbc => []

/-- The writes that enable the cartridge RAM (`43_gb_engine.md` R275). -/
def ramOpenWrites (m : Mbc) : List (Half × Byte) :=
  match m with
  | .mbc1 => [(0x0000, 0x0A), (0x6000, 0x01)]
  | .mbc2 | .mbc3 | .mbc5 => [(0x0000, 0x0A)]
  | .noMbc => []

/-- The writes that select RAM bank `j` (`43_gb_engine.md` R278). -/
def ramBankWrites (m : Mbc) (j : BitVec 4) : List (Half × Byte) :=
  match m with
  | .mbc1 | .mbc3 => [(0x4000, (j.extractLsb' 0 2).setWidth 8)]
  | .mbc5 => [(0x4000, j.setWidth 8)]
  | .mbc2 | .noMbc => []

/-- The writes that restore bank and mode and disable the RAM (`43_gb_engine.md` R281). -/
def ramCloseWrites (m : Mbc) : List (Half × Byte) :=
  match m with
  | .mbc1 => [(0x4000, 0x00), (0x6000, 0x00), (0x0000, 0x00)]
  | .mbc3 | .mbc5 => [(0x4000, 0x00), (0x0000, 0x00)]
  | .mbc2 => [(0x0000, 0x00)]
  | .noMbc => []

/-- What a ROM bank selection leaves in the ghost record (`10_state.md` R44, `43_gb_engine.md` R270). -/
def mbcwRomBank (m : Mbc) (i : BitVec 9) (x : Mbcw) : Mbcw :=
  match m with
  | .mbc1 => { x with romBank := some i, mode := some false }
  | .mbc2 | .mbc3 | .mbc5 => { x with romBank := some i }
  | .noMbc => x

/-- What enabling the RAM leaves in the ghost record (`43_gb_engine.md` R275). -/
def mbcwRamOpen (m : Mbc) (x : Mbcw) : Mbcw :=
  match m with
  | .mbc1 => { x with ramEn := some true, mode := some true }
  | .mbc2 | .mbc3 | .mbc5 => { x with ramEn := some true }
  | .noMbc => x

/-- What a RAM bank selection leaves in the ghost record: the value written (`10_state.md` R44). DESIGN CHOICE, log entry
27: on an MBC1 the write at `0x4000` is taken for the RAM bank alone, and `rom_bank` stays as it is. -/
def mbcwRamBank (m : Mbc) (j : BitVec 4) (x : Mbcw) : Mbcw :=
  match m with
  | .mbc1 | .mbc3 => { x with ramBank := some ((j.extractLsb' 0 2).setWidth 4) }
  | .mbc5 => { x with ramBank := some j }
  | .mbc2 | .noMbc => x

/-- What closing the RAM leaves in the ghost record (`43_gb_engine.md` R281, whose ghost assignments name no
controller); a cartridge with no controller is written nothing. -/
def mbcwRamClose (m : Mbc) (x : Mbcw) : Mbcw :=
  match m with
  | .mbc1 | .mbc2 | .mbc3 | .mbc5 => { x with ramBank := some 0, mode := some false, ramEn := some false }
  | .noMbc => x

/-- A ROM bank record with its bits below `w` replaced. DESIGN CHOICE, log entry 27: bits never written count as 0. -/
def bankLow (w : Nat) (d : Byte) (x : Option (BitVec 9)) : Option (BitVec 9) :=
  some (((x.getD 0) >>> w <<< w) ||| (d.setWidth w).setWidth 9)

/-- The MBC1 register at `0x4000`, one register that holds ROM bank bits 6 and 5 and the RAM bank
(`20_memory.md` R88, R101). -/
def mbc1Upper (d : Byte) (x : Mbcw) : Mbcw :=
  { x with
    romBank := some (((x.romBank.getD 0) &&& 0x1F) ||| ((d.extractLsb' 0 2).setWidth 9 <<< 5))
    ramBank := some ((d.extractLsb' 0 2).setWidth 4) }

/-- Bit 8 of the ROM bank, the MBC5 register at `0x3000` (R88, R104). -/
def mbc5Upper (d : Byte) (x : Mbcw) : Mbcw :=
  { x with romBank := some (((x.romBank.getD 0) &&& 0xFF) ||| ((d.extractLsb' 0 1).setWidth 9 <<< 8)) }

/-- What a raw write below `0x8000` leaves in the ghost record, by the registers of a detected controller
(`20_memory.md` R101 to R104; log entry 17). -/
def mbcwRawOf (m : Mbc) (a : Nat) (d : Byte) (x : Mbcw) : Mbcw :=
  match m with
  | .noMbc => x
  | .mbc1 =>
    if a < 0x2000 then { x with ramEn := some (d.extractLsb' 0 4 == 0xA) }
    else if a < 0x4000 then { x with romBank := bankLow 5 d x.romBank }
    else if a < 0x6000 then mbc1Upper d x
    else { x with mode := some (d.getLsbD 0) }
  | .mbc2 =>
    if a < 0x4000 then
      if a / 256 % 2 = 0 then { x with ramEn := some (d.extractLsb' 0 4 == 0xA) }
      else { x with romBank := some ((d.extractLsb' 0 4).setWidth 9) }
    else x
  | .mbc3 =>
    if a < 0x2000 then { x with ramEn := some (d.extractLsb' 0 4 == 0xA) }
    else if a < 0x4000 then { x with romBank := some ((d.extractLsb' 0 7).setWidth 9) }
    else if a < 0x6000 then { x with ramBank := some (d.extractLsb' 0 4) }
    else x
  | .mbc5 =>
    if a < 0x2000 then { x with ramEn := some (d == 0x0A) }
    else if a < 0x3000 then { x with romBank := bankLow 8 d x.romBank }
    else if a < 0x4000 then mbc5Upper d x
    else if a < 0x6000 then { x with ramBank := some (d.extractLsb' 0 4) }
    else x

/-- The same where no controller has been detected: the register addresses of `20_memory.md` R88. DESIGN CHOICE, log
entry 27: R88 names several controllers' registers at one address, so at `0x2000` all 8 bits are taken for the ROM bank,
and at `0x4000` the low 4 bits for the RAM bank alone, not for bits 5 and 6 of an MBC1's ROM bank as well. -/
def mbcwRawUnknown (a : Half) (d : Byte) (x : Mbcw) : Mbcw :=
  if a = 0x0000 then { x with ramEn := some (d == 0x0A) }
  else if a = 0x2000 then { x with romBank := bankLow 8 d x.romBank }
  else if a = 0x2100 then { x with romBank := some ((d.extractLsb' 0 4).setWidth 9) }
  else if a = 0x3000 then mbc5Upper d x
  else if a = 0x4000 then { x with ramBank := some (d.extractLsb' 0 4) }
  else if a = 0x6000 then { x with mode := some (d.getLsbD 0) }
  else x

/-- What a raw `GbWrite(a, d)` leaves in the ghost record (`10_state.md` R44, `43_gb_engine.md` R254): the
registers lie below `0x8000`. -/
def mbcwRaw (g : GbSession) (a : Half) (d : Byte) (x : Mbcw) : Mbcw :=
  if 0x8000 ≤ a.toNat then x
  else if g.loaded then mbcwRawOf g.mbc a.toNat d x
  else mbcwRawUnknown a d x

/-- Register writes and then their effect on the ghost record. -/
def mbcSteps (op : Instr) (ws : List (Half × Byte)) (g : Mbcw → Mbcw) : Prog Unit :=
  (gbWriteSteps op ws).then (busDo .quiet always fun b => { b with mbcw := g b.mbcw })

/-- The steps of `GbRomBank(m, i)` (`43_gb_engine.md` R270 to R272). -/
def romBankSteps (op : Instr) (m : Mbc) (i : BitVec 9) : Prog Unit :=
  mbcSteps op (romBankWrites m i) (mbcwRomBank m i)
/-- The steps of `GbRamOpen(m)` (`43_gb_engine.md` R275). -/
def ramOpenSteps (op : Instr) (m : Mbc) : Prog Unit := mbcSteps op (ramOpenWrites m) (mbcwRamOpen m)
/-- The steps of `GbRamBank(m, j)` (`43_gb_engine.md` R278). -/
def ramBankSteps (op : Instr) (m : Mbc) (j : BitVec 4) : Prog Unit :=
  mbcSteps op (ramBankWrites m j) (mbcwRamBank m j)
/-- The steps of `GbRamClose(m)` (`43_gb_engine.md` R281). -/
def ramCloseSteps (op : Instr) (m : Mbc) : Prog Unit := mbcSteps op (ramCloseWrites m) (mbcwRamClose m)

/-! ## Header -/

/-- The GB/GBC session cleared (`10_state.md` R35, `43_gb_engine.md` R294). -/
def gbClear (s : State) : State := { s with gb := .empty }

/-- The GB/GBC session written in one step, or cleared. -/
def setGb (g : GbSession) : Prog Unit := update fun s => { s with gb := g }

/-- The session of a header that verifies; one that fails clears the session, before the power-down
(`43_gb_engine.md` R264, R265). -/
def gbJudgeSteps (h : List Byte) : Prog (Option GbSession) :=
  match gbSessionOf h (sha1Hex h) with
  | some g => .ret (some g)
  | none => (update gbClear).then (.ret none)

/-- A verified session written after the power-down (`43_gb_engine.md` R265). -/
def gbKeepSteps (r : Option GbSession) : Prog Word :=
  match r with
  | some g => (setGb g).then (.ret 1)
  | none => .ret 0

/-- The steps of `GbLoadHeader()` (`43_gb_engine.md` R258, R264, R265): four throwaway reads, the 1024 header
bytes, the verification, the power-down, the session. -/
def gbLoadSteps (op : Instr) : Prog Word :=
  (withGbPower op <| (gbReadMany op 0 4).then <| (gbReadMany op 0 1024).bind gbJudgeSteps).bind gbKeepSteps

/-- The 64 bytes of logo and title field, read live (`43_gb_engine.md` R266). -/
def gbCheckSteps (op : Instr) : Prog (List Byte) := withGbPower op (gbReadMany op 0x104 64)

/-- The three outcomes of a live verification (`46_dispatcher.md` R437). -/
inductive Live where
  | absent
  | changed
  | same
deriving DecidableEq, Repr

/-- The outcome for 64 bytes read at `0x104` and a cached title (`46_dispatcher.md` R437). -/
def gbLive (g : List Byte) (title : List Byte) : Live :=
  if g.take 48 ≠ logo then .absent
  else if normTitle (g.drop 48) ≠ title then .changed
  else .same

/-- The steps of `GbIsLoaded()` (`43_gb_engine.md` R266). -/
def gbIsLoadedSteps (op : Instr) : Prog Word :=
  (look asGb State.gb).bind fun g =>
  if g.loaded = false then .ret 0
  else
    (gbCheckSteps op).bind fun v =>
    (look asGb State.gb).bind fun now =>
    if gbLive v now.title = .same then .ret 1 else (update gbClear).then (.ret 0)

/-! ## Bulk operations -/

/-- The bytes of a ROM dump (`43_gb_engine.md` R284). -/
def gbDumpTotal (g : GbSession) : Nat :=
  if g.mbc = .noMbc then min g.romSize.toNat 0x8000 else g.romSize.toNat

/-- The switched banks `1` to `n - 1`, each a 16K window stored at its place in the image, then bank 1
restored (`43_gb_engine.md` R284). -/
def gbDumpBankSteps (op : Instr) (m : Mbc) (n : Nat) : Prog Unit :=
  (Prog.loop (fun i =>
    (romBankSteps op m (BitVec.ofNat 9 i)).then (gbStore op (i * 0x4000) 0x4000 0x4000)) 1 (n - 1)).then
  (romBankSteps op m 1)

/-- The steps of `GbReadRom()` (`43_gb_engine.md` R284, R285). -/
def gbReadRomSteps (op : Instr) : Prog Word :=
  (look asGb State.gb).bind fun g =>
  if g.loaded = false then .ret 0
  else
    (ensure (needBuf (gbDumpTotal g))).then <|
    (withGbPower op <|
      (gbStore op 0 0 0x4000).then <|
      if g.mbc = .noMbc then gbStore op 0x4000 0x4000 (gbDumpTotal g - 0x4000)
      else gbDumpBankSteps op g.mbc (g.romSize.toNat / 0x4000)).then <|
    .ret (countWord (gbDumpTotal g))

/-- The 8K banks of a save, rounded up (`43_gb_engine.md` R288). -/
def saveBanks (sz : Nat) : Nat := (sz + 0x1FFF) / 0x2000

/-- The bytes of save bank `j` (`43_gb_engine.md` R288). -/
def saveBankLen (sz j : Nat) : Nat := min 0x2000 (sz - j * 0x2000)

/-- The steps of `GbReadSave()` (`43_gb_engine.md` R288, R289). -/
def gbReadSaveSteps (op : Instr) : Prog Word :=
  (look asGb State.gb).bind fun g =>
  if g.loaded = false ∨ g.saveSize = 0 then .ret 0
  else
    (ensure (needBuf g.saveSize.toNat)).then <|
    (withGbPower op <|
      (ramOpenSteps op g.mbc).then <|
      (Prog.loop (fun j =>
        (ramBankSteps op g.mbc (BitVec.ofNat 4 j)).then
          (gbStore op (j * 0x2000) 0xA000 (saveBankLen g.saveSize.toNat j))) 0 (saveBanks g.saveSize.toNat)).then <|
      ramCloseSteps op g.mbc).then <|
    .ret (countWord g.saveSize.toNat)

/-- `GbWrite(a + o, HBUF[BUFP + off + o])` for `n` bytes. -/
def gbFetch (op : Instr) (off a n : Nat) : Prog Unit :=
  .loop (fun o => (memRead (off + o) 1).bind fun v => gbWriteStep op (BitVec.ofNat 16 (a + o)) (v.headD 0)) 0 n

/-- The steps of `GbWriteSave()` (`43_gb_engine.md` R291). -/
def gbWriteSaveSteps (op : Instr) : Prog Word :=
  (look asGb State.gb).bind fun g =>
  if g.loaded = false ∨ g.saveSize = 0 then .ret 0
  else
    (ensure (needBuf g.saveSize.toNat)).then <|
    (withGbPower op <|
      (ramOpenSteps op g.mbc).then <|
      (Prog.loop (fun j =>
        (ramBankSteps op g.mbc (BitVec.ofNat 4 j)).then
          (gbFetch op (j * 0x2000) 0xA000 (saveBankLen g.saveSize.toNat j))) 0 (saveBanks g.saveSize.toNat)).then <|
      ramCloseSteps op g.mbc).then <|
    .ret (countWord g.saveSize.toNat)

/-! ## Operations -/

/-- The steps of `GB_BUSRD addr` (`43_gb_engine.md` R253). -/
def gbBusrdSteps (addr : Half) : Prog Word :=
  (ensure (needInit (.gbBusrd addr))).then <| (gbReadStep (.gbBusrd addr) addr).map (·.setWidth 32)

/-- `GB_BUSRD addr` (`43_gb_engine.md` R253). -/
def execGbBusrd (addr : Half) (s : State) : Host.Outcome State Fault Refusal :=
  perform (.gbBusrd addr) (gbBusrdSteps addr) s

/-- The steps of `GB_BUSWR data, addr` (`43_gb_engine.md` R254, `10_state.md` R44). -/
def gbBuswrSteps (addr : Half) (data : Byte) : Prog Word :=
  (ensure (needInit (.gbBuswr addr data))).then <|
  (gbWriteStep (.gbBuswr addr data) addr data).then <|
  (update fun s => { s with bus := { s.bus with mbcw := mbcwRaw s.gb addr data s.bus.mbcw } }).then <|
  .ret 0

/-- `GB_BUSWR data, addr` (`43_gb_engine.md` R254). -/
def execGbBuswr (addr : Half) (data : Byte) (s : State) : Host.Outcome State Fault Refusal :=
  perform (.gbBuswr addr data) (gbBuswrSteps addr data) s

/-- The steps of `GB_ROMBANK mbc, bank`; a controller without the register is written nothing
(`43_gb_engine.md` R270; log entry 13). -/
def gbRombankSteps (mbc : Mbc) (bank : BitVec 9) : Prog Word :=
  (ensure (needInit (.gbRombank mbc bank))).then <| (romBankSteps (.gbRombank mbc bank) mbc bank).then (.ret 0)

/-- `GB_ROMBANK mbc, bank` (`43_gb_engine.md` R270). -/
def execGbRombank (mbc : Mbc) (bank : BitVec 9) (s : State) : Host.Outcome State Fault Refusal :=
  perform (.gbRombank mbc bank) (gbRombankSteps mbc bank) s

/-- The steps of `GB_RAMOPEN mbc` (`43_gb_engine.md` R275). -/
def gbRamopenSteps (mbc : Mbc) : Prog Word :=
  (ensure (needInit (.gbRamopen mbc))).then <| (ramOpenSteps (.gbRamopen mbc) mbc).then (.ret 0)

/-- `GB_RAMOPEN mbc` (`43_gb_engine.md` R275). -/
def execGbRamopen (mbc : Mbc) (s : State) : Host.Outcome State Fault Refusal :=
  perform (.gbRamopen mbc) (gbRamopenSteps mbc) s

/-- The steps of `GB_RAMBANK mbc, bank` (`43_gb_engine.md` R278). -/
def gbRambankSteps (mbc : Mbc) (bank : BitVec 4) : Prog Word :=
  (ensure (needInit (.gbRambank mbc bank))).then <| (ramBankSteps (.gbRambank mbc bank) mbc bank).then (.ret 0)

/-- `GB_RAMBANK mbc, bank` (`43_gb_engine.md` R278). -/
def execGbRambank (mbc : Mbc) (bank : BitVec 4) (s : State) : Host.Outcome State Fault Refusal :=
  perform (.gbRambank mbc bank) (gbRambankSteps mbc bank) s

/-- The steps of `GB_RAMCLOSE mbc` (`43_gb_engine.md` R281). -/
def gbRamcloseSteps (mbc : Mbc) : Prog Word :=
  (ensure (needInit (.gbRamclose mbc))).then <| (ramCloseSteps (.gbRamclose mbc) mbc).then (.ret 0)

/-- `GB_RAMCLOSE mbc` (`43_gb_engine.md` R281). -/
def execGbRamclose (mbc : Mbc) (s : State) : Host.Outcome State Fault Refusal :=
  perform (.gbRamclose mbc) (gbRamcloseSteps mbc) s

/-- The steps of `GB_LOADHDR` (`43_gb_engine.md` R258). -/
def gbLoadhdrSteps : Prog Word := (ensure (needInit .gbLoadhdr)).then (gbLoadSteps .gbLoadhdr)

/-- `GB_LOADHDR` (`43_gb_engine.md` R258). -/
def execGbLoadhdr (s : State) : Host.Outcome State Fault Refusal := perform .gbLoadhdr gbLoadhdrSteps s

/-- The steps of `GB_ISLOADED` (`43_gb_engine.md` R266). -/
def gbIsloadedSteps : Prog Word := (ensure (needInit .gbIsloaded)).then (gbIsLoadedSteps .gbIsloaded)

/-- `GB_ISLOADED` (`43_gb_engine.md` R266). -/
def execGbIsloaded (s : State) : Host.Outcome State Fault Refusal := perform .gbIsloaded gbIsloadedSteps s

/-- The steps of `GB_READROM` (`43_gb_engine.md` R284). -/
def gbReadromSteps : Prog Word := (ensure (needInit .gbReadrom)).then (gbReadRomSteps .gbReadrom)

/-- `GB_READROM` (`43_gb_engine.md` R284). -/
def execGbReadrom (s : State) : Host.Outcome State Fault Refusal := perform .gbReadrom gbReadromSteps s

/-- The steps of `GB_READSAVE` (`43_gb_engine.md` R288). -/
def gbReadsaveSteps : Prog Word := (ensure (needInit .gbReadsave)).then (gbReadSaveSteps .gbReadsave)

/-- `GB_READSAVE` (`43_gb_engine.md` R288). -/
def execGbReadsave (s : State) : Host.Outcome State Fault Refusal := perform .gbReadsave gbReadsaveSteps s

/-- The steps of `GB_WRITESAVE` (`43_gb_engine.md` R291). -/
def gbWritesaveSteps : Prog Word := (ensure (needInit .gbWritesave)).then (gbWriteSaveSteps .gbWritesave)

/-- `GB_WRITESAVE` (`43_gb_engine.md` R291). -/
def execGbWritesave (s : State) : Host.Outcome State Fault Refusal := perform .gbWritesave gbWritesaveSteps s

/-- The steps of `GB_CLEAR` (`43_gb_engine.md` R294). -/
def gbClearSteps : Prog Word := (update gbClear).then (.ret 0)

/-- `GB_CLEAR` (`43_gb_engine.md` R294). -/
def execGbClear (s : State) : Host.Outcome State Fault Refusal := perform .gbClear gbClearSteps s

end Sys2Proof.Machine
end

