-- ==== Sys2Proof/Machine/GbaRom.lean ====
section
/-! DEFINITION. The GBA ROM engine but for the header load, which classifies the save chip and stands in
`Machine/GbaSave.lean` (`44_gba_rom.md` R310 to R334). -/

namespace Sys2Proof.Machine

/-! ## Bus cycles -/

/-- `GbaLatch(ha)` (`44_gba_rom.md` R311). -/
def gbaLatch (ha : BitVec 24) (b : Bus) : Bus :=
  let b := expWrite .c (haByte2 ha) (expWrite2 .ab (haByte0 ha) (haByte1 ha) b)
  let b := expDir2 .ab 0xFF 0xFF (pinWrite .gbaCs false b)
  record (.romLatch ha) (crdStart .ab b)

/-- `GbaNext()` (`44_gba_rom.md` R312). -/
def gbaNext (b : Bus) : Half × Bus :=
  let r := crdContRom (pinWrite .gbaRd false b)
  (r.1, record (.romNext r.1) (pinWrite .gbaRd true r.2))

/-- `GbaEnd()` (`44_gba_rom.md` R313). -/
def gbaEnd (b : Bus) : Bus :=
  record .romEnd (expDir2 .ab 0x00 0x00 (pinWrite .gbaCs true (crdEnd b)))

/-- `GbaLatch(ha)` as a step; the burst it opens is one transaction up to `GbaEnd` (log entry 5). -/
def gbaLatchStep (op : Instr) (ha : BitVec 24) : Prog Unit :=
  (busDo .transaction (busReady op) (gbaLatch ha)).within

/-- `GbaNext()` as a step. -/
def gbaNextStep (op : Instr) : Prog Half := (busRead .transaction (streamReady op) asHalf gbaNext).within

/-- `GbaEnd()` as a step. -/
def gbaEndStep (op : Instr) : Prog Unit := busDo .transaction (streamReady op) gbaEnd

/-- Halfword `k` of a burst from `ha`: the address is latched again at every multiple of `GBA_RELATCH`
(`44_gba_rom.md` R314). -/
def burstSteps (op : Instr) (ha k : Nat) : Prog Half :=
  if 0 < k ∧ (ha + k) % Config.gbaRelatch = 0 then
    (gbaEndStep op).then <| (gbaLatchStep op (BitVec.ofNat 24 (ha + k))).then (gbaNextStep op)
  else gbaNextStep op

/-- The bytes of a burst, a halfword's low byte at the lower address (`20_memory.md` R79). -/
def halfBytes (vs : List Half) : List Byte := (vs.map fun v => [loByte v, hiByte v]).flatten

/-- The steps of `GbaRomRead(ba, n)` (`44_gba_rom.md` R314). -/
def gbaRomReadSteps (op : Instr) (ba n : Nat) : Prog (List Byte) :=
  (gbaLatchStep op (BitVec.ofNat 24 (ba / 2))).then <|
  (Prog.collect (burstSteps op (ba / 2)) 0 (n / 2)).bind fun vs =>
  (gbaEndStep op).then (.ret (halfBytes vs))

/-! ## Header and size probe -/

/-- The GBA session cleared (`10_state.md` R38, `44_gba_rom.md` R333). -/
def gbaClear (s : State) : State := { s with gba := .empty }

/-- Whether 200 bytes read 8 bytes before a boundary repeat the header from the boundary on
(`44_gba_rom.md` R325: exact equality). -/
def wrapsAt (w h : List Byte) : Bool := w.drop 8 == h

/-- The steps of `GbaProbeSize(h)` (`44_gba_rom.md` R325 to R327): 4, 8 and 16 MB, else 32 MB. -/
def gbaProbeSizeSteps (op : Instr) (h : List Byte) : Prog Word :=
  (gbaRomReadSteps op (0x400000 - 8) 200).bind fun w4 =>
  if wrapsAt w4 h then .ret 0x400000
  else
    (gbaRomReadSteps op (0x800000 - 8) 200).bind fun w8 =>
    if wrapsAt w8 h then .ret 0x800000
    else
      (gbaRomReadSteps op (0x1000000 - 8) 200).map fun w16 => if wrapsAt w16 h then 0x1000000 else 0x2000000

/-- The 192 header bytes, the slot powered (`44_gba_rom.md` R320, R325, R328). -/
def gbaHeaderSteps (op : Instr) : Prog (List Byte) := gbaRomReadSteps op 0 192

/-- The 192 header bytes, read live (`44_gba_rom.md` R328). -/
def gbaCheckSteps (op : Instr) : Prog (List Byte) := withGbaPower op (gbaHeaderSteps op)

/-- The outcome of a live verification of 192 header bytes against a session (`46_dispatcher.md` R437). -/
def gbaLive (h : List Byte) (g : GbaSession) : Live :=
  if gbaChecksumOk h = false then .absent
  else if gbaTitle h ≠ g.title ∨ gbaCode h ≠ g.code ∨ gbaMaker h ≠ g.maker then .changed
  else .same

/-- The steps of `GbaIsLoaded()` (`44_gba_rom.md` R328). -/
def gbaIsLoadedSteps (op : Instr) : Prog Word :=
  (look asGba State.gba).bind fun g =>
  if g.loaded = false then .ret 0
  else
    (gbaCheckSteps op).bind fun h =>
    (look asGba State.gba).bind fun now =>
    if gbaLive h now = .same then .ret 1 else (update gbaClear).then (.ret 0)

/-- The steps of `GbaReadRom()` (`44_gba_rom.md` R331). -/
def gbaReadRomSteps (op : Instr) : Prog Word :=
  (look asGba State.gba).bind fun g =>
  if g.loaded = false then .ret 0
  else
    (ensure (needBuf g.romSize.toNat)).then <|
    (withGbaPower op <| (gbaRomReadSteps op 0 g.romSize.toNat).bind fun out => memWrite 0 out).then <|
    .ret (countWord g.romSize.toNat)

/-! ## Operations -/

/-- The steps of `GBA_ROMRD len, addr` (`44_gba_rom.md` R316). -/
def gbaRomrdSteps (addr : BitVec 25) (len : Half) : Prog Word :=
  (ensure (needInit (.gbaRomrd addr len))).then <|
  (ensure (needBuf len.toNat)).then <|
  (gbaRomReadSteps (.gbaRomrd addr len) addr.toNat len.toNat).bind fun out =>
  (memWrite 0 out).then (.ret (countWord len.toNat))

/-- `GBA_ROMRD len, addr` (`44_gba_rom.md` R316). -/
def execGbaRomrd (addr : BitVec 25) (len : Half) (s : State) : Host.Outcome State Fault Refusal :=
  perform (.gbaRomrd addr len) (gbaRomrdSteps addr len) s

/-- The steps of `GBA_ISLOADED` (`44_gba_rom.md` R328). -/
def gbaIsloadedSteps : Prog Word := (ensure (needInit .gbaIsloaded)).then (gbaIsLoadedSteps .gbaIsloaded)

/-- `GBA_ISLOADED` (`44_gba_rom.md` R328). -/
def execGbaIsloaded (s : State) : Host.Outcome State Fault Refusal := perform .gbaIsloaded gbaIsloadedSteps s

/-- The steps of `GBA_READROM` (`44_gba_rom.md` R331). -/
def gbaReadromSteps : Prog Word := (ensure (needInit .gbaReadrom)).then (gbaReadRomSteps .gbaReadrom)

/-- `GBA_READROM` (`44_gba_rom.md` R331). -/
def execGbaReadrom (s : State) : Host.Outcome State Fault Refusal := perform .gbaReadrom gbaReadromSteps s

/-- The steps of `GBA_PROBESIZE` (`44_gba_rom.md` R325). -/
def gbaProbesizeSteps : Prog Word :=
  (ensure (needInit .gbaProbesize)).then <|
  withGbaPower .gbaProbesize <| (gbaHeaderSteps .gbaProbesize).bind fun h => gbaProbeSizeSteps .gbaProbesize h

/-- `GBA_PROBESIZE` (`44_gba_rom.md` R325). -/
def execGbaProbesize (s : State) : Host.Outcome State Fault Refusal := perform .gbaProbesize gbaProbesizeSteps s

/-- The steps of `GBA_CLEAR` (`44_gba_rom.md` R333). -/
def gbaClearSteps : Prog Word := (update gbaClear).then (.ret 0)

/-- `GBA_CLEAR` (`44_gba_rom.md` R333). -/
def execGbaClear (s : State) : Host.Outcome State Fault Refusal := perform .gbaClear gbaClearSteps s

end Sys2Proof.Machine
end

