-- ==== Sys2Proof/Machine/GbaSave.lean ====
section
/-! DEFINITION. The GBA save engine (`45_gba_save.md` R350 to R404), and the GBA header load, which ends
with a classification (`44_gba_rom.md` R320). -/

namespace Sys2Proof.Machine

/-! ## Save-bus cycles -/

/-- `SaveRead(a)` (`45_gba_save.md` R351). -/
def saveRead (a : Half) (b : Bus) : Byte × Bus :=
  let b := expDir .c 0xFF (expWrite2 .ab (loByte a) (hiByte a) b)
  let r := expReadAs (.saveRead a) .c (pinWrite .gbaRd false (pinWrite .gbaCs2 false b))
  (r.1, record (.saveR a r.1) (expDir .c 0x00 (pinWrite .gbaCs2 true (pinWrite .gbaRd true r.2))))

/-- `SaveWrite(a, d)` (`45_gba_save.md` R352). -/
def saveWrite (a : Half) (d : Byte) (b : Bus) : Bus :=
  let b := pinWrite .gbaCs2 false (expWrite .c d (expWrite2 .ab (loByte a) (hiByte a) b))
  record (.saveW a d) (pinWrite .gbaCs2 true (pinWrite .gbaWr true (pinWrite .gbaWr false b)))

/-- `SaveRead(a)` as a step. -/
def saveReadStep (op : Instr) (a : Half) : Prog Byte := busRead .transaction (busReady op) asByte (saveRead a)

/-- `SaveWrite(a, d)` as a step. -/
def saveWriteStep (op : Instr) (a : Half) (d : Byte) : Prog Unit := busDo .transaction (busReady op) (saveWrite a d)

/-- `SaveRead` of `n` addresses from `a` up. -/
def saveReadMany (op : Instr) (a n : Nat) : Prog (List Byte) :=
  .collect (fun k => saveReadStep op (BitVec.ofNat 16 (a + k))) 0 n

/-- A list of `SaveWrite`s, in order. -/
def saveWriteSteps (op : Instr) (ws : List (Half × Byte)) : Prog Unit :=
  .steps (ws.map fun w => saveWriteStep op w.1 w.2)

/-! ## EEPROM serial access -/

/-- `EepBegin()` (`45_gba_save.md` R370). -/
def eepBegin (b : Bus) : Bus :=
  let b := expWrite2 .ab (haByte0 Config.eepBusHa) (haByte1 Config.eepBusHa) b
  record .eepOpen (pinWrite .gbaCs false (expWrite .c (haByte2 Config.eepBusHa) b))

/-- `EepOut(b)` (`45_gba_save.md` R371). -/
def eepOut (v : Bool) (b : Bus) : Bus :=
  let b := busyWait .eepBit (pinWrite .gbaWr false (expWrite .a (ad0Byte v) b))
  record (.eepOutBit v) (busyWait .eepBit (pinWrite .gbaWr true b))

/-- `EepTurn()` (`45_gba_save.md` R372). -/
def eepTurn (b : Bus) : Bus := record .eepTurn (expDir .a 0x01 b)

/-- `EepIn()` (`45_gba_save.md` R373). -/
def eepIn (b : Bus) : Bool × Bus :=
  let r := expReadAs .eepIn .a (busyWait .eepBit (pinWrite .gbaRd false b))
  let v := r.1.getLsbD 0
  (v, record (.eepInBit v) (busyWait .eepBit (pinWrite .gbaRd true r.2)))

/-- `EepEnd()` (`45_gba_save.md` R374). -/
def eepEnd (b : Bus) : Bus := record .eepClose (expDir .a 0x00 (pinWrite .gbaCs true b))

/-- A string of bits clocked out, first bit first. -/
def eepSendSteps (op : Instr) (bits : List Bool) : Prog Unit :=
  .steps (bits.map fun v => busDo .transaction (busReady op) (eepOut v))

/-- `EepIn()` as a step. -/
def eepInStep (op : Instr) : Prog Bool := busRead .transaction (busReady op) asBit eepIn

/-- The bits of a read request (`30_encoding.md` R150). -/
def eepReadRequest (frm : Framing) (row : Nat) : List Bool :=
  [true, true] ++ rowBits (framingWidth frm) row ++ [false]

/-- The bits of a write request (`30_encoding.md` R150). -/
def eepWriteRequest (frm : Framing) (row : Nat) (data : List Byte) : List Bool :=
  [true, false] ++ rowBits (framingWidth frm) row ++ (data.map byteBits).flatten ++ [false]

/-- A request clocked out between `EepBegin()` and what follows it. -/
def eepOpenSteps (op : Instr) (request : List Bool) : Prog Unit :=
  (busDo .transaction (busReady op) eepBegin).then (eepSendSteps op request)

/-- The steps of `EepReadRow(frm, r)` (`45_gba_save.md` R376); the request is one transaction up to `EepEnd`
(log entry 5). -/
def eepReadRowSteps (op : Instr) (frm : Framing) (row : Nat) : Prog (List Byte) :=
  (((eepOpenSteps op (eepReadRequest frm row)).then <|
    (busDo .transaction (busReady op) eepTurn).then <|
    (Prog.collect (fun _ => eepInStep op) 0 4).then <|
    Prog.collect (fun _ => eepInStep op) 0 64).within).bind fun bits =>
  (busDo .transaction (busReady op) eepEnd).then (.ret (bytesOfBits 8 bits))

/-- The steps of `EepWriteRow(frm, r, row)` (`45_gba_save.md` R378, R379): the write is one transaction up to the
end of its programming delay, during which no other agent's step may touch the bus. -/
def eepWriteRowSteps (op : Instr) (frm : Framing) (row : Nat) (data : List Byte) : Prog Unit :=
  ((eepOpenSteps op (eepWriteRequest frm row data)).then (busDo .transaction (busReady op) eepEnd)).within.then
    (delayStep .eepWrite)

/-! ## Flash commands (`30_encoding.md` R152) -/

/-- The unlock prefix (`45_gba_save.md` R384). -/
def flashUnlock : List (Half × Byte) := [(0x5555, 0xAA), (0x2AAA, 0x55)]

/-- The steps of `FlashId()`: manufacturer and device (`45_gba_save.md` R384). -/
def flashIdSteps (op : Instr) : Prog (Byte × Byte) :=
  (saveWriteSteps op (flashUnlock ++ [(0x5555, 0x90)])).then <|
  (saveReadStep op 0x0000).bind fun mfr =>
  (saveReadStep op 0x0001).bind fun dev =>
  (saveWriteSteps op (flashUnlock ++ [(0x5555, 0xF0)])).then (.ret (mfr, dev))

/-- The steps of `FlashBank(b)` (`45_gba_save.md` R386). -/
def flashBankSteps (op : Instr) (bank : Bool) : Prog Unit :=
  saveWriteSteps op (flashUnlock ++ [(0x5555, 0xB0), (0x0000, if bank then 0x01 else 0x00)])

/-- The 4096-byte sector of an address (`45_gba_save.md` R388). -/
def eraseSector (a : Half) : Half := a.extractLsb' 12 4 ++ (0 : BitVec 12)

/-- The steps of `FlashErase(a)` (`45_gba_save.md` R388). -/
def flashEraseSteps (op : Instr) (a : Half) : Prog Unit :=
  (saveWriteSteps op (flashUnlock ++ [(0x5555, 0x80)] ++ flashUnlock ++ [(eraseSector a, 0x30)])).then
    (delayStep .flashErase)

/-- The steps of `FlashProg(a, d)` (`45_gba_save.md` R390). -/
def flashProgSteps (op : Instr) (a : Half) (d : Byte) : Prog Unit :=
  (saveWriteSteps op (flashUnlock ++ [(0x5555, 0xA0), (a, d)])).then (delayStep .flashProg)

/-- The steps of `FlashProg128(s, data)` (`45_gba_save.md` R392). -/
def flashProg128Steps (op : Instr) (sector : Half) (data : List Byte) : Prog Unit :=
  (saveWriteSteps op (flashUnlock ++ [(0x5555, 0xA0)])).then <|
  (Prog.steps (data.mapIdx fun k v => saveWriteStep op (sector + BitVec.ofNat 16 k) v)).then <|
  delayStep .flashAtmel

/-! ## Save classification -/

/-- `EepSize(e)` for the rows read (`45_gba_save.md` R357). -/
def eepSize (e : List Byte) : SaveType :=
  let first := e.take 8
  let diff := ((List.range (Config.eepProbeRows - 1)).map fun r => bitDiff (slice (8 * (r + 1)) 8 e) first).sum
  if diff * 100 ≤ (100 - Config.lenEeprom) * (64 * (Config.eepProbeRows - 1)) then .eeprom4k else .eeprom64k

/-- The verdict of `EepProbe()` on the rows read; `none` is `NotEeprom` (`45_gba_save.md` R356). -/
def eepVerdict (e : List Byte) : Option SaveType :=
  if outsideBand Config.lenEeprom (popcount e) (8 * (8 * Config.eepProbeRows)) then none else some (eepSize e)

/-- The steps of `EepProbe()` (`45_gba_save.md` R356). -/
def eepProbeSteps (op : Instr) : Prog (Option SaveType) :=
  (Prog.collect (fun row => eepReadRowSteps op .k64 row) 0 Config.eepProbeRows).map fun rows => eepVerdict rows.flatten

/-- The steps that read the presence windows (`45_gba_save.md` R358). -/
def presenceSteps (op : Instr) : Prog (List Byte) :=
  (Prog.collect (fun k => saveReadMany op (k * (Config.presSpan / Config.presWindows)) Config.presWinLen)
    0 Config.presWindows).map List.flatten

/-- The verdict of `SavePresent()` on the bytes read (`45_gba_save.md` R358). -/
def presenceVerdict (bytes : List Byte) : Bool :=
  !outsideBand Config.lenPresence (popcount bytes) (8 * (Config.presWindows * Config.presWinLen))

/-- The steps of `SavePresent()` (`45_gba_save.md` R358). -/
def savePresentSteps (op : Instr) : Prog Bool := (presenceSteps op).map presenceVerdict

/-- The steps of `SramProbe()` (`45_gba_save.md` R359). -/
def sramProbeSteps (op : Instr) : Prog Bool :=
  (saveReadStep op 0x0000).bind fun o =>
  (saveWriteStep op 0x0000 (~~~o)).then <|
  (saveReadStep op 0x0000).bind fun r1 =>
  (saveWriteStep op 0x0000 o).then <|
  (saveReadStep op 0x0000).map fun r2 => r1 != o && r2 == o

/-- The matching bits of two wraparound samples (`45_gba_save.md` R360, R365). -/
def sampleSame (x y : List Byte) : Nat := 8 * Config.saveWrapSample - bitDiff x y

/-- The verdict of `SramSize()` on its two samples (`45_gba_save.md` R360). -/
def sramVerdict (x y : List Byte) : SaveType :=
  if agrees Config.lenSram (sampleSame x y) (8 * Config.saveWrapSample) then .sram256k else .sram512k

/-- The steps of `SramSize()` (`45_gba_save.md` R360). -/
def sramSizeSteps (op : Instr) : Prog SaveType :=
  (saveReadMany op 0 Config.saveWrapSample).bind fun x =>
  (saveReadMany op 0x8000 Config.saveWrapSample).map fun y => sramVerdict x y

/-- The verdict of `FlashFallback()` on its two samples (`45_gba_save.md` R365). -/
def flashVerdict (x y : List Byte) : SaveType :=
  if agrees Config.lenFlash (sampleSame x y) (8 * Config.saveWrapSample) then .flash512k else .flash1m

/-- The steps of `FlashFallback()` (`45_gba_save.md` R365). -/
def flashFallbackSteps (op : Instr) : Prog SaveType :=
  (saveReadMany op 0 Config.saveWrapSample).bind fun x =>
  (flashBankSteps op true).then <|
  (saveReadMany op 0 Config.saveWrapSample).bind fun y =>
  (flashBankSteps op false).then (.ret (flashVerdict x y))

/-- The save type and the flash IDs a classification finds (`45_gba_save.md` R355). -/
structure Classified where
  kind : SaveType
  mfr : Byte
  dev : Byte
deriving DecidableEq, Repr

/-- A classification that found no flash chip. -/
def unflashed (t : SaveType) : Classified where
  kind := t
  mfr := 0
  dev := 0

/-- The type of the flash chip with these IDs: the table, else the fallback (`45_gba_save.md` R355, R365). -/
def classifyFlashOf (op : Instr) (id : Byte × Byte) : Prog Classified :=
  match flashTable id.1 id.2 with
  | some t => .ret { kind := t, mfr := id.1, dev := id.2 }
  | none => (flashFallbackSteps op).map fun t => { kind := t, mfr := id.1, dev := id.2 }

/-- The flash branch of a classification (`45_gba_save.md` R355). -/
def classifyFlashSteps (op : Instr) : Prog Classified := (flashIdSteps op).bind (classifyFlashOf op)

/-- The SRAM and flash branches of a classification (`45_gba_save.md` R355). -/
def classifyParallelSteps (op : Instr) : Prog Classified :=
  (savePresentSteps op).bind fun present =>
  if present then
    (sramProbeSteps op).bind fun sram =>
    if sram then (sramSizeSteps op).map unflashed else classifyFlashSteps op
  else .ret (unflashed .unknown)

/-- What follows the EEPROM probe: its verdict, or the other branches (`45_gba_save.md` R355). -/
def classifyAfter (op : Instr) (e : Option SaveType) : Prog Classified :=
  match e with
  | some t => .ret (unflashed t)
  | none => classifyParallelSteps op

/-- The probes of a classification in their order (`45_gba_save.md` R355, R366). -/
def classifyProbes (op : Instr) : Prog Classified := (eepProbeSteps op).bind (classifyAfter op)

/-- The steps of `GbaClassify()` (`45_gba_save.md` R355). -/
def classifySteps (op : Instr) : Prog Classified := withGbaPower op (classifyProbes op)

/-- The session a verified header, a probed size and a classification give (`44_gba_rom.md` R320). -/
def gbaSessionOf (h : List Byte) (romSize : Word) (c : Classified) : GbaSession where
  loaded := true
  title := gbaTitle h
  code := gbaCode h
  maker := gbaMaker h
  romSize := romSize
  saveType := c.kind
  saveSize := saveTypeSize c.kind
  flashMfr := c.mfr
  flashDev := c.dev

/-- The GBA session written in one step (`44_gba_rom.md` R323). -/
def setGba (g : GbaSession) : Prog Unit := update fun s => { s with gba := g }

/-- A header that verifies is sized in the same power session; one that fails clears the session, before the
power-down (`44_gba_rom.md` R320, R322). -/
def gbaJudgeSteps (op : Instr) (h : List Byte) : Prog (Option (List Byte × Word)) :=
  if gbaChecksumOk h then (gbaProbeSizeSteps op h).map fun rs => some (h, rs)
  else (update gbaClear).then (.ret none)

/-- A verified cartridge is classified in a second power session, and then the session is written
(`44_gba_rom.md` R320, R323). -/
def gbaKeepSteps (op : Instr) (r : Option (List Byte × Word)) : Prog Word :=
  match r with
  | some (h, rs) => (classifySteps op).bind fun c => (setGba (gbaSessionOf h rs c)).then (.ret 1)
  | none => .ret 0

/-- The steps of `GbaLoadHeader()` (`44_gba_rom.md` R320, R322, R323). -/
def gbaLoadSteps (op : Instr) : Prog Word :=
  (withGbaPower op <| (gbaHeaderSteps op).bind (gbaJudgeSteps op)).bind (gbaKeepSteps op)

/-! ## Bulk save operations -/

/-- The framing of an EEPROM save type (`45_gba_save.md` R377). -/
def framingFor (t : SaveType) : Framing := if t = .eeprom4k then .k4 else .k64

/-- The bank switches of a flash save that spans two banks: bank 1 from `0x10000` on (`45_gba_save.md` R396). -/
def flashTurnSteps (op : Instr) (a : Nat) : Prog Unit := if a = 0x10000 then flashBankSteps op true else .ret ()

/-- Bank 0 selected again after data that spans two banks (`45_gba_save.md` R396, R400). -/
def flashHomeSteps (op : Instr) (sz : Nat) : Prog Unit := if 0x10000 < sz then flashBankSteps op false else .ret ()

/-- The steps that read a save and store it, by its type (`45_gba_save.md` R396). -/
def saveImageReadSteps (op : Instr) (t : SaveType) (sz : Nat) : Prog Unit :=
  match t with
  | .eeprom4k | .eeprom64k =>
    .loop (fun row => (eepReadRowSteps op (framingFor t) row).bind fun bytes => memWrite (8 * row) bytes) 0 (sz / 8)
  | .sram256k | .sram512k => .loop (fun a => storeByte a (saveReadStep op (BitVec.ofNat 16 a))) 0 sz
  | .flash512k | .flash1m =>
    (Prog.loop (fun a => (flashTurnSteps op a).then (storeByte a (saveReadStep op (BitVec.ofNat 16 a)))) 0 sz).then
      (flashHomeSteps op sz)
  | .unknown => .ret ()

/-- The steps of `GbaReadSave()` (`45_gba_save.md` R396). -/
def gbaReadSaveSteps (op : Instr) : Prog Word :=
  (look asGba State.gba).bind fun g =>
  if g.loaded = false ∨ g.saveType = .unknown then .ret 0
  else
    (ensure (needBuf g.saveSize.toNat)).then <|
    (withGbaPower op (saveImageReadSteps op g.saveType g.saveSize.toNat)).then <|
    .ret (countWord g.saveSize.toNat)

/-- Sector `i` of an Atmel flash save written (`45_gba_save.md` R400). -/
def atmelSectorSteps (op : Instr) (i : Nat) : Prog Unit :=
  (flashTurnSteps op (128 * i)).then <|
  (memRead (128 * i) 128).bind fun data => flashProg128Steps op (BitVec.ofNat 16 (128 * i)) data

/-- Byte `a` of any other flash save written, its sector erased first (`45_gba_save.md` R400). -/
def flashByteSteps (op : Instr) (a : Nat) : Prog Unit :=
  (flashTurnSteps op a).then <|
  (if a % 4096 = 0 then flashEraseSteps op (BitVec.ofNat 16 a) else .ret ()).then <|
  (memRead a 1).bind fun v => flashProgSteps op (BitVec.ofNat 16 a) (v.headD 0)

/-- A flash save written in the way of its manufacturer (`45_gba_save.md` R400). -/
def flashImageWriteSteps (op : Instr) (sz : Nat) (mfr : Byte) : Prog Unit :=
  (if mfr = atmel then Prog.loop (atmelSectorSteps op) 0 (sz / 128) else Prog.loop (flashByteSteps op) 0 sz).then
    (flashHomeSteps op sz)

/-- The steps that write a save, by its type (`45_gba_save.md` R400): a flash save's manufacturer is read from the
session then, the slot powered. -/
def saveImageWriteSteps (op : Instr) (t : SaveType) (sz : Nat) : Prog Unit :=
  match t with
  | .eeprom4k | .eeprom64k =>
    .loop (fun row => (memRead (8 * row) 8).bind fun data => eepWriteRowSteps op (framingFor t) row data) 0 (sz / 8)
  | .sram256k | .sram512k =>
    .loop (fun a => (memRead a 1).bind fun v => saveWriteStep op (BitVec.ofNat 16 a) (v.headD 0)) 0 sz
  | .flash512k | .flash1m => (look asByte fun s => s.gba.flashMfr).bind (flashImageWriteSteps op sz)
  | .unknown => .ret ()

/-- The steps of `GbaWriteSave()` (`45_gba_save.md` R400, R403). -/
def gbaWriteSaveSteps (op : Instr) : Prog Word :=
  (look asGba State.gba).bind fun g =>
  if g.loaded = false ∨ g.saveType = .unknown then .ret 0
  else
    (ensure (needBuf g.saveSize.toNat)).then <|
    (withGbaPower op (saveImageWriteSteps op g.saveType g.saveSize.toNat)).then <|
    .ret (countWord g.saveSize.toNat)

/-! ## Operations -/

/-- The steps of `GBA_LOADHDR` (`44_gba_rom.md` R320). -/
def gbaLoadhdrSteps : Prog Word := (ensure (needInit .gbaLoadhdr)).then (gbaLoadSteps .gbaLoadhdr)

/-- `GBA_LOADHDR` (`44_gba_rom.md` R320). -/
def execGbaLoadhdr (s : State) : Host.Outcome State Fault Refusal := perform .gbaLoadhdr gbaLoadhdrSteps s

/-- The steps of `GBA_CLASSIFY` (`45_gba_save.md` R355). -/
def gbaClassifySteps : Prog Word :=
  (ensure (needInit .gbaClassify)).then <| (classifySteps .gbaClassify).map fun c => saveTypeCode c.kind

/-- `GBA_CLASSIFY` (`45_gba_save.md` R355). -/
def execGbaClassify (s : State) : Host.Outcome State Fault Refusal := perform .gbaClassify gbaClassifySteps s

/-- The steps of `EEP_RDROW frm, row` (`45_gba_save.md` R376). -/
def eepRdrowSteps (frm : Framing) (row : BitVec 14) : Prog Word :=
  (ensure (needInit (.eepRdrow frm row))).then <|
  (ensure (needBuf 8)).then <|
  (eepReadRowSteps (.eepRdrow frm row) frm row.toNat).bind fun bytes => (memWrite 0 bytes).then (.ret 8)

/-- `EEP_RDROW frm, row` (`45_gba_save.md` R376). -/
def execEepRdrow (frm : Framing) (row : BitVec 14) (s : State) : Host.Outcome State Fault Refusal :=
  perform (.eepRdrow frm row) (eepRdrowSteps frm row) s

/-- The steps of `EEP_WRROW frm, row` (`45_gba_save.md` R378). -/
def eepWrrowSteps (frm : Framing) (row : BitVec 14) : Prog Word :=
  (ensure (needInit (.eepWrrow frm row))).then <|
  (ensure (needBuf 8)).then <|
  (memRead 0 8).bind fun data => (eepWriteRowSteps (.eepWrrow frm row) frm row.toNat data).then (.ret 8)

/-- `EEP_WRROW frm, row` (`45_gba_save.md` R378). -/
def execEepWrrow (frm : Framing) (row : BitVec 14) (s : State) : Host.Outcome State Fault Refusal :=
  perform (.eepWrrow frm row) (eepWrrowSteps frm row) s

/-- The steps of `SAVE_RD addr` (`45_gba_save.md` R353). -/
def saveRdSteps (addr : Half) : Prog Word :=
  (ensure (needInit (.saveRd addr))).then <| (saveReadStep (.saveRd addr) addr).map (·.setWidth 32)

/-- `SAVE_RD addr` (`45_gba_save.md` R353). -/
def execSaveRd (addr : Half) (s : State) : Host.Outcome State Fault Refusal :=
  perform (.saveRd addr) (saveRdSteps addr) s

/-- The steps of `SAVE_WR data, addr` (`45_gba_save.md` R354). -/
def saveWrSteps (addr : Half) (data : Byte) : Prog Word :=
  (ensure (needInit (.saveWr addr data))).then <| (saveWriteStep (.saveWr addr data) addr data).then (.ret 0)

/-- `SAVE_WR data, addr` (`45_gba_save.md` R354). -/
def execSaveWr (addr : Half) (data : Byte) (s : State) : Host.Outcome State Fault Refusal :=
  perform (.saveWr addr data) (saveWrSteps addr data) s

/-- The steps of `FLASH_ID` (`45_gba_save.md` R384). -/
def flashIdOpSteps : Prog Word :=
  (ensure (needInit .flashId)).then <| (flashIdSteps .flashId).map fun id => (pairOf id.1 id.2).setWidth 32

/-- `FLASH_ID` (`45_gba_save.md` R384). -/
def execFlashId (s : State) : Host.Outcome State Fault Refusal := perform .flashId flashIdOpSteps s

/-- The steps of `FLASH_BANK bank` (`45_gba_save.md` R386). -/
def flashBankOpSteps (bank : Bool) : Prog Word :=
  (ensure (needInit (.flashBank bank))).then <| (flashBankSteps (.flashBank bank) bank).then (.ret 0)

/-- `FLASH_BANK bank` (`45_gba_save.md` R386). -/
def execFlashBank (bank : Bool) (s : State) : Host.Outcome State Fault Refusal :=
  perform (.flashBank bank) (flashBankOpSteps bank) s

/-- The steps of `FLASH_ERASE addr` (`45_gba_save.md` R388). -/
def flashEraseOpSteps (addr : Half) : Prog Word :=
  (ensure (needInit (.flashErase addr))).then <| (flashEraseSteps (.flashErase addr) addr).then (.ret 0)

/-- `FLASH_ERASE addr` (`45_gba_save.md` R388). -/
def execFlashErase (addr : Half) (s : State) : Host.Outcome State Fault Refusal :=
  perform (.flashErase addr) (flashEraseOpSteps addr) s

/-- The steps of `FLASH_PROG data, addr` (`45_gba_save.md` R390). -/
def flashProgOpSteps (addr : Half) (data : Byte) : Prog Word :=
  (ensure (needInit (.flashProg addr data))).then <| (flashProgSteps (.flashProg addr data) addr data).then (.ret 0)

/-- `FLASH_PROG data, addr` (`45_gba_save.md` R390). -/
def execFlashProg (addr : Half) (data : Byte) (s : State) : Host.Outcome State Fault Refusal :=
  perform (.flashProg addr data) (flashProgOpSteps addr data) s

/-- The steps of `FLASH_PROG128 addr` (`45_gba_save.md` R392). -/
def flashProg128OpSteps (addr : Half) : Prog Word :=
  (ensure (needInit (.flashProg128 addr))).then <|
  (ensure (needBuf 128)).then <|
  (memRead 0 128).bind fun data => (flashProg128Steps (.flashProg128 addr) addr data).then (.ret 128)

/-- `FLASH_PROG128 addr` (`45_gba_save.md` R392). -/
def execFlashProg128 (addr : Half) (s : State) : Host.Outcome State Fault Refusal :=
  perform (.flashProg128 addr) (flashProg128OpSteps addr) s

/-- The steps of `GBA_READSAVE` (`45_gba_save.md` R396). -/
def gbaReadsaveSteps : Prog Word := (ensure (needInit .gbaReadsave)).then (gbaReadSaveSteps .gbaReadsave)

/-- `GBA_READSAVE` (`45_gba_save.md` R396). -/
def execGbaReadsave (s : State) : Host.Outcome State Fault Refusal := perform .gbaReadsave gbaReadsaveSteps s

/-- The steps of `GBA_WRITESAVE` (`45_gba_save.md` R400). -/
def gbaWritesaveSteps : Prog Word := (ensure (needInit .gbaWritesave)).then (gbaWriteSaveSteps .gbaWritesave)

/-- `GBA_WRITESAVE` (`45_gba_save.md` R400). -/
def execGbaWritesave (s : State) : Host.Outcome State Fault Refusal := perform .gbaWritesave gbaWritesaveSteps s

end Sys2Proof.Machine
end

