-- ==== Sys2Proof/Machine/Gbx.lean ====
section
/-! DEFINITION. The GBx dispatcher (`46_dispatcher.md` R420 to R444). -/

namespace Sys2Proof.Machine

/-- `Active()` (`46_dispatcher.md` R424). -/
def active (s : State) : Platform :=
  if s.gb.romSize ≠ 0 then .gb else if s.gba.romSize ≠ 0 then .gba else .none

/-! ## Session lifecycle -/

/-- A platform as what a step hands on. -/
def asPlatform : Coding Platform where
  enc p := .word (platformCode p)
  dec r := match r with
    | .word v => if v = 1 then .gb else if v = 2 then .gba else .none
    | _ => .none

/-- `Active()` as a state read (`46_dispatcher.md` R424). -/
def activeStep : Prog Platform := look asPlatform active

/-- The platform code of a load that succeeded, 0 of one that failed (`46_dispatcher.md` R421). -/
def loadedCode (p : Platform) (ok : Word) : Word := if ok = 1 then platformCode p else platformCode .none

/-- The steps of `GBX_LOADHDR` between `Lock()` and `Unlock()` (`46_dispatcher.md` R421 to R423). DESIGN CHOICE, log entry
29: the other engine's session is empty from its clear on (R421), for another agent's getter too, which R426 has see the
session before the load. -/
def gbxLoadSteps (op : Instr) : Prog Word :=
  (busRead .pin (strobeReady op) asBit (pinRead .det)).bind fun level =>
  if level = Config.detGbaLevel then (update gbClear).then <| (gbaLoadSteps op).map (loadedCode .gba)
  else (update gbaClear).then <| (gbLoadSteps op).map (loadedCode .gb)

/-- A delegation to the engine that holds the session; 0 where none does (`46_dispatcher.md` R425, R432, R434). -/
def delegateSteps (gb gba : Prog Word) : Prog Word :=
  activeStep.bind fun p =>
  match p with
  | .gb => gb
  | .gba => gba
  | .none => .ret 0

/-- The steps of `GBX_LOADHDR` (`46_dispatcher.md` R421). -/
def gbxLoadhdrSteps : Prog Word := (ensure (needInit .gbxLoadhdr)).then <| underLock (gbxLoadSteps .gbxLoadhdr)

/-- `GBX_LOADHDR` (`46_dispatcher.md` R421). -/
def execGbxLoadhdr (s : State) : Host.Outcome State Fault Refusal := perform .gbxLoadhdr gbxLoadhdrSteps s

/-- The steps of `GBX_ISLOADED` (`46_dispatcher.md` R425). -/
def gbxIsloadedSteps : Prog Word :=
  (ensure (needInit .gbxIsloaded)).then <|
  underLock (delegateSteps (gbIsLoadedSteps .gbxIsloaded) (gbaIsLoadedSteps .gbxIsloaded))

/-- `GBX_ISLOADED` (`46_dispatcher.md` R425). -/
def execGbxIsloaded (s : State) : Host.Outcome State Fault Refusal := perform .gbxIsloaded gbxIsloadedSteps s

/-- The steps of `GBX_CLEAR`: under the lock, allowed before `INIT` (`46_dispatcher.md` R444,
`40_transport_lock.md` R171). -/
def gbxClearSteps : Prog Word := underLock <| (update gbClear).then <| (update gbaClear).then (.ret 0)

/-- `GBX_CLEAR` (`46_dispatcher.md` R444). -/
def execGbxClear (s : State) : Host.Outcome State Fault Refusal := perform .gbxClear gbxClearSteps s

/-! ## Getters: no lock, no bus activity (`46_dispatcher.md` R426) -/

/-- The steps of a getter that is one state read. -/
def getterSteps (f : State → Word) : Prog Word := look asWord f

/-- The steps of `GBX_TYPE` (`46_dispatcher.md` R427). -/
def gbxTypeSteps : Prog Word := getterSteps fun s => platformCode (active s)

/-- `GBX_TYPE` (`46_dispatcher.md` R427). -/
def execGbxType (s : State) : Host.Outcome State Fault Refusal := perform .gbxType gbxTypeSteps s

/-- The text of a session, if there is one, as what a step hands on. -/
def asText : Coding (Option (List Byte)) where
  enc t := match t with
    | some v => .bytes v
    | none => .none
  dec r := match r with
    | .bytes v => some v
    | _ => none

/-- The steps of a getter that writes bytes at the agent's buffer and returns their number; with no session
nothing is written (`46_dispatcher.md` R428, R429). The session is read in one step, so that it is the one before
another agent's load or clear, or the one after it (R426). -/
def textSteps (f : State → Option (List Byte)) : Prog Word :=
  (look asText f).bind fun t =>
  match t with
  | none => .ret 0
  | some t => (ensure (needBuf t.length)).then <| (memWrite 0 t).then (.ret (countWord t.length))

/-- The title of the active session (`46_dispatcher.md` R428). -/
def activeTitle (s : State) : Option (List Byte) :=
  match active s with
  | .gb => some s.gb.title
  | .gba => some s.gba.title
  | .none => none

/-- The steps of `GBX_TITLE` (`46_dispatcher.md` R428). -/
def gbxTitleSteps : Prog Word := textSteps activeTitle

/-- `GBX_TITLE` (`46_dispatcher.md` R428). -/
def execGbxTitle (s : State) : Host.Outcome State Fault Refusal := perform .gbxTitle gbxTitleSteps s

/-- The identifier of the active session (`46_dispatcher.md` R429). -/
def activeIdent (s : State) : Option (List Byte) :=
  match active s with
  | .gb => some s.gb.sha1
  | .gba => some s.gba.code
  | .none => none

/-- The steps of `GBX_IDENT` (`46_dispatcher.md` R429). -/
def gbxIdentSteps : Prog Word := textSteps activeIdent

/-- `GBX_IDENT` (`46_dispatcher.md` R429). -/
def execGbxIdent (s : State) : Host.Outcome State Fault Refusal := perform .gbxIdent gbxIdentSteps s

/-- The ROM size of the active session (`46_dispatcher.md` R430). -/
def activeRomSize (s : State) : Word :=
  match active s with
  | .gb => s.gb.romSize
  | .gba => s.gba.romSize
  | .none => 0

/-- The save size of the active session (`46_dispatcher.md` R431). -/
def activeSaveSize (s : State) : Word :=
  match active s with
  | .gb => s.gb.saveSize
  | .gba => s.gba.saveSize
  | .none => 0

/-- The steps of `GBX_ROMSIZE` (`46_dispatcher.md` R430). -/
def gbxRomsizeSteps : Prog Word := getterSteps activeRomSize

/-- `GBX_ROMSIZE` (`46_dispatcher.md` R430). -/
def execGbxRomsize (s : State) : Host.Outcome State Fault Refusal := perform .gbxRomsize gbxRomsizeSteps s

/-- The steps of `GBX_SAVESIZE` (`46_dispatcher.md` R431). -/
def gbxSavesizeSteps : Prog Word := getterSteps activeSaveSize

/-- `GBX_SAVESIZE` (`46_dispatcher.md` R431). -/
def execGbxSavesize (s : State) : Host.Outcome State Fault Refusal := perform .gbxSavesize gbxSavesizeSteps s

/-! ## Bulk operations -/

/-- The steps of `GBX_READROM` (`46_dispatcher.md` R432). -/
def gbxReadromSteps : Prog Word :=
  (ensure (needInit .gbxReadrom)).then <|
  underLock (delegateSteps (gbReadRomSteps .gbxReadrom) (gbaReadRomSteps .gbxReadrom))

/-- `GBX_READROM` (`46_dispatcher.md` R432). -/
def execGbxReadrom (s : State) : Host.Outcome State Fault Refusal := perform .gbxReadrom gbxReadromSteps s

/-- The steps of `GBX_READSAVE` (`46_dispatcher.md` R434). -/
def gbxReadsaveSteps : Prog Word :=
  (ensure (needInit .gbxReadsave)).then <|
  underLock (delegateSteps (gbReadSaveSteps .gbxReadsave) (gbaReadSaveSteps .gbxReadsave))

/-- `GBX_READSAVE` (`46_dispatcher.md` R434). -/
def execGbxReadsave (s : State) : Host.Outcome State Fault Refusal := perform .gbxReadsave gbxReadsaveSteps s

/-- What a live verification decides: a result code with the session cleared, or the engine's own write
(`46_dispatcher.md` R436). -/
def writeAfterSteps (v : Live) (clear : State → State) (write : Prog Word) : Prog Word :=
  match v with
  | .absent => (update clear).then (.ret noCartridge)
  | .changed => (update clear).then (.ret cartridgeChanged)
  | .same => write

/-- The steps of `GBX_WRITESAVE` between `Lock()` and `Unlock()` (`46_dispatcher.md` R436 to R438). -/
def gbxWriteSteps (op : Instr) : Prog Word :=
  activeStep.bind fun p =>
  match p with
  | .none => .ret cartridgeNotLoaded
  | .gb =>
    (gbCheckSteps op).bind fun v =>
    (look asGb State.gb).bind fun g => writeAfterSteps (gbLive v g.title) gbClear (gbWriteSaveSteps op)
  | .gba =>
    (gbaCheckSteps op).bind fun h =>
    (look asGba State.gba).bind fun g => writeAfterSteps (gbaLive h g) gbaClear (gbaWriteSaveSteps op)

/-- The steps of `GBX_WRITESAVE` (`46_dispatcher.md` R436). -/
def gbxWritesaveSteps : Prog Word := (ensure (needInit .gbxWritesave)).then <| underLock (gbxWriteSteps .gbxWritesave)

/-- `GBX_WRITESAVE` (`46_dispatcher.md` R436). -/
def execGbxWritesave (s : State) : Host.Outcome State Fault Refusal := perform .gbxWritesave gbxWritesaveSteps s

/-! ## Timing estimators -/

/-- `Est(op, kind, size)` (`46_dispatcher.md` R440): the slope is the rational `estNum / (estDen + 1)`, the
result at most `2^31 - 1`. -/
def estimate (op : EstOp) (kind : EstKind) (size : Word) : Word :=
  countWord (min (2 ^ 31 - 1)
    (Config.estNum op kind * size.toNat / (Config.estDen op kind + 1) + Config.estBase op kind))

/-- The kind a save estimate is for (`46_dispatcher.md` R441, R442): a GB session's, or a save type; for
a write, a flash type also says whether the chip is an Atmel part. -/
def saveKind (op : EstOp) (s : State) : EstKind :=
  if active s = .gb then .gb
  else
    .save s.gba.saveType
      (op == .wrSave && (s.gba.saveType == .flash512k || s.gba.saveType == .flash1m) && s.gba.flashMfr == atmel)

/-- The result of `GBX_T_ROM` (`46_dispatcher.md` R440). -/
def romTime (s : State) : Word :=
  match active s with
  | .none => 0
  | .gb => estimate .rom .gb s.gb.romSize
  | .gba => estimate .rom .gba s.gba.romSize

/-- The result of `GBX_T_RDSAVE` and `GBX_T_WRSAVE` (`46_dispatcher.md` R441, R442). -/
def saveTime (op : EstOp) (s : State) : Word :=
  if active s = .none then 0 else estimate op (saveKind op s) (activeSaveSize s)

/-- The steps of `GBX_T_ROM` (`46_dispatcher.md` R440). -/
def gbxTRomSteps : Prog Word := getterSteps romTime

/-- `GBX_T_ROM` (`46_dispatcher.md` R440). -/
def execGbxTRom (s : State) : Host.Outcome State Fault Refusal := perform .gbxTRom gbxTRomSteps s

/-- The steps of `GBX_T_RDSAVE` (`46_dispatcher.md` R441). -/
def gbxTRdsaveSteps : Prog Word := getterSteps (saveTime .rdSave)

/-- `GBX_T_RDSAVE` (`46_dispatcher.md` R441). -/
def execGbxTRdsave (s : State) : Host.Outcome State Fault Refusal := perform .gbxTRdsave gbxTRdsaveSteps s

/-- The steps of `GBX_T_WRSAVE` (`46_dispatcher.md` R442). -/
def gbxTWrsaveSteps : Prog Word := getterSteps (saveTime .wrSave)

/-- `GBX_T_WRSAVE` (`46_dispatcher.md` R442). -/
def execGbxTWrsave (s : State) : Host.Outcome State Fault Refusal := perform .gbxTWrsave gbxTWrsaveSteps s

end Sys2Proof.Machine
end

