-- ==== Sys2Proof/Machine/Transport.lean ====
section
/-! DEFINITION. The transport and lock operations (`40_transport_lock.md` R170 to R190): the steps of each, and
its meaning, which is to take them. -/

namespace Sys2Proof.Machine

/-- `HostMapOk()` and what `INIT` does at its answer (`40_transport_lock.md` R173, R177). DESIGN CHOICE, log entry 28: a
transfer that another agent has stopped in while this clears the FIFOs (`70_reset_and_hazards.md` R505) completes with
its replies unharmed. -/
def initialise (hz : Word) (s : State) : Word × State :=
  let r := answer .hostMapOk s.bus
  if r.1.getLsbD 0 then
    (0, { s with bus := r.2, spiReady := true, spiDiv := Config.clockDivider hz, fifo := [] })
  else (errHwinit, { s with bus := r.2 })

/-- The steps of `INIT hz` (`40_transport_lock.md` R173). -/
def initSteps (hz : Word) : Prog Word := .step .quiet always asWord (initialise hz)

/-- `INIT hz` (`40_transport_lock.md` R173, R177). -/
def execInit (hz : Word) (s : State) : Host.Outcome State Fault Refusal :=
  perform (.init hz) (initSteps hz) s

/-- What `Spi(tx)` does with no continuous read open (`40_transport_lock.md` R174, R175): with the chips
selected an expander frame (`41_expander.md` R216), with the chips forced idle an exchange no chip sees. -/
def spi (tx : List Byte) (s : State) : List Byte × State :=
  let r := if s.csForceIdle then anyReplies tx (trace (.bare tx) s.bus) else expFrame tx (trace (.frame tx) s.bus)
  (r.1, { s with bus := r.2 })

/-- The faults of `Spi(tx)`: those of `XFER`, then bytes that are no frame, sent with the chips selected
(`41_expander.md` R215, R216). DESIGN CHOICE, log entry 14: `UnknownExpanderFrame` comes after `BusRace` and
`ContinuousReadActive`. -/
def spiReady (op : Instr) (tx : List Byte) (s : State) : Except Fault Unit := do
  xferReady op s
  if s.csForceIdle = false ∧ isFrame tx = false then .error (.unknownExpanderFrame tx) else .ok ()

/-- The steps of `XFER len` (`40_transport_lock.md` R174): the exchange is in place. -/
def xferSteps (len : Half) : Prog Word :=
  (ensure (needInit (.xfer len))).then <|
  (ensure (needBuf len.toNat)).then <|
  (memRead 0 len.toNat).bind fun tx =>
  (Prog.step .frame (spiReady (.xfer len) tx) asBytes (spi tx)).bind fun rx =>
  (memWrite 0 rx).then <|
  .ret (countWord len.toNat)

/-- `XFER len` (`40_transport_lock.md` R174). -/
def execXfer (len : Half) (s : State) : Host.Outcome State Fault Refusal := perform (.xfer len) (xferSteps len) s

/-- The steps of `STB_DIR pin, dir` (`40_transport_lock.md` R179). -/
def stbDirSteps (pin : Pin) (dir : PinDir) : Prog Word :=
  (ensure (needInit (.stbDir pin dir))).then <|
  (busDo .pin (strobeReady (.stbDir pin dir)) (pinDirect pin dir)).then <|
  .ret 0

/-- `STB_DIR pin, dir` (`40_transport_lock.md` R179). -/
def execStbDir (pin : Pin) (dir : PinDir) (s : State) : Host.Outcome State Fault Refusal :=
  perform (.stbDir pin dir) (stbDirSteps pin dir) s

/-- Whether a strobe write is the rising edge of a driven `GB_WR`, the edge at which a cartridge takes a
byte (`95_test_vectors.md` P4; the fixture's business, not GBXC's). DESIGN CHOICE, log entry 18: that no other
operation makes that edge. -/
def gbWriteEdge (pin : Pin) (level : Bool) (b : Bus) : Bool :=
  pin == .gbWr && level && !b.pins.gbWr.out && b.pins.gbWr.dir == .output

/-- A raw strobe write (`40_transport_lock.md` R180). -/
def strobe (pin : Pin) (level : Bool) (b : Bus) : Bus :=
  pinWrite pin level (if gbWriteEdge pin level b then { b with env := rawGbWritePulse b } else b)

/-- The steps of `STB_WR pin, level` (`40_transport_lock.md` R180). -/
def stbWrSteps (pin : Pin) (level : Bool) : Prog Word :=
  (ensure (needInit (.stbWr pin level))).then <|
  (busDo .pin (strobeReady (.stbWr pin level)) (strobe pin level)).then <|
  .ret 0

/-- `STB_WR pin, level` (`40_transport_lock.md` R180). -/
def execStbWr (pin : Pin) (level : Bool) (s : State) : Host.Outcome State Fault Refusal :=
  perform (.stbWr pin level) (stbWrSteps pin level) s

/-- The steps of `STB_RD pin` (`40_transport_lock.md` R181). -/
def stbRdSteps (pin : Pin) : Prog Word :=
  (ensure (needInit (.stbRd pin))).then <|
  (busRead .pin (strobeReady (.stbRd pin)) asBit (pinRead pin)).map boolWord

/-- `STB_RD pin` (`40_transport_lock.md` R181). -/
def execStbRd (pin : Pin) (s : State) : Host.Outcome State Fault Refusal := perform (.stbRd pin) (stbRdSteps pin) s

/-- The steps of `LOCK force, key` (`40_transport_lock.md` R183). -/
def lockSteps (force : Bool) (key : Word) : Prog Word := (lockStep force key).then (.ret 0)

/-- `LOCK force, key` (`40_transport_lock.md` R183, R184). -/
def execLock (force : Bool) (key : Word) (s : State) : Host.Outcome State Fault Refusal :=
  perform (.lock force key) (lockSteps force key) s

/-- The steps of `UNLOCK key` (`40_transport_lock.md` R185). -/
def unlockSteps (key : Word) : Prog Word := (update (releaseLock key)).then (.ret 0)

/-- `UNLOCK key` (`40_transport_lock.md` R185). -/
def execUnlock (key : Word) (s : State) : Host.Outcome State Fault Refusal :=
  perform (.unlock key) (unlockSteps key) s

/-- The agent's buffer pointer set (`10_state.md` R23). -/
def setBuffer (buf : Word) (s : State) : State := { s with me := { s.me with bufp := buf, bufSet := true } }

/-- The steps of `SETBUF buf` (`40_transport_lock.md` R172). -/
def setbufSteps (buf : Word) : Prog Word := (update (setBuffer buf)).then (.ret 0)

/-- `SETBUF buf` (`40_transport_lock.md` R172). -/
def execSetbuf (buf : Word) (s : State) : Host.Outcome State Fault Refusal :=
  perform (.setbuf buf) (setbufSteps buf) s

end Sys2Proof.Machine
end

