-- ==== Sys2Proof/Machine/Wire.lean ====
section
/-! DEFINITION. The wire frames of the opcode table run by themselves (`30_encoding.md` R134 to R136, R150;
log entry 8): what the expander chips or the EEPROM see, with what comes back left in `rx`. -/

namespace Sys2Proof.Machine

/-- What a frame or request run by itself received, left in `rx`. -/
def keepRx (rx : List Byte) : Prog Unit := update fun s => { s with rx := rx }

/-- The steps of a frame run by itself: sent with `SPI_CS0` asserted for exactly its bytes (`41_expander.md`
R216), what was received left in `rx`, the result 0 (`30_encoding.md` R125). -/
def frameSteps (op : Instr) (bytes : List Byte) : Prog Word :=
  (ensure (needInit op)).then <|
  (busRead .frame (busReady op) asBytes fun b => expFrame bytes (trace (.frame bytes) b)).bind fun rx =>
  (keepRx rx).then (.ret 0)

/-- The steps of the single-port write frame (`30_encoding.md` R134). -/
def wireExpFrame3WrSteps (chip : Chip) (reg data : Byte) : Prog Word :=
  frameSteps (.wireExpFrame3Wr chip reg data) [devOpcode chip false, reg, data]

/-- The single-port write frame (`30_encoding.md` R134). -/
def execWireExpFrame3Wr (chip : Chip) (reg data : Byte) (s : State) : Host.Outcome State Fault Refusal :=
  perform (.wireExpFrame3Wr chip reg data) (wireExpFrame3WrSteps chip reg data) s

/-- The steps of the single-port read frame (`30_encoding.md` R134). -/
def wireExpFrame3RdSteps (chip : Chip) (reg : Byte) : Prog Word :=
  frameSteps (.wireExpFrame3Rd chip reg) [devOpcode chip true, reg, 0x00]

/-- The single-port read frame (`30_encoding.md` R134). -/
def execWireExpFrame3Rd (chip : Chip) (reg : Byte) (s : State) : Host.Outcome State Fault Refusal :=
  perform (.wireExpFrame3Rd chip reg) (wireExpFrame3RdSteps chip reg) s

/-- The steps of the batched write frame (`30_encoding.md` R135). -/
def wireExpFrame4WrSteps (chip : Chip) (reg first second : Byte) : Prog Word :=
  frameSteps (.wireExpFrame4Wr chip reg first second) [devOpcode chip false, reg, first, second]

/-- The batched write frame (`30_encoding.md` R135). -/
def execWireExpFrame4Wr (chip : Chip) (reg first second : Byte) (s : State) : Host.Outcome State Fault Refusal :=
  perform (.wireExpFrame4Wr chip reg first second) (wireExpFrame4WrSteps chip reg first second) s

/-- The steps of the batched read frame (`30_encoding.md` R135). -/
def wireExpFrame4RdSteps (chip : Chip) : Prog Word :=
  frameSteps (.wireExpFrame4Rd chip) [devOpcode chip true, 0x12, 0x00, 0x00]

/-- The batched read frame (`30_encoding.md` R135). -/
def execWireExpFrame4Rd (chip : Chip) (s : State) : Host.Outcome State Fault Refusal :=
  perform (.wireExpFrame4Rd chip) (wireExpFrame4RdSteps chip) s

/-- The steps of the continuous-read header, which leaves `SPI_CS0` asserted (`30_encoding.md` R136,
`41_expander.md` R212). -/
def wireCrdHeaderSteps (chip : Chip) : Prog Word :=
  (ensure (needInit (.wireCrdHeader chip))).then <|
  (busDo .frame (busReady (.wireCrdHeader chip)) (crdStart chip)).then <|
  (keepRx []).then (.ret 0)

/-- The continuous-read header (`30_encoding.md` R136). -/
def execWireCrdHeader (chip : Chip) (s : State) : Host.Outcome State Fault Refusal :=
  perform (.wireCrdHeader chip) (wireCrdHeaderSteps chip) s

/-- The steps of an EEPROM read request run by itself, with its reply (`45_gba_save.md` R376). -/
def requestSteps (op : Instr) (frm : Framing) (row : Nat) : Prog Word :=
  (ensure (needInit op)).then <| (eepReadRowSteps op frm row).bind fun rx => (keepRx rx).then (.ret 0)

/-- The steps of an EEPROM write request run by itself, with its programming delay (`45_gba_save.md` R378). -/
def storeRequestSteps (op : Instr) (frm : Framing) (row : Nat) (data : BitVec 64) : Prog Word :=
  (ensure (needInit op)).then <|
  (eepWriteRowSteps op frm row (rowBytesOf data)).then <|
  (keepRx []).then (.ret 0)

/-- The steps of the 9-bit EEPROM read request (`30_encoding.md` R150). -/
def wireEepRead4kSteps (row : BitVec 6) : Prog Word := requestSteps (.wireEepRead4k row) .k4 row.toNat

/-- The 9-bit EEPROM read request and its reply (`30_encoding.md` R150). -/
def execWireEepRead4k (row : BitVec 6) (s : State) : Host.Outcome State Fault Refusal :=
  perform (.wireEepRead4k row) (wireEepRead4kSteps row) s

/-- The steps of the 17-bit EEPROM read request (`30_encoding.md` R150). -/
def wireEepRead64kSteps (row : BitVec 14) : Prog Word := requestSteps (.wireEepRead64k row) .k64 row.toNat

/-- The 17-bit EEPROM read request and its reply (`30_encoding.md` R150). -/
def execWireEepRead64k (row : BitVec 14) (s : State) : Host.Outcome State Fault Refusal :=
  perform (.wireEepRead64k row) (wireEepRead64kSteps row) s

/-- The steps of the 73-bit EEPROM write request (`30_encoding.md` R150). -/
def wireEepWrite4kSteps (row : BitVec 6) (data : BitVec 64) : Prog Word :=
  storeRequestSteps (.wireEepWrite4k row data) .k4 row.toNat data

/-- The 73-bit EEPROM write request and its programming delay (`30_encoding.md` R150). -/
def execWireEepWrite4k (row : BitVec 6) (data : BitVec 64) (s : State) : Host.Outcome State Fault Refusal :=
  perform (.wireEepWrite4k row data) (wireEepWrite4kSteps row data) s

/-- The steps of the 81-bit EEPROM write request (`30_encoding.md` R150). -/
def wireEepWrite64kSteps (row : BitVec 14) (data : BitVec 64) : Prog Word :=
  storeRequestSteps (.wireEepWrite64k row data) .k64 row.toNat data

/-- The 81-bit EEPROM write request and its programming delay (`30_encoding.md` R150). -/
def execWireEepWrite64k (row : BitVec 14) (data : BitVec 64) (s : State) : Host.Outcome State Fault Refusal :=
  perform (.wireEepWrite64k row data) (wireEepWrite64kSteps row data) s

end Sys2Proof.Machine
end

