-- ==== Sys2Proof/Machine/Dispatch.lean ====
section
/-! DEFINITION. The dispatch from an operation to its meaning, one arm per constructor of `Instr`. -/

namespace Sys2Proof.Machine

def exec (i : Instr) (s : State) : Host.Outcome State Fault Refusal :=
  match i with
  | .init hz => Sys2Proof.Machine.execInit hz s
  | .xfer len => Sys2Proof.Machine.execXfer len s
  | .stbDir pin dir => Sys2Proof.Machine.execStbDir pin dir s
  | .stbWr pin level => Sys2Proof.Machine.execStbWr pin level s
  | .stbRd pin => Sys2Proof.Machine.execStbRd pin s
  | .lock force key => Sys2Proof.Machine.execLock force key s
  | .unlock key => Sys2Proof.Machine.execUnlock key s
  | .setbuf buf => Sys2Proof.Machine.execSetbuf buf s
  | .expDir port mask => Sys2Proof.Machine.execExpDir port mask s
  | .expPull port mask => Sys2Proof.Machine.execExpPull port mask s
  | .expWr port val => Sys2Proof.Machine.execExpWr port val s
  | .expRd port => Sys2Proof.Machine.execExpRd port s
  | .expDir2 chip pair => Sys2Proof.Machine.execExpDir2 chip pair s
  | .expPull2 chip pair => Sys2Proof.Machine.execExpPull2 chip pair s
  | .expWr2 chip pair => Sys2Proof.Machine.execExpWr2 chip pair s
  | .expRd2 chip => Sys2Proof.Machine.execExpRd2 chip s
  | .crdStart chip => Sys2Proof.Machine.execCrdStart chip s
  | .crdCont => Sys2Proof.Machine.execCrdCont s
  | .crdEnd => Sys2Proof.Machine.execCrdEnd s
  | .gbPwrup => Sys2Proof.Machine.execGbPwrup s
  | .gbPwrdn => Sys2Proof.Machine.execGbPwrdn s
  | .gbaPwrup => Sys2Proof.Machine.execGbaPwrup s
  | .gbaPwrdn => Sys2Proof.Machine.execGbaPwrdn s
  | .gbBusrd addr => Sys2Proof.Machine.execGbBusrd addr s
  | .gbBuswr addr data => Sys2Proof.Machine.execGbBuswr addr data s
  | .gbRombank mbc bank => Sys2Proof.Machine.execGbRombank mbc bank s
  | .gbRamopen mbc => Sys2Proof.Machine.execGbRamopen mbc s
  | .gbRambank mbc bank => Sys2Proof.Machine.execGbRambank mbc bank s
  | .gbRamclose mbc => Sys2Proof.Machine.execGbRamclose mbc s
  | .gbLoadhdr => Sys2Proof.Machine.execGbLoadhdr s
  | .gbIsloaded => Sys2Proof.Machine.execGbIsloaded s
  | .gbReadrom => Sys2Proof.Machine.execGbReadrom s
  | .gbReadsave => Sys2Proof.Machine.execGbReadsave s
  | .gbWritesave => Sys2Proof.Machine.execGbWritesave s
  | .gbClear => Sys2Proof.Machine.execGbClear s
  | .gbaRomrd addr len => Sys2Proof.Machine.execGbaRomrd addr len s
  | .gbaLoadhdr => Sys2Proof.Machine.execGbaLoadhdr s
  | .gbaIsloaded => Sys2Proof.Machine.execGbaIsloaded s
  | .gbaReadrom => Sys2Proof.Machine.execGbaReadrom s
  | .gbaProbesize => Sys2Proof.Machine.execGbaProbesize s
  | .gbaClear => Sys2Proof.Machine.execGbaClear s
  | .gbaClassify => Sys2Proof.Machine.execGbaClassify s
  | .eepRdrow frm row => Sys2Proof.Machine.execEepRdrow frm row s
  | .eepWrrow frm row => Sys2Proof.Machine.execEepWrrow frm row s
  | .saveRd addr => Sys2Proof.Machine.execSaveRd addr s
  | .saveWr addr data => Sys2Proof.Machine.execSaveWr addr data s
  | .flashId => Sys2Proof.Machine.execFlashId s
  | .flashBank bank => Sys2Proof.Machine.execFlashBank bank s
  | .flashErase addr => Sys2Proof.Machine.execFlashErase addr s
  | .flashProg addr data => Sys2Proof.Machine.execFlashProg addr data s
  | .flashProg128 addr => Sys2Proof.Machine.execFlashProg128 addr s
  | .gbaReadsave => Sys2Proof.Machine.execGbaReadsave s
  | .gbaWritesave => Sys2Proof.Machine.execGbaWritesave s
  | .gbxLoadhdr => Sys2Proof.Machine.execGbxLoadhdr s
  | .gbxIsloaded => Sys2Proof.Machine.execGbxIsloaded s
  | .gbxType => Sys2Proof.Machine.execGbxType s
  | .gbxTitle => Sys2Proof.Machine.execGbxTitle s
  | .gbxIdent => Sys2Proof.Machine.execGbxIdent s
  | .gbxRomsize => Sys2Proof.Machine.execGbxRomsize s
  | .gbxSavesize => Sys2Proof.Machine.execGbxSavesize s
  | .gbxReadrom => Sys2Proof.Machine.execGbxReadrom s
  | .gbxReadsave => Sys2Proof.Machine.execGbxReadsave s
  | .gbxWritesave => Sys2Proof.Machine.execGbxWritesave s
  | .gbxTRom => Sys2Proof.Machine.execGbxTRom s
  | .gbxTRdsave => Sys2Proof.Machine.execGbxTRdsave s
  | .gbxTWrsave => Sys2Proof.Machine.execGbxTWrsave s
  | .gbxClear => Sys2Proof.Machine.execGbxClear s
  | .wireExpFrame3Wr chip reg data => Sys2Proof.Machine.execWireExpFrame3Wr chip reg data s
  | .wireExpFrame3Rd chip reg => Sys2Proof.Machine.execWireExpFrame3Rd chip reg s
  | .wireExpFrame4Wr chip reg first second => Sys2Proof.Machine.execWireExpFrame4Wr chip reg first second s
  | .wireExpFrame4Rd chip => Sys2Proof.Machine.execWireExpFrame4Rd chip s
  | .wireCrdHeader chip => Sys2Proof.Machine.execWireCrdHeader chip s
  | .wireEepRead4k row => Sys2Proof.Machine.execWireEepRead4k row s
  | .wireEepRead64k row => Sys2Proof.Machine.execWireEepRead64k row s
  | .wireEepWrite4k row data => Sys2Proof.Machine.execWireEepWrite4k row data s
  | .wireEepWrite64k row data => Sys2Proof.Machine.execWireEepWrite64k row data s

end Sys2Proof.Machine
end

