-- ==== Sys2Proof/Machine/Program.lean ====
section
/-! DEFINITION. The steps of each operation, by its constructor, and an operation taken up part of the way
through (`10_state.md` R24, `20_memory.md` R92). -/

namespace Sys2Proof.Machine

/-- The steps of an operation. -/
def program (i : Instr) : Prog Word :=
  match i with
  | .init hz => initSteps hz
  | .xfer len => xferSteps len
  | .stbDir pin dir => stbDirSteps pin dir
  | .stbWr pin level => stbWrSteps pin level
  | .stbRd pin => stbRdSteps pin
  | .lock force key => lockSteps force key
  | .unlock key => unlockSteps key
  | .setbuf buf => setbufSteps buf
  | .expDir port mask => expDirSteps port mask
  | .expPull port mask => expPullSteps port mask
  | .expWr port val => expWrSteps port val
  | .expRd port => expRdSteps port
  | .expDir2 chip pair => expDir2Steps chip pair
  | .expPull2 chip pair => expPull2Steps chip pair
  | .expWr2 chip pair => expWr2Steps chip pair
  | .expRd2 chip => expRd2Steps chip
  | .crdStart chip => crdStartSteps chip
  | .crdCont => crdContSteps
  | .crdEnd => crdEndSteps
  | .gbPwrup => gbPwrupSteps
  | .gbPwrdn => gbPwrdnSteps
  | .gbaPwrup => gbaPwrupSteps
  | .gbaPwrdn => gbaPwrdnSteps
  | .gbBusrd addr => gbBusrdSteps addr
  | .gbBuswr addr data => gbBuswrSteps addr data
  | .gbRombank mbc bank => gbRombankSteps mbc bank
  | .gbRamopen mbc => gbRamopenSteps mbc
  | .gbRambank mbc bank => gbRambankSteps mbc bank
  | .gbRamclose mbc => gbRamcloseSteps mbc
  | .gbLoadhdr => gbLoadhdrSteps
  | .gbIsloaded => gbIsloadedSteps
  | .gbReadrom => gbReadromSteps
  | .gbReadsave => gbReadsaveSteps
  | .gbWritesave => gbWritesaveSteps
  | .gbClear => gbClearSteps
  | .gbaRomrd addr len => gbaRomrdSteps addr len
  | .gbaLoadhdr => gbaLoadhdrSteps
  | .gbaIsloaded => gbaIsloadedSteps
  | .gbaReadrom => gbaReadromSteps
  | .gbaProbesize => gbaProbesizeSteps
  | .gbaClear => gbaClearSteps
  | .gbaClassify => gbaClassifySteps
  | .eepRdrow frm row => eepRdrowSteps frm row
  | .eepWrrow frm row => eepWrrowSteps frm row
  | .saveRd addr => saveRdSteps addr
  | .saveWr addr data => saveWrSteps addr data
  | .flashId => flashIdOpSteps
  | .flashBank bank => flashBankOpSteps bank
  | .flashErase addr => flashEraseOpSteps addr
  | .flashProg addr data => flashProgOpSteps addr data
  | .flashProg128 addr => flashProg128OpSteps addr
  | .gbaReadsave => gbaReadsaveSteps
  | .gbaWritesave => gbaWritesaveSteps
  | .gbxLoadhdr => gbxLoadhdrSteps
  | .gbxIsloaded => gbxIsloadedSteps
  | .gbxType => gbxTypeSteps
  | .gbxTitle => gbxTitleSteps
  | .gbxIdent => gbxIdentSteps
  | .gbxRomsize => gbxRomsizeSteps
  | .gbxSavesize => gbxSavesizeSteps
  | .gbxReadrom => gbxReadromSteps
  | .gbxReadsave => gbxReadsaveSteps
  | .gbxWritesave => gbxWritesaveSteps
  | .gbxTRom => gbxTRomSteps
  | .gbxTRdsave => gbxTRdsaveSteps
  | .gbxTWrsave => gbxTWrsaveSteps
  | .gbxClear => gbxClearSteps
  | .wireExpFrame3Wr chip reg data => wireExpFrame3WrSteps chip reg data
  | .wireExpFrame3Rd chip reg => wireExpFrame3RdSteps chip reg
  | .wireExpFrame4Wr chip reg first second => wireExpFrame4WrSteps chip reg first second
  | .wireExpFrame4Rd chip => wireExpFrame4RdSteps chip
  | .wireCrdHeader chip => wireCrdHeaderSteps chip
  | .wireEepRead4k row => wireEepRead4kSteps row
  | .wireEepRead64k row => wireEepRead64kSteps row
  | .wireEepWrite4k row data => wireEepWrite4kSteps row data
  | .wireEepWrite64k row data => wireEepWrite64kSteps row data

/-- What the steps that an agent has taken of its operation handed on. -/
def stepsDone (q : Seq) : List Reply :=
  match q with
  | .running _ done _ _ => done
  | .idle | .held _ => []

/-- Whether an agent has taken some steps of its operation and stopped for a while. -/
def underway (q : Seq) : Bool :=
  match q with
  | .running _ _ _ _ => true
  | .idle | .held _ => false

/-- The steps that an agent has left of an operation. -/
def rest (i : Instr) (s : State) : Prog Word := (program i).after (stepsDone s.me.seq)

/-- An operation that has been taken up taken to its end. -/
def resume (i : Instr) (s : State) : Host.Outcome State Fault Refusal := perform i (rest i s) s

/-- Whether the expander chips are selected in the middle of a step of this kind. -/
def selects (kind : StepKind) : Bool :=
  match kind with
  | .frame | .transaction => true
  | .quiet | .pin => false

/-- An operation stopped in front of a step of a kind, or, with `mid`, inside it: a transaction that has begun
is open to no other agent's bus step, and has `SPI_CS0` asserted unless it is forced idle (R469). -/
def suspend (i : Instr) (next : StepKind) (done : List Reply) (within mid : Bool) (s : State) : State :=
  { s with
    me := { s.me with
      seq := .running i done (within || (mid && next == .transaction)) (mid && selects next && !s.csForceIdle) } }

/-- The outcome of some steps of an operation. -/
def settlePart (i : Instr) (mid : Bool) (s : State) (r : Except Stop (Part Word)) :
    Host.Outcome State Fault Refusal :=
  match r with
  | .ok (.ended v t) => .next (finish v t)
  | .ok (.paused next done within t) =>
    match if mid && next != .quiet then raceFree t else .ok () with
    | .ok _ => .next (suspend i next done within mid t)
    | .error f => .fault f
  | .error .blocked => .next (hold i s)
  | .error (.fault f) => .fault f

/-- At most `n` further steps of an operation (`10_state.md` R24). -/
def advance (i : Instr) (n : Nat) (mid : Bool) (s : State) : Host.Outcome State Fault Refusal :=
  guarded i s <| settlePart i mid s <|
    (rest i s).part n (stepsDone s.me.seq) (busyAgent s.me) s

end Sys2Proof.Machine
end

