-- ==== Sys2Proof/Machine/Outside.lean ====
section
/-! DEFINITION. What the outside world does between two operations (`60_exceptions.md` R473, R480): an agent
takes its turn, issues a command, reads a register; the host fills its buffer; a cartridge is swapped; the radio
talks to its own device. -/

namespace Sys2Proof.Machine

/-- The agent at place `k` among the others takes its turn; with no such agent, nothing (R480). -/
def takeTurn (k : Nat) (s : State) : State :=
  match s.others[k]? with
  | some a => { s with me := a, others := s.others.eraseIdx k ++ [s.me] }
  | none => s

/-- The current agent's command register written (`10_state.md` R21). -/
def issueCommand (r : Request) (s : State) : State := { s with me := { s.me with cmd := some r } }

/-- A register value read by the current agent. -/
def observe (v : Word) (s : State) : State := { s with me := { s.me with seen := some v } }

/-- Whether an agent is in the middle of a step with `SPI_CS0` asserted. -/
def selecting (a : Agent) : Bool :=
  match a.seq with
  | .running _ _ _ selected => selected
  | .idle | .held _ => false

/-- A transfer of the radio peripheral: a race where GBXC has `SPI_CS0` asserted, and nothing to GBXC otherwise
(`60_exceptions.md` R469, R481). -/
def radioTransfer (s : State) : Host.Outcome State Fault Refusal :=
  if spiCs0Asserted s || (s.me :: s.others).any selecting then .fault (.busRace .gbxc .radio) else .next s

/-- An input of the outside world (`10_state.md` R22, R23, R58; `60_exceptions.md` R468 to R470, R473, R480). A
pause where no operation is pending does nothing. A host's read of `RES` before the agent's first operation completed is
the fault the spec names for it, `ResultUnset` (R470, R58). -/
def applyInput (input : Input) (s : State) : Host.Outcome State Fault Refusal :=
  match input with
  | .turn k => .next (takeTurn k s)
  | .issue r => .next (issueCommand r s)
  | .readRes => if s.me.resSet then .next (observe s.me.res s) else .fault .resultUnset
  | .readBufp => .next (observe s.me.bufp s)
  | .poke addr v =>
    if addr < Config.hbufSize then .next { s with hbuf := s.hbuf.writeBlock addr [v] }
    else .fault (.bufferRange addr 1)
  | .setEnv e => .next { s with bus := { s.bus with env := e } }
  | .pause _ _ => .next s
  | .radio => radioTransfer s

/-- What comes next when the current agent has no command pending: the next input, or nothing at all
(`60_exceptions.md` R480: GBXC "does nothing unless commanded"). -/
def idleStep (s : State) : Host.Outcome State Fault Refusal :=
  match s.inputs with
  | [] => .next s
  | input :: rest => applyInput input { s with inputs := rest }

/-- A pending request that names no operation: a reserved command word is refused (`30_encoding.md` R127);
bytes or bits that are no wire row have no meaning here (log entry 8). -/
def reject (r : Request) (s : State) : Host.Outcome State Fault Refusal :=
  match r with
  | .word _ => .next (refuse s)
  | .frame _ => .refused (.notATableFrame r)
  | .eep _ => .refused (.notATableFrame r)

/-- Whether an input comes before the current agent's next step: a turn always; the outside world while the
agent stands part of the way through an operation (`20_memory.md` R92, `70_reset_and_hazards.md` R523). -/
def comesFirst (input : Input) (q : Seq) : Bool :=
  match input with
  | .turn _ => true
  | .setEnv _ | .poke _ _ | .radio => underway q
  | .issue _ | .readRes | .readBufp | .pause _ _ => false

/-- The input that comes before the current agent's next step, if one does. -/
def interposed (s : State) : Option (Input × State) :=
  match s.inputs with
  | [] => none
  | input :: rest => if comesFirst input s.me.seq then some (input, { s with inputs := rest }) else none

/-- The pause that is due in the current agent's operation, if one is. -/
def pauseDue (s : State) : Option (Nat × Bool × State) :=
  match s.inputs with
  | .pause n mid :: rest => some (n, mid, { s with inputs := rest })
  | _ => none

/-- The pending operation: some of its steps where a pause is due in it, the rest of them where it has been
begun, and else the whole of it (`10_state.md` R24). -/
def operate (i : Instr) (s : State) : Host.Outcome State Fault Refusal :=
  match pauseDue s with
  | some (n, mid, s) => advance i n mid s
  | none => if underway s.me.seq then resume i s else exec i s

end Sys2Proof.Machine
end

