-- ==== Sys2Proof/Machine/Step.lean ====
section
/-! DEFINITION. One step of the machine: an input that comes first, the current agent's pending operation or
some steps of it, or the next input of the outside world. -/

namespace Sys2Proof.Machine

/-- One step (`10_state.md` R21, R24, `60_exceptions.md` R480). -/
def step (s : State) : Host.Outcome State Fault Refusal :=
  match interposed s with
  | some (input, s) => applyInput input s
  | none =>
    match s.me.cmd with
    | none => idleStep s
    | some r =>
      match decodeRequest r with
      | .ok i => operate i s
      | .error _ => reject r s

/-- The state with an instruction of the opcode table, its bits numbered as the table numbers them, as the
command pending in the current agent's `CMD`: the place the sequencer takes its next operation from, being
idle. No input stands before it. -/
def State.withFetchWord (s : State) (nbits w : Nat) : State :=
  { s with me := { s.me with cmd := some (tableRequest nbits w), seq := .idle }, inputs := [] }

end Sys2Proof.Machine
end

