-- ==== Sys2Proof/Safety.lean ====
section
/-! DEFINITION. The terms statements use: the conditions under which an operation runs, the grounded bus,
the sessions that a verified cartridge can give, and the invariant every step keeps. -/

namespace Sys2Proof.Machine

/-! ## When an operation runs -/

/-- No other agent has a power session or a cartridge transaction open (`60_exceptions.md` R469). -/
def Calm (s : State) : Prop := intruded s = none

/-- The conditions of every operation with expander steps (`60_exceptions.md` R470, R471): initialised,
undisturbed, no continuous read open, the chips not forced idle. -/
structure Ready (s : State) : Prop where
  init : s.spiReady = true
  calm : Calm s
  closed : s.bus.crdActive = false
  selected : s.csForceIdle = false

/-- The conditions of an operation that powers the GB slot (`42_power.md` R240). -/
structure ReadyGb (s : State) : Prop where
  ready : Ready s
  other : s.bus.pwrGba = false

/-- The conditions of an operation that powers the GBA slot (`42_power.md` R240). -/
structure ReadyGba (s : State) : Prop where
  ready : Ready s
  other : s.bus.pwrGb = false

/-- The agent's buffer is set and holds `n` bytes (`60_exceptions.md` R468). -/
def BufferFits (n : Nat) (s : State) : Prop := s.me.bufSet = true ∧ s.me.bufp.toNat + n ≤ Config.hbufSize

/-- The state in which a dispatcher operation's body runs (`46_dispatcher.md` R420). -/
def locked (s : State) : State := takeLock false Config.gbxKey s

/-- The operations that need no `INIT` (`40_transport_lock.md` R171). -/
def initExempt : Instr → Bool
  | .init _ | .setbuf _ | .lock _ _ | .unlock _ | .gbClear | .gbaClear | .gbxClear
  | .gbxType | .gbxTitle | .gbxIdent | .gbxRomsize | .gbxSavesize | .gbxTRom | .gbxTRdsave | .gbxTWrsave => true
  | _ => false

/-- The operations under the bus lock (`46_dispatcher.md` R420). -/
def dispatches : Instr → Bool
  | .gbxLoadhdr | .gbxIsloaded | .gbxReadrom | .gbxReadsave | .gbxWritesave | .gbxClear => true
  | _ => false

/-- The dispatcher may take the lock (`46_dispatcher.md` R420, `40_transport_lock.md` R183). -/
def LockFree (s : State) : Prop := s.lock = 0 ∨ s.lock = Config.gbxKey

/-- `gb` where the GB/GBC engine holds the active session, `gba` where the GBA engine does; one of them does
(`46_dispatcher.md` R424). -/
def OnActive (gb gba : Prop) (s : State) : Prop :=
  (s.gb.romSize ≠ 0 → gb) ∧ (s.gb.romSize = 0 → s.gba.romSize ≠ 0 ∧ gba)

/-! ### Coming to the bus

What an engine operation needs to come to its power-up: its session, its buffer, the other slot off
(`60_exceptions.md` R471 (4) to (6)). -/

def GbReadsRom (s : State) : Prop := s.bus.pwrGba = false ∧ s.gb.loaded = true ∧ BufferFits (gbDumpTotal s.gb) s

def GbMovesSave (s : State) : Prop :=
  s.bus.pwrGba = false ∧ s.gb.loaded = true ∧ s.gb.saveSize ≠ 0 ∧ BufferFits s.gb.saveSize.toNat s

def GbaReadsRom (s : State) : Prop := s.bus.pwrGb = false ∧ s.gba.loaded = true ∧ BufferFits s.gba.romSize.toNat s

def GbaMovesSave (s : State) : Prop :=
  s.bus.pwrGb = false ∧ s.gba.loaded = true ∧ s.gba.saveType ≠ .unknown ∧ BufferFits s.gba.saveSize.toNat s

/-- The checks that an operation makes before its first step at a pin, a frame or the bus let it by
(`60_exceptions.md` R471 (1) to (6), `INIT` apart); false of an operation that has no such step. -/
def ComesToBus (i : Instr) (s : State) : Prop :=
  i.wellFormed = true ∧
  match i with
  | .init _ | .setbuf _ | .lock _ _ | .unlock _ | .gbClear | .gbaClear | .gbxClear
  | .gbxType | .gbxTitle | .gbxIdent | .gbxRomsize | .gbxSavesize | .gbxTRom | .gbxTRdsave | .gbxTWrsave => False
  | .xfer len | .gbaRomrd _ len => BufferFits len.toNat s
  | .eepRdrow _ _ | .eepWrrow _ _ => BufferFits 8 s
  | .flashProg128 _ => BufferFits 128 s
  | .gbRombank m _ | .gbRamopen m | .gbRamclose m => m ≠ .noMbc
  | .gbRambank m _ => m ≠ .noMbc ∧ m ≠ .mbc2
  | .gbPwrup | .gbLoadhdr => s.bus.pwrGba = false
  | .gbIsloaded => s.bus.pwrGba = false ∧ s.gb.loaded = true
  | .gbReadrom => GbReadsRom s
  | .gbReadsave | .gbWritesave => GbMovesSave s
  | .gbaPwrup | .gbaLoadhdr | .gbaProbesize | .gbaClassify => s.bus.pwrGb = false
  | .gbaIsloaded => s.bus.pwrGb = false ∧ s.gba.loaded = true
  | .gbaReadrom => GbaReadsRom s
  | .gbaReadsave | .gbaWritesave => GbaMovesSave s
  | .gbxLoadhdr => LockFree s ∧ s.bus.pwrGb = false ∧ s.bus.pwrGba = false
  | .gbxIsloaded =>
    LockFree s ∧ OnActive (s.bus.pwrGba = false ∧ s.gb.loaded = true) (s.bus.pwrGb = false ∧ s.gba.loaded = true) s
  | .gbxReadrom => LockFree s ∧ OnActive (GbReadsRom s) (GbaReadsRom s) s
  | .gbxReadsave => LockFree s ∧ OnActive (GbMovesSave s) (GbaMovesSave s) s
  | .gbxWritesave => LockFree s ∧ OnActive (s.bus.pwrGba = false) (s.bus.pwrGb = false) s
  | .stbDir _ _ | .stbWr _ _ | .stbRd _ | .expDir _ _ | .expPull _ _ | .expWr _ _ | .expRd _ | .expDir2 _ _
  | .expPull2 _ _ | .expWr2 _ _ | .expRd2 _ | .crdStart _ | .crdCont | .crdEnd | .gbPwrdn | .gbaPwrdn | .gbBusrd _
  | .gbBuswr _ _ | .saveRd _ | .saveWr _ _ | .flashId | .flashBank _ | .flashErase _ | .flashProg _ _
  | .wireExpFrame3Wr _ _ _ | .wireExpFrame3Rd _ _ | .wireExpFrame4Wr _ _ _ _ | .wireExpFrame4Rd _ | .wireCrdHeader _
  | .wireEepRead4k _ | .wireEepRead64k _ | .wireEepWrite4k _ _ | .wireEepWrite64k _ _ => True

/-- The operations inside a continuous read (`41_expander.md` R213, R214). -/
def continues : Instr → Bool
  | .crdCont | .crdEnd => true
  | _ => false

/-- The raw strobe operations, which send no frame (`40_transport_lock.md` R178 to R181). -/
def strobes : Instr → Bool
  | .stbDir _ _ | .stbWr _ _ | .stbRd _ => true
  | _ => false

/-! ### Owners of the power flags and the sessions -/

/-- The operations that end with the GB slot's power-down, or may (`42_power.md` R236, R239). -/
def powersDownGb : Instr → Bool
  | .gbPwrdn | .gbLoadhdr | .gbIsloaded | .gbReadrom | .gbReadsave | .gbWritesave
  | .gbxLoadhdr | .gbxIsloaded | .gbxReadrom | .gbxReadsave | .gbxWritesave => true
  | _ => false

/-- The same of the GBA slot. -/
def powersDownGba : Instr → Bool
  | .gbaPwrdn | .gbaLoadhdr | .gbaIsloaded | .gbaReadrom | .gbaProbesize | .gbaClassify | .gbaReadsave | .gbaWritesave
  | .gbxLoadhdr | .gbxIsloaded | .gbxReadrom | .gbxReadsave | .gbxWritesave => true
  | _ => false

/-- The operations that may empty the GB/GBC session: clears, loads, re-checks and the live check of a save write
(`43_gb_engine.md` R258, R266, R294, `46_dispatcher.md` R421, R425, R437, R444). -/
def emptiesGb : Instr → Bool
  | .gbClear | .gbLoadhdr | .gbIsloaded | .gbxClear | .gbxLoadhdr | .gbxIsloaded | .gbxWritesave => true
  | _ => false

/-- The same of the GBA session (`44_gba_rom.md` R320, R328, R333). -/
def emptiesGba : Instr → Bool
  | .gbaClear | .gbaLoadhdr | .gbaIsloaded | .gbxClear | .gbxLoadhdr | .gbxIsloaded | .gbxWritesave => true
  | _ => false

/-! ## What an operation leaves alone -/

/-- The state outside the host registers of the current agent and the bus is the same, byte for byte. -/
structure OnlyBus (s t : State) : Prop where
  others : t.others = s.others
  inputs : t.inputs = s.inputs
  hbuf : t.hbuf = s.hbuf
  spiReady : t.spiReady = s.spiReady
  spiDiv : t.spiDiv = s.spiDiv
  fifo : t.fifo = s.fifo
  lock : t.lock = s.lock
  csForceIdle : t.csForceIdle = s.csForceIdle
  gb : t.gb = s.gb
  gba : t.gba = s.gba
  rx : t.rx = s.rx
  bufp : t.me.bufp = s.me.bufp
  bufSet : t.me.bufSet = s.me.bufSet
  seen : t.me.seen = s.me.seen
  name : t.me.id = s.me.id

/-- The bus side but for what every operation may do there: the traces, the free-value counter, the
environment, the strobe pins and the port registers. -/
structure FlagsKept (b b' : Bus) : Prop where
  pwrGb : b'.pwrGb = b.pwrGb
  pwrGba : b'.pwrGba = b.pwrGba
  ownGb : b'.ownGb = b.ownGb
  ownGba : b'.ownGba = b.ownGba
  mbcw : b'.mbcw = b.mbcw
  crdActive : b'.crdActive = b.crdActive

/-- The agent's own registers after an operation that returned `v` (`10_state.md` R22, R24). -/
structure Returned (v : Word) (t : State) : Prop where
  res : t.me.res = v
  resSet : t.me.resSet = true
  cmd : t.me.cmd = none
  seq : t.me.seq = .idle

/-- An operation returned `v` and, but for the agent's result, changed nothing outside the bus. -/
structure Done (v : Word) (s t : State) : Prop extends Returned v t, OnlyBus s t

/-- Nothing on the bus side changed but the port registers, the pin-level trace and the free-value counter. -/
structure OnlyPorts (b b' : Bus) : Prop extends FlagsKept b b' where
  pins : b'.pins = b.pins
  crdChip : b'.crdChip = b.crdChip
  hist : b'.hist = b.hist
  env : b'.env = b.env

/-- Nothing on the bus side changed but the free-value counter. -/
def QuietBus (b b' : Bus) : Prop := b' = { b with tick := b'.tick }

/-- What no GB/GBC bus sequence touches: the GBA slot's pins and power flag, the detector pin, the
continuous read (`42_power.md` R236, `43_gb_engine.md` R250). -/
structure GbaSideKept (b b' : Bus) : Prop where
  gbaPwr : b'.pins.gbaPwr = b.pins.gbaPwr
  gbaCs : b'.pins.gbaCs = b.pins.gbaCs
  gbaCs2 : b'.pins.gbaCs2 = b.pins.gbaCs2
  gbaRd : b'.pins.gbaRd = b.pins.gbaRd
  gbaWr : b'.pins.gbaWr = b.pins.gbaWr
  det : b'.pins.det = b.pins.det
  pwrGba : b'.pwrGba = b.pwrGba
  ownGba : b'.ownGba = b.ownGba
  crdActive : b'.crdActive = b.crdActive
  crdChip : b'.crdChip = b.crdChip

/-- What no GBA bus sequence touches: the GB slot's pins, power flag and MBC record, the detector pin
(`42_power.md` R237, `44_gba_rom.md` R310, `45_gba_save.md` R350). -/
structure GbSideKept (b b' : Bus) : Prop where
  gbPwr : b'.pins.gbPwr = b.pins.gbPwr
  gbCs : b'.pins.gbCs = b.pins.gbCs
  gbRd : b'.pins.gbRd = b.pins.gbRd
  gbWr : b'.pins.gbWr = b.pins.gbWr
  det : b'.pins.det = b.pins.det
  pwrGb : b'.pwrGb = b.pwrGb
  ownGb : b'.ownGb = b.ownGb
  mbcw : b'.mbcw = b.mbcw

/-- What GB/GBC bus cycles with no power step leave alone: the other slot, the detector, the continuous read,
the power switch and flag, port D, the directions of the address ports and strobes. -/
structure GbCycles (b b' : Bus) : Prop where
  gbaPwr : b'.pins.gbaPwr = b.pins.gbaPwr
  gbaCs : b'.pins.gbaCs = b.pins.gbaCs
  gbaCs2 : b'.pins.gbaCs2 = b.pins.gbaCs2
  gbaRd : b'.pins.gbaRd = b.pins.gbaRd
  gbaWr : b'.pins.gbaWr = b.pins.gbaWr
  det : b'.pins.det = b.pins.det
  pwrGba : b'.pwrGba = b.pwrGba
  ownGba : b'.ownGba = b.ownGba
  crdActive : b'.crdActive = b.crdActive
  crdChip : b'.crdChip = b.crdChip
  gbPwr : b'.pins.gbPwr = b.pins.gbPwr
  gbCsDir : b'.pins.gbCs.dir = b.pins.gbCs.dir
  gbRdDir : b'.pins.gbRd.dir = b.pins.gbRd.dir
  gbWrDir : b'.pins.gbWr.dir = b.pins.gbWr.dir
  pwrGb : b'.pwrGb = b.pwrGb
  ownGb : b'.ownGb = b.ownGb
  portADir : b'.exp.a.dir = b.exp.a.dir
  portBDir : b'.exp.b.dir = b.exp.b.dir
  portD : b'.exp.d = b.exp.d

/-- What GBA bus cycles with no power step leave alone; the continuous-read flag is said apart. -/
structure GbaCycles (b b' : Bus) : Prop where
  gbPwr : b'.pins.gbPwr = b.pins.gbPwr
  gbCs : b'.pins.gbCs = b.pins.gbCs
  gbRd : b'.pins.gbRd = b.pins.gbRd
  gbWr : b'.pins.gbWr = b.pins.gbWr
  det : b'.pins.det = b.pins.det
  pwrGb : b'.pwrGb = b.pwrGb
  ownGb : b'.ownGb = b.ownGb
  mbcw : b'.mbcw = b.mbcw
  gbaPwr : b'.pins.gbaPwr = b.pins.gbaPwr
  gbaCsDir : b'.pins.gbaCs.dir = b.pins.gbaCs.dir
  gbaCs2Dir : b'.pins.gbaCs2.dir = b.pins.gbaCs2.dir
  gbaRdDir : b'.pins.gbaRd.dir = b.pins.gbaRd.dir
  gbaWrDir : b'.pins.gbaWr.dir = b.pins.gbaWr.dir
  pwrGba : b'.pwrGba = b.pwrGba
  ownGba : b'.ownGba = b.ownGba
  portD : b'.exp.d = b.exp.d

/-- What save-bus and EEPROM cycles leave alone: `GbaCycles` and the continuous read. -/
structure SaveCycles (b b' : Bus) : Prop extends GbaCycles b b' where
  crdActive : b'.crdActive = b.crdActive
  crdChip : b'.crdChip = b.crdChip

/-- The ghost record of MBC registers after a power-up of the GB slot: started anew where the slot was not
powered (`10_state.md` R44, `42_power.md` R232). -/
def mbcwPowered (b : Bus) : Mbcw := if b.pwrGb then b.mbcw else .nothing

/-- The bytes of an array stored at an address, every other byte as before (`00_scope.md` R13). -/
def Stores (m m' : Memory) (a : Nat) (bytes : List Byte) : Prop :=
  (∀ k v, bytes[k]? = some v → m'.read (a + k) = v) ∧
    ∀ x, x < a ∨ a + bytes.length ≤ x → m'.read x = m.read x

/-! ## The grounded bus (`10_state.md` R59, `42_power.md` R236, R239) -/

/-- A port driven low with its pull-ups off. -/
def PortReg.grounded : PortReg where
  dir := 0x00
  pull := 0x00
  out := 0x00

/-- A strobe driven to a level. -/
def PinReg.driven (level : Bool) : PinReg where
  dir := .output
  out := level

/-- Every line of the four ports driven low, no pull-up (`42_power.md` R236). -/
def LinesGrounded (b : Bus) : Prop :=
  b.exp = { a := .grounded, b := .grounded, c := .grounded, d := .grounded }

/-- The GB/GBC default pin state: strobes high, address lines driven low, data port released with its
pull-ups on (`42_power.md` R232 step 1). Port C keeps its latch and port D its registers. -/
structure GbDefault (b b' : Bus) : Prop where
  cs : b'.pins.gbCs = .driven true
  rd : b'.pins.gbRd = .driven true
  wr : b'.pins.gbWr = .driven true
  portA : b'.exp.a = .grounded
  portB : b'.exp.b = .grounded
  portC : b'.exp.c = { b.exp.c with dir := 0xFF, pull := 0xFF }
  portD : b'.exp.d = b.exp.d

/-- A port driven low with its pull-ups on. -/
def PortReg.lowPulled : PortReg where
  dir := 0x00
  pull := 0xFF
  out := 0x00

/-- The GBA default pin state: strobes high, all 24 lines driven low, pull-ups on (`42_power.md` R234). -/
structure GbaDefault (b b' : Bus) : Prop where
  cs : b'.pins.gbaCs = .driven true
  cs2 : b'.pins.gbaCs2 = .driven true
  rd : b'.pins.gbaRd = .driven true
  wr : b'.pins.gbaWr = .driven true
  portA : b'.exp.a = .lowPulled
  portB : b'.exp.b = .lowPulled
  portC : b'.exp.c = .lowPulled
  portD : b'.exp.d = b.exp.d

/-- The GB slot powered down: lines grounded, its strobes low, its power pin off (`42_power.md` R236). -/
structure GbGrounded (b : Bus) : Prop where
  flag : b.pwrGb = false
  owner : b.ownGb = none
  lines : LinesGrounded b
  cs : b.pins.gbCs = .driven false
  rd : b.pins.gbRd = .driven false
  wr : b.pins.gbWr = .driven false
  pwr : b.pins.gbPwr = .driven (!Config.pwrOnLevel .gb)

/-- The GBA slot powered down (`42_power.md` R237). -/
structure GbaGrounded (b : Bus) : Prop where
  flag : b.pwrGba = false
  owner : b.ownGba = none
  lines : LinesGrounded b
  cs : b.pins.gbaCs = .driven false
  cs2 : b.pins.gbaCs2 = .driven false
  rd : b.pins.gbaRd = .driven false
  wr : b.pins.gbaWr = .driven false
  pwr : b.pins.gbaPwr = .driven (!Config.pwrOnLevel .gba)

/-! ## Sessions -/

/-- A 1024-byte GB/GBC header that verifies: the reference logo and a known ROM-size code
(`43_gb_engine.md` R258, R265). -/
def GbHeaderOk (h : List Byte) : Prop := slice 0x104 48 h = logo ∧ (h.getD 0x148 0).toNat ≤ 8

/-- The 64 bytes read at `0x104` that still show the loaded GB/GBC cartridge (`43_gb_engine.md` R266). -/
def GbStill (g : List Byte) (session : GbSession) : Prop :=
  g.take 48 = logo ∧ normTitle (g.drop 48) = session.title

/-- A 192-byte header that still shows the loaded GBA cartridge (`44_gba_rom.md` R328). -/
def GbaStill (h : List Byte) (session : GbaSession) : Prop :=
  gbaChecksumOk h = true ∧ gbaTitle h = session.title ∧ gbaCode h = session.code ∧ gbaMaker h = session.maker

/-- A GB/GBC session as a load leaves it (`10_state.md` R34, R35, `30_encoding.md` R143, R144). -/
structure GbSessionOk (g : GbSession) : Prop where
  empty : g.loaded = false → g = .empty
  size : g.loaded = true → ∃ n, n ≤ 8 ∧ g.romSize.toNat = 32768 * 2 ^ n
  save : g.saveSize.toNat ≤ 131072
  title : g.title.length ≤ 16
  sha1 : g.loaded = true → g.sha1.length = 40

/-- A GBA session as a load leaves it (`10_state.md` R36 to R41, `44_gba_rom.md` R325). -/
structure GbaSessionOk (g : GbaSession) : Prop where
  empty : g.loaded = false → g = .empty
  size : g.loaded = true → g.romSize = 0x400000 ∨ g.romSize = 0x800000 ∨ g.romSize = 0x1000000 ∨ g.romSize = 0x2000000
  save : g.saveSize = saveTypeSize g.saveType
  title : g.title.length = 12
  code : g.code.length = 4
  maker : g.maker.length = 2

/-! ## The live check of a save write (`46_dispatcher.md` R437) -/

/-- What the check of `GBX_WRITESAVE` reads of a GB/GBC cartridge, and the bus it leaves. -/
def gbLiveCheck (s : State) : List Byte × Bus :=
  match (gbCheckSteps .gbxWritesave).run (locked s) with
  | .ok (g, t) => (g, t.bus)
  | .error _ => ([], s.bus)

/-- The same of a GBA cartridge. -/
def gbaLiveCheck (s : State) : List Byte × Bus :=
  match (gbaCheckSteps .gbxWritesave).run (locked s) with
  | .ok (h, t) => (h, t.bus)
  | .error _ => ([], s.bus)

/-! ## The invariant -/

/-- What every step keeps: the host buffer in canonical form, never both slots powered (`10_state.md` R33),
sessions that are empty or whole (R34 to R41), empty FIFOs (R25), the chip select forced only while the
lock is held (R27), the detector pin an input (`40_transport_lock.md` R179). -/
structure Inv (s : State) : Prop where
  hbuf : s.hbuf.wf
  slots : s.bus.pwrGb = false ∨ s.bus.pwrGba = false
  gb : GbSessionOk s.gb
  gba : GbaSessionOk s.gba
  fifo : s.fifo = []
  forced : s.csForceIdle = true → s.lock ≠ 0
  detector : s.bus.pins.det.dir = .input

/-! ## Events -/

/-- The events added between two states of the bus, oldest first (`20_memory.md` R96). -/
def Adds (b b' : Bus) (es : List BusEvent) : Prop := b'.hist = es.reverse ++ b.hist

/-- The events of a power-up: none where the slot is already powered (`42_power.md` R231, R232). -/
def powerOn (slot : Slot) (powered : Bool) : List BusEvent :=
  if powered then [] else [.power slot true, .delay .settle]

/-- Reads of consecutive GB/GBC addresses with the values returned (`43_gb_engine.md` R251). -/
def gbReads (a : Nat) (vs : List Byte) : List BusEvent := vs.mapIdx fun k v => .gbR (BitVec.ofNat 16 (a + k)) v

/-- Writes on the GB/GBC bus, in order (`43_gb_engine.md` R252). -/
def gbWriteEvents (ws : List (Half × Byte)) : List BusEvent := ws.map fun w => .gbW w.1 w.2

/-- Reads of consecutive save-bus addresses with the values returned (`45_gba_save.md` R351). -/
def saveReads (a : Nat) (vs : List Byte) : List BusEvent := vs.mapIdx fun k v => .saveR (BitVec.ofNat 16 (a + k)) v

/-- Writes on the save bus, in order (`45_gba_save.md` R352). -/
def saveWriteEvents (ws : List (Half × Byte)) : List BusEvent := ws.map fun w => .saveW w.1 w.2

/-- The events of a ROM burst of the halfwords `vs` from halfword address `ha`: latched at its start and
again at every multiple of 65536 halfwords (`44_gba_rom.md` R314). -/
def burst (ha : Nat) (vs : List Half) : List BusEvent :=
  [.romLatch (BitVec.ofNat 24 ha)] ++
    (vs.mapIdx fun k v =>
      (if 0 < k ∧ (ha + k) % 65536 = 0 then [.romEnd, .romLatch (BitVec.ofNat 24 (ha + k))] else []) ++
        [.romNext v]).flatten ++ [.romEnd]

/-- The bytes of a burst, a halfword's low byte first (`20_memory.md` R79). -/
def burstBytes (vs : List Half) : List Byte := halfBytes vs

/-- The events of an EEPROM row read: the request, the turn, four ignored bits and the 64 bits of the row
(`45_gba_save.md` R376). -/
def rowRead (frm : Framing) (row : Nat) (nibble bits : List Bool) : List BusEvent :=
  [.eepOpen] ++ (eepReadRequest frm row).map .eepOutBit ++ [.eepTurn] ++ nibble.map .eepInBit ++
    bits.map .eepInBit ++ [.eepClose]

/-- The bits clocked in for a row: an ignored nibble and the 64 bits of the row. -/
def RowBits (q : List Bool × List Bool) : Prop := q.1.length = 4 ∧ q.2.length = 64

/-- The events of reading the rows from 0 up (`45_gba_save.md` R356, R396). -/
def rowsRead (frm : Framing) (qs : List (List Bool × List Bool)) : List BusEvent :=
  (qs.mapIdx fun row q => rowRead frm row q.1 q.2).flatten

/-- The bytes that rows spell, eight each. -/
def rowsBytes (qs : List (List Bool × List Bool)) : List Byte := (qs.map fun q => bytesOfBits 8 q.2).flatten

/-- The events of an EEPROM row write, the programming delay last (`45_gba_save.md` R378, R379). -/
def rowWrite (frm : Framing) (row : Nat) (data : List Byte) : List BusEvent :=
  [.eepOpen] ++ (eepWriteRequest frm row data).map .eepOutBit ++ [.eepClose, .delay .eepWrite]

/-- The writes that select a flash bank (`45_gba_save.md` R386). -/
def bankEvents (v : Byte) : List BusEvent :=
  saveWriteEvents [(0x5555, 0xAA), (0x2AAA, 0x55), (0x5555, 0xB0), (0x0000, v)]

/-- What a size probe of a ROM with header `h` reads and finds: 200 bytes 8 bytes before 4, 8 and 16 MB,
smallest first, up to the first that repeats the header exactly; else 32 MB (`44_gba_rom.md` R325, R326). -/
def SizeProbed (h : List Byte) (size : Word) (es : List BusEvent) : Prop :=
  ∃ w4 w8 w16 : List Half, w4.length = 100 ∧ w8.length = 100 ∧ w16.length = 100 ∧
    if (burstBytes w4).drop 8 = h then size = 0x400000 ∧ es = burst 0x1FFFFC w4
    else if (burstBytes w8).drop 8 = h then size = 0x800000 ∧ es = burst 0x1FFFFC w4 ++ burst 0x3FFFFC w8
    else size = (if (burstBytes w16).drop 8 = h then 0x1000000 else 0x2000000) ∧
      es = burst 0x1FFFFC w4 ++ burst 0x3FFFFC w8 ++ burst 0x7FFFFC w16

/-- What the flash branch of a classification does and finds: the identifiers, the table, and for a pair the
table does not hold the comparison of the two banks (`45_gba_save.md` R355, R365, R384). -/
def FlashClassified (c : Classified) (es : List BusEvent) : Prop :=
  ∃ hs : List BusEvent,
    es = saveWriteEvents [(0x5555, 0xAA), (0x2AAA, 0x55), (0x5555, 0x90)] ++ [.saveR 0 c.mfr, .saveR 1 c.dev] ++
      saveWriteEvents [(0x5555, 0xAA), (0x2AAA, 0x55), (0x5555, 0xF0)] ++ hs ∧
    (∀ k, flashTable c.mfr c.dev = some k → hs = [] ∧ c.kind = k) ∧
    (flashTable c.mfr c.dev = none → ∃ x y : List Byte, x.length = 192 ∧ y.length = 192 ∧
      hs = saveReads 0 x ++ bankEvents 1 ++ saveReads 0 y ++ bankEvents 0 ∧
      c.kind = if (1536 - bitDiff x y) * 100 ≥ 95 * 1536 then .flash512k else .flash1m)

/-- What the branches after the EEPROM probe do and find: presence, then the SRAM write test and its size, else
the flash branch (`45_gba_save.md` R355, R358 to R360). -/
def ParallelClassified (c : Classified) (es : List BusEvent) : Prop :=
  ∃ (fs : List BusEvent) (wins : List (List Byte)), wins.length = 128 ∧ (∀ w ∈ wins, w.length = 64) ∧
    es = (wins.mapIdx fun k w => saveReads (512 * k) w).flatten ++ fs ∧
    if popcount wins.flatten * 100 > 95 * 65536 ∨ popcount wins.flatten * 100 < 5 * 65536 then
      fs = [] ∧ c = unflashed .unknown
    else ∃ (o r1 r2 : Byte) (gs : List BusEvent),
      fs = [.saveR 0 o, .saveW 0 (~~~o), .saveR 0 r1, .saveW 0 o, .saveR 0 r2] ++ gs ∧
      if r1 ≠ o ∧ r2 = o then
        ∃ x y : List Byte, x.length = 192 ∧ y.length = 192 ∧ gs = saveReads 0 x ++ saveReads 0x8000 y ∧
          c = unflashed (if (1536 - bitDiff x y) * 100 ≥ 95 * 1536 then .sram256k else .sram512k)
      else FlashClassified c gs

/-- What a classification does and finds: 65 rows read as an EEPROM, its size from how much rows 1 to 64 differ
from row 0, and the other branches where the rows are no data (`45_gba_save.md` R355 to R357, R366). -/
def SaveClassified (c : Classified) (es : List BusEvent) : Prop :=
  ∃ (qs : List (List Bool × List Bool)) (fs : List BusEvent), qs.length = 65 ∧ (∀ q ∈ qs, RowBits q) ∧
    es = rowsRead .k64 qs ++ fs ∧
    if popcount (rowsBytes qs) * 100 > 97 * 4160 ∨ popcount (rowsBytes qs) * 100 < 3 * 4160 then
      ParallelClassified c fs
    else
      fs = [] ∧ c = unflashed
        (if ((List.range 64).map fun r => bitDiff (slice (8 * (r + 1)) 8 (rowsBytes qs))
            ((rowsBytes qs).take 8)).sum * 100 ≤ 3 * 4096 then .eeprom4k else .eeprom64k)

/-! ## Frames and pins -/

/-- The data bytes of a frame that go to one of the two places of a chip; `next` says whether the first one does
(`41_expander.md` R216: the slots alternate). -/
def slotBytes (next : Bool) (data : List Byte) : List Byte :=
  match data with
  | [] => []
  | v :: vs => if next then v :: slotBytes false vs else slotBytes true vs

/-- The register that a data slot of a frame reads or writes is that of a port of its chip. -/
def slotPort (c : Chip) (second : Bool) (j : Nat) : Port := chipPort c (second != (j % 2 == 1))

/-- What a data slot of a read frame answers: the register, or for `io` the pins, an output bit the latch
(`41_expander.md` R201, R216). -/
def SlotAnswer (k : RegKind) (r : PortReg) (v : Byte) : Prop :=
  match k with
  | .dir => v = r.dir
  | .pull => v = r.pull
  | .io => ∃ pins, v = portMix r pins

/-- The pin-level steps added between two states of the bus, oldest first (`20_memory.md` R96). -/
def Traces (b b' : Bus) (ws : List WireEvent) : Prop := b'.wire = ws.reverse ++ b.wire

/-- A strobe driven: its level, then its direction (`42_power.md` R232). -/
def driven (p : Pin) (v : Bool) : List WireEvent := [.pinLevel p v, .pinDir p .output]

/-- Strobes released to inputs, one after another (`42_power.md` R235). -/
def released (ps : List Pin) : List WireEvent := ps.map fun p => .pinDir p .input

/-- Strobe levels written, one after another. -/
def levels (ps : List (Pin × Bool)) : List WireEvent := ps.map fun p => .pinLevel p.1 p.2

/-- Frames sent to the chips, one after another. -/
def frames (fs : List (List Byte)) : List WireEvent := fs.map .frame

/-- An agent that stands inside a power session or a cartridge transaction. -/
def MidTransaction (a : Agent) : Prop :=
  ∃ op done selected, a.seq = .running op done true selected

/-- An agent that stopped inside a step with `SPI_CS0` asserted. -/
def MidSelect (a : Agent) : Prop := ∃ op done busy, a.seq = .running op done busy true

end Sys2Proof.Machine
end

