-- ==== Sys2Proof/Certificates/Slice0/Obligations.lean ====
section
/-! DEFINITION. The statements for the provers, each a `def Obligations.<Name> : Prop`. -/

open Sys2Proof Sys2Proof.Machine

/-! ## Encoding and stepping -/

/-- `30_encoding.md` R120 to R150: decoding the encoding of a well-formed operation gives it back, for
every operation and every operand. -/
def Obligations.DecodeOfEncode : Prop :=
  ∀ i : Instr, i.wellFormed = true → decodeRequest (encode i) = .ok i

/-- `30_encoding.md` R127, R128: a request that decodes is the encoding of what it decodes to, which is
well-formed; each request has one meaning and no meaningful bit is dropped. -/
def Obligations.EncodeOfDecode : Prop :=
  ∀ (r : Request) (i : Instr), decodeRequest r = .ok i → encode i = r ∧ i.wellFormed = true

/-- `30_encoding.md` R126, R134, R136, R150: words, frames and bits written out from the tables. -/
def Obligations.SampleWordsDecode : Prop :=
  decodeRequest (.word 0x01000000007A1200) = .ok (.init 8000000) ∧
  decodeRequest (.word 0x0603000000000001) = .error .mustBeZero ∧
  decodeRequest (.word 0x1002_00FF_00000000) = .ok (.expDir .c 0xFF) ∧
  decodeRequest (.word 0x3205_0101_00000000) = .ok (.gbRombank .mbc5 0x101) ∧
  decodeRequest (.word 0x3204_0001_00000000) = .error .selector ∧
  decodeRequest (.word 0x4000_0004_00000001) = .error .operand ∧
  decodeRequest (.word 0x5101_03FF_00000000) = .ok (.eepRdrow .k64 0x3FF) ∧
  decodeRequest (.word 0x7000_0000_00000000) = .error .opcode ∧
  decodeRequest (.frame [0x42, 0x00, 0xFF]) = .ok (.wireExpFrame3Wr .cd 0x00 0xFF) ∧
  decodeRequest (.frame [0x41, 0x12]) = .ok (.wireCrdHeader .ab) ∧
  decodeRequest (.eep [true, true, false, false, false, false, true, true, false]) = .ok (.wireEepRead4k 3)

/-- `10_state.md` R21, R24, `30_encoding.md` R126: with an operation pending and no input that comes first, a
step is the meaning of the operation its request decodes to; of an operation taken up earlier it is the steps
that are left; where a pause is due it is that many steps and no more. Pauses are the model's (log entry 5). -/
def Obligations.StepRunsDecoded : Prop :=
  ∀ (s : State) (r : Request) (i : Instr),
    s.me.cmd = some r → interposed s = none → decodeRequest r = .ok i →
    (pauseDue s = none → underway s.me.seq = false → step s = exec i s) ∧
    (pauseDue s = none → underway s.me.seq = true →
      step s = perform i ((program i).after (stepsDone s.me.seq)) s) ∧
    ∀ (n : Nat) (mid : Bool) (u : State), pauseDue s = some (n, mid, u) → step s = advance i n mid u

/-- `10_state.md` R24: stopping an operation after any number of its steps, or inside one, and taking it up again
with nothing in between comes to what the operation does in one go: result, state and fault are the same.
Pauses are the model's (log entry 5). -/
def Obligations.PausesChangeNothing : Prop :=
  ∀ (s t : State) (n : Nat) (mid : Bool), s.inputs = [.pause n mid] → step s = .next t →
    underway t.me.seq = true → step t = step { s with inputs := [] }

/-- `30_encoding.md` R127: a pending reserved word is refused: `RES <- ERR_ILLEGAL`, the command is done,
and nothing else in the machine changes. -/
def Obligations.ReservedWordRefused : Prop :=
  ∀ (s : State) (w : CmdWord) (e : DecodeError),
    s.me.cmd = some (.word w) → interposed s = none → decodeRequest (.word w) = .error e →
      ∃ t, step s = .next t ∧ Done 0xFFFFFFFB s t ∧ QuietBus s.bus t.bus

/-- `60_exceptions.md` R480, `10_state.md` R21 to R23, R58: an agent given its turn becomes the current one and
the agents stay the same; an agent reads its own `RES`, which is the fault `ResultUnset` before its first
operation completed, and its own `BUFP`; a command issued is its agent's `CMD` (R21); the host writes a byte of
`HBUF`; a cartridge swapped changes the environment and nothing else, in the middle of an operation too (R473); with no
command pending and nothing to come, a step does nothing. That the outside world is a list of inputs is the model's
choice (log entry 6). -/
def Obligations.TurnsKeepAgents : Prop :=
  (∀ (s : State) (k : Nat) (rest : List Input) (a : Agent), s.inputs = .turn k :: rest → s.others[k]? = some a →
    ∃ t, step s = .next t ∧ t.me = a ∧ (t.me :: t.others).Perm (s.me :: s.others) ∧ t.inputs = rest ∧
      t.bus = s.bus ∧ t.lock = s.lock ∧ t.hbuf = s.hbuf ∧ t.gb = s.gb ∧ t.gba = s.gba) ∧
  (∀ (s : State) (rest : List Input), s.me.cmd = none → s.inputs = .readRes :: rest →
    (s.me.resSet = true →
      step s = .next { s with inputs := rest, me := { s.me with seen := some s.me.res } }) ∧
    (s.me.resSet = false → step s = .fault .resultUnset)) ∧
  (∀ (s : State) (rest : List Input), s.me.cmd = none → s.inputs = .readBufp :: rest →
    step s = .next { s with inputs := rest, me := { s.me with seen := some s.me.bufp } }) ∧
  (∀ (s : State) (rest : List Input) (a : Nat) (v : Byte), s.me.cmd = none → s.inputs = .poke a v :: rest →
    (a < 4294967296 → ∃ t, step s = .next t ∧ t = { s with inputs := rest, hbuf := t.hbuf } ∧
      Stores s.hbuf t.hbuf a [v]) ∧
    (4294967296 ≤ a → step s = .fault (.bufferRange a 1))) ∧
  (∀ (s : State) (rest : List Input) (r : Request), s.me.cmd = none → s.inputs = .issue r :: rest →
    step s = .next { s with inputs := rest, me := { s.me with cmd := some r } }) ∧
  (∀ (s : State) (rest : List Input) (e : Env), s.me.cmd = none ∨ underway s.me.seq = true →
    s.inputs = .setEnv e :: rest →
    step s = .next { s with inputs := rest, bus := { s.bus with env := e } }) ∧
  ∀ s : State, s.inputs = [] → s.me.cmd = none → step s = .next s

/-! ## Reset and the invariant -/

/-- `70_reset_and_hazards.md` R501: what is known after reset. -/
def Obligations.ResetKnownValues : Prop :=
  State.reset.spiReady = false ∧ State.reset.lock = 0 ∧ State.reset.csForceIdle = false ∧
  State.reset.bus.crdActive = false ∧ State.reset.bus.pwrGb = false ∧ State.reset.bus.pwrGba = false ∧
  State.reset.gb = .empty ∧ State.reset.gba = .empty ∧
  ∀ a ∈ State.reset.me :: State.reset.others, a.seq = .idle ∧ a.cmd = none ∧ a.resSet = false ∧ a.bufSet = false

/-- The invariant holds at reset; that the detector pin is an input there is the model's choice (log entry 2). -/
def Obligations.InvariantAtReset : Prop := Inv State.reset

/-- The invariant (`10_state.md` R25, R27, R33 to R41, `40_transport_lock.md` R179) is kept by every step
from every state that has it. -/
def Obligations.InvariantKept : Prop := ∀ s t : State, Inv s → step s = .next t → Inv t

/-- `40_transport_lock.md` R171: every well-formed operation but the exempt ones faults with
`NotInitialised` before `INIT`, and the exempt ones, the getters and clears among them, do not. That a frame or
EEPROM request run by itself needs `INIT` is the model's choice (log entries 8 and 25). -/
def Obligations.HardwareNeedsInit : Prop :=
  ∀ (i : Instr) (s : State), s.spiReady = false → i.wellFormed = true →
    (initExempt i = false → exec i s = .fault (.notInitialised i)) ∧
    (initExempt i = true → ∀ op, exec i s ≠ .fault (.notInitialised op))

/-- `10_state.md` R22, R23, `60_exceptions.md` R482: an operation changes no other agent, no name and no
value an agent has read, and `BUFP` only if it is `SETBUF`. -/
def Obligations.AgentRegistersKept : Prop :=
  ∀ (i : Instr) (s t : State), exec i s = .next t →
    t.others = s.others ∧ t.inputs = s.inputs ∧ t.me.id = s.me.id ∧ t.me.seen = s.me.seen ∧
    ((∀ b, i ≠ .setbuf b) → t.me.bufp = s.me.bufp ∧ t.me.bufSet = s.me.bufSet)

/-- `10_state.md` R25, R26, R27, R31, R32, R39, R42: which operations change which flag, register and session. A power
flag is set by its slot's `PWRUP` and cleared by an operation that ends in its power-down; a session is loaded by a load
and emptied by a clear, a load, a re-check or the live check of `GBX_WRITESAVE` (`42_power.md` R236, `43_gb_engine.md`, `44_gba_rom.md`,
`46_dispatcher.md` R437). -/
def Obligations.FlagsHaveOwners : Prop :=
  ∀ (i : Instr) (s t : State), exec i s = .next t →
    ((∀ hz, i ≠ .init hz) → t.spiReady = s.spiReady ∧ t.spiDiv = s.spiDiv ∧ t.fifo = s.fifo) ∧
    (dispatches i = false → (∀ f k, i ≠ .lock f k) → (∀ k, i ≠ .unlock k) →
      t.lock = s.lock ∧ t.csForceIdle = s.csForceIdle) ∧
    ((∀ c, i ≠ .crdStart c) → i ≠ .crdEnd → (∀ c, i ≠ .wireCrdHeader c) → t.bus.crdActive = s.bus.crdActive) ∧
    (t.bus.pwrGb = true → s.bus.pwrGb = true ∨ i = .gbPwrup) ∧
    (t.bus.pwrGba = true → s.bus.pwrGba = true ∨ i = .gbaPwrup) ∧
    (t.bus.pwrGb = false → s.bus.pwrGb = false ∨ powersDownGb i = true) ∧
    (t.bus.pwrGba = false → s.bus.pwrGba = false ∨ powersDownGba i = true) ∧
    (t.gb = s.gb ∨ (t.gb = .empty ∧ emptiesGb i = true) ∨ i = .gbLoadhdr ∨ i = .gbxLoadhdr) ∧
    (t.gba = s.gba ∨ (t.gba = .empty ∧ emptiesGba i = true) ∨ i = .gbaLoadhdr ∨ i = .gbxLoadhdr)

/-- `60_exceptions.md` R462: of the operations that run, only `INIT` and `GBX_WRITESAVE` return a negative
value. -/
def Obligations.NegativeResultsOnlyFromTwo : Prop :=
  ∀ (i : Instr) (s t : State), Inv s → i.wellFormed = true → exec i s = .next t → t.me.seq = .idle →
    t.me.res.msb = true → (∃ hz, i = .init hz) ∨ i = .gbxWritesave

/-! ## Transport and lock -/

/-- `40_transport_lock.md` R173, R177: `INIT` with the host's answer. -/
def Obligations.InitMapsRegisters : Prop :=
  ∀ (hz : Word) (s : State),
    ∃ t, exec (.init hz) s = .next t ∧ QuietBus s.bus t.bus ∧
      if (answerValue .hostMapOk s.bus).getLsbD 0 = true then
        Done 0 { s with spiReady := true, spiDiv := Config.clockDivider hz, fifo := [] } t
      else Done 0xFFFFFFFC s t

/-- `40_transport_lock.md` R172: `SETBUF buf`, its word, and what it does: `BUFP <- ARG`, result 0, for the
issuing agent only, before `INIT` too. -/
def Obligations.SetbufSetsPointer : Prop :=
  ∀ (buf : Word) (s : State),
    decodeRequest (.word (0x08#8 ++ 0#8 ++ 0#16 ++ buf)) = .ok (.setbuf buf) ∧
    ∃ t, exec (.setbuf buf) s = .next t ∧ QuietBus s.bus t.bus ∧
      Done 0 { s with me := { s.me with bufp := buf, bufSet := true } } t

/-- `40_transport_lock.md` R183, R184, R187, R188: a `LOCK` whose key may have the lock takes it, and
forces the chip select idle if asked; with any other key the agent is held, with no result, its command
still pending, and nothing else changes (that a blocked agent has a step that leaves it there is log entry 7). -/
def Obligations.LockTakesOrHolds : Prop :=
  ∀ (force : Bool) (key : Word) (s : State), key ≠ 0 →
    (s.lock = 0 ∨ s.lock = key → ∃ t, exec (.lock force key) s = .next t ∧ QuietBus s.bus t.bus ∧
      Done 0 { s with lock := key, csForceIdle := s.csForceIdle || force } t) ∧
    (s.lock ≠ 0 → s.lock ≠ key → ∃ t, exec (.lock force key) s = .next t ∧ QuietBus s.bus t.bus ∧ OnlyBus s t ∧
      t.me = { s.me with seq := .held (.lock force key) })

/-- `40_transport_lock.md` R185: `UNLOCK key`, its word, its refusal of a key of 0, and what it does: the
lock and the chip select are freed if the key holds the lock, nothing changes otherwise; it returns 0
either way. -/
def Obligations.UnlockReleasesOnMatch : Prop :=
  ∀ (key : Word) (s : State),
    (key = 0 → decodeRequest (.word (0x07#8 ++ 0#8 ++ 0#16 ++ key)) = .error .operand) ∧
    (key ≠ 0 → decodeRequest (.word (0x07#8 ++ 0#8 ++ 0#16 ++ key)) = .ok (.unlock key) ∧
      ∃ t, exec (.unlock key) s = .next t ∧ QuietBus s.bus t.bus ∧
        if s.lock = key then Done 0 { s with lock := 0, csForceIdle := false } t else Done 0 s t)

/-- `40_transport_lock.md` R174, R175, `41_expander.md` R216: `XFER` exchanges its bytes in place. With the
chips forced idle any bytes go out and no register changes; with them selected the bytes are one expander
frame of any length, whose data slots alternate between the named port and the chip's other one: a write
stores the last byte of each place, a read answers in every slot; or the fault `UnknownExpanderFrame`. That the
two-byte header of a continuous read, sent so, opens none is the model's choice (log entry 15). -/
def Obligations.XferExchangesInPlace : Prop :=
  ∀ (len : Half) (s : State), len ≠ 0 → s.spiReady = true → Calm s → s.bus.crdActive = false →
    BufferFits len.toNat s →
    let tx := s.hbuf.readBlock s.me.bufp.toNat len.toNat
    (s.csForceIdle = true →
      ∃ t rx, exec (.xfer len) s = .next t ∧ rx.length = len.toNat ∧
        Done (BitVec.ofNat 32 len.toNat) { s with hbuf := t.hbuf } t ∧
        Stores s.hbuf t.hbuf s.me.bufp.toNat rx ∧ OnlyPorts s.bus t.bus ∧ t.bus.exp = s.bus.exp ∧
        t.bus.wire = .bare tx :: s.bus.wire) ∧
    (s.csForceIdle = false → isFrame tx = false → exec (.xfer len) s = .fault (.unknownExpanderFrame tx)) ∧
    (s.csForceIdle = false → isFrame tx = true →
      ∃ t rx, exec (.xfer len) s = .next t ∧ rx.length = len.toNat ∧
        Done (BitVec.ofNat 32 len.toNat) { s with hbuf := t.hbuf } t ∧
        Stores s.hbuf t.hbuf s.me.bufp.toNat rx ∧ OnlyPorts s.bus t.bus ∧ t.bus.wire = .frame tx :: s.bus.wire ∧
        ∀ (c : Chip) (k : RegKind) (second : Bool) (data : List Byte),
          (tx = devOpcode c false :: regAddr k second :: data →
            (∀ q, getPort (chipPort c q) t.bus.exp =
              match (slotBytes (second == q) data).getLast? with
              | some v => setReg k v (getPort (chipPort c q) s.bus.exp)
              | none => getPort (chipPort c q) s.bus.exp) ∧
            ∀ p, portChip p ≠ c → getPort p t.bus.exp = getPort p s.bus.exp) ∧
          (tx = devOpcode c true :: regAddr k second :: data →
            t.bus.exp = s.bus.exp ∧
            ∀ j, j < data.length → ∃ v, rx[2 + j]? = some v ∧
              SlotAnswer k (getPort (slotPort c second j) s.bus.exp) v))

/-- `40_transport_lock.md` R179, R180, R181: the strobe operations: direction alone, level alone, and a
read that gives the driven level of an output and changes no pin. -/
def Obligations.StrobesMoveOnePin : Prop :=
  ∀ (p : Pin) (s : State), s.spiReady = true → Calm s →
    (∀ d, p ≠ .det ∨ d = .input → ∃ t, exec (.stbDir p d) s = .next t ∧ Done 0 s t ∧ FlagsKept s.bus t.bus ∧
      t.bus.crdChip = s.bus.crdChip ∧ t.bus.hist = s.bus.hist ∧ t.bus.exp = s.bus.exp ∧
      t.bus.pins = setPin p { getPin p s.bus.pins with dir := d } s.bus.pins) ∧
    (∀ v, p ≠ .det → ∃ t, exec (.stbWr p v) s = .next t ∧ Done 0 s t ∧ FlagsKept s.bus t.bus ∧
      t.bus.crdChip = s.bus.crdChip ∧ t.bus.hist = s.bus.hist ∧ t.bus.exp = s.bus.exp ∧
      t.bus.pins = setPin p { getPin p s.bus.pins with out := v } s.bus.pins) ∧
    ∃ t level, exec (.stbRd p) s = .next t ∧ Done (if level then 1 else 0) s t ∧ QuietBus s.bus t.bus ∧
      ((getPin p s.bus.pins).dir = .output → level = (getPin p s.bus.pins).out)

/-! ## Port expander -/

/-- `41_expander.md` R202 to R204, R206 to R209: a single-port write sends one three-byte frame and changes
that one register of that one port; a batched write sends one four-byte frame, bits 7 to 0 of the pair for the
chip's first port and bits 15 to 8 for its second. -/
def Obligations.PortWrites : Prop :=
  (∀ (p : Port) (v : Byte) (s : State), Ready s →
    (∃ t, exec (.expDir p v) s = .next t ∧ Done 0 s t ∧ OnlyPorts s.bus t.bus ∧
      t.bus.exp = setPort p { getPort p s.bus.exp with dir := v } s.bus.exp ∧
      t.bus.wire = .frame [devOpcode (portChip p) false, if isSecond p then 0x01 else 0x00, v] :: s.bus.wire) ∧
    (∃ t, exec (.expPull p v) s = .next t ∧ Done 0 s t ∧ OnlyPorts s.bus t.bus ∧
      t.bus.exp = setPort p { getPort p s.bus.exp with pull := v } s.bus.exp ∧
      t.bus.wire = .frame [devOpcode (portChip p) false, if isSecond p then 0x0D else 0x0C, v] :: s.bus.wire) ∧
    (∃ t, exec (.expWr p v) s = .next t ∧ Done 0 s t ∧ OnlyPorts s.bus t.bus ∧
      t.bus.exp = setPort p { getPort p s.bus.exp with out := v } s.bus.exp ∧
      t.bus.wire = .frame [devOpcode (portChip p) false, if isSecond p then 0x13 else 0x12, v] :: s.bus.wire)) ∧
  ∀ (c : Chip) (pair : Half) (s : State), Ready s →
    (∃ t, exec (.expDir2 c pair) s = .next t ∧ Done 0 s t ∧ OnlyPorts s.bus t.bus ∧
      (∀ p, getPort p t.bus.exp = if portChip p = c then
        { getPort p s.bus.exp with dir := if isSecond p then pair.extractLsb' 8 8 else pair.extractLsb' 0 8 }
        else getPort p s.bus.exp) ∧
      t.bus.wire = .frame [devOpcode c false, 0x00, pair.extractLsb' 0 8, pair.extractLsb' 8 8] :: s.bus.wire) ∧
    (∃ t, exec (.expPull2 c pair) s = .next t ∧ Done 0 s t ∧ OnlyPorts s.bus t.bus ∧
      (∀ p, getPort p t.bus.exp = if portChip p = c then
        { getPort p s.bus.exp with pull := if isSecond p then pair.extractLsb' 8 8 else pair.extractLsb' 0 8 }
        else getPort p s.bus.exp) ∧
      t.bus.wire = .frame [devOpcode c false, 0x0C, pair.extractLsb' 0 8, pair.extractLsb' 8 8] :: s.bus.wire) ∧
    (∃ t, exec (.expWr2 c pair) s = .next t ∧ Done 0 s t ∧ OnlyPorts s.bus t.bus ∧
      (∀ p, getPort p t.bus.exp = if portChip p = c then
        { getPort p s.bus.exp with out := if isSecond p then pair.extractLsb' 8 8 else pair.extractLsb' 0 8 }
        else getPort p s.bus.exp) ∧
      t.bus.wire = .frame [devOpcode c false, 0x12, pair.extractLsb' 0 8, pair.extractLsb' 8 8] :: s.bus.wire)

/-- `41_expander.md` R201, R205, R210: a port read changes no register and returns, zero-extended, the
pins: an output bit shows the latch. -/
def Obligations.PortReads : Prop :=
  ∀ (p : Port) (c : Chip) (s : State), Ready s →
    (∃ t v, exec (.expRd p) s = .next t ∧ Done (BitVec.setWidth 32 (v : Byte)) s t ∧ OnlyPorts s.bus t.bus ∧
      t.bus.exp = s.bus.exp ∧
      v &&& ~~~(getPort p s.bus.exp).dir = (getPort p s.bus.exp).out &&& ~~~(getPort p s.bus.exp).dir) ∧
    ∃ t v w, exec (.expRd2 c) s = .next t ∧ Done (BitVec.setWidth 32 ((w : Byte) ++ (v : Byte))) s t ∧
      OnlyPorts s.bus t.bus ∧ t.bus.exp = s.bus.exp ∧
      (∀ r, r = getPort (chipPort c false) s.bus.exp → v &&& ~~~r.dir = r.out &&& ~~~r.dir) ∧
      ∀ r, r = getPort (chipPort c true) s.bus.exp → w &&& ~~~r.dir = r.out &&& ~~~r.dir

/-- `41_expander.md` R212, R213, R214: a continuous read is opened, sampled and closed; only `crd_active`
and `crd_chip` change, and a sample gives both ports of the addressed chip. -/
def Obligations.ContinuousRead : Prop :=
  (∀ (c : Chip) (s : State), Ready s →
    ∃ t, exec (.crdStart c) s = .next t ∧ Done 0 s t ∧ t.bus.exp = s.bus.exp ∧
      OnlyPorts { s.bus with crdActive := true, crdChip := c } t.bus ∧
      t.bus.wire = .crdOpen [devOpcode c true, 0x12] :: s.bus.wire) ∧
  ∀ s : State, s.spiReady = true → Calm s → s.bus.crdActive = true → s.csForceIdle = false →
    (∃ t v w, exec .crdCont s = .next t ∧ Done (BitVec.setWidth 32 ((w : Byte) ++ (v : Byte))) s t ∧
      OnlyPorts s.bus t.bus ∧ t.bus.exp = s.bus.exp ∧
      (∀ r, r = getPort (chipPort s.bus.crdChip false) s.bus.exp → v &&& ~~~r.dir = r.out &&& ~~~r.dir) ∧
      ∀ r, r = getPort (chipPort s.bus.crdChip true) s.bus.exp → w &&& ~~~r.dir = r.out &&& ~~~r.dir) ∧
    ∃ t, exec .crdEnd s = .next t ∧ Done 0 s t ∧ t.bus.exp = s.bus.exp ∧
      OnlyPorts { s.bus with crdActive := false } t.bus

/-- `41_expander.md` R213, R214, R215, `40_transport_lock.md` R188: of the operations that come to a frame, be it
an expander frame, a cartridge cycle, a power-up or the first step of an engine or dispatcher operation: inside an
open continuous read all but `CRD_CONT` and `CRD_END` are `ContinuousReadActive`; outside one those two are
`ContinuousReadInactive`; with the chips forced idle all but `XFER` are `ChipSelectForcedIdle`. That a wire row run by
itself is such an operation is log entry 8; that an `XFER` of bytes that are no frame, inside an open continuous read, is
`ContinuousReadActive` and not `UnknownExpanderFrame` is the model's choice (log entry 14). -/
def Obligations.StreamGuards : Prop :=
  ∀ (i : Instr) (s : State), s.spiReady = true → Calm s → ComesToBus i s → strobes i = false →
    (s.bus.crdActive = true → s.csForceIdle = false → continues i = false →
      exec i s = .fault (.continuousReadActive i)) ∧
    (s.bus.crdActive = false → s.csForceIdle = false → continues i = true →
      exec i s = .fault (.continuousReadInactive i)) ∧
    (s.csForceIdle = true → s.bus.crdActive = continues i → (∀ len, i ≠ .xfer len) →
      exec i s = .fault (.chipSelectForcedIdle i))

/-- `60_exceptions.md` R469, R481: any operation that comes to a step at a pin, a frame or the bus, inside another
agent's power session, or inside a cartridge transaction that another agent has stopped in, is the fault `BusRace`,
which names the one broken into first (`95_test_vectors.md` P5); so is a transfer of the radio while GBXC has
`SPI_CS0` asserted, and at any other time it is nothing to GBXC. Pauses and the radio are inputs of the model (log
entries 5 and 23); that a wire row run by itself is such an operation is log entry 8. -/
def Obligations.RacesFault : Prop :=
  (∀ (i : Instr) (s : State) (o : Nat), s.spiReady = true → ComesToBus i s →
    s.bus.crdActive = continues i → s.csForceIdle = false →
    (∀ len, i = .xfer len → isFrame (s.hbuf.readBlock s.me.bufp.toNat len.toNat) = true) →
    (let mine := fun owner : Option Nat => owner = none ∨ owner = some s.me.id
     (s.bus.ownGb = some o ∧ o ≠ s.me.id) ∨
      (mine s.bus.ownGb ∧ s.bus.ownGba = some o ∧ o ≠ s.me.id) ∨
      (mine s.bus.ownGb ∧ mine s.bus.ownGba ∧ ∃ before a behind, s.others = before ++ a :: behind ∧
        (∀ b ∈ before, ¬ MidTransaction b) ∧ MidTransaction a ∧ a.id = o)) →
    exec i s = .fault (.busRace (.agent o) (.agent s.me.id))) ∧
  ∀ (s : State) (rest : List Input), s.me.cmd = none ∨ underway s.me.seq = true → s.inputs = .radio :: rest →
    ((s.bus.crdActive = true ∧ s.csForceIdle = false ∨ ∃ a ∈ s.me :: s.others, MidSelect a) →
      step s = .fault (.busRace .gbxc .radio)) ∧
    (¬ (s.bus.crdActive = true ∧ s.csForceIdle = false ∨ ∃ a ∈ s.me :: s.others, MidSelect a) →
      step s = .next { s with inputs := rest })

/-- `60_exceptions.md` R468, R471 (5): an operation that needs `n` bytes of buffer is the fault `BufferUnset` for
an agent that never issued `SETBUF`, then `BufferRange` where the bytes run past `HBUF`; both come before any bus
activity, whatever the bus stands at, and after the early returns. -/
def Obligations.BufferChecks : Prop :=
  ∀ (s : State) (i : Instr) (n : Nat),
    ((s.spiReady = true ∧ (
        (∃ len, len ≠ 0 ∧ i = .xfer len ∧ n = len.toNat) ∨
        (∃ a len, (Instr.gbaRomrd a len).wellFormed = true ∧ i = .gbaRomrd a len ∧ n = len.toNat) ∨
        (∃ frm row, row.toNat < frm.rowLimit ∧ (i = .eepRdrow frm row ∨ i = .eepWrrow frm row) ∧ n = 8) ∨
        (∃ a, a.toNat % 128 = 0 ∧ i = .flashProg128 a ∧ n = 128) ∨
        (s.gb.loaded = true ∧ n = gbDumpTotal s.gb ∧
          (i = .gbReadrom ∨ (i = .gbxReadrom ∧ s.gb.romSize ≠ 0 ∧ LockFree s))) ∨
        (s.gb.loaded = true ∧ s.gb.saveSize ≠ 0 ∧ n = s.gb.saveSize.toNat ∧
          (i = .gbReadsave ∨ i = .gbWritesave ∨
            (i = .gbxReadsave ∧ s.gb.romSize ≠ 0 ∧ LockFree s))) ∨
        (s.gba.loaded = true ∧ n = s.gba.romSize.toNat ∧
          (i = .gbaReadrom ∨ (i = .gbxReadrom ∧ s.gb.romSize = 0 ∧ s.gba.romSize ≠ 0 ∧ LockFree s))) ∨
        (s.gba.loaded = true ∧ s.gba.saveType ≠ .unknown ∧ n = s.gba.saveSize.toNat ∧
          (i = .gbaReadsave ∨ i = .gbaWritesave ∨
            (i = .gbxReadsave ∧ s.gb.romSize = 0 ∧ s.gba.romSize ≠ 0 ∧ LockFree s))))) ∨
      (s.gb.romSize ≠ 0 ∧
        ((i = .gbxTitle ∧ n = s.gb.title.length) ∨ (i = .gbxIdent ∧ n = s.gb.sha1.length))) ∨
      (s.gb.romSize = 0 ∧ s.gba.romSize ≠ 0 ∧
        ((i = .gbxTitle ∧ n = s.gba.title.length) ∨ (i = .gbxIdent ∧ n = s.gba.code.length)))) →
    (s.me.bufSet = false → exec i s = .fault .bufferUnset) ∧
    (s.me.bufSet = true → 4294967296 < s.me.bufp.toNat + n → exec i s = .fault (.bufferRange s.me.bufp.toNat n))

/-! ## Power -/

/-- `42_power.md` R231, R232, R234: a power-up sets its slot's default pin state every time, and applies
power and waits only when the slot is not already powered. The owner of the power session is the model's
own record (log entry 5). -/
def Obligations.PowerUpsDriveDefaults : Prop :=
  (∀ s : State, ReadyGb s →
    ∃ t, exec .gbPwrup s = .next t ∧ Done 0 s t ∧ GbDefault s.bus t.bus ∧ GbaSideKept s.bus t.bus ∧
      t.bus.pwrGb = true ∧ t.bus.ownGb = some s.me.id ∧ Adds s.bus t.bus (powerOn .gb s.bus.pwrGb) ∧
      t.bus.mbcw = mbcwPowered s.bus ∧
      t.bus.pins.gbPwr = if s.bus.pwrGb then s.bus.pins.gbPwr else .driven (Config.pwrOnLevel .gb)) ∧
  ∀ s : State, ReadyGba s →
    ∃ t, exec .gbaPwrup s = .next t ∧ Done 0 s t ∧ GbaDefault s.bus t.bus ∧ GbSideKept s.bus t.bus ∧
      t.bus.pwrGba = true ∧ t.bus.ownGba = some s.me.id ∧ t.bus.crdActive = false ∧
      t.bus.crdChip = s.bus.crdChip ∧ Adds s.bus t.bus (powerOn .gba s.bus.pwrGba) ∧
      t.bus.pins.gbaPwr = if s.bus.pwrGba then s.bus.pins.gbaPwr else .driven (Config.pwrOnLevel .gba)

/-- `42_power.md` R235, R236, R237, R238: a power-down grounds every line and its slot's strobes and turns
its slot off, whatever the flag says; it leaves the other slot's pins alone. -/
def Obligations.PowerDownGrounds : Prop :=
  ∀ s : State, Ready s →
    (∃ t, exec .gbPwrdn s = .next t ∧ Done 0 s t ∧ GbGrounded t.bus ∧ GbaSideKept s.bus t.bus ∧
      t.bus.mbcw = s.bus.mbcw ∧ Adds s.bus t.bus [BusEvent.power .gb false]) ∧
    ∃ t, exec .gbaPwrdn s = .next t ∧ Done 0 s t ∧ GbaGrounded t.bus ∧ GbSideKept s.bus t.bus ∧
      t.bus.crdActive = false ∧ t.bus.crdChip = s.bus.crdChip ∧ Adds s.bus t.bus [BusEvent.power .gba false]

/-- `42_power.md` R240: powering a slot up while the other slot's flag is 1 is the fault
`BothSlotsPowered`, for the raw operation and for every engine operation that begins with a power-up. -/
def Obligations.SlotsNeverBothPowered : Prop :=
  ∀ s : State, Ready s →
    (s.bus.pwrGba = true →
      exec .gbPwrup s = .fault .bothSlotsPowered ∧ exec .gbLoadhdr s = .fault .bothSlotsPowered ∧
      (s.gb.loaded = true → exec .gbIsloaded s = .fault .bothSlotsPowered ∧
        (BufferFits (gbDumpTotal s.gb) s → exec .gbReadrom s = .fault .bothSlotsPowered) ∧
        (s.gb.saveSize ≠ 0 → BufferFits s.gb.saveSize.toNat s →
          exec .gbReadsave s = .fault .bothSlotsPowered ∧ exec .gbWritesave s = .fault .bothSlotsPowered))) ∧
    (s.bus.pwrGb = true →
      exec .gbaPwrup s = .fault .bothSlotsPowered ∧ exec .gbaLoadhdr s = .fault .bothSlotsPowered ∧
      exec .gbaProbesize s = .fault .bothSlotsPowered ∧ exec .gbaClassify s = .fault .bothSlotsPowered ∧
      (s.gba.loaded = true → exec .gbaIsloaded s = .fault .bothSlotsPowered ∧
        (BufferFits s.gba.romSize.toNat s → exec .gbaReadrom s = .fault .bothSlotsPowered) ∧
        (s.gba.saveType ≠ .unknown → BufferFits s.gba.saveSize.toNat s →
          exec .gbaReadsave s = .fault .bothSlotsPowered ∧ exec .gbaWritesave s = .fault .bothSlotsPowered)))

/-- `42_power.md` R230 to R237, `43_gb_engine.md` R251, R252, `44_gba_rom.md` R311 to R313, `45_gba_save.md` R351,
R352, R370 to R379: the pin-level steps of the power sequences, of every cartridge cycle and of a burst of one
halfword, in order: pins before power before the settling wait, lines floating before power off before everything
driven low, and the strobe pulses with their waits. -/
def Obligations.PinTraceOrder : Prop :=
  (∀ s : State, ReadyGb s → ∃ t, exec .gbPwrup s = .next t ∧ Traces s.bus t.bus
    (driven .gbCs true ++ driven .gbRd true ++ driven .gbWr true ++
      frames [[0x40, 0x12, 0x00, 0x00], [0x40, 0x0C, 0x00, 0x00], [0x40, 0x00, 0x00, 0x00], [0x42, 0x0C, 0xFF],
        [0x42, 0x00, 0xFF]] ++
      if s.bus.pwrGb then [] else driven .gbPwr (Config.pwrOnLevel .gb) ++ [.wait .settle])) ∧
  (∀ s : State, ReadyGba s → ∃ t, exec .gbaPwrup s = .next t ∧ Traces s.bus t.bus
    (driven .gbaCs true ++ driven .gbaCs2 true ++ driven .gbaRd true ++ driven .gbaWr true ++
      frames [[0x40, 0x12, 0x00, 0x00], [0x42, 0x12, 0x00], [0x40, 0x0C, 0xFF, 0xFF], [0x42, 0x0C, 0xFF],
        [0x40, 0x00, 0x00, 0x00], [0x42, 0x00, 0x00]] ++
      if s.bus.pwrGba then [] else driven .gbaPwr (Config.pwrOnLevel .gba) ++ [.wait .settle])) ∧
  ∀ (a : Half) (d : Byte) (s : State), Ready s →
    (let float :=
      frames [[0x40, 0x0C, 0x00, 0x00], [0x42, 0x0C, 0x00, 0x00], [0x40, 0x00, 0xFF, 0xFF], [0x42, 0x00, 0xFF, 0xFF]]
     let ground :=
      frames [[0x40, 0x12, 0x00, 0x00], [0x42, 0x12, 0x00, 0x00], [0x40, 0x00, 0x00, 0x00], [0x42, 0x00, 0x00, 0x00]]
     (∃ t, exec .gbPwrdn s = .next t ∧ Traces s.bus t.bus
      (float ++ released [.gbCs, .gbRd, .gbWr] ++
        driven .gbPwr (!Config.pwrOnLevel .gb) ++ ground ++
        driven .gbCs false ++ driven .gbRd false ++ driven .gbWr false)) ∧
     ∃ t, exec .gbaPwrdn s = .next t ∧ Traces s.bus t.bus
      (float ++ released [.gbaCs, .gbaCs2, .gbaRd, .gbaWr] ++
        driven .gbaPwr (!Config.pwrOnLevel .gba) ++ ground ++
        driven .gbaCs false ++ driven .gbaCs2 false ++ driven .gbaRd false ++ driven .gbaWr false)) ∧
    (let addr : List Byte := [0x40, 0x12, a.extractLsb' 0 8, a.extractLsb' 8 8]
     let sel := fun level : Bool => if inRamWindow a then levels [(.gbCs, level)] else []
     (∃ t, exec (.gbBusrd a) s = .next t ∧ Traces s.bus t.bus
      (frames [addr] ++ sel false ++ levels [(.gbRd, false)] ++ frames [[0x43, 0x12, 0x00]] ++
        levels [(.gbRd, true)] ++ sel true)) ∧
     (∃ t, exec (.gbBuswr a d) s = .next t ∧ Traces s.bus t.bus
      (frames [addr, [0x42, 0x12, d], [0x42, 0x00, 0x00]] ++ sel false ++
        levels [(.gbWr, false), (.gbWr, true)] ++ sel true ++ frames [[0x42, 0x00, 0xFF]])) ∧
     (∃ t, exec (.saveRd a) s = .next t ∧ Traces s.bus t.bus
      (frames [addr, [0x42, 0x00, 0xFF]] ++ levels [(.gbaCs2, false), (.gbaRd, false)] ++ frames [[0x43, 0x12, 0x00]] ++
        levels [(.gbaRd, true), (.gbaCs2, true)] ++ frames [[0x42, 0x00, 0x00]])) ∧
     ∃ t, exec (.saveWr a d) s = .next t ∧ Traces s.bus t.bus
      (frames [addr, [0x42, 0x12, d]] ++
        levels [(.gbaCs2, false), (.gbaWr, false), (.gbaWr, true), (.gbaCs2, true)])) ∧
    (∀ r : BitVec 25, r.toNat % 2 = 0 → BufferFits 2 s → ∃ t, exec (.gbaRomrd r 2) s = .next t ∧
      Traces s.bus t.bus
        (frames [[0x40, 0x12, r.extractLsb' 1 8, r.extractLsb' 9 8], [0x42, 0x12, r.extractLsb' 17 8]] ++
          levels [(.gbaCs, false)] ++ frames [[0x40, 0x00, 0xFF, 0xFF]] ++
          ([.crdOpen [0x41, 0x12], .pinLevel .gbaRd false, .crdBytes [0x00, 0x00], .pinLevel .gbaRd true, .crdClose] :
            List WireEvent) ++
          levels [(.gbaCs, true)] ++ frames [[0x40, 0x00, 0x00, 0x00]])) ∧
    ∀ (frm : Framing) (row : BitVec 14), row.toNat < frm.rowLimit → BufferFits 8 s →
      let opened := frames [[0x40, 0x12, 0x80, 0xFF], [0x42, 0x12, 0xFF]] ++ levels [(.gbaCs, false)]
      let closed := levels [(.gbaCs, true)] ++ frames [[0x40, 0x00, 0x00]]
      let bitOut := fun v : Bool => frames [[0x40, 0x12, if v then 0x01 else 0x00]] ++
        levels [(.gbaWr, false)] ++ [WireEvent.wait .eepBit] ++ levels [(.gbaWr, true)] ++ [WireEvent.wait .eepBit]
      let bitIn := levels [(.gbaRd, false)] ++ [WireEvent.wait .eepBit] ++ frames [[0x41, 0x12, 0x00]] ++
        levels [(.gbaRd, true)] ++ [WireEvent.wait .eepBit]
      (∃ t, exec (.eepRdrow frm row) s = .next t ∧ Traces s.bus t.bus
        (opened ++ (([true, true] ++ rowBits (framingWidth frm) row.toNat ++ [false]).map bitOut).flatten ++
          frames [[0x40, 0x00, 0x01]] ++ (List.replicate 68 bitIn).flatten ++ closed)) ∧
      ∃ t, exec (.eepWrrow frm row) s = .next t ∧ Traces s.bus t.bus
        (opened ++ (([true, false] ++ rowBits (framingWidth frm) row.toNat ++
            ((s.hbuf.readBlock s.me.bufp.toNat 8).map byteBits).flatten ++ [false]).map bitOut).flatten ++
          closed ++ [WireEvent.wait .eepWrite])

/-! ## GB/GBC engine -/

/-- `43_gb_engine.md` R251 to R254: one bus cycle is one event, returns the byte read, and leaves the
strobes high, the address on ports A and B, and port C an input; what a raw write to a controller's
register leaves in the record `X.mbcw` (`10_state.md` R44) is by the address ranges
log entry 17 names, and with no session by the addresses log entry 27 chooses. -/
def Obligations.GbBusCycles : Prop :=
  ∀ (a : Half) (d : Byte) (s : State), Ready s →
    (∃ t v, exec (.gbBusrd a) s = .next t ∧ Done (BitVec.setWidth 32 (v : Byte)) s t ∧ GbCycles s.bus t.bus ∧
      t.bus.mbcw = s.bus.mbcw ∧ Adds s.bus t.bus [.gbR a v] ∧
      t.bus.pins.gbRd.out = true ∧ t.bus.pins.gbWr = s.bus.pins.gbWr ∧
      t.bus.pins.gbCs.out = (inRamWindow a || s.bus.pins.gbCs.out) ∧
      t.bus.exp = { s.bus.exp with
        a := { s.bus.exp.a with out := a.extractLsb' 0 8 }, b := { s.bus.exp.b with out := a.extractLsb' 8 8 } }) ∧
    ∃ t, exec (.gbBuswr a d) s = .next t ∧ Done 0 s t ∧ GbCycles s.bus t.bus ∧
      t.bus.mbcw = mbcwRaw s.gb a d s.bus.mbcw ∧ Adds s.bus t.bus [.gbW a d] ∧ t.bus.pins.gbWr.out = true ∧ t.bus.pins.gbRd = s.bus.pins.gbRd ∧
      t.bus.pins.gbCs.out = (inRamWindow a || s.bus.pins.gbCs.out) ∧
      t.bus.exp = { s.bus.exp with
        a := { s.bus.exp.a with out := a.extractLsb' 0 8 }, b := { s.bus.exp.b with out := a.extractLsb' 8 8 },
        c := { s.bus.exp.c with out := d, dir := 0xFF } }

/-- `43_gb_engine.md` R270 to R272, R275, R278, R281: what a ROM bank selection, enabling the cartridge RAM,
selecting its bank and closing it write to each controller's registers, in order, and what the record `X.mbcw` then
holds (`10_state.md` R44, for a cartridge with no controller as log entry 17 says; that a RAM bank selection on an MBC1
leaves `rom_bank` as it is is the model's choice, log entry 27); with no register there is no write at all. -/
def Obligations.BankRegisterWrites : Prop :=
  (∀ (i : BitVec 9) (s : State), Ready s →
    (∀ p ∈ [(Mbc.mbc1, [(0x2000, BitVec.setWidth 8 (i.extractLsb' 0 5)),
          (0x4000, BitVec.setWidth 8 (i.extractLsb' 5 2)), (0x6000, 0x00)]),
        (.mbc2, [(0x2100, BitVec.setWidth 8 (i.extractLsb' 0 4))]),
        (.mbc3, [(0x2000, BitVec.setWidth 8 (i.extractLsb' 0 7))]),
        (.mbc5, [(0x2000, i.extractLsb' 0 8), (0x3000, BitVec.setWidth 8 (i.extractLsb' 8 1))])],
      ∃ t, exec (.gbRombank p.1 i) s = .next t ∧ Done 0 s t ∧ GbCycles s.bus t.bus ∧
        Adds s.bus t.bus (gbWriteEvents p.2) ∧
        t.bus.mbcw = { s.bus.mbcw with
          romBank := some i, mode := if p.1 = .mbc1 then some false else s.bus.mbcw.mode }) ∧
    ∃ t, exec (.gbRombank .noMbc i) s = .next t ∧ Done 0 s t ∧ QuietBus s.bus t.bus) ∧
  ∀ (j : BitVec 4) (s : State), Ready s →
    (∀ p ∈ [(Mbc.mbc1, [((0x0000 : Half), (0x0A : Byte)), (0x6000, 0x01)]), (.mbc2, [(0x0000, 0x0A)]),
        (.mbc3, [(0x0000, 0x0A)]), (.mbc5, [(0x0000, 0x0A)])],
      ∃ t, exec (.gbRamopen p.1) s = .next t ∧ Done 0 s t ∧ GbCycles s.bus t.bus ∧
        Adds s.bus t.bus (gbWriteEvents p.2) ∧
        t.bus.mbcw = { s.bus.mbcw with
          ramEn := some true, mode := if p.1 = .mbc1 then some true else s.bus.mbcw.mode }) ∧
    (∀ p ∈ [(Mbc.mbc1, BitVec.setWidth 8 (j.extractLsb' 0 2)), (.mbc3, BitVec.setWidth 8 (j.extractLsb' 0 2)),
        (.mbc5, BitVec.setWidth 8 j)],
      ∃ t, exec (.gbRambank p.1 j) s = .next t ∧ Done 0 s t ∧ GbCycles s.bus t.bus ∧
        Adds s.bus t.bus [.gbW 0x4000 p.2] ∧
        t.bus.mbcw = { s.bus.mbcw with ramBank := some (BitVec.setWidth 4 p.2) }) ∧
    (∀ p ∈ [(Mbc.mbc1, [((0x4000 : Half), (0x00 : Byte)), (0x6000, 0x00), (0x0000, 0x00)]),
        (.mbc3, [(0x4000, 0x00), (0x0000, 0x00)]), (.mbc5, [(0x4000, 0x00), (0x0000, 0x00)]),
        (.mbc2, [(0x0000, 0x00)])],
      ∃ t, exec (.gbRamclose p.1) s = .next t ∧ Done 0 s t ∧ GbCycles s.bus t.bus ∧
        Adds s.bus t.bus (gbWriteEvents p.2) ∧
        t.bus.mbcw = { s.bus.mbcw with
          ramEn := some false, ramBank := some 0, mode := some false }) ∧
    ∀ i ∈ [Instr.gbRamopen .noMbc, .gbRambank .noMbc j, .gbRambank .mbc2 j, .gbRamclose .noMbc],
      ∃ t, exec i s = .next t ∧ Done 0 s t ∧ QuietBus s.bus t.bus

/-- `43_gb_engine.md` R258, R264, R265: a header load makes its 1028 reads and no write, leaves the slot
grounded, and either loads the session of a header that verifies or clears it. -/
def Obligations.GbLoadHeaderVerifies : Prop :=
  ∀ s : State, ReadyGb s →
    ∃ t wake h, exec .gbLoadhdr s = .next t ∧ wake.length = 4 ∧ h.length = 1024 ∧
      Adds s.bus t.bus (powerOn .gb s.bus.pwrGb ++ gbReads 0 wake ++ gbReads 0 h ++ [BusEvent.power .gb false]) ∧
      GbGrounded t.bus ∧ GbaSideKept s.bus t.bus ∧ t.bus.mbcw = mbcwPowered s.bus ∧
      (GbHeaderOk h → Done 1 { s with gb := t.gb } t ∧ t.gb.loaded = true ∧
        t.gb.title = normTitle (slice 0x134 16 h) ∧ t.gb.cgb = cgbFlag (h.getD 0x143 0) ∧
        t.gb.mbc = (typeTable (h.getD 0x147 0)).1 ∧ t.gb.romSize.toNat = 32768 * 2 ^ (h.getD 0x148 0).toNat ∧
        t.gb.saveSize = gbSaveSize t.gb.mbc (typeTable (h.getD 0x147 0)).2 (h.getD 0x149 0) ∧
        t.gb.sha1 = sha1Hex h) ∧
      (¬ GbHeaderOk h → Done 0 { s with gb := .empty } t)

/-- `43_gb_engine.md` R266: the re-check reads logo and title, and clears the session unless both still
match; with no session it returns 0 and touches nothing. -/
def Obligations.GbIsLoadedRechecks : Prop :=
  (∀ s : State, ReadyGb s → s.gb.loaded = true →
    ∃ t g, exec .gbIsloaded s = .next t ∧ g.length = 64 ∧
      Adds s.bus t.bus (powerOn .gb s.bus.pwrGb ++ gbReads 0x104 g ++ [BusEvent.power .gb false]) ∧
      GbGrounded t.bus ∧ GbaSideKept s.bus t.bus ∧ t.bus.mbcw = mbcwPowered s.bus ∧
      (GbStill g s.gb → Done 1 s t) ∧ (¬ GbStill g s.gb → Done 0 { s with gb := .empty } t)) ∧
  ∀ s : State, s.spiReady = true → s.gb.loaded = false →
    ∃ t, exec .gbIsloaded s = .next t ∧ Done 0 s t ∧ QuietBus s.bus t.bus

/-- `43_gb_engine.md` R284, R285: a dump reads bank 0, then each bank through the switched window after
selecting it, then restores bank 1; the bytes read go to the buffer in image order, and only there. -/
def Obligations.GbReadRomDumps : Prop :=
  (∀ s : State, ReadyGb s → s.gb.loaded = true → GbSessionOk s.gb →
    BufferFits (if s.gb.mbc = .noMbc then min s.gb.romSize.toNat 0x8000 else s.gb.romSize.toNat) s →
    ∃ t bytes, exec .gbReadrom s = .next t ∧
      bytes.length = (if s.gb.mbc = .noMbc then min s.gb.romSize.toNat 0x8000 else s.gb.romSize.toNat) ∧
      Done (BitVec.ofNat 32 bytes.length) { s with hbuf := t.hbuf } t ∧
      Stores s.hbuf t.hbuf s.me.bufp.toNat bytes ∧ GbGrounded t.bus ∧ GbaSideKept s.bus t.bus ∧
      Adds s.bus t.bus (powerOn .gb s.bus.pwrGb ++ gbReads 0 (bytes.take 0x4000) ++
        (if s.gb.mbc = .noMbc then gbReads 0x4000 (bytes.drop 0x4000)
         else ((List.range (s.gb.romSize.toNat / 0x4000 - 1)).map fun i =>
            gbWriteEvents (romBankWrites s.gb.mbc (BitVec.ofNat 9 (i + 1))) ++
              gbReads 0x4000 (slice ((i + 1) * 0x4000) 0x4000 bytes)).flatten ++
            gbWriteEvents (romBankWrites s.gb.mbc 1)) ++
        [BusEvent.power .gb false]) ∧
      t.bus.mbcw = mbcwRomBank s.gb.mbc 1 (mbcwPowered s.bus)) ∧
  ∀ s : State, s.spiReady = true → s.gb.loaded = false →
    ∃ t, exec .gbReadrom s = .next t ∧ Done 0 s t ∧ QuietBus s.bus t.bus

/-- `43_gb_engine.md` R288, R289: a save read opens the RAM, reads each 8K bank after selecting it, and
closes the RAM; with no session or no save it returns 0 and touches nothing. The
record `X.mbcw` is as R281 says (log entry 17 for a cartridge with no controller). -/
def Obligations.GbReadSaveDumps : Prop :=
  (∀ s : State, ReadyGb s → s.gb.loaded = true → s.gb.saveSize ≠ 0 → BufferFits s.gb.saveSize.toNat s →
    ∃ t bytes, exec .gbReadsave s = .next t ∧ bytes.length = s.gb.saveSize.toNat ∧
      Done s.gb.saveSize { s with hbuf := t.hbuf } t ∧
      Stores s.hbuf t.hbuf s.me.bufp.toNat bytes ∧ GbGrounded t.bus ∧ GbaSideKept s.bus t.bus ∧
      Adds s.bus t.bus (powerOn .gb s.bus.pwrGb ++ gbWriteEvents (ramOpenWrites s.gb.mbc) ++
        ((List.range ((s.gb.saveSize.toNat + 0x1FFF) / 0x2000)).map fun j =>
          gbWriteEvents (ramBankWrites s.gb.mbc (BitVec.ofNat 4 j)) ++
            gbReads 0xA000 (slice (j * 0x2000) 0x2000 bytes)).flatten ++
        gbWriteEvents (ramCloseWrites s.gb.mbc) ++ [BusEvent.power .gb false]) ∧
      t.bus.mbcw = mbcwRamClose s.gb.mbc (mbcwPowered s.bus)) ∧
  ∀ s : State, s.spiReady = true → s.gb.loaded = false ∨ s.gb.saveSize = 0 →
    ∃ t, exec .gbReadsave s = .next t ∧ Done 0 s t ∧ QuietBus s.bus t.bus

/-- `43_gb_engine.md` R291: a save write puts the buffer's bytes into the banks, bank by bank; the host
buffer is not changed. The record `X.mbcw` is as R281 says (log entry 17 for a cartridge with no controller). -/
def Obligations.GbWriteSaveWritesBuffer : Prop :=
  (∀ s : State, ReadyGb s → s.gb.loaded = true → s.gb.saveSize ≠ 0 → BufferFits s.gb.saveSize.toNat s →
    ∃ t, exec .gbWritesave s = .next t ∧ Done s.gb.saveSize s t ∧ GbGrounded t.bus ∧ GbaSideKept s.bus t.bus ∧
      Adds s.bus t.bus (powerOn .gb s.bus.pwrGb ++ gbWriteEvents (ramOpenWrites s.gb.mbc) ++
        ((List.range ((s.gb.saveSize.toNat + 0x1FFF) / 0x2000)).map fun j =>
          gbWriteEvents (ramBankWrites s.gb.mbc (BitVec.ofNat 4 j)) ++
            ((List.range (min 0x2000 (s.gb.saveSize.toNat - j * 0x2000))).map fun o =>
              .gbW (BitVec.ofNat 16 (0xA000 + o)) (s.hbuf.read (s.me.bufp.toNat + j * 0x2000 + o)))).flatten ++
        gbWriteEvents (ramCloseWrites s.gb.mbc) ++ [BusEvent.power .gb false]) ∧
      t.bus.mbcw = mbcwRamClose s.gb.mbc (mbcwPowered s.bus)) ∧
  ∀ s : State, s.spiReady = true → s.gb.loaded = false ∨ s.gb.saveSize = 0 →
    ∃ t, exec .gbWritesave s = .next t ∧ Done 0 s t ∧ QuietBus s.bus t.bus

/-- `43_gb_engine.md` R294, `44_gba_rom.md` R333: `GB_CLEAR` and `GBA_CLEAR`, their words, and what they do:
the session empty and the result 0, with no bus activity, before `INIT` too. -/
def Obligations.ClearsEmptySessions : Prop :=
  decodeRequest (.word 0x3B00000000000000) = .ok .gbClear ∧
  decodeRequest (.word 0x4500000000000000) = .ok .gbaClear ∧
  ∀ s : State,
    (∃ t, exec .gbClear s = .next t ∧ QuietBus s.bus t.bus ∧
      Done 0 { s with gb := { loaded := false, title := [], cgb := .unsupported, mbc := .noMbc, romSize := 0,
                              saveSize := 0, sha1 := [] } } t) ∧
    ∃ t, exec .gbaClear s = .next t ∧ QuietBus s.bus t.bus ∧
      Done 0 { s with gba := { loaded := false, title := List.replicate 12 0, code := List.replicate 4 0,
                               maker := List.replicate 2 0, romSize := 0, saveType := .unknown, saveSize := 0,
                               flashMfr := 0, flashDev := 0 } } t

/-- `43_gb_engine.md` R260: a normalised title is the bytes of the field, the sixteenth only where its bit 7 is
clear, without the NULs, in order, a space as an underscore, less the underscores at the end. -/
def Obligations.NormalTitleShape : Prop :=
  ∀ f : List Byte, f.length = 16 →
    (∃ n, normTitle f ++ List.replicate n 0x5F =
      ((if (f.getD 15 0).getLsbD 7 = true then f.take 15 else f).filter fun v => v != 0x00).map
        fun v => if v = 0x20 then 0x5F else v) ∧
    (normTitle f).getLast? ≠ some 0x5F ∧
    (normTitle f).length ≤ 16 ∧ (∀ v ∈ normTitle f, v ≠ 0x00 ∧ v ≠ 0x20)

/-- `43_gb_engine.md` R273 on the reference cartridge (`20_memory.md` R100 to R104): after any bank and the
restore sequence, a read of the switched window gives bank 1, and an MBC1 is in ROM mode. -/
def Obligations.RestoreSelectsBankOne : Prop :=
  ∀ (m : Mbc) (i : BitVec 9) (o : Nat) (c : GbCart) (s t1 t2 t3 : State),
    m ≠ .noMbc → c.kind = m → 2 ≤ c.rom.size / 0x4000 → o < 0x4000 →
    s.bus.env.gb = .ref c → s.bus.pwrGb = true → s.bus.exp.c.dir = 0xFF →
    exec (.gbRombank m i) s = .next t1 → exec (.gbRombank m 1) t1 = .next t2 →
    exec (.gbBusrd (BitVec.ofNat 16 (0x4000 + o))) t2 = .next t3 →
    t3.me.res = BitVec.setWidth 32 (imageGet c.rom (0x4000 + o)) ∧
      (m = .mbc1 → ∃ c', t3.bus.env.gb = .ref c' ∧ c'.mode = false)

/-! ## GBA ROM engine -/

/-- `44_gba_rom.md` R314, R316, `20_memory.md` R79: a burst latches its address, and again at every 65536
halfwords, reads one halfword an event, and stores its low byte first. -/
def Obligations.GbaBurstRead : Prop :=
  ∀ (a : BitVec 25) (len : Half) (s : State), (Instr.gbaRomrd a len).wellFormed = true → Ready s →
    BufferFits len.toNat s →
    ∃ t vs, exec (.gbaRomrd a len) s = .next t ∧ vs.length = len.toNat / 2 ∧
      Done (BitVec.ofNat 32 len.toNat) { s with hbuf := t.hbuf } t ∧
      Stores s.hbuf t.hbuf s.me.bufp.toNat (burstBytes vs) ∧
      Adds s.bus t.bus (burst (a.toNat / 2) vs) ∧ GbaCycles s.bus t.bus ∧ t.bus.crdActive = false ∧ t.bus.crdChip = .ab

/-- `44_gba_rom.md` R320, R322, R323: a header load reads 192 bytes; a checksum that fails clears the
session and nothing but the header has been read; one that holds loads the header's fields, the size that the
probe finds in the same power session and the save type and flash identifiers that a classification in a second
one finds. EEPROM waits are no events of their own (log entry 16). -/
def Obligations.GbaLoadHeaderVerifies : Prop :=
  ∀ s : State, ReadyGba s →
    ∃ t vs es, exec .gbaLoadhdr s = .next t ∧ vs.length = 96 ∧
      Adds s.bus t.bus (powerOn .gba s.bus.pwrGba ++ burst 0 vs ++ es ++ [BusEvent.power .gba false]) ∧
      GbaGrounded t.bus ∧ GbSideKept s.bus t.bus ∧ t.bus.crdActive = false ∧ t.bus.crdChip = .ab ∧
      (gbaChecksumOk (burstBytes vs) = false → es = [] ∧ Done 0 { s with gba := .empty } t) ∧
      (gbaChecksumOk (burstBytes vs) = true → ∃ size probes c rest,
        es = probes ++ [BusEvent.power .gba false] ++ [BusEvent.power .gba true, .delay .settle] ++ rest ∧
        SizeProbed (burstBytes vs) size probes ∧ SaveClassified c rest ∧
        Done 1 { s with gba :=
          { loaded := true, title := slice 0xA0 12 (burstBytes vs), code := slice 0xAC 4 (burstBytes vs),
            maker := slice 0xB0 2 (burstBytes vs), romSize := size, saveType := c.kind,
            saveSize := saveTypeSize c.kind, flashMfr := c.mfr, flashDev := c.dev } } t)

/-- `44_gba_rom.md` R328: the re-check reads the header and clears the session unless checksum, title, code
and maker all still match. -/
def Obligations.GbaIsLoadedRechecks : Prop :=
  (∀ s : State, ReadyGba s → s.gba.loaded = true →
    ∃ t vs, exec .gbaIsloaded s = .next t ∧ vs.length = 96 ∧
      Adds s.bus t.bus (powerOn .gba s.bus.pwrGba ++ burst 0 vs ++ [BusEvent.power .gba false]) ∧
      GbaGrounded t.bus ∧ GbSideKept s.bus t.bus ∧ t.bus.crdActive = false ∧ t.bus.crdChip = .ab ∧
      (GbaStill (burstBytes vs) s.gba → Done 1 s t) ∧
      (¬ GbaStill (burstBytes vs) s.gba → Done 0 { s with gba := .empty } t)) ∧
  ∀ s : State, s.spiReady = true → s.gba.loaded = false →
    ∃ t, exec .gbaIsloaded s = .next t ∧ Done 0 s t ∧ QuietBus s.bus t.bus

/-- `44_gba_rom.md` R331: a ROM dump is one burst from address 0 over the whole size, stored in order. -/
def Obligations.GbaReadRomDumps : Prop :=
  (∀ s : State, ReadyGba s → s.gba.loaded = true → GbaSessionOk s.gba → BufferFits s.gba.romSize.toNat s →
    ∃ t vs, exec .gbaReadrom s = .next t ∧ vs.length = s.gba.romSize.toNat / 2 ∧
      Done s.gba.romSize { s with hbuf := t.hbuf } t ∧
      Stores s.hbuf t.hbuf s.me.bufp.toNat (burstBytes vs) ∧ GbaGrounded t.bus ∧ GbSideKept s.bus t.bus ∧
      t.bus.crdActive = false ∧ t.bus.crdChip = .ab ∧
      Adds s.bus t.bus (powerOn .gba s.bus.pwrGba ++ burst 0 vs ++ [BusEvent.power .gba false])) ∧
  ∀ s : State, s.spiReady = true → s.gba.loaded = false →
    ∃ t, exec .gbaReadrom s = .next t ∧ Done 0 s t ∧ QuietBus s.bus t.bus

/-- `44_gba_rom.md` R325, R326: the size probe reads the header, then 200 bytes 8 bytes before 4, 8 and
16 MB, smallest first, and stops at the first that repeats the header exactly; else the size is 32 MB. -/
def Obligations.GbaProbeSizeWraps : Prop :=
  ∀ s : State, ReadyGba s →
    ∃ t vs size probes, exec .gbaProbesize s = .next t ∧ vs.length = 96 ∧ Done size s t ∧
      SizeProbed (burstBytes vs) size probes ∧
      Adds s.bus t.bus (powerOn .gba s.bus.pwrGba ++ burst 0 vs ++ probes ++ [BusEvent.power .gba false]) ∧
      GbaGrounded t.bus ∧ GbSideKept s.bus t.bus ∧ t.bus.crdActive = false ∧ t.bus.crdChip = .ab

/-! ## GBA save engine -/

/-- `45_gba_save.md` R351 to R354: a save-bus cycle is one event, returns the byte read, and leaves the
strobes high; a read leaves port C an output. -/
def Obligations.SaveBusCycles : Prop :=
  ∀ (a : Half) (d : Byte) (s : State), Ready s →
    (∃ t v, exec (.saveRd a) s = .next t ∧ Done (BitVec.setWidth 32 (v : Byte)) s t ∧ SaveCycles s.bus t.bus ∧
      Adds s.bus t.bus [.saveR a v] ∧
      t.bus.pins = { s.bus.pins with
        gbaRd := { s.bus.pins.gbaRd with out := true }, gbaCs2 := { s.bus.pins.gbaCs2 with out := true } } ∧
      t.bus.exp = { s.bus.exp with
        a := { s.bus.exp.a with out := a.extractLsb' 0 8 }, b := { s.bus.exp.b with out := a.extractLsb' 8 8 },
        c := { s.bus.exp.c with dir := 0x00 } }) ∧
    ∃ t, exec (.saveWr a d) s = .next t ∧ Done 0 s t ∧ SaveCycles s.bus t.bus ∧
      Adds s.bus t.bus [.saveW a d] ∧
      t.bus.pins = { s.bus.pins with
        gbaWr := { s.bus.pins.gbaWr with out := true }, gbaCs2 := { s.bus.pins.gbaCs2 with out := true } } ∧
      t.bus.exp = { s.bus.exp with
        a := { s.bus.exp.a with out := a.extractLsb' 0 8 }, b := { s.bus.exp.b with out := a.extractLsb' 8 8 },
        c := { s.bus.exp.c with out := d } }

/-- `45_gba_save.md` R355 to R360, R365, R366: the classification, probe by probe in its order, with the
events of each and the integer comparison that decides it, and the code of what it finds. EEPROM waits are no
events of their own (log entry 16). -/
def Obligations.ClassificationFollowsProbes : Prop :=
  ∀ s : State, ReadyGba s →
    ∃ t c es, exec .gbaClassify s = .next t ∧ Done (saveTypeCode c.kind) s t ∧ SaveClassified c es ∧
      Adds s.bus t.bus (powerOn .gba s.bus.pwrGba ++ es ++ [BusEvent.power .gba false]) ∧
      GbaGrounded t.bus ∧ GbSideKept s.bus t.bus ∧ t.bus.crdActive = false ∧ t.bus.crdChip = s.bus.crdChip

/-- `45_gba_save.md` R376, R378, R379: an EEPROM row is read and written by the bits of its request, the
row's address most significant bit first; a write ends with its programming delay. EEPROM waits are no
events of their own (log entry 16). -/
def Obligations.EepromRows : Prop :=
  ∀ (frm : Framing) (row : BitVec 14) (s : State), row.toNat < frm.rowLimit → Ready s → BufferFits 8 s →
    (∃ t q, exec (.eepRdrow frm row) s = .next t ∧ RowBits q ∧ Done 8 { s with hbuf := t.hbuf } t ∧
      Stores s.hbuf t.hbuf s.me.bufp.toNat (bytesOfBits 8 q.2) ∧ SaveCycles s.bus t.bus ∧
      Adds s.bus t.bus ([BusEvent.eepOpen, .eepOutBit true, .eepOutBit true] ++
        (rowBits (framingWidth frm) row.toNat).map BusEvent.eepOutBit ++ [.eepOutBit false, .eepTurn] ++
        (q.1 ++ q.2).map BusEvent.eepInBit ++ [BusEvent.eepClose])) ∧
    ∃ t, exec (.eepWrrow frm row) s = .next t ∧ Done 8 s t ∧ SaveCycles s.bus t.bus ∧
      Adds s.bus t.bus ([BusEvent.eepOpen, .eepOutBit true, .eepOutBit false] ++
        (rowBits (framingWidth frm) row.toNat).map BusEvent.eepOutBit ++
        ((s.hbuf.readBlock s.me.bufp.toNat 8).map byteBits).flatten.map BusEvent.eepOutBit ++
        [.eepOutBit false, .eepClose, .delay .eepWrite])

/-- `45_gba_save.md` R384 to R392: the command writes of every flash operation, in order, with the wait
that ends it. -/
def Obligations.FlashCommandWrites : Prop :=
  ∀ (a : Half) (d : Byte) (bank : Bool) (s : State), Ready s →
    (∃ t mfr dev, exec .flashId s = .next t ∧ Done (BitVec.setWidth 32 ((dev : Byte) ++ (mfr : Byte))) s t ∧
      SaveCycles s.bus t.bus ∧
      Adds s.bus t.bus [.saveW 0x5555 0xAA, .saveW 0x2AAA 0x55, .saveW 0x5555 0x90, .saveR 0x0000 mfr,
        .saveR 0x0001 dev, .saveW 0x5555 0xAA, .saveW 0x2AAA 0x55, .saveW 0x5555 0xF0]) ∧
    (∃ t, exec (.flashBank bank) s = .next t ∧ Done 0 s t ∧ SaveCycles s.bus t.bus ∧
      Adds s.bus t.bus [.saveW 0x5555 0xAA, .saveW 0x2AAA 0x55, .saveW 0x5555 0xB0,
        .saveW 0x0000 (if bank then 1 else 0)]) ∧
    (∃ t, exec (.flashErase a) s = .next t ∧ Done 0 s t ∧ SaveCycles s.bus t.bus ∧
      Adds s.bus t.bus [.saveW 0x5555 0xAA, .saveW 0x2AAA 0x55, .saveW 0x5555 0x80, .saveW 0x5555 0xAA,
        .saveW 0x2AAA 0x55, .saveW (a &&& 0xF000) 0x30, .delay .flashErase]) ∧
    (∃ t, exec (.flashProg a d) s = .next t ∧ Done 0 s t ∧ SaveCycles s.bus t.bus ∧
      Adds s.bus t.bus [.saveW 0x5555 0xAA, .saveW 0x2AAA 0x55, .saveW 0x5555 0xA0, .saveW a d,
        .delay .flashProg]) ∧
    (a.toNat % 128 = 0 → BufferFits 128 s →
      ∃ t, exec (.flashProg128 a) s = .next t ∧ Done 128 s t ∧ SaveCycles s.bus t.bus ∧
        Adds s.bus t.bus ([.saveW 0x5555 0xAA, .saveW 0x2AAA 0x55, .saveW 0x5555 0xA0] ++
          ((List.range 128).map fun k => .saveW (a + BitVec.ofNat 16 k) (s.hbuf.read (s.me.bufp.toNat + k))) ++
          [BusEvent.delay .flashAtmel]))

/-- `45_gba_save.md` R396: a save read by type: EEPROM rows, SRAM bytes, or flash bytes with bank 1 from
`0x10000` on and bank 0 restored. With no session or an unknown save it returns 0 and touches nothing. EEPROM waits are no
events of their own (log entry 16). -/
def Obligations.GbaReadSaveByType : Prop :=
  (∀ s : State, ReadyGba s → s.gba.loaded = true → s.gba.saveType ≠ .unknown →
    s.gba.saveSize = saveTypeSize s.gba.saveType → BufferFits s.gba.saveSize.toNat s →
    ∃ t bytes es, exec .gbaReadsave s = .next t ∧ bytes.length = s.gba.saveSize.toNat ∧
      Done s.gba.saveSize { s with hbuf := t.hbuf } t ∧ Stores s.hbuf t.hbuf s.me.bufp.toNat bytes ∧
      GbaGrounded t.bus ∧ GbSideKept s.bus t.bus ∧ t.bus.crdActive = false ∧ t.bus.crdChip = s.bus.crdChip ∧
      Adds s.bus t.bus (powerOn .gba s.bus.pwrGba ++ es ++ [BusEvent.power .gba false]) ∧
      (∀ p ∈ [(SaveType.eeprom4k, Framing.k4), (.eeprom64k, .k64)], s.gba.saveType = p.1 →
        ∃ qs, (∀ q ∈ qs, RowBits q) ∧ bytes = rowsBytes qs ∧ es = rowsRead p.2 qs) ∧
      (s.gba.saveType = .sram256k ∨ s.gba.saveType = .sram512k ∨ s.gba.saveType = .flash512k →
        es = saveReads 0 bytes) ∧
      (s.gba.saveType = .flash1m →
        es = saveReads 0 (bytes.take 0x10000) ++
          saveWriteEvents [(0x5555, 0xAA), (0x2AAA, 0x55), (0x5555, 0xB0), (0x0000, 0x01)] ++
          saveReads 0 (bytes.drop 0x10000) ++
          saveWriteEvents [(0x5555, 0xAA), (0x2AAA, 0x55), (0x5555, 0xB0), (0x0000, 0x00)])) ∧
  ∀ s : State, s.spiReady = true → s.gba.loaded = false ∨ s.gba.saveType = .unknown →
    ∃ t, exec .gbaReadsave s = .next t ∧ Done 0 s t ∧ QuietBus s.bus t.bus

/-- `45_gba_save.md` R400, R403: a save write by type: EEPROM rows, SRAM bytes, Atmel sectors, or other
flash bytes each 4096-byte sector of which is erased first. `Unknown` writes nothing at all. EEPROM waits are no
events of their own (log entry 16). -/
def Obligations.GbaWriteSaveByType : Prop :=
  (∀ s : State, ReadyGba s → s.gba.loaded = true → s.gba.saveType ≠ .unknown →
    s.gba.saveSize = saveTypeSize s.gba.saveType → BufferFits s.gba.saveSize.toNat s →
    ∃ t es, exec .gbaWritesave s = .next t ∧ Done s.gba.saveSize s t ∧
      GbaGrounded t.bus ∧ GbSideKept s.bus t.bus ∧ t.bus.crdActive = false ∧ t.bus.crdChip = s.bus.crdChip ∧
      Adds s.bus t.bus (powerOn .gba s.bus.pwrGba ++ es ++ [BusEvent.power .gba false]) ∧
      (let n := s.gba.saveSize.toNat
       let byte := fun k => s.hbuf.read (s.me.bufp.toNat + k)
       let bank := fun v : Byte => saveWriteEvents [(0x5555, 0xAA), (0x2AAA, 0x55), (0x5555, 0xB0), (0x0000, v)]
       let home := if s.gba.saveType = .flash1m then bank 0 else []
       (∀ p ∈ [(SaveType.eeprom4k, Framing.k4), (.eeprom64k, .k64)], s.gba.saveType = p.1 →
         es = ((List.range (n / 8)).map fun row =>
           rowWrite p.2 row ((List.range 8).map fun j => byte (8 * row + j))).flatten) ∧
       (s.gba.saveType = .sram256k ∨ s.gba.saveType = .sram512k →
         es = (List.range n).map fun k => .saveW (BitVec.ofNat 16 k) (byte k)) ∧
       (s.gba.saveType = .flash512k ∨ s.gba.saveType = .flash1m → s.gba.flashMfr = 0x1F →
         es = ((List.range (n / 128)).map fun i =>
           (if 128 * i = 0x10000 then bank 1 else []) ++
           saveWriteEvents [(0x5555, 0xAA), (0x2AAA, 0x55), (0x5555, 0xA0)] ++
           ((List.range 128).map fun k => .saveW (BitVec.ofNat 16 (128 * i + k)) (byte (128 * i + k))) ++
           [BusEvent.delay .flashAtmel]).flatten ++ home) ∧
       (s.gba.saveType = .flash512k ∨ s.gba.saveType = .flash1m → s.gba.flashMfr ≠ 0x1F →
         es = ((List.range n).map fun k =>
           (if k = 0x10000 then bank 1 else []) ++
           (if k % 4096 = 0 then
             saveWriteEvents [(0x5555, 0xAA), (0x2AAA, 0x55), (0x5555, 0x80), (0x5555, 0xAA), (0x2AAA, 0x55),
               (BitVec.ofNat 16 k, 0x30)] ++ [BusEvent.delay .flashErase]
            else []) ++
           saveWriteEvents [(0x5555, 0xAA), (0x2AAA, 0x55), (0x5555, 0xA0), (BitVec.ofNat 16 k, byte k)] ++
           [BusEvent.delay .flashProg]).flatten ++ home))) ∧
  ∀ s : State, s.spiReady = true → s.gba.loaded = false ∨ s.gba.saveType = .unknown →
    ∃ t, exec .gbaWritesave s = .next t ∧ Done 0 s t ∧ QuietBus s.bus t.bus

/-! ## Dispatcher -/

/-- `46_dispatcher.md` R420, `40_transport_lock.md` R184: while another key holds the lock, a dispatcher
operation that takes it is held, with no result and nothing else changed (the position held is log entry 7). -/
def Obligations.DispatcherWaitsForLock : Prop :=
  ∀ (i : Instr) (s : State), dispatches i = true → s.spiReady = true ∨ i = .gbxClear →
    s.lock ≠ 0 → s.lock ≠ Config.gbxKey →
    ∃ t, exec i s = .next t ∧ OnlyBus s t ∧ QuietBus s.bus t.bus ∧ t.me = { s.me with seq := .held i }

/-- `46_dispatcher.md` R421, R422, R423: the load reads the detector once, clears the other engine's session, is
the selected engine's own header load under the lock, with the platform's code for its 1, and frees the lock; so
the selected session is loaded or empty, and its slot grounded. -/
def Obligations.DispatcherLoadsOneSession : Prop :=
  ∀ s : State, s.spiReady = true → s.lock = 0 ∨ s.lock = Config.gbxKey → Calm (locked s) →
    s.bus.crdActive = false → s.csForceIdle = false →
    let d := pinRead .det s.bus
    let begun : State := { locked s with bus := d.2 }
    let ended := fun (u : State) (code : Word) => { u with
      me := { u.me with res := if u.me.res = 1 then code else 0 }, lock := 0, csForceIdle := false }
    (d.1 = Config.detGbaLevel → s.bus.pwrGb = false →
      ∃ u, exec .gbaLoadhdr { begun with gb := .empty } = .next u ∧ exec .gbxLoadhdr s = .next (ended u 2) ∧
        u.gb = .empty ∧ GbaGrounded u.bus ∧ GbSideKept s.bus u.bus ∧ u.bus.crdActive = false ∧
        (u.me.res = 1 ∧ u.gba.loaded = true ∨ u.me.res = 0 ∧ u.gba = .empty)) ∧
    (d.1 ≠ Config.detGbaLevel → s.bus.pwrGba = false →
      ∃ u, exec .gbLoadhdr { begun with gba := .empty } = .next u ∧ exec .gbxLoadhdr s = .next (ended u 1) ∧
        u.gba = .empty ∧ GbGrounded u.bus ∧ GbaSideKept s.bus u.bus ∧
        (u.me.res = 1 ∧ u.gb.loaded = true ∨ u.me.res = 0 ∧ u.gb = .empty))

/-- `46_dispatcher.md` R425, R432, R434: the re-check and the bulk reads are the active engine's own
operation, run with the lock held and freed after it; with no session they return 0; of a session they complete. -/
def Obligations.DispatcherDelegates : Prop :=
  (∀ s : State, s.spiReady = true → s.lock = 0 ∨ s.lock = Config.gbxKey →
    (∀ p ∈ [(Instr.gbxIsloaded, Instr.gbIsloaded, Instr.gbaIsloaded), (.gbxReadrom, .gbReadrom, .gbaReadrom),
        (.gbxReadsave, .gbReadsave, .gbaReadsave)],
      (s.gb.romSize ≠ 0 → ∀ t, exec p.2.1 (locked s) = .next t →
        exec p.1 s = .next { t with lock := 0, csForceIdle := false }) ∧
      (s.gb.romSize = 0 → s.gba.romSize ≠ 0 → ∀ t, exec p.2.2 (locked s) = .next t →
        exec p.1 s = .next { t with lock := 0, csForceIdle := false }) ∧
      (s.gb.romSize = 0 → s.gba.romSize = 0 →
        ∃ t, exec p.1 s = .next t ∧ QuietBus s.bus t.bus ∧
          Done 0 { s with lock := 0, csForceIdle := false } t))) ∧
  ∀ s : State, s.spiReady = true → s.lock = 0 ∨ s.lock = Config.gbxKey → Calm (locked s) →
    s.bus.crdActive = false → s.csForceIdle = false → s.bus.pwrGb = false → s.bus.pwrGba = false →
    GbSessionOk s.gb → GbaSessionOk s.gba →
    BufferFits (max (gbDumpTotal s.gb) (max s.gb.saveSize.toNat (max s.gba.romSize.toNat s.gba.saveSize.toNat))) s →
    (∃ t, exec .gbxIsloaded s = .next t ∧ Returned t.me.res t ∧
      OnlyBus { s with lock := 0, gb := t.gb, gba := t.gba } t ∧
      (t.me.res = 1 ∧ t.gb = s.gb ∧ t.gba = s.gba ∨ t.me.res = 0)) ∧
    ∀ i ∈ [Instr.gbxReadrom, .gbxReadsave],
      ∃ t, exec i s = .next t ∧ Returned t.me.res t ∧ OnlyBus { s with lock := 0, hbuf := t.hbuf } t

/-- `46_dispatcher.md` R436, R437, R438, `60_exceptions.md` R471: a save write verifies the live cartridge first:
without a session, with none answering and with another one it returns its three codes and has written nothing, a
buffer that does not fit notwithstanding; on a match it is the engine's own save write, run on what the check left, and
only then a buffer that is not set or does not fit is a fault. Where the buffer fits it completes. -/
def Obligations.WriteSaveVerifiesFirst : Prop :=
  ∀ s : State, s.spiReady = true → LockFree s →
    let freed := fun u : State => { u with lock := 0, csForceIdle := false }
    (s.gb.romSize = 0 → s.gba.romSize = 0 →
      ∃ t, exec .gbxWritesave s = .next t ∧ Done 0xFFFFFFFD (freed s) t ∧ QuietBus s.bus t.bus) ∧
    (Calm (locked s) → s.bus.crdActive = false → s.csForceIdle = false →
      (s.gb.romSize ≠ 0 → s.bus.pwrGba = false →
        let g := (gbLiveCheck s).1
        let checked : State := { locked s with bus := (gbLiveCheck s).2 }
        let n := s.gb.saveSize.toNat
        (gbCheckSteps .gbxWritesave).run (locked s) = .ok (g, checked) ∧ g.length = 64 ∧
        GbGrounded checked.bus ∧ GbaSideKept s.bus checked.bus ∧
        Adds s.bus checked.bus (powerOn .gb s.bus.pwrGb ++ gbReads 0x104 g ++ [BusEvent.power .gb false]) ∧
        (g.take 48 ≠ logo → ∃ t, exec .gbxWritesave s = .next t ∧ QuietBus checked.bus t.bus ∧
          Done 0xFFFFFFFF { freed s with gb := .empty } t) ∧
        (g.take 48 = logo → normTitle (g.drop 48) ≠ s.gb.title → ∃ t, exec .gbxWritesave s = .next t ∧
          QuietBus checked.bus t.bus ∧ Done 0xFFFFFFFE { freed s with gb := .empty } t) ∧
        (GbStill g s.gb → (s.gb.loaded = true → s.gb.saveSize ≠ 0 → BufferFits n s) →
          ∃ t, exec .gbWritesave checked = .next t ∧ exec .gbxWritesave s = .next (freed t)) ∧
        (GbStill g s.gb → s.gb.loaded = true → s.gb.saveSize ≠ 0 →
          (s.me.bufSet = false → exec .gbxWritesave s = .fault .bufferUnset) ∧
          (s.me.bufSet = true → 4294967296 < s.me.bufp.toNat + n →
            exec .gbxWritesave s = .fault (.bufferRange s.me.bufp.toNat n))) ∧
        (BufferFits n s → ∃ t, exec .gbxWritesave s = .next t ∧ Returned t.me.res t ∧
          OnlyBus { freed s with gb := t.gb } t)) ∧
      (s.gb.romSize = 0 → s.gba.romSize ≠ 0 → s.bus.pwrGb = false →
        let h := (gbaLiveCheck s).1
        let checked : State := { locked s with bus := (gbaLiveCheck s).2 }
        let n := s.gba.saveSize.toNat
        (gbaCheckSteps .gbxWritesave).run (locked s) = .ok (h, checked) ∧
        GbaGrounded checked.bus ∧ GbSideKept s.bus checked.bus ∧ checked.bus.crdActive = false ∧
        (∃ vs, vs.length = 96 ∧ h = burstBytes vs ∧
          Adds s.bus checked.bus (powerOn .gba s.bus.pwrGba ++ burst 0 vs ++ [BusEvent.power .gba false])) ∧
        (gbaChecksumOk h = false → ∃ t, exec .gbxWritesave s = .next t ∧ QuietBus checked.bus t.bus ∧
          Done 0xFFFFFFFF { freed s with gba := .empty } t) ∧
        (gbaChecksumOk h = true → ¬ GbaStill h s.gba → ∃ t, exec .gbxWritesave s = .next t ∧
          QuietBus checked.bus t.bus ∧ Done 0xFFFFFFFE { freed s with gba := .empty } t) ∧
        (GbaStill h s.gba → (s.gba.loaded = true → s.gba.saveType ≠ .unknown → BufferFits n s) →
          ∃ t, exec .gbaWritesave checked = .next t ∧ exec .gbxWritesave s = .next (freed t)) ∧
        (GbaStill h s.gba → s.gba.loaded = true → s.gba.saveType ≠ .unknown →
          (s.me.bufSet = false → exec .gbxWritesave s = .fault .bufferUnset) ∧
          (s.me.bufSet = true → 4294967296 < s.me.bufp.toNat + n →
            exec .gbxWritesave s = .fault (.bufferRange s.me.bufp.toNat n))) ∧
        (BufferFits n s → ∃ t, exec .gbxWritesave s = .next t ∧ Returned t.me.res t ∧
          OnlyBus { freed s with gba := t.gba } t)))

/-- `46_dispatcher.md` R444, R420, `40_transport_lock.md` R184: `GBX_CLEAR` empties both sessions under the lock and
frees it, with no bus activity, before `INIT` too; while another key holds the lock it is held with nothing changed
(the position held is log entry 7). -/
def Obligations.DispatcherClears : Prop :=
  decodeRequest (.word 0x6D00000000000000) = .ok .gbxClear ∧
  ∀ s : State,
    (s.lock ≠ 0 → s.lock ≠ Config.gbxKey →
      ∃ t, exec .gbxClear s = .next t ∧ OnlyBus s t ∧ QuietBus s.bus t.bus ∧
        t.me = { s.me with seq := .held .gbxClear }) ∧
    (s.lock = 0 ∨ s.lock = Config.gbxKey →
      ∃ t, exec .gbxClear s = .next t ∧ QuietBus s.bus t.bus ∧
        Done 0 { s with lock := 0, csForceIdle := false, gb := .empty, gba := .empty } t)

/-- `46_dispatcher.md` R424, R427, R430, R431: `GBX_TYPE`, `GBX_ROMSIZE` and `GBX_SAVESIZE`, their words, and
the platform and sizes of the active session they return. -/
def Obligations.SessionGetters : Prop :=
  decodeRequest (.word 0x6200000000000000) = .ok .gbxType ∧
  decodeRequest (.word 0x6500000000000000) = .ok .gbxRomsize ∧
  decodeRequest (.word 0x6600000000000000) = .ok .gbxSavesize ∧
  ∀ s : State,
    (∃ t, exec .gbxType s = .next t ∧ QuietBus s.bus t.bus ∧
      Done (if s.gb.romSize ≠ 0 then 1 else if s.gba.romSize ≠ 0 then 2 else 0) s t) ∧
    (∃ t, exec .gbxRomsize s = .next t ∧ QuietBus s.bus t.bus ∧
      Done (if s.gb.romSize ≠ 0 then s.gb.romSize else if s.gba.romSize ≠ 0 then s.gba.romSize else 0) s t) ∧
    ∃ t, exec .gbxSavesize s = .next t ∧ QuietBus s.bus t.bus ∧
      Done (if s.gb.romSize ≠ 0 then s.gb.saveSize else if s.gba.romSize ≠ 0 then s.gba.saveSize else 0) s t

/-- `46_dispatcher.md` R428, R429: title and identifier of the active session go to the buffer, with no
terminator, and their length is returned; with no session nothing is written. -/
def Obligations.TextGetters : Prop :=
  ∀ s : State,
    (∀ (i : Instr) (text : List Byte),
      (i, text) ∈ (if s.gb.romSize ≠ 0 then [(Instr.gbxTitle, s.gb.title), (.gbxIdent, s.gb.sha1)]
        else if s.gba.romSize ≠ 0 then [(.gbxTitle, s.gba.title), (.gbxIdent, s.gba.code)] else []) →
      BufferFits text.length s →
      ∃ t, exec i s = .next t ∧ QuietBus s.bus t.bus ∧
        Done (BitVec.ofNat 32 text.length) { s with hbuf := t.hbuf } t ∧
        Stores s.hbuf t.hbuf s.me.bufp.toNat text) ∧
    (s.gb.romSize = 0 → s.gba.romSize = 0 → ∀ i ∈ [Instr.gbxTitle, .gbxIdent],
      ∃ t, exec i s = .next t ∧ QuietBus s.bus t.bus ∧ Done 0 s t)

/-- `46_dispatcher.md` R440, R441, R442: the estimators are 0 without a session and otherwise at most
`2^31 - 1`, linear in the size up to that, from constants the spec leaves open. -/
def Obligations.EstimatorsAreLinear : Prop :=
  ∀ s : State,
    ∀ p ∈ [(Instr.gbxTRom, EstOp.rom, s.gb.romSize, s.gba.romSize),
        (.gbxTRdsave, .rdSave, s.gb.saveSize, s.gba.saveSize), (.gbxTWrsave, .wrSave, s.gb.saveSize, s.gba.saveSize)],
      ∃ t kind, exec p.1 s = .next t ∧ QuietBus s.bus t.bus ∧
        Done (if s.gb.romSize = 0 ∧ s.gba.romSize = 0 then 0 else BitVec.ofNat 32 (min (2 ^ 31 - 1)
          (Config.estNum p.2.1 kind * (if s.gb.romSize ≠ 0 then p.2.2.1 else p.2.2.2).toNat /
            (Config.estDen p.2.1 kind + 1) + Config.estBase p.2.1 kind))) s t ∧
        (s.gb.romSize ≠ 0 → kind = .gb) ∧
        (s.gb.romSize = 0 → s.gba.romSize ≠ 0 → p.1 = .gbxTRom → kind = .gba) ∧
        (s.gb.romSize = 0 → s.gba.romSize ≠ 0 → p.1 ≠ .gbxTRom → ∃ atmelPart, kind = .save s.gba.saveType atmelPart)

/-! ## Wire frames -/

/-- `30_encoding.md` R134 to R136, R150, `41_expander.md` R216, `45_gba_save.md` R376, R378: the expander frames run
by themselves write the registers they name, or leave what was read in `rx`; the header opens a continuous read; the
EEPROM requests clock out exactly their own bits. Running a row of the table by itself, and `rx`, are the model's
choice (log entry 8); EEPROM waits are no events of their own (log entry 16). -/
def Obligations.WireRowsRun : Prop :=
  (∀ (c : Chip) (k : RegKind) (second : Bool) (v w : Byte) (s : State), Ready s →
    (∃ t, exec (.wireExpFrame3Wr c (regAddr k second) v) s = .next t ∧ Done 0 { s with rx := t.rx } t ∧
      OnlyPorts s.bus t.bus ∧
      t.bus.exp = setPort (chipPort c second) (setReg k v (getPort (chipPort c second) s.bus.exp)) s.bus.exp) ∧
    (∃ t r0 r1 r2, exec (.wireExpFrame3Rd c (regAddr k second)) s = .next t ∧ Done 0 { s with rx := t.rx } t ∧
      OnlyPorts s.bus t.bus ∧ t.bus.exp = s.bus.exp ∧ t.rx = [r0, r1, r2] ∧
      (k = .dir → r2 = (getPort (chipPort c second) s.bus.exp).dir) ∧
      (k = .pull → r2 = (getPort (chipPort c second) s.bus.exp).pull) ∧
      (k = .io → ∃ pins, r2 = portMix (getPort (chipPort c second) s.bus.exp) pins)) ∧
    (∃ t, exec (.wireExpFrame4Wr c (regAddr k second) v w) s = .next t ∧ Done 0 { s with rx := t.rx } t ∧
      OnlyPorts s.bus t.bus ∧
      getPort (chipPort c second) t.bus.exp = setReg k v (getPort (chipPort c second) s.bus.exp) ∧
      getPort (chipPort c (!second)) t.bus.exp = setReg k w (getPort (chipPort c (!second)) s.bus.exp) ∧
      ∀ p, portChip p ≠ c → getPort p t.bus.exp = getPort p s.bus.exp) ∧
    (∃ t r0 r1 p0 p1, exec (.wireExpFrame4Rd c) s = .next t ∧ Done 0 { s with rx := t.rx } t ∧
      OnlyPorts s.bus t.bus ∧ t.bus.exp = s.bus.exp ∧
      t.rx = [r0, r1, portMix (getPort (chipPort c false) s.bus.exp) p0,
        portMix (getPort (chipPort c true) s.bus.exp) p1]) ∧
    ∃ t, exec (.wireCrdHeader c) s = .next t ∧ Done 0 { s with rx := [] } t ∧ t.bus.exp = s.bus.exp ∧
      OnlyPorts { s.bus with crdActive := true, crdChip := c } t.bus) ∧
  ∀ (r4 : BitVec 6) (r64 : BitVec 14) (data : BitVec 64) (s : State), Ready s →
    (∀ p ∈ [(Instr.wireEepRead4k r4, eepReadBits r4), (.wireEepRead64k r64, eepReadBits r64)],
      ∃ t q, exec p.1 s = .next t ∧ RowBits q ∧ Done 0 { s with rx := t.rx } t ∧ t.rx = bytesOfBits 8 q.2 ∧
        SaveCycles s.bus t.bus ∧
        Adds s.bus t.bus ([BusEvent.eepOpen] ++ p.2.map BusEvent.eepOutBit ++ [BusEvent.eepTurn] ++ (q.1 ++ q.2).map BusEvent.eepInBit ++
          [BusEvent.eepClose])) ∧
    ∀ p ∈ [(Instr.wireEepWrite4k r4 data, eepWriteBits r4 data), (.wireEepWrite64k r64 data, eepWriteBits r64 data)],
      ∃ t, exec p.1 s = .next t ∧ Done 0 { s with rx := [] } t ∧ SaveCycles s.bus t.bus ∧
        Adds s.bus t.bus ([BusEvent.eepOpen] ++ p.2.map BusEvent.eepOutBit ++ [BusEvent.eepClose, .delay .eepWrite])
end

