-- ==== Sys2Proof/Laws/Whole.lean ====
section
/-! SUPPORT. The operations as one big step each (`10_state.md` R24): what the steps of an operation come to
when nothing falls between them, as functions of the bus. `Laws/Meaning.lean` proves that this is what the
operations do; the other laws are about these forms. -/

namespace Sys2Proof.Machine

/-! ## Loops (`00_scope.md` R12: increasing order) -/

/-- `for i in 0..n-1`. -/
def iter : Nat → (Nat → Bus → Bus) → Bus → Bus
  | 0, _, b => b
  | n + 1, f, b => f n (iter n f b)

/-- The values of `for i in 0..n-1`, newest first. -/
def gatherRev {α : Type} : Nat → (Nat → Bus → α × Bus) → Bus → List α × Bus
  | 0, _, b => ([], b)
  | n + 1, f, b =>
    let r := gatherRev n f b
    let v := f n r.2
    (v.1 :: r.1, v.2)

/-- The values of `for i in 0..n-1`, in order. -/
def gather {α : Type} (n : Nat) (f : Nat → Bus → α × Bus) (b : Bus) : List α × Bus :=
  let r := gatherRev n f b
  (r.1.reverse, r.2)

/-- A step for each byte of an array, given its index, in order. -/
def forBytes (f : Nat → Byte → Bus → Bus) : Nat → List Byte → Bus → Bus
  | _, [], b => b
  | i, v :: vs, b => forBytes f (i + 1) vs (f i v b)

/-- The outcome of an operation's body: its result and state, or the fault that gives the run no final
state (`60_exceptions.md` R467). -/
def conclude (r : Except Fault (Word × State)) : Host.Outcome State Fault Refusal :=
  match r with
  | .ok (v, s) => .next (finish v s)
  | .error f => .fault f

/-- An operation's bus part put back into the state, with its result. -/
def onBus {α : Type} (s : State) (r : α × Bus) (v : α → Word) : Word × State :=
  (v r.1, { s with bus := r.2 })

/-- A dispatcher operation under the bus lock (`46_dispatcher.md` R420): held while another key holds the
lock, else the body between `Lock()` and `Unlock()`. -/
def lockHeld (op : Instr) (s : State) (body : State → Except Fault (Word × State)) :
    Host.Outcome State Fault Refusal :=
  if lockFree Config.gbxKey s then
    conclude (do
      let r ← body (takeLock false Config.gbxKey s)
      .ok (r.1, releaseLock Config.gbxKey r.2))
  else .next (hold op s)

/-! ## Power sequences -/

/-- What keeps the steps of a `PWRUP` of the GB slot from happening: the other slot's flag, and then what keeps its
first bus steps from happening (`42_power.md` R240, `60_exceptions.md` R471). -/
def gbPowerReady (op : Instr) (s : State) : Except Fault Unit :=
  if s.bus.pwrGba then .error .bothSlotsPowered else busReady op s

/-- The same for a `PWRUP` of the GBA slot. -/
def gbaPowerReady (op : Instr) (s : State) : Except Fault Unit :=
  if s.bus.pwrGb then .error .bothSlotsPowered else busReady op s

/-- `Pin(p) <- v; PinDir(p) <- out`. -/
def drivePin (p : Pin) (v : Bool) (b : Bus) : Bus := pinDirect p .output (pinWrite p v b)

/-- The GB/GBC default pin state: strobes high, address lines low, data port released with pull-ups
(`42_power.md` R232 step 1). -/
def gbDefaults (b : Bus) : Bus :=
  let b := drivePin .gbWr true (drivePin .gbRd true (drivePin .gbCs true b))
  let b := expDir2 .ab 0x00 0x00 (expPull2 .ab 0x00 0x00 (expWrite2 .ab 0x00 0x00 b))
  expDir .c 0xFF (expPull .c 0xFF b)

/-- `GbPowerUp()` (`42_power.md` R231, R232). -/
def gbPowerUp (b : Bus) : Bus :=
  let b := gbDefaults b
  if b.pwrGb then b
  else
    let b := record (.power .gb true) (drivePin .gbPwr (Config.pwrOnLevel .gb) b)
    { delay .settle b with pwrGb := true, mbcw := .nothing }

/-- The GBA default pin state: strobes high, all 24 lines driven low, pull-ups on (`42_power.md` R234). -/
def gbaDefaults (b : Bus) : Bus :=
  let b := drivePin .gbaWr true (drivePin .gbaRd true (drivePin .gbaCs2 true (drivePin .gbaCs true b)))
  let b := expWrite .c 0x00 (expWrite2 .ab 0x00 0x00 b)
  let b := expPull .c 0xFF (expPull2 .ab 0xFF 0xFF b)
  expDir .c 0x00 (expDir2 .ab 0x00 0x00 b)

/-- `GbaPowerUp()` (`42_power.md` R231, R234). -/
def gbaPowerUp (b : Bus) : Bus :=
  let b := gbaDefaults b
  if b.pwrGba then b
  else
    let b := record (.power .gba true) (drivePin .gbaPwr (Config.pwrOnLevel .gba) b)
    { delay .settle b with pwrGba := true }

/-- Phases 1 and 2 of a power-down on the expander: pull-ups off, every line an input (`42_power.md` R236). -/
def floatLines (b : Bus) : Bus :=
  let b := expPull2 .cd 0x00 0x00 (expPull2 .ab 0x00 0x00 b)
  expDir2 .cd 0xFF 0xFF (expDir2 .ab 0xFF 0xFF b)

/-- Phase 3 of a power-down on the expander: every line driven low (`42_power.md` R236). -/
def groundLines (b : Bus) : Bus :=
  let b := expWrite2 .cd 0x00 0x00 (expWrite2 .ab 0x00 0x00 b)
  expDir2 .cd 0x00 0x00 (expDir2 .ab 0x00 0x00 b)

/-- Phases 1 and 2 of the GB slot's power-down: everything floating, power off (`42_power.md` R236). -/
def gbRelease (b : Bus) : Bus :=
  let b := pinDirect .gbWr .input (pinDirect .gbRd .input (pinDirect .gbCs .input (floatLines b)))
  record (.power .gb false) (drivePin .gbPwr (!Config.pwrOnLevel .gb) b)

/-- Phase 3 of the GB slot's power-down: every line and strobe driven low (`42_power.md` R236). -/
def gbGround (b : Bus) : Bus :=
  drivePin .gbWr false (drivePin .gbRd false (drivePin .gbCs false (groundLines b)))

/-- `GbPowerDown()` (`42_power.md` R235, R236). -/
def gbPowerDown (b : Bus) : Bus := { gbGround (gbRelease b) with pwrGb := false, ownGb := none }

/-- Phases 1 and 2 of the GBA slot's power-down (`42_power.md` R237). -/
def gbaRelease (b : Bus) : Bus :=
  let b := pinDirect .gbaRd .input (pinDirect .gbaCs2 .input (pinDirect .gbaCs .input (floatLines b)))
  record (.power .gba false) (drivePin .gbaPwr (!Config.pwrOnLevel .gba) (pinDirect .gbaWr .input b))

/-- Phase 3 of the GBA slot's power-down (`42_power.md` R237). -/
def gbaGround (b : Bus) : Bus :=
  let b := drivePin .gbaRd false (drivePin .gbaCs2 false (drivePin .gbaCs false (groundLines b)))
  drivePin .gbaWr false b

/-- `GbaPowerDown()` (`42_power.md` R237). -/
def gbaPowerDown (b : Bus) : Bus := { gbaGround (gbaRelease b) with pwrGba := false, ownGba := none }

/-! ## The GB/GBC engine -/

/-- `GbRead` of `n` addresses from `a` up. -/
def gbReadRange (a n : Nat) (b : Bus) : List Byte × Bus :=
  gather n (fun k => gbRead (BitVec.ofNat 16 (a + k))) b

/-- A list of `GbWrite`s, in order. -/
def gbWrites (ws : List (Half × Byte)) (b : Bus) : Bus := ws.foldl (fun b w => gbWrite w.1 w.2 b) b

/-- A list of register writes with their effect on the ghost record. -/
def mbcStep (ws : List (Half × Byte)) (g : Mbcw → Mbcw) (b : Bus) : Bus :=
  let b := gbWrites ws b
  { b with mbcw := g b.mbcw }

/-- `GbRomBank(m, i)` (`43_gb_engine.md` R270 to R272). -/
def gbRomBank (m : Mbc) (i : BitVec 9) (b : Bus) : Bus := mbcStep (romBankWrites m i) (mbcwRomBank m i) b
/-- `GbRamOpen(m)` (`43_gb_engine.md` R275). -/
def gbRamOpen (m : Mbc) (b : Bus) : Bus := mbcStep (ramOpenWrites m) (mbcwRamOpen m) b
/-- `GbRamBank(m, j)` (`43_gb_engine.md` R278). -/
def gbRamBank (m : Mbc) (j : BitVec 4) (b : Bus) : Bus := mbcStep (ramBankWrites m j) (mbcwRamBank m j) b
/-- `GbRamClose(m)` (`43_gb_engine.md` R281). -/
def gbRamClose (m : Mbc) (b : Bus) : Bus := mbcStep (ramCloseWrites m) (mbcwRamClose m) b

/-- The bus part of a header load: power up, four throwaway reads, the 1024 header bytes, power down
(`43_gb_engine.md` R258). -/
def gbHeaderRead (b : Bus) : List Byte × Bus :=
  let b := (gbReadRange 0 4 (gbPowerUp b)).2
  let r := gbReadRange 0 1024 b
  (r.1, gbPowerDown r.2)

/-- `GbLoadHeader()` (`43_gb_engine.md` R258, R264, R265). -/
def gbLoadHeader (s : State) : Word × State :=
  let r := gbHeaderRead s.bus
  let s := { s with bus := r.2 }
  match gbSessionOf r.1 (sha1Hex r.1) with
  | some g => (1, { s with gb := g })
  | none => (0, gbClear s)

/-- The bus part of a re-check: power up, logo and title fields, power down (`43_gb_engine.md` R266). -/
def gbCheckRead (b : Bus) : List Byte × Bus :=
  let r := gbReadRange 0x104 64 (gbPowerUp b)
  (r.1, gbPowerDown r.2)

/-- `GbIsLoaded()` past the power checks (`43_gb_engine.md` R266). -/
def gbRecheck (s : State) : Word × State :=
  let r := gbCheckRead s.bus
  let s := { s with bus := r.2 }
  if gbLive r.1 s.gb.title = .same then (1, s) else (0, gbClear s)

/-- `GbIsLoaded()` (`43_gb_engine.md` R266). -/
def gbIsLoaded (op : Instr) (s : State) : Except Fault (Word × State) :=
  if s.gb.loaded = false then .ok (0, s)
  else do
    gbPowerReady op s
    .ok (gbRecheck s)

/-- The switched banks `1` to `n - 1`, each a 16K window, then bank 1 restored (`43_gb_engine.md` R284). -/
def gbDumpBanks (m : Mbc) (n : Nat) (b : Bus) : List Byte × Bus :=
  let r := gather (n - 1) (fun i b => gbReadRange 0x4000 0x4000 (gbRomBank m (BitVec.ofNat 9 (i + 1)) b)) b
  (r.1.flatten, gbRomBank m 1 r.2)

/-- The bus part of a ROM dump: power up, bank 0, the rest, power down (`43_gb_engine.md` R284, R285). -/
def gbDump (g : GbSession) (b : Bus) : List Byte × Bus :=
  let low := gbReadRange 0 0x4000 (gbPowerUp b)
  let rest :=
    if g.mbc = .noMbc then gbReadRange 0x4000 (gbDumpTotal g - 0x4000) low.2
    else gbDumpBanks g.mbc (g.romSize.toNat / 0x4000) low.2
  (low.1 ++ rest.1, gbPowerDown rest.2)

/-- Bytes stored at the agent's buffer, and the count returned. -/
def intoBuffer (n : Nat) (r : List Byte × Bus) (s : State) : Word × State :=
  (countWord n, { s with bus := r.2, hbuf := s.hbuf.writeBlock s.me.bufp.toNat r.1 })

/-- `GbReadRom()` (`43_gb_engine.md` R284). -/
def gbReadRom (op : Instr) (s : State) : Except Fault (Word × State) :=
  if s.gb.loaded = false then .ok (0, s)
  else do
    needBuf (gbDumpTotal s.gb) s
    gbPowerReady op s
    .ok (intoBuffer (gbDumpTotal s.gb) (gbDump s.gb s.bus) s)

/-- The bus part of a save read (`43_gb_engine.md` R288, R289). -/
def gbSaveDump (m : Mbc) (sz : Nat) (b : Bus) : List Byte × Bus :=
  let r := gather (saveBanks sz)
    (fun j b => gbReadRange 0xA000 (saveBankLen sz j) (gbRamBank m (BitVec.ofNat 4 j) b))
    (gbRamOpen m (gbPowerUp b))
  (r.1.flatten, gbPowerDown (gbRamClose m r.2))

/-- `GbReadSave()` (`43_gb_engine.md` R288). -/
def gbReadSave (op : Instr) (s : State) : Except Fault (Word × State) :=
  if s.gb.loaded = false ∨ s.gb.saveSize = 0 then .ok (0, s)
  else do
    needBuf s.gb.saveSize.toNat s
    gbPowerReady op s
    .ok (intoBuffer s.gb.saveSize.toNat (gbSaveDump s.gb.mbc s.gb.saveSize.toNat s.bus) s)

/-- The bus part of a save write (`43_gb_engine.md` R291). -/
def gbSaveStore (m : Mbc) (data : List Byte) (b : Bus) : Bus :=
  let sz := data.length
  let b := iter (saveBanks sz)
    (fun j b => forBytes (fun o v => gbWrite (BitVec.ofNat 16 (0xA000 + o)) v) 0
      (slice (j * 0x2000) (saveBankLen sz j) data) (gbRamBank m (BitVec.ofNat 4 j) b))
    (gbRamOpen m (gbPowerUp b))
  gbPowerDown (gbRamClose m b)

/-- `GbWriteSave()` (`43_gb_engine.md` R291). -/
def gbWriteSave (op : Instr) (s : State) : Except Fault (Word × State) :=
  if s.gb.loaded = false ∨ s.gb.saveSize = 0 then .ok (0, s)
  else do
    needBuf s.gb.saveSize.toNat s
    gbPowerReady op s
    let data := s.hbuf.readBlock s.me.bufp.toNat s.gb.saveSize.toNat
    .ok (countWord s.gb.saveSize.toNat, { s with bus := gbSaveStore s.gb.mbc data s.bus })

/-- An operation whose whole bus part is GB/GBC or GBA primitives with no power step. -/
def cartridgeOp {α : Type} (op : Instr) (s : State) (f : Bus → α × Bus) (v : α → Word) :
    Host.Outcome State Fault Refusal :=
  conclude do
    needInit op s
    busReady op s
    .ok (onBus s (f s.bus) v)

/-- A bank operation: no write at all for a controller without the register, and then no expander step
that could fault (`43_gb_engine.md` R270 to R281, `60_exceptions.md` R471; log entry 13). -/
def mbcOp (op : Instr) (s : State) (ws : List (Half × Byte)) (f : Bus → Bus) :
    Host.Outcome State Fault Refusal :=
  conclude do
    needInit op s
    if ws = [] then .ok (0, s)
    else do
      busReady op s
      .ok (0, { s with bus := f s.bus })

/-! ## The GBA ROM engine -/

/-- Halfword `k` of a burst from `ha`: the address is latched again at every multiple of `GBA_RELATCH`
(`44_gba_rom.md` R314). -/
def burstStep (ha k : Nat) (b : Bus) : Half × Bus :=
  gbaNext (if 0 < k ∧ (ha + k) % Config.gbaRelatch = 0 then gbaLatch (BitVec.ofNat 24 (ha + k)) (gbaEnd b) else b)

/-- `GbaRomRead(ba, n)` (`44_gba_rom.md` R314), a halfword's low byte at the lower address (`20_memory.md` R79). -/
def gbaRomRead (ba n : Nat) (b : Bus) : List Byte × Bus :=
  let ha := ba / 2
  let r := gather (n / 2) (burstStep ha) (gbaLatch (BitVec.ofNat 24 ha) b)
  (halfBytes r.1, gbaEnd r.2)

/-- `GbaProbeSize(h)` (`44_gba_rom.md` R325 to R327): 4, 8 and 16 MB, else 32 MB. -/
def gbaProbeSize (h : List Byte) (b : Bus) : Word × Bus :=
  let w4 := gbaRomRead (0x400000 - 8) 200 b
  if wrapsAt w4.1 h then (0x400000, w4.2)
  else
    let w8 := gbaRomRead (0x800000 - 8) 200 w4.2
    if wrapsAt w8.1 h then (0x800000, w8.2)
    else
      let w16 := gbaRomRead (0x1000000 - 8) 200 w8.2
      if wrapsAt w16.1 h then (0x1000000, w16.2) else (0x2000000, w16.2)

/-- Power up and read the 192 header bytes (`44_gba_rom.md` R320, R325, R328). -/
def gbaHeaderRead (b : Bus) : List Byte × Bus := gbaRomRead 0 192 (gbaPowerUp b)

/-- The bus part of `GBA_PROBESIZE` (`44_gba_rom.md` R325). -/
def gbaProbe (b : Bus) : Word × Bus :=
  let r := gbaHeaderRead b
  let p := gbaProbeSize r.1 r.2
  (p.1, gbaPowerDown p.2)

/-- The bus part of a re-check: power up, header, power down (`44_gba_rom.md` R328). -/
def gbaCheckRead (b : Bus) : List Byte × Bus :=
  let r := gbaHeaderRead b
  (r.1, gbaPowerDown r.2)

/-- `GbaIsLoaded()` past the power checks (`44_gba_rom.md` R328). -/
def gbaRecheck (s : State) : Word × State :=
  let r := gbaCheckRead s.bus
  let s := { s with bus := r.2 }
  if gbaLive r.1 s.gba = .same then (1, s) else (0, gbaClear s)

/-- `GbaIsLoaded()` (`44_gba_rom.md` R328). -/
def gbaIsLoaded (op : Instr) (s : State) : Except Fault (Word × State) :=
  if s.gba.loaded = false then .ok (0, s)
  else do
    gbaPowerReady op s
    .ok (gbaRecheck s)

/-- The bus part of a ROM dump of `n` bytes (`44_gba_rom.md` R331). -/
def gbaDump (n : Nat) (b : Bus) : List Byte × Bus :=
  let r := gbaRomRead 0 n (gbaPowerUp b)
  (r.1, gbaPowerDown r.2)

/-- `GbaReadRom()` (`44_gba_rom.md` R331). -/
def gbaReadRom (op : Instr) (s : State) : Except Fault (Word × State) :=
  if s.gba.loaded = false then .ok (0, s)
  else do
    needBuf s.gba.romSize.toNat s
    gbaPowerReady op s
    .ok (intoBuffer s.gba.romSize.toNat (gbaDump s.gba.romSize.toNat s.bus) s)

/-! ## The GBA save engine -/

/-- `SaveRead` of `n` addresses from `a` up. -/
def saveReadRange (a n : Nat) (b : Bus) : List Byte × Bus :=
  gather n (fun k => saveRead (BitVec.ofNat 16 (a + k))) b

/-- A list of `SaveWrite`s, in order. -/
def saveWrites (ws : List (Half × Byte)) (b : Bus) : Bus := ws.foldl (fun b w => saveWrite w.1 w.2 b) b

/-- A string of bits clocked out, first bit first. -/
def eepSend (bits : List Bool) (b : Bus) : Bus := bits.foldl (fun b v => eepOut v b) b

/-- `EepReadRow(frm, r)` (`45_gba_save.md` R376). -/
def eepReadRow (frm : Framing) (row : Nat) (b : Bus) : List Byte × Bus :=
  let b := eepTurn (eepSend (eepReadRequest frm row) (eepBegin b))
  let nibble := gather 4 (fun _ => eepIn) b
  let r := gather 64 (fun _ => eepIn) nibble.2
  (bytesOfBits 8 r.1, eepEnd r.2)

/-- `EepWriteRow(frm, r, row)` (`45_gba_save.md` R378, R379). -/
def eepWriteRow (frm : Framing) (row : Nat) (data : List Byte) (b : Bus) : Bus :=
  delay .eepWrite (eepEnd (eepSend (eepWriteRequest frm row data) (eepBegin b)))

/-- `FlashId()`: manufacturer and device (`45_gba_save.md` R384). -/
def flashId (b : Bus) : (Byte × Byte) × Bus :=
  let mfr := saveRead 0x0000 (saveWrites (flashUnlock ++ [(0x5555, 0x90)]) b)
  let dev := saveRead 0x0001 mfr.2
  ((mfr.1, dev.1), saveWrites (flashUnlock ++ [(0x5555, 0xF0)]) dev.2)

/-- `FlashBank(b)` (`45_gba_save.md` R386). -/
def flashBank (bank : Bool) (b : Bus) : Bus :=
  saveWrites (flashUnlock ++ [(0x5555, 0xB0), (0x0000, if bank then 0x01 else 0x00)]) b

/-- `FlashErase(a)` (`45_gba_save.md` R388). -/
def flashErase (a : Half) (b : Bus) : Bus :=
  delay .flashErase
    (saveWrites (flashUnlock ++ [(0x5555, 0x80)] ++ flashUnlock ++ [(eraseSector a, 0x30)]) b)

/-- `FlashProg(a, d)` (`45_gba_save.md` R390). -/
def flashProg (a : Half) (d : Byte) (b : Bus) : Bus :=
  delay .flashProg (saveWrites (flashUnlock ++ [(0x5555, 0xA0), (a, d)]) b)

/-- `FlashProg128(s, data)` (`45_gba_save.md` R392). -/
def flashProg128 (sector : Half) (data : List Byte) (b : Bus) : Bus :=
  delay .flashAtmel
    (forBytes (fun k v => saveWrite (sector + BitVec.ofNat 16 k) v) 0 data
      (saveWrites (flashUnlock ++ [(0x5555, 0xA0)]) b))

/-- `EepProbe()` (`45_gba_save.md` R356). -/
def eepProbe (b : Bus) : Option SaveType × Bus :=
  let r := gather Config.eepProbeRows (fun row => eepReadRow .k64 row) b
  (eepVerdict r.1.flatten, r.2)

/-- The bytes of the presence windows (`45_gba_save.md` R358). -/
def presenceRead (b : Bus) : List Byte × Bus :=
  let r := gather Config.presWindows
    (fun k => saveReadRange (k * (Config.presSpan / Config.presWindows)) Config.presWinLen) b
  (r.1.flatten, r.2)

/-- `SavePresent()` (`45_gba_save.md` R358). -/
def savePresent (b : Bus) : Bool × Bus :=
  let r := presenceRead b
  (!outsideBand Config.lenPresence (popcount r.1) (8 * (Config.presWindows * Config.presWinLen)), r.2)

/-- `SramProbe()` (`45_gba_save.md` R359). -/
def sramProbe (b : Bus) : Bool × Bus :=
  let o := saveRead 0x0000 b
  let r1 := saveRead 0x0000 (saveWrite 0x0000 (~~~o.1) o.2)
  let r2 := saveRead 0x0000 (saveWrite 0x0000 o.1 r1.2)
  (r1.1 != o.1 && r2.1 == o.1, r2.2)

/-- `SramSize()` (`45_gba_save.md` R360). -/
def sramSize (b : Bus) : SaveType × Bus :=
  let x := saveReadRange 0 Config.saveWrapSample b
  let y := saveReadRange 0x8000 Config.saveWrapSample x.2
  (if agrees Config.lenSram (sampleSame x.1 y.1) (8 * Config.saveWrapSample) then .sram256k else .sram512k, y.2)

/-- `FlashFallback()` (`45_gba_save.md` R365). -/
def flashFallback (b : Bus) : SaveType × Bus :=
  let x := saveReadRange 0 Config.saveWrapSample b
  let y := saveReadRange 0 Config.saveWrapSample (flashBank true x.2)
  (if agrees Config.lenFlash (sampleSame x.1 y.1) (8 * Config.saveWrapSample) then .flash512k else .flash1m,
    flashBank false y.2)

/-- The flash branch of a classification: the table, else the fallback (`45_gba_save.md` R355, R365). -/
def classifyFlash (b : Bus) : Classified × Bus :=
  let id := flashId b
  match flashTable id.1.1 id.1.2 with
  | some t => ({ kind := t, mfr := id.1.1, dev := id.1.2 }, id.2)
  | none =>
    let f := flashFallback id.2
    ({ kind := f.1, mfr := id.1.1, dev := id.1.2 }, f.2)

/-- The SRAM and flash branches of a classification (`45_gba_save.md` R355). -/
def classifyParallel (b : Bus) : Classified × Bus :=
  let p := savePresent b
  if p.1 then
    let sram := sramProbe p.2
    if sram.1 then
      let z := sramSize sram.2
      ({ kind := z.1, mfr := 0, dev := 0 }, z.2)
    else classifyFlash sram.2
  else ({ kind := .unknown, mfr := 0, dev := 0 }, p.2)

/-- The probes of a classification in their order (`45_gba_save.md` R355, R366). -/
def classifyPowered (b : Bus) : Classified × Bus :=
  let e := eepProbe b
  match e.1 with
  | some t => ({ kind := t, mfr := 0, dev := 0 }, e.2)
  | none => classifyParallel e.2

/-- `GbaClassify()` (`45_gba_save.md` R355). -/
def gbaClassify (b : Bus) : Classified × Bus :=
  let r := classifyPowered (gbaPowerUp b)
  (r.1, gbaPowerDown r.2)

/-- `GbaLoadHeader()` (`44_gba_rom.md` R320, R322, R323). -/
def gbaLoadHeader (s : State) : Word × State :=
  let r := gbaHeaderRead s.bus
  if gbaChecksumOk r.1 then
    let p := gbaProbeSize r.1 r.2
    let c := gbaClassify (gbaPowerDown p.2)
    (1, { s with bus := c.2, gba := gbaSessionOf r.1 p.1 c.1 })
  else (0, gbaClear { s with bus := gbaPowerDown r.2 })

/-- Byte `a` of a flash save read; bank 1 is selected at `0x10000` (`45_gba_save.md` R396). -/
def flashReadAt (a : Nat) (b : Bus) : Byte × Bus :=
  saveRead (BitVec.ofNat 16 a) (if a = 0x10000 then flashBank true b else b)

/-- Bank 0 selected again after data that spans two banks (`45_gba_save.md` R396, R400). -/
def flashHome (sz : Nat) (b : Bus) : Bus := if 0x10000 < sz then flashBank false b else b

/-- The bytes of a save, by its type (`45_gba_save.md` R396). -/
def saveImageRead (t : SaveType) (sz : Nat) (b : Bus) : List Byte × Bus :=
  match t with
  | .eeprom4k | .eeprom64k =>
    let r := gather (sz / 8) (fun row => eepReadRow (framingFor t) row) b
    (r.1.flatten, r.2)
  | .sram256k | .sram512k => saveReadRange 0 sz b
  | .flash512k | .flash1m =>
    let r := gather sz flashReadAt b
    (r.1, flashHome sz r.2)
  | .unknown => ([], b)

/-- The bus part of a save read (`45_gba_save.md` R396). -/
def gbaSaveDump (t : SaveType) (sz : Nat) (b : Bus) : List Byte × Bus :=
  let r := saveImageRead t sz (gbaPowerUp b)
  (r.1, gbaPowerDown r.2)

/-- `GbaReadSave()` (`45_gba_save.md` R396). -/
def gbaReadSave (op : Instr) (s : State) : Except Fault (Word × State) :=
  if s.gba.loaded = false ∨ s.gba.saveType = .unknown then .ok (0, s)
  else do
    needBuf s.gba.saveSize.toNat s
    gbaPowerReady op s
    .ok (intoBuffer s.gba.saveSize.toNat (gbaSaveDump s.gba.saveType s.gba.saveSize.toNat s.bus) s)

/-- Sector `i` of an Atmel flash save written (`45_gba_save.md` R400). -/
def atmelSectorWrite (data : List Byte) (i : Nat) (b : Bus) : Bus :=
  flashProg128 (BitVec.ofNat 16 (128 * i)) (slice (128 * i) 128 data)
    (if 128 * i = 0x10000 then flashBank true b else b)

/-- Byte `a` of any other flash save written, its sector erased first (`45_gba_save.md` R400). -/
def flashByteWrite (a : Nat) (v : Byte) (b : Bus) : Bus :=
  let b := if a = 0x10000 then flashBank true b else b
  let b := if a % 4096 = 0 then flashErase (BitVec.ofNat 16 a) b else b
  flashProg (BitVec.ofNat 16 a) v b

/-- The bytes of a save written, by its type and manufacturer (`45_gba_save.md` R400). -/
def saveImageWrite (t : SaveType) (mfr : Byte) (data : List Byte) (b : Bus) : Bus :=
  let sz := data.length
  match t with
  | .eeprom4k | .eeprom64k =>
    iter (sz / 8) (fun row => eepWriteRow (framingFor t) row (slice (8 * row) 8 data)) b
  | .sram256k | .sram512k => forBytes (fun a v => saveWrite (BitVec.ofNat 16 a) v) 0 data b
  | .flash512k | .flash1m =>
    if mfr = atmel then flashHome sz (iter (sz / 128) (atmelSectorWrite data) b)
    else flashHome sz (forBytes flashByteWrite 0 data b)
  | .unknown => b

/-- The bus part of a save write (`45_gba_save.md` R400). -/
def gbaSaveStore (t : SaveType) (mfr : Byte) (data : List Byte) (b : Bus) : Bus :=
  gbaPowerDown (saveImageWrite t mfr data (gbaPowerUp b))

/-- `GbaWriteSave()` (`45_gba_save.md` R400, R403). -/
def gbaWriteSave (op : Instr) (s : State) : Except Fault (Word × State) :=
  if s.gba.loaded = false ∨ s.gba.saveType = .unknown then .ok (0, s)
  else do
    needBuf s.gba.saveSize.toNat s
    gbaPowerReady op s
    let data := s.hbuf.readBlock s.me.bufp.toNat s.gba.saveSize.toNat
    .ok (countWord s.gba.saveSize.toNat,
      { s with bus := gbaSaveStore s.gba.saveType s.gba.flashMfr data s.bus })

/-! ## The dispatcher -/

/-- `GBX_LOADHDR` between `Lock()` and `Unlock()` (`46_dispatcher.md` R421 to R423). -/
def gbxLoad (op : Instr) (s : State) : Except Fault (Word × State) := do
  strobeReady op s
  let d := pinRead .det s.bus
  let s := { s with bus := d.2 }
  if d.1 = Config.detGbaLevel then do
    gbaPowerReady op (gbClear s)
    let r := gbaLoadHeader (gbClear s)
    .ok (if r.1 = 1 then platformCode .gba else platformCode .none, r.2)
  else do
    gbPowerReady op (gbaClear s)
    let r := gbLoadHeader (gbaClear s)
    .ok (if r.1 = 1 then platformCode .gb else platformCode .none, r.2)

/-- A delegation to the engine that holds the session; 0 where none does (`46_dispatcher.md` R425, R432, R434). -/
def delegate (gb gba : State → Except Fault (Word × State)) (s : State) : Except Fault (Word × State) :=
  match active s with
  | .gb => gb s
  | .gba => gba s
  | .none => .ok (0, s)

/-- A getter that writes bytes at the agent's buffer and returns their number (`46_dispatcher.md` R428). -/
def bytesGetter (t : List Byte) (s : State) : Host.Outcome State Fault Refusal :=
  conclude do
    needBuf t.length s
    .ok (countWord t.length, { s with hbuf := s.hbuf.writeBlock s.me.bufp.toNat t })

/-- What a getter of text does with the active session's text, if there is one (`46_dispatcher.md` R428, R429). -/
def textOf (t : Option (List Byte)) (s : State) : Host.Outcome State Fault Refusal :=
  match t with
  | none => .next (finish 0 s)
  | some t => bytesGetter t s

/-- What a live verification decides: a result code with the session cleared, or the engine's own write
(`46_dispatcher.md` R436). -/
def writeAfter (v : Live) (clear : State → State) (write : State → Except Fault (Word × State)) (s : State) :
    Except Fault (Word × State) :=
  match v with
  | .absent => .ok (noCartridge, clear s)
  | .changed => .ok (cartridgeChanged, clear s)
  | .same => write s

/-- `GBX_WRITESAVE` between `Lock()` and `Unlock()` (`46_dispatcher.md` R436 to R438). -/
def gbxWrite (op : Instr) (s : State) : Except Fault (Word × State) :=
  match active s with
  | .none => .ok (cartridgeNotLoaded, s)
  | .gb => do
    gbPowerReady op s
    let r := gbCheckRead s.bus
    writeAfter (gbLive r.1 s.gb.title) gbClear (gbWriteSave op) { s with bus := r.2 }
  | .gba => do
    gbaPowerReady op s
    let r := gbaCheckRead s.bus
    writeAfter (gbaLive r.1 s.gba) gbaClear (gbaWriteSave op) { s with bus := r.2 }

/-! ## Shared forms -/

/-- An operation whose whole bus part is one expander primitive (`41_expander.md` R202 to R210). -/
def expanderOp {α : Type} (op : Instr) (s : State) (f : Bus → α × Bus) (v : α → Word) :
    Host.Outcome State Fault Refusal :=
  conclude do
    needInit op s
    busReady op s
    .ok (onBus s (f s.bus) v)

/-- A primitive that returns nothing, as one that returns the operation's 0 (`30_encoding.md` R125). -/
def silently (f : Bus → Bus) (b : Bus) : Word × Bus := (0, f b)

/-- An operation inside an open continuous read (`41_expander.md` R213, R214). -/
def streamOp {α : Type} (op : Instr) (s : State) (f : Bus → α × Bus) (v : α → Word) :
    Host.Outcome State Fault Refusal :=
  conclude do
    needInit op s
    streamReady op s
    .ok (onBus s (f s.bus) v)

/-- A frame or request run by itself: what was received goes to `rx`, the result is 0 (R125). -/
def wireOp (op : Instr) (s : State) (f : Bus → List Byte × Bus) : Host.Outcome State Fault Refusal :=
  guarded op s <| conclude do
    needInit op s
    busReady op s
    let r := f s.bus
    .ok (0, { s with bus := r.2, rx := r.1 })

/-- A frame sent with `SPI_CS0` asserted for exactly its bytes (`41_expander.md` R216). -/
def sendFrame (bytes : List Byte) (b : Bus) : List Byte × Bus := expFrame bytes (trace (.frame bytes) b)

end Sys2Proof.Machine
end

