-- ==== Sys2Proof/Laws/State.lean ====
section
/-! SUPPORT. One lemma per field per update, so that no later proof unfolds a record update. -/

namespace Sys2Proof.Machine

variable (b : Bus) (s : State)

@[simp] theorem record_pins (e : BusEvent) : (record e b).pins = b.pins := (rfl)
@[simp] theorem record_exp (e : BusEvent) : (record e b).exp = b.exp := (rfl)
@[simp] theorem record_crdActive (e : BusEvent) : (record e b).crdActive = b.crdActive := (rfl)
@[simp] theorem record_crdChip (e : BusEvent) : (record e b).crdChip = b.crdChip := (rfl)
@[simp] theorem record_pwrGb (e : BusEvent) : (record e b).pwrGb = b.pwrGb := (rfl)
@[simp] theorem record_pwrGba (e : BusEvent) : (record e b).pwrGba = b.pwrGba := (rfl)
@[simp] theorem record_ownGb (e : BusEvent) : (record e b).ownGb = b.ownGb := (rfl)
@[simp] theorem record_ownGba (e : BusEvent) : (record e b).ownGba = b.ownGba := (rfl)
@[simp] theorem record_mbcw (e : BusEvent) : (record e b).mbcw = b.mbcw := (rfl)
@[simp] theorem record_wire (e : BusEvent) : (record e b).wire = b.wire := (rfl)
@[simp] theorem record_tick (e : BusEvent) : (record e b).tick = b.tick := (rfl)
@[simp] theorem record_hist (e : BusEvent) : (record e b).hist = e :: b.hist := (rfl)
@[simp] theorem record_env (e : BusEvent) : (record e b).env = envAfter e b := (rfl)

@[simp] theorem trace_pins (w : WireEvent) : (trace w b).pins = b.pins := (rfl)
@[simp] theorem trace_exp (w : WireEvent) : (trace w b).exp = b.exp := (rfl)
@[simp] theorem trace_crdActive (w : WireEvent) : (trace w b).crdActive = b.crdActive := (rfl)
@[simp] theorem trace_crdChip (w : WireEvent) : (trace w b).crdChip = b.crdChip := (rfl)
@[simp] theorem trace_pwrGb (w : WireEvent) : (trace w b).pwrGb = b.pwrGb := (rfl)
@[simp] theorem trace_pwrGba (w : WireEvent) : (trace w b).pwrGba = b.pwrGba := (rfl)
@[simp] theorem trace_ownGb (w : WireEvent) : (trace w b).ownGb = b.ownGb := (rfl)
@[simp] theorem trace_ownGba (w : WireEvent) : (trace w b).ownGba = b.ownGba := (rfl)
@[simp] theorem trace_mbcw (w : WireEvent) : (trace w b).mbcw = b.mbcw := (rfl)
@[simp] theorem trace_hist (w : WireEvent) : (trace w b).hist = b.hist := (rfl)
@[simp] theorem trace_tick (w : WireEvent) : (trace w b).tick = b.tick := (rfl)
@[simp] theorem trace_env (w : WireEvent) : (trace w b).env = b.env := (rfl)
@[simp] theorem trace_wire (w : WireEvent) : (trace w b).wire = w :: b.wire := (rfl)

@[simp] theorem busyWait_pins (t : DelayName) : (busyWait t b).pins = b.pins := (rfl)
@[simp] theorem busyWait_exp (t : DelayName) : (busyWait t b).exp = b.exp := (rfl)
@[simp] theorem busyWait_crdActive (t : DelayName) : (busyWait t b).crdActive = b.crdActive := (rfl)
@[simp] theorem busyWait_crdChip (t : DelayName) : (busyWait t b).crdChip = b.crdChip := (rfl)
@[simp] theorem busyWait_pwrGb (t : DelayName) : (busyWait t b).pwrGb = b.pwrGb := (rfl)
@[simp] theorem busyWait_pwrGba (t : DelayName) : (busyWait t b).pwrGba = b.pwrGba := (rfl)
@[simp] theorem busyWait_ownGb (t : DelayName) : (busyWait t b).ownGb = b.ownGb := (rfl)
@[simp] theorem busyWait_ownGba (t : DelayName) : (busyWait t b).ownGba = b.ownGba := (rfl)
@[simp] theorem busyWait_mbcw (t : DelayName) : (busyWait t b).mbcw = b.mbcw := (rfl)
@[simp] theorem busyWait_hist (t : DelayName) : (busyWait t b).hist = b.hist := (rfl)
@[simp] theorem busyWait_tick (t : DelayName) : (busyWait t b).tick = b.tick := (rfl)
@[simp] theorem busyWait_env (t : DelayName) : (busyWait t b).env = b.env := (rfl)
@[simp] theorem busyWait_wire (t : DelayName) : (busyWait t b).wire = .wait t :: b.wire := (rfl)

@[simp] theorem delay_pins (t : DelayName) : (delay t b).pins = b.pins := (rfl)
@[simp] theorem delay_exp (t : DelayName) : (delay t b).exp = b.exp := (rfl)
@[simp] theorem delay_crdActive (t : DelayName) : (delay t b).crdActive = b.crdActive := (rfl)
@[simp] theorem delay_crdChip (t : DelayName) : (delay t b).crdChip = b.crdChip := (rfl)
@[simp] theorem delay_pwrGb (t : DelayName) : (delay t b).pwrGb = b.pwrGb := (rfl)
@[simp] theorem delay_pwrGba (t : DelayName) : (delay t b).pwrGba = b.pwrGba := (rfl)
@[simp] theorem delay_ownGb (t : DelayName) : (delay t b).ownGb = b.ownGb := (rfl)
@[simp] theorem delay_ownGba (t : DelayName) : (delay t b).ownGba = b.ownGba := (rfl)
@[simp] theorem delay_mbcw (t : DelayName) : (delay t b).mbcw = b.mbcw := (rfl)
@[simp] theorem delay_tick (t : DelayName) : (delay t b).tick = b.tick := (rfl)
@[simp] theorem delay_hist (t : DelayName) : (delay t b).hist = .delay t :: b.hist := (rfl)
@[simp] theorem delay_wire (t : DelayName) : (delay t b).wire = .wait t :: b.wire := (rfl)

@[simp] theorem answer_pins (q : Query) : ((answer q b).2).pins = b.pins := (rfl)
@[simp] theorem answer_exp (q : Query) : ((answer q b).2).exp = b.exp := (rfl)
@[simp] theorem answer_crdActive (q : Query) : ((answer q b).2).crdActive = b.crdActive := (rfl)
@[simp] theorem answer_crdChip (q : Query) : ((answer q b).2).crdChip = b.crdChip := (rfl)
@[simp] theorem answer_pwrGb (q : Query) : ((answer q b).2).pwrGb = b.pwrGb := (rfl)
@[simp] theorem answer_pwrGba (q : Query) : ((answer q b).2).pwrGba = b.pwrGba := (rfl)
@[simp] theorem answer_ownGb (q : Query) : ((answer q b).2).ownGb = b.ownGb := (rfl)
@[simp] theorem answer_ownGba (q : Query) : ((answer q b).2).ownGba = b.ownGba := (rfl)
@[simp] theorem answer_mbcw (q : Query) : ((answer q b).2).mbcw = b.mbcw := (rfl)
@[simp] theorem answer_hist (q : Query) : ((answer q b).2).hist = b.hist := (rfl)
@[simp] theorem answer_wire (q : Query) : ((answer q b).2).wire = b.wire := (rfl)
@[simp] theorem answer_env (q : Query) : ((answer q b).2).env = b.env := (rfl)
@[simp] theorem answer_tick (q : Query) : ((answer q b).2).tick = b.tick + 1 := (rfl)

@[simp] theorem pinWrite_exp (p : Pin) (v : Bool) : (pinWrite p v b).exp = b.exp := (rfl)
@[simp] theorem pinWrite_crdActive (p : Pin) (v : Bool) : (pinWrite p v b).crdActive = b.crdActive := (rfl)
@[simp] theorem pinWrite_crdChip (p : Pin) (v : Bool) : (pinWrite p v b).crdChip = b.crdChip := (rfl)
@[simp] theorem pinWrite_pwrGb (p : Pin) (v : Bool) : (pinWrite p v b).pwrGb = b.pwrGb := (rfl)
@[simp] theorem pinWrite_pwrGba (p : Pin) (v : Bool) : (pinWrite p v b).pwrGba = b.pwrGba := (rfl)
@[simp] theorem pinWrite_ownGb (p : Pin) (v : Bool) : (pinWrite p v b).ownGb = b.ownGb := (rfl)
@[simp] theorem pinWrite_ownGba (p : Pin) (v : Bool) : (pinWrite p v b).ownGba = b.ownGba := (rfl)
@[simp] theorem pinWrite_mbcw (p : Pin) (v : Bool) : (pinWrite p v b).mbcw = b.mbcw := (rfl)
@[simp] theorem pinWrite_hist (p : Pin) (v : Bool) : (pinWrite p v b).hist = b.hist := (rfl)
@[simp] theorem pinWrite_tick (p : Pin) (v : Bool) : (pinWrite p v b).tick = b.tick := (rfl)
@[simp] theorem pinWrite_env (p : Pin) (v : Bool) : (pinWrite p v b).env = b.env := (rfl)
@[simp] theorem pinWrite_pins (p : Pin) (v : Bool) : (pinWrite p v b).pins = setPin p { getPin p b.pins with out := v } b.pins := (rfl)
@[simp] theorem pinWrite_wire (p : Pin) (v : Bool) : (pinWrite p v b).wire = .pinLevel p v :: b.wire := (rfl)

@[simp] theorem pinDirect_exp (p : Pin) (d : PinDir) : (pinDirect p d b).exp = b.exp := (rfl)
@[simp] theorem pinDirect_crdActive (p : Pin) (d : PinDir) : (pinDirect p d b).crdActive = b.crdActive := (rfl)
@[simp] theorem pinDirect_crdChip (p : Pin) (d : PinDir) : (pinDirect p d b).crdChip = b.crdChip := (rfl)
@[simp] theorem pinDirect_pwrGb (p : Pin) (d : PinDir) : (pinDirect p d b).pwrGb = b.pwrGb := (rfl)
@[simp] theorem pinDirect_pwrGba (p : Pin) (d : PinDir) : (pinDirect p d b).pwrGba = b.pwrGba := (rfl)
@[simp] theorem pinDirect_ownGb (p : Pin) (d : PinDir) : (pinDirect p d b).ownGb = b.ownGb := (rfl)
@[simp] theorem pinDirect_ownGba (p : Pin) (d : PinDir) : (pinDirect p d b).ownGba = b.ownGba := (rfl)
@[simp] theorem pinDirect_mbcw (p : Pin) (d : PinDir) : (pinDirect p d b).mbcw = b.mbcw := (rfl)
@[simp] theorem pinDirect_hist (p : Pin) (d : PinDir) : (pinDirect p d b).hist = b.hist := (rfl)
@[simp] theorem pinDirect_tick (p : Pin) (d : PinDir) : (pinDirect p d b).tick = b.tick := (rfl)
@[simp] theorem pinDirect_env (p : Pin) (d : PinDir) : (pinDirect p d b).env = b.env := (rfl)
@[simp] theorem pinDirect_pins (p : Pin) (d : PinDir) : (pinDirect p d b).pins = setPin p { getPin p b.pins with dir := d } b.pins := (rfl)
@[simp] theorem pinDirect_wire (p : Pin) (d : PinDir) : (pinDirect p d b).wire = .pinDir p d :: b.wire := (rfl)

@[simp] theorem writeReg_pins (k : RegKind) (p : Port) (v : Byte) : (writeReg k p v b).pins = b.pins := (rfl)
@[simp] theorem writeReg_crdActive (k : RegKind) (p : Port) (v : Byte) : (writeReg k p v b).crdActive = b.crdActive := (rfl)
@[simp] theorem writeReg_crdChip (k : RegKind) (p : Port) (v : Byte) : (writeReg k p v b).crdChip = b.crdChip := (rfl)
@[simp] theorem writeReg_pwrGb (k : RegKind) (p : Port) (v : Byte) : (writeReg k p v b).pwrGb = b.pwrGb := (rfl)
@[simp] theorem writeReg_pwrGba (k : RegKind) (p : Port) (v : Byte) : (writeReg k p v b).pwrGba = b.pwrGba := (rfl)
@[simp] theorem writeReg_ownGb (k : RegKind) (p : Port) (v : Byte) : (writeReg k p v b).ownGb = b.ownGb := (rfl)
@[simp] theorem writeReg_ownGba (k : RegKind) (p : Port) (v : Byte) : (writeReg k p v b).ownGba = b.ownGba := (rfl)
@[simp] theorem writeReg_mbcw (k : RegKind) (p : Port) (v : Byte) : (writeReg k p v b).mbcw = b.mbcw := (rfl)
@[simp] theorem writeReg_hist (k : RegKind) (p : Port) (v : Byte) : (writeReg k p v b).hist = b.hist := (rfl)
@[simp] theorem writeReg_wire (k : RegKind) (p : Port) (v : Byte) : (writeReg k p v b).wire = b.wire := (rfl)
@[simp] theorem writeReg_tick (k : RegKind) (p : Port) (v : Byte) : (writeReg k p v b).tick = b.tick := (rfl)
@[simp] theorem writeReg_env (k : RegKind) (p : Port) (v : Byte) : (writeReg k p v b).env = b.env := (rfl)
@[simp] theorem writeReg_exp (k : RegKind) (p : Port) (v : Byte) : (writeReg k p v b).exp = setPort p (setReg k v (getPort p b.exp)) b.exp := (rfl)

@[simp] theorem portWrite_pins (k : RegKind) (p : Port) (v : Byte) : (portWrite k p v b).pins = b.pins := (rfl)
@[simp] theorem portWrite_crdActive (k : RegKind) (p : Port) (v : Byte) : (portWrite k p v b).crdActive = b.crdActive := (rfl)
@[simp] theorem portWrite_crdChip (k : RegKind) (p : Port) (v : Byte) : (portWrite k p v b).crdChip = b.crdChip := (rfl)
@[simp] theorem portWrite_pwrGb (k : RegKind) (p : Port) (v : Byte) : (portWrite k p v b).pwrGb = b.pwrGb := (rfl)
@[simp] theorem portWrite_pwrGba (k : RegKind) (p : Port) (v : Byte) : (portWrite k p v b).pwrGba = b.pwrGba := (rfl)
@[simp] theorem portWrite_ownGb (k : RegKind) (p : Port) (v : Byte) : (portWrite k p v b).ownGb = b.ownGb := (rfl)
@[simp] theorem portWrite_ownGba (k : RegKind) (p : Port) (v : Byte) : (portWrite k p v b).ownGba = b.ownGba := (rfl)
@[simp] theorem portWrite_mbcw (k : RegKind) (p : Port) (v : Byte) : (portWrite k p v b).mbcw = b.mbcw := (rfl)
@[simp] theorem portWrite_hist (k : RegKind) (p : Port) (v : Byte) : (portWrite k p v b).hist = b.hist := (rfl)
@[simp] theorem portWrite_tick (k : RegKind) (p : Port) (v : Byte) : (portWrite k p v b).tick = b.tick := (rfl)
@[simp] theorem portWrite_env (k : RegKind) (p : Port) (v : Byte) : (portWrite k p v b).env = b.env := (rfl)
@[simp] theorem portWrite_exp (k : RegKind) (p : Port) (v : Byte) : (portWrite k p v b).exp = setPort p (setReg k v (getPort p b.exp)) b.exp := (rfl)
@[simp] theorem portWrite_wire (k : RegKind) (p : Port) (v : Byte) : (portWrite k p v b).wire = .frame [devOpcode (portChip p) false, regAddr k (isSecond p), v] :: b.wire := (rfl)

@[simp] theorem chipWrite_pins (k : RegKind) (c : Chip) (v w : Byte) : (chipWrite k c v w b).pins = b.pins := (rfl)
@[simp] theorem chipWrite_crdActive (k : RegKind) (c : Chip) (v w : Byte) : (chipWrite k c v w b).crdActive = b.crdActive := (rfl)
@[simp] theorem chipWrite_crdChip (k : RegKind) (c : Chip) (v w : Byte) : (chipWrite k c v w b).crdChip = b.crdChip := (rfl)
@[simp] theorem chipWrite_pwrGb (k : RegKind) (c : Chip) (v w : Byte) : (chipWrite k c v w b).pwrGb = b.pwrGb := (rfl)
@[simp] theorem chipWrite_pwrGba (k : RegKind) (c : Chip) (v w : Byte) : (chipWrite k c v w b).pwrGba = b.pwrGba := (rfl)
@[simp] theorem chipWrite_ownGb (k : RegKind) (c : Chip) (v w : Byte) : (chipWrite k c v w b).ownGb = b.ownGb := (rfl)
@[simp] theorem chipWrite_ownGba (k : RegKind) (c : Chip) (v w : Byte) : (chipWrite k c v w b).ownGba = b.ownGba := (rfl)
@[simp] theorem chipWrite_mbcw (k : RegKind) (c : Chip) (v w : Byte) : (chipWrite k c v w b).mbcw = b.mbcw := (rfl)
@[simp] theorem chipWrite_hist (k : RegKind) (c : Chip) (v w : Byte) : (chipWrite k c v w b).hist = b.hist := (rfl)
@[simp] theorem chipWrite_tick (k : RegKind) (c : Chip) (v w : Byte) : (chipWrite k c v w b).tick = b.tick := (rfl)
@[simp] theorem chipWrite_env (k : RegKind) (c : Chip) (v w : Byte) : (chipWrite k c v w b).env = b.env := (rfl)
@[simp] theorem chipWrite_wire (k : RegKind) (c : Chip) (v w : Byte) : (chipWrite k c v w b).wire = .frame [devOpcode c false, regAddr k false, v, w] :: b.wire := (rfl)

@[simp] theorem expDir_pins (p : Port) (v : Byte) : (expDir p v b).pins = b.pins := (rfl)
@[simp] theorem expDir_crdActive (p : Port) (v : Byte) : (expDir p v b).crdActive = b.crdActive := (rfl)
@[simp] theorem expDir_crdChip (p : Port) (v : Byte) : (expDir p v b).crdChip = b.crdChip := (rfl)
@[simp] theorem expDir_pwrGb (p : Port) (v : Byte) : (expDir p v b).pwrGb = b.pwrGb := (rfl)
@[simp] theorem expDir_pwrGba (p : Port) (v : Byte) : (expDir p v b).pwrGba = b.pwrGba := (rfl)
@[simp] theorem expDir_ownGb (p : Port) (v : Byte) : (expDir p v b).ownGb = b.ownGb := (rfl)
@[simp] theorem expDir_ownGba (p : Port) (v : Byte) : (expDir p v b).ownGba = b.ownGba := (rfl)
@[simp] theorem expDir_mbcw (p : Port) (v : Byte) : (expDir p v b).mbcw = b.mbcw := (rfl)
@[simp] theorem expDir_hist (p : Port) (v : Byte) : (expDir p v b).hist = b.hist := (rfl)
@[simp] theorem expDir_tick (p : Port) (v : Byte) : (expDir p v b).tick = b.tick := (rfl)
@[simp] theorem expDir_env (p : Port) (v : Byte) : (expDir p v b).env = b.env := (rfl)

@[simp] theorem expPull_pins (p : Port) (v : Byte) : (expPull p v b).pins = b.pins := (rfl)
@[simp] theorem expPull_crdActive (p : Port) (v : Byte) : (expPull p v b).crdActive = b.crdActive := (rfl)
@[simp] theorem expPull_crdChip (p : Port) (v : Byte) : (expPull p v b).crdChip = b.crdChip := (rfl)
@[simp] theorem expPull_pwrGb (p : Port) (v : Byte) : (expPull p v b).pwrGb = b.pwrGb := (rfl)
@[simp] theorem expPull_pwrGba (p : Port) (v : Byte) : (expPull p v b).pwrGba = b.pwrGba := (rfl)
@[simp] theorem expPull_ownGb (p : Port) (v : Byte) : (expPull p v b).ownGb = b.ownGb := (rfl)
@[simp] theorem expPull_ownGba (p : Port) (v : Byte) : (expPull p v b).ownGba = b.ownGba := (rfl)
@[simp] theorem expPull_mbcw (p : Port) (v : Byte) : (expPull p v b).mbcw = b.mbcw := (rfl)
@[simp] theorem expPull_hist (p : Port) (v : Byte) : (expPull p v b).hist = b.hist := (rfl)
@[simp] theorem expPull_tick (p : Port) (v : Byte) : (expPull p v b).tick = b.tick := (rfl)
@[simp] theorem expPull_env (p : Port) (v : Byte) : (expPull p v b).env = b.env := (rfl)

@[simp] theorem expWrite_pins (p : Port) (v : Byte) : (expWrite p v b).pins = b.pins := (rfl)
@[simp] theorem expWrite_crdActive (p : Port) (v : Byte) : (expWrite p v b).crdActive = b.crdActive := (rfl)
@[simp] theorem expWrite_crdChip (p : Port) (v : Byte) : (expWrite p v b).crdChip = b.crdChip := (rfl)
@[simp] theorem expWrite_pwrGb (p : Port) (v : Byte) : (expWrite p v b).pwrGb = b.pwrGb := (rfl)
@[simp] theorem expWrite_pwrGba (p : Port) (v : Byte) : (expWrite p v b).pwrGba = b.pwrGba := (rfl)
@[simp] theorem expWrite_ownGb (p : Port) (v : Byte) : (expWrite p v b).ownGb = b.ownGb := (rfl)
@[simp] theorem expWrite_ownGba (p : Port) (v : Byte) : (expWrite p v b).ownGba = b.ownGba := (rfl)
@[simp] theorem expWrite_mbcw (p : Port) (v : Byte) : (expWrite p v b).mbcw = b.mbcw := (rfl)
@[simp] theorem expWrite_hist (p : Port) (v : Byte) : (expWrite p v b).hist = b.hist := (rfl)
@[simp] theorem expWrite_tick (p : Port) (v : Byte) : (expWrite p v b).tick = b.tick := (rfl)
@[simp] theorem expWrite_env (p : Port) (v : Byte) : (expWrite p v b).env = b.env := (rfl)

@[simp] theorem expDir2_pins (c : Chip) (v w : Byte) : (expDir2 c v w b).pins = b.pins := (rfl)
@[simp] theorem expDir2_crdActive (c : Chip) (v w : Byte) : (expDir2 c v w b).crdActive = b.crdActive := (rfl)
@[simp] theorem expDir2_crdChip (c : Chip) (v w : Byte) : (expDir2 c v w b).crdChip = b.crdChip := (rfl)
@[simp] theorem expDir2_pwrGb (c : Chip) (v w : Byte) : (expDir2 c v w b).pwrGb = b.pwrGb := (rfl)
@[simp] theorem expDir2_pwrGba (c : Chip) (v w : Byte) : (expDir2 c v w b).pwrGba = b.pwrGba := (rfl)
@[simp] theorem expDir2_ownGb (c : Chip) (v w : Byte) : (expDir2 c v w b).ownGb = b.ownGb := (rfl)
@[simp] theorem expDir2_ownGba (c : Chip) (v w : Byte) : (expDir2 c v w b).ownGba = b.ownGba := (rfl)
@[simp] theorem expDir2_mbcw (c : Chip) (v w : Byte) : (expDir2 c v w b).mbcw = b.mbcw := (rfl)
@[simp] theorem expDir2_hist (c : Chip) (v w : Byte) : (expDir2 c v w b).hist = b.hist := (rfl)
@[simp] theorem expDir2_tick (c : Chip) (v w : Byte) : (expDir2 c v w b).tick = b.tick := (rfl)
@[simp] theorem expDir2_env (c : Chip) (v w : Byte) : (expDir2 c v w b).env = b.env := (rfl)

@[simp] theorem expPull2_pins (c : Chip) (v w : Byte) : (expPull2 c v w b).pins = b.pins := (rfl)
@[simp] theorem expPull2_crdActive (c : Chip) (v w : Byte) : (expPull2 c v w b).crdActive = b.crdActive := (rfl)
@[simp] theorem expPull2_crdChip (c : Chip) (v w : Byte) : (expPull2 c v w b).crdChip = b.crdChip := (rfl)
@[simp] theorem expPull2_pwrGb (c : Chip) (v w : Byte) : (expPull2 c v w b).pwrGb = b.pwrGb := (rfl)
@[simp] theorem expPull2_pwrGba (c : Chip) (v w : Byte) : (expPull2 c v w b).pwrGba = b.pwrGba := (rfl)
@[simp] theorem expPull2_ownGb (c : Chip) (v w : Byte) : (expPull2 c v w b).ownGb = b.ownGb := (rfl)
@[simp] theorem expPull2_ownGba (c : Chip) (v w : Byte) : (expPull2 c v w b).ownGba = b.ownGba := (rfl)
@[simp] theorem expPull2_mbcw (c : Chip) (v w : Byte) : (expPull2 c v w b).mbcw = b.mbcw := (rfl)
@[simp] theorem expPull2_hist (c : Chip) (v w : Byte) : (expPull2 c v w b).hist = b.hist := (rfl)
@[simp] theorem expPull2_tick (c : Chip) (v w : Byte) : (expPull2 c v w b).tick = b.tick := (rfl)
@[simp] theorem expPull2_env (c : Chip) (v w : Byte) : (expPull2 c v w b).env = b.env := (rfl)

@[simp] theorem expWrite2_pins (c : Chip) (v w : Byte) : (expWrite2 c v w b).pins = b.pins := (rfl)
@[simp] theorem expWrite2_crdActive (c : Chip) (v w : Byte) : (expWrite2 c v w b).crdActive = b.crdActive := (rfl)
@[simp] theorem expWrite2_crdChip (c : Chip) (v w : Byte) : (expWrite2 c v w b).crdChip = b.crdChip := (rfl)
@[simp] theorem expWrite2_pwrGb (c : Chip) (v w : Byte) : (expWrite2 c v w b).pwrGb = b.pwrGb := (rfl)
@[simp] theorem expWrite2_pwrGba (c : Chip) (v w : Byte) : (expWrite2 c v w b).pwrGba = b.pwrGba := (rfl)
@[simp] theorem expWrite2_ownGb (c : Chip) (v w : Byte) : (expWrite2 c v w b).ownGb = b.ownGb := (rfl)
@[simp] theorem expWrite2_ownGba (c : Chip) (v w : Byte) : (expWrite2 c v w b).ownGba = b.ownGba := (rfl)
@[simp] theorem expWrite2_mbcw (c : Chip) (v w : Byte) : (expWrite2 c v w b).mbcw = b.mbcw := (rfl)
@[simp] theorem expWrite2_hist (c : Chip) (v w : Byte) : (expWrite2 c v w b).hist = b.hist := (rfl)
@[simp] theorem expWrite2_tick (c : Chip) (v w : Byte) : (expWrite2 c v w b).tick = b.tick := (rfl)
@[simp] theorem expWrite2_env (c : Chip) (v w : Byte) : (expWrite2 c v w b).env = b.env := (rfl)

@[simp] theorem samplePort_pins (q : Query) (p : Port) : ((samplePort q p b).2).pins = b.pins := (rfl)
@[simp] theorem samplePort_exp (q : Query) (p : Port) : ((samplePort q p b).2).exp = b.exp := (rfl)
@[simp] theorem samplePort_crdActive (q : Query) (p : Port) : ((samplePort q p b).2).crdActive = b.crdActive := (rfl)
@[simp] theorem samplePort_crdChip (q : Query) (p : Port) : ((samplePort q p b).2).crdChip = b.crdChip := (rfl)
@[simp] theorem samplePort_pwrGb (q : Query) (p : Port) : ((samplePort q p b).2).pwrGb = b.pwrGb := (rfl)
@[simp] theorem samplePort_pwrGba (q : Query) (p : Port) : ((samplePort q p b).2).pwrGba = b.pwrGba := (rfl)
@[simp] theorem samplePort_ownGb (q : Query) (p : Port) : ((samplePort q p b).2).ownGb = b.ownGb := (rfl)
@[simp] theorem samplePort_ownGba (q : Query) (p : Port) : ((samplePort q p b).2).ownGba = b.ownGba := (rfl)
@[simp] theorem samplePort_mbcw (q : Query) (p : Port) : ((samplePort q p b).2).mbcw = b.mbcw := (rfl)
@[simp] theorem samplePort_hist (q : Query) (p : Port) : ((samplePort q p b).2).hist = b.hist := (rfl)
@[simp] theorem samplePort_wire (q : Query) (p : Port) : ((samplePort q p b).2).wire = b.wire := (rfl)
@[simp] theorem samplePort_env (q : Query) (p : Port) : ((samplePort q p b).2).env = b.env := (rfl)

@[simp] theorem expReadAs_pins (q : Query) (p : Port) : ((expReadAs q p b).2).pins = b.pins := (rfl)
@[simp] theorem expReadAs_exp (q : Query) (p : Port) : ((expReadAs q p b).2).exp = b.exp := (rfl)
@[simp] theorem expReadAs_crdActive (q : Query) (p : Port) : ((expReadAs q p b).2).crdActive = b.crdActive := (rfl)
@[simp] theorem expReadAs_crdChip (q : Query) (p : Port) : ((expReadAs q p b).2).crdChip = b.crdChip := (rfl)
@[simp] theorem expReadAs_pwrGb (q : Query) (p : Port) : ((expReadAs q p b).2).pwrGb = b.pwrGb := (rfl)
@[simp] theorem expReadAs_pwrGba (q : Query) (p : Port) : ((expReadAs q p b).2).pwrGba = b.pwrGba := (rfl)
@[simp] theorem expReadAs_ownGb (q : Query) (p : Port) : ((expReadAs q p b).2).ownGb = b.ownGb := (rfl)
@[simp] theorem expReadAs_ownGba (q : Query) (p : Port) : ((expReadAs q p b).2).ownGba = b.ownGba := (rfl)
@[simp] theorem expReadAs_mbcw (q : Query) (p : Port) : ((expReadAs q p b).2).mbcw = b.mbcw := (rfl)
@[simp] theorem expReadAs_hist (q : Query) (p : Port) : ((expReadAs q p b).2).hist = b.hist := (rfl)
@[simp] theorem expReadAs_env (q : Query) (p : Port) : ((expReadAs q p b).2).env = b.env := (rfl)

@[simp] theorem expRead2_pins (c : Chip) : ((expRead2 c b).2).pins = b.pins := (rfl)
@[simp] theorem expRead2_exp (c : Chip) : ((expRead2 c b).2).exp = b.exp := (rfl)
@[simp] theorem expRead2_crdActive (c : Chip) : ((expRead2 c b).2).crdActive = b.crdActive := (rfl)
@[simp] theorem expRead2_crdChip (c : Chip) : ((expRead2 c b).2).crdChip = b.crdChip := (rfl)
@[simp] theorem expRead2_pwrGb (c : Chip) : ((expRead2 c b).2).pwrGb = b.pwrGb := (rfl)
@[simp] theorem expRead2_pwrGba (c : Chip) : ((expRead2 c b).2).pwrGba = b.pwrGba := (rfl)
@[simp] theorem expRead2_ownGb (c : Chip) : ((expRead2 c b).2).ownGb = b.ownGb := (rfl)
@[simp] theorem expRead2_ownGba (c : Chip) : ((expRead2 c b).2).ownGba = b.ownGba := (rfl)
@[simp] theorem expRead2_mbcw (c : Chip) : ((expRead2 c b).2).mbcw = b.mbcw := (rfl)
@[simp] theorem expRead2_hist (c : Chip) : ((expRead2 c b).2).hist = b.hist := (rfl)
@[simp] theorem expRead2_env (c : Chip) : ((expRead2 c b).2).env = b.env := (rfl)

@[simp] theorem crdStart_pins (c : Chip) : (crdStart c b).pins = b.pins := (rfl)
@[simp] theorem crdStart_exp (c : Chip) : (crdStart c b).exp = b.exp := (rfl)
@[simp] theorem crdStart_pwrGb (c : Chip) : (crdStart c b).pwrGb = b.pwrGb := (rfl)
@[simp] theorem crdStart_pwrGba (c : Chip) : (crdStart c b).pwrGba = b.pwrGba := (rfl)
@[simp] theorem crdStart_ownGb (c : Chip) : (crdStart c b).ownGb = b.ownGb := (rfl)
@[simp] theorem crdStart_ownGba (c : Chip) : (crdStart c b).ownGba = b.ownGba := (rfl)
@[simp] theorem crdStart_mbcw (c : Chip) : (crdStart c b).mbcw = b.mbcw := (rfl)
@[simp] theorem crdStart_hist (c : Chip) : (crdStart c b).hist = b.hist := (rfl)
@[simp] theorem crdStart_tick (c : Chip) : (crdStart c b).tick = b.tick := (rfl)
@[simp] theorem crdStart_env (c : Chip) : (crdStart c b).env = b.env := (rfl)
@[simp] theorem crdStart_crdActive (c : Chip) : (crdStart c b).crdActive = true := (rfl)
@[simp] theorem crdStart_crdChip (c : Chip) : (crdStart c b).crdChip = c := (rfl)
@[simp] theorem crdStart_wire (c : Chip) : (crdStart c b).wire = .crdOpen [devOpcode c true, regAddr .io false] :: b.wire := (rfl)

@[simp] theorem crdCont_pins : ((crdCont b).2).pins = b.pins := (rfl)
@[simp] theorem crdCont_exp : ((crdCont b).2).exp = b.exp := (rfl)
@[simp] theorem crdCont_crdActive : ((crdCont b).2).crdActive = b.crdActive := (rfl)
@[simp] theorem crdCont_crdChip : ((crdCont b).2).crdChip = b.crdChip := (rfl)
@[simp] theorem crdCont_pwrGb : ((crdCont b).2).pwrGb = b.pwrGb := (rfl)
@[simp] theorem crdCont_pwrGba : ((crdCont b).2).pwrGba = b.pwrGba := (rfl)
@[simp] theorem crdCont_ownGb : ((crdCont b).2).ownGb = b.ownGb := (rfl)
@[simp] theorem crdCont_ownGba : ((crdCont b).2).ownGba = b.ownGba := (rfl)
@[simp] theorem crdCont_mbcw : ((crdCont b).2).mbcw = b.mbcw := (rfl)
@[simp] theorem crdCont_hist : ((crdCont b).2).hist = b.hist := (rfl)
@[simp] theorem crdCont_env : ((crdCont b).2).env = b.env := (rfl)

@[simp] theorem crdContRom_pins : ((crdContRom b).2).pins = b.pins := (rfl)
@[simp] theorem crdContRom_exp : ((crdContRom b).2).exp = b.exp := (rfl)
@[simp] theorem crdContRom_crdActive : ((crdContRom b).2).crdActive = b.crdActive := (rfl)
@[simp] theorem crdContRom_crdChip : ((crdContRom b).2).crdChip = b.crdChip := (rfl)
@[simp] theorem crdContRom_pwrGb : ((crdContRom b).2).pwrGb = b.pwrGb := (rfl)
@[simp] theorem crdContRom_pwrGba : ((crdContRom b).2).pwrGba = b.pwrGba := (rfl)
@[simp] theorem crdContRom_ownGb : ((crdContRom b).2).ownGb = b.ownGb := (rfl)
@[simp] theorem crdContRom_ownGba : ((crdContRom b).2).ownGba = b.ownGba := (rfl)
@[simp] theorem crdContRom_mbcw : ((crdContRom b).2).mbcw = b.mbcw := (rfl)
@[simp] theorem crdContRom_hist : ((crdContRom b).2).hist = b.hist := (rfl)
@[simp] theorem crdContRom_env : ((crdContRom b).2).env = b.env := (rfl)

@[simp] theorem crdEnd_pins : (crdEnd b).pins = b.pins := (rfl)
@[simp] theorem crdEnd_exp : (crdEnd b).exp = b.exp := (rfl)
@[simp] theorem crdEnd_crdChip : (crdEnd b).crdChip = b.crdChip := (rfl)
@[simp] theorem crdEnd_pwrGb : (crdEnd b).pwrGb = b.pwrGb := (rfl)
@[simp] theorem crdEnd_pwrGba : (crdEnd b).pwrGba = b.pwrGba := (rfl)
@[simp] theorem crdEnd_ownGb : (crdEnd b).ownGb = b.ownGb := (rfl)
@[simp] theorem crdEnd_ownGba : (crdEnd b).ownGba = b.ownGba := (rfl)
@[simp] theorem crdEnd_mbcw : (crdEnd b).mbcw = b.mbcw := (rfl)
@[simp] theorem crdEnd_hist : (crdEnd b).hist = b.hist := (rfl)
@[simp] theorem crdEnd_tick : (crdEnd b).tick = b.tick := (rfl)
@[simp] theorem crdEnd_env : (crdEnd b).env = b.env := (rfl)
@[simp] theorem crdEnd_crdActive : (crdEnd b).crdActive = false := (rfl)
@[simp] theorem crdEnd_wire : (crdEnd b).wire = .crdClose :: b.wire := (rfl)

@[simp] theorem drivePin_exp (p : Pin) (v : Bool) : (drivePin p v b).exp = b.exp := (rfl)
@[simp] theorem drivePin_crdActive (p : Pin) (v : Bool) : (drivePin p v b).crdActive = b.crdActive := (rfl)
@[simp] theorem drivePin_crdChip (p : Pin) (v : Bool) : (drivePin p v b).crdChip = b.crdChip := (rfl)
@[simp] theorem drivePin_pwrGb (p : Pin) (v : Bool) : (drivePin p v b).pwrGb = b.pwrGb := (rfl)
@[simp] theorem drivePin_pwrGba (p : Pin) (v : Bool) : (drivePin p v b).pwrGba = b.pwrGba := (rfl)
@[simp] theorem drivePin_ownGb (p : Pin) (v : Bool) : (drivePin p v b).ownGb = b.ownGb := (rfl)
@[simp] theorem drivePin_ownGba (p : Pin) (v : Bool) : (drivePin p v b).ownGba = b.ownGba := (rfl)
@[simp] theorem drivePin_mbcw (p : Pin) (v : Bool) : (drivePin p v b).mbcw = b.mbcw := (rfl)
@[simp] theorem drivePin_hist (p : Pin) (v : Bool) : (drivePin p v b).hist = b.hist := (rfl)
@[simp] theorem drivePin_tick (p : Pin) (v : Bool) : (drivePin p v b).tick = b.tick := (rfl)
@[simp] theorem drivePin_env (p : Pin) (v : Bool) : (drivePin p v b).env = b.env := (rfl)

@[simp] theorem finish_others (v : Word) : (finish v s).others = s.others := (rfl)
@[simp] theorem finish_inputs (v : Word) : (finish v s).inputs = s.inputs := (rfl)
@[simp] theorem finish_hbuf (v : Word) : (finish v s).hbuf = s.hbuf := (rfl)
@[simp] theorem finish_spiReady (v : Word) : (finish v s).spiReady = s.spiReady := (rfl)
@[simp] theorem finish_spiDiv (v : Word) : (finish v s).spiDiv = s.spiDiv := (rfl)
@[simp] theorem finish_fifo (v : Word) : (finish v s).fifo = s.fifo := (rfl)
@[simp] theorem finish_lock (v : Word) : (finish v s).lock = s.lock := (rfl)
@[simp] theorem finish_csForceIdle (v : Word) : (finish v s).csForceIdle = s.csForceIdle := (rfl)
@[simp] theorem finish_gb (v : Word) : (finish v s).gb = s.gb := (rfl)
@[simp] theorem finish_gba (v : Word) : (finish v s).gba = s.gba := (rfl)
@[simp] theorem finish_rx (v : Word) : (finish v s).rx = s.rx := (rfl)
@[simp] theorem finish_me (v : Word) : (finish v s).me = { s.me with res := v, resSet := true, cmd := none, seq := .idle } := (rfl)
@[simp] theorem finish_bus (v : Word) : (finish v s).bus = { s.bus with tick := s.bus.tick + 1 } := (rfl)

@[simp] theorem refuse_others : (refuse s).others = s.others := (rfl)
@[simp] theorem refuse_inputs : (refuse s).inputs = s.inputs := (rfl)
@[simp] theorem refuse_hbuf : (refuse s).hbuf = s.hbuf := (rfl)
@[simp] theorem refuse_spiReady : (refuse s).spiReady = s.spiReady := (rfl)
@[simp] theorem refuse_spiDiv : (refuse s).spiDiv = s.spiDiv := (rfl)
@[simp] theorem refuse_fifo : (refuse s).fifo = s.fifo := (rfl)
@[simp] theorem refuse_lock : (refuse s).lock = s.lock := (rfl)
@[simp] theorem refuse_csForceIdle : (refuse s).csForceIdle = s.csForceIdle := (rfl)
@[simp] theorem refuse_gb : (refuse s).gb = s.gb := (rfl)
@[simp] theorem refuse_gba : (refuse s).gba = s.gba := (rfl)
@[simp] theorem refuse_rx : (refuse s).rx = s.rx := (rfl)

@[simp] theorem hold_others (op : Instr) : (hold op s).others = s.others := (rfl)
@[simp] theorem hold_inputs (op : Instr) : (hold op s).inputs = s.inputs := (rfl)
@[simp] theorem hold_hbuf (op : Instr) : (hold op s).hbuf = s.hbuf := (rfl)
@[simp] theorem hold_spiReady (op : Instr) : (hold op s).spiReady = s.spiReady := (rfl)
@[simp] theorem hold_spiDiv (op : Instr) : (hold op s).spiDiv = s.spiDiv := (rfl)
@[simp] theorem hold_fifo (op : Instr) : (hold op s).fifo = s.fifo := (rfl)
@[simp] theorem hold_lock (op : Instr) : (hold op s).lock = s.lock := (rfl)
@[simp] theorem hold_csForceIdle (op : Instr) : (hold op s).csForceIdle = s.csForceIdle := (rfl)
@[simp] theorem hold_gb (op : Instr) : (hold op s).gb = s.gb := (rfl)
@[simp] theorem hold_gba (op : Instr) : (hold op s).gba = s.gba := (rfl)
@[simp] theorem hold_rx (op : Instr) : (hold op s).rx = s.rx := (rfl)
@[simp] theorem hold_me (op : Instr) : (hold op s).me = { s.me with seq := .held op } := (rfl)
@[simp] theorem hold_bus (op : Instr) : (hold op s).bus = { s.bus with tick := s.bus.tick + 1 } := (rfl)

@[simp] theorem takeLock_me (force : Bool) (key : Word) : (takeLock force key s).me = s.me := (rfl)
@[simp] theorem takeLock_others (force : Bool) (key : Word) : (takeLock force key s).others = s.others := (rfl)
@[simp] theorem takeLock_inputs (force : Bool) (key : Word) : (takeLock force key s).inputs = s.inputs := (rfl)
@[simp] theorem takeLock_hbuf (force : Bool) (key : Word) : (takeLock force key s).hbuf = s.hbuf := (rfl)
@[simp] theorem takeLock_spiReady (force : Bool) (key : Word) : (takeLock force key s).spiReady = s.spiReady := (rfl)
@[simp] theorem takeLock_spiDiv (force : Bool) (key : Word) : (takeLock force key s).spiDiv = s.spiDiv := (rfl)
@[simp] theorem takeLock_fifo (force : Bool) (key : Word) : (takeLock force key s).fifo = s.fifo := (rfl)
@[simp] theorem takeLock_bus (force : Bool) (key : Word) : (takeLock force key s).bus = s.bus := (rfl)
@[simp] theorem takeLock_gb (force : Bool) (key : Word) : (takeLock force key s).gb = s.gb := (rfl)
@[simp] theorem takeLock_gba (force : Bool) (key : Word) : (takeLock force key s).gba = s.gba := (rfl)
@[simp] theorem takeLock_rx (force : Bool) (key : Word) : (takeLock force key s).rx = s.rx := (rfl)
@[simp] theorem takeLock_lock (force : Bool) (key : Word) : (takeLock force key s).lock = key := (rfl)
@[simp] theorem takeLock_csForceIdle (force : Bool) (key : Word) : (takeLock force key s).csForceIdle = (s.csForceIdle || force) := (rfl)

@[simp] theorem gbClear_me : (gbClear s).me = s.me := (rfl)
@[simp] theorem gbClear_others : (gbClear s).others = s.others := (rfl)
@[simp] theorem gbClear_inputs : (gbClear s).inputs = s.inputs := (rfl)
@[simp] theorem gbClear_hbuf : (gbClear s).hbuf = s.hbuf := (rfl)
@[simp] theorem gbClear_spiReady : (gbClear s).spiReady = s.spiReady := (rfl)
@[simp] theorem gbClear_spiDiv : (gbClear s).spiDiv = s.spiDiv := (rfl)
@[simp] theorem gbClear_fifo : (gbClear s).fifo = s.fifo := (rfl)
@[simp] theorem gbClear_lock : (gbClear s).lock = s.lock := (rfl)
@[simp] theorem gbClear_csForceIdle : (gbClear s).csForceIdle = s.csForceIdle := (rfl)
@[simp] theorem gbClear_bus : (gbClear s).bus = s.bus := (rfl)
@[simp] theorem gbClear_gba : (gbClear s).gba = s.gba := (rfl)
@[simp] theorem gbClear_rx : (gbClear s).rx = s.rx := (rfl)
@[simp] theorem gbClear_gb : (gbClear s).gb = .empty := (rfl)

@[simp] theorem gbaClear_me : (gbaClear s).me = s.me := (rfl)
@[simp] theorem gbaClear_others : (gbaClear s).others = s.others := (rfl)
@[simp] theorem gbaClear_inputs : (gbaClear s).inputs = s.inputs := (rfl)
@[simp] theorem gbaClear_hbuf : (gbaClear s).hbuf = s.hbuf := (rfl)
@[simp] theorem gbaClear_spiReady : (gbaClear s).spiReady = s.spiReady := (rfl)
@[simp] theorem gbaClear_spiDiv : (gbaClear s).spiDiv = s.spiDiv := (rfl)
@[simp] theorem gbaClear_fifo : (gbaClear s).fifo = s.fifo := (rfl)
@[simp] theorem gbaClear_lock : (gbaClear s).lock = s.lock := (rfl)
@[simp] theorem gbaClear_csForceIdle : (gbaClear s).csForceIdle = s.csForceIdle := (rfl)
@[simp] theorem gbaClear_bus : (gbaClear s).bus = s.bus := (rfl)
@[simp] theorem gbaClear_gb : (gbaClear s).gb = s.gb := (rfl)
@[simp] theorem gbaClear_rx : (gbaClear s).rx = s.rx := (rfl)
@[simp] theorem gbaClear_gba : (gbaClear s).gba = .empty := (rfl)

@[simp] theorem locked_me : (locked s).me = s.me := (rfl)
@[simp] theorem locked_others : (locked s).others = s.others := (rfl)
@[simp] theorem locked_inputs : (locked s).inputs = s.inputs := (rfl)
@[simp] theorem locked_hbuf : (locked s).hbuf = s.hbuf := (rfl)
@[simp] theorem locked_spiReady : (locked s).spiReady = s.spiReady := (rfl)
@[simp] theorem locked_spiDiv : (locked s).spiDiv = s.spiDiv := (rfl)
@[simp] theorem locked_fifo : (locked s).fifo = s.fifo := (rfl)
@[simp] theorem locked_bus : (locked s).bus = s.bus := (rfl)
@[simp] theorem locked_gb : (locked s).gb = s.gb := (rfl)
@[simp] theorem locked_gba : (locked s).gba = s.gba := (rfl)
@[simp] theorem locked_rx : (locked s).rx = s.rx := (rfl)
@[simp] theorem locked_lock : (locked s).lock = Config.gbxKey := (rfl)

@[simp] theorem releaseLock_me (key : Word) : (releaseLock key s).me = s.me := by
  unfold releaseLock; split <;> rfl
@[simp] theorem releaseLock_others (key : Word) : (releaseLock key s).others = s.others := by
  unfold releaseLock; split <;> rfl
@[simp] theorem releaseLock_inputs (key : Word) : (releaseLock key s).inputs = s.inputs := by
  unfold releaseLock; split <;> rfl
@[simp] theorem releaseLock_hbuf (key : Word) : (releaseLock key s).hbuf = s.hbuf := by
  unfold releaseLock; split <;> rfl
@[simp] theorem releaseLock_spiReady (key : Word) : (releaseLock key s).spiReady = s.spiReady := by
  unfold releaseLock; split <;> rfl
@[simp] theorem releaseLock_spiDiv (key : Word) : (releaseLock key s).spiDiv = s.spiDiv := by
  unfold releaseLock; split <;> rfl
@[simp] theorem releaseLock_fifo (key : Word) : (releaseLock key s).fifo = s.fifo := by
  unfold releaseLock; split <;> rfl
@[simp] theorem releaseLock_bus (key : Word) : (releaseLock key s).bus = s.bus := by
  unfold releaseLock; split <;> rfl
@[simp] theorem releaseLock_gb (key : Word) : (releaseLock key s).gb = s.gb := by
  unfold releaseLock; split <;> rfl
@[simp] theorem releaseLock_gba (key : Word) : (releaseLock key s).gba = s.gba := by
  unfold releaseLock; split <;> rfl
@[simp] theorem releaseLock_rx (key : Word) : (releaseLock key s).rx = s.rx := by
  unfold releaseLock; split <;> rfl

@[simp] theorem locked_csForceIdle : (locked s).csForceIdle = s.csForceIdle := by simp [locked, takeLock]

/-- Releasing with the holder's key frees the lock and the chip select. -/
theorem releaseLock_own (key : Word) (h : s.lock = key) : releaseLock key s = { s with lock := 0, csForceIdle := false } := by
  simp [releaseLock, h]

/-- A pin just set reads as it was set, and every other pin as before. -/
@[simp] theorem getPin_setPin (p q : Pin) (r : PinReg) (x : Pins) :
    getPin q (setPin p r x) = if q = p then r else getPin q x := by
  cases p <;> cases q <;> rfl

/-- A port just set reads as it was set, and every other port as before. -/
@[simp] theorem getPort_setPort (p q : Port) (r : PortReg) (x : Ports) :
    getPort q (setPort p r x) = if q = p then r else getPort q x := by
  cases p <;> cases q <;> rfl

/-- Pins that agree one by one are equal. -/
theorem pins_ext {x y : Pins} (h : ∀ p, getPin p x = getPin p y) : x = y := by
  obtain ⟨⟩ := x
  obtain ⟨⟩ := y
  have h0 := h .gbPwr; have h1 := h .gbCs; have h2 := h .gbRd; have h3 := h .gbWr; have h4 := h .gbaPwr
  have h5 := h .gbaCs; have h6 := h .gbaCs2; have h7 := h .gbaRd; have h8 := h .gbaWr; have h9 := h .det
  simp only [getPin] at h0 h1 h2 h3 h4 h5 h6 h7 h8 h9
  simp [h0, h1, h2, h3, h4, h5, h6, h7, h8, h9]

/-- Ports that agree one by one are equal. -/
theorem ports_ext {x y : Ports} (h : ∀ p, getPort p x = getPort p y) : x = y := by
  obtain ⟨⟩ := x
  obtain ⟨⟩ := y
  have h0 := h .a; have h1 := h .b; have h2 := h .c; have h3 := h .d
  simp only [getPort] at h0 h1 h2 h3
  simp [h0, h1, h2, h3]

end Sys2Proof.Machine
end

