-- ==== Sys2Proof/Laws/Loops.lean ====
section
/-! SUPPORT. The loops of `Machine/Ops.lean`: how many values they give, what they keep, which events they
record. -/

namespace Sys2Proof.Machine

theorem gatherRev_length {α : Type} (n : Nat) (f : Nat → Bus → α × Bus) (b : Bus) :
    (gatherRev n f b).1.length = n := by
  induction n with
  | zero => rfl
  | succ n ih => simp [gatherRev, ih]

/-- A loop of `n` steps gives `n` values. -/
@[simp] theorem gather_length {α : Type} (n : Nat) (f : Nat → Bus → α × Bus) (b : Bus) :
    (gather n f b).1.length = n := by simp [gather, gatherRev_length]

/-- A loop keeps what each of its steps keeps. -/
theorem gatherRev_keeps {α : Type} {R : Bus → Bus → Prop} (refl : ∀ b, R b b)
    (trans : ∀ {b c d}, R b c → R c d → R b d) (f : Nat → Bus → α × Bus) (step : ∀ k b, R b (f k b).2)
    (n : Nat) (b : Bus) : R b (gatherRev n f b).2 := by
  induction n with
  | zero => exact refl b
  | succ n ih => exact trans ih (step n _)

/-- A loop that gathers values keeps what each of its steps keeps. -/
theorem gather_keeps {α : Type} {R : Bus → Bus → Prop} (refl : ∀ b, R b b)
    (trans : ∀ {b c d}, R b c → R c d → R b d) (f : Nat → Bus → α × Bus) (step : ∀ k b, R b (f k b).2)
    (n : Nat) (b : Bus) : R b (gather n f b).2 := gatherRev_keeps refl trans f step n b

/-- A counted loop keeps what each of its steps keeps. -/
theorem iter_keeps {R : Bus → Bus → Prop} (refl : ∀ b, R b b) (trans : ∀ {b c d}, R b c → R c d → R b d)
    (f : Nat → Bus → Bus) (step : ∀ k b, R b (f k b)) (n : Nat) (b : Bus) : R b (iter n f b) := by
  induction n with
  | zero => exact refl b
  | succ n ih => exact trans ih (step n _)

/-- A loop over bytes keeps what each of its steps keeps. -/
theorem forBytes_keeps {R : Bus → Bus → Prop} (refl : ∀ b, R b b) (trans : ∀ {b c d}, R b c → R c d → R b d)
    (f : Nat → Byte → Bus → Bus) (step : ∀ k v b, R b (f k v b)) (i : Nat) (vs : List Byte) (b : Bus) :
    R b (forBytes f i vs b) := by
  induction vs generalizing i b with
  | nil => exact refl b
  | cons v vs ih => exact trans (step i v b) (ih _ _)

/-- A fold keeps what each of its steps keeps. -/
theorem foldl_keeps {α : Type} {R : Bus → Bus → Prop} (refl : ∀ b, R b b)
    (trans : ∀ {b c d}, R b c → R c d → R b d) (f : Bus → α → Bus) (step : ∀ x b, R b (f b x))
    (xs : List α) (b : Bus) : R b (xs.foldl f b) := by
  induction xs generalizing b with
  | nil => exact refl b
  | cons x xs ih => exact trans (step x b) (ih _)

theorem Adds.none (b : Bus) : Adds b b [] := rfl

theorem Adds.append {b c d : Bus} {es fs : List BusEvent} (h : Adds b c es) (k : Adds c d fs) :
    Adds b d (es ++ fs) := by
  simp only [Adds] at *
  rw [k, h, List.reverse_append, List.append_assoc]

/-- The events of a loop are those of its steps, in order, given by the value each step returned. -/
theorem gather_adds {α : Type} (f : Nat → Bus → α × Bus) (E : Nat → α → List BusEvent)
    (step : ∀ k b, Adds b (f k b).2 (E k (f k b).1)) (n : Nat) (b : Bus) :
    Adds b (gather n f b).2 ((gather n f b).1.mapIdx E).flatten := by
  have key : ∀ n, Adds b (gatherRev n f b).2 (((gatherRev n f b).1.reverse).mapIdx E).flatten := by
    intro n
    induction n with
    | zero => rfl
    | succ n ih =>
      have h := ih.append (step n (gatherRev n f b).2)
      simpa [gatherRev, List.mapIdx_append, gatherRev_length] using h
  exact key n

/-- The events of a counted loop. -/
theorem iter_adds (f : Nat → Bus → Bus) (E : Nat → List BusEvent) (step : ∀ k b, Adds b (f k b) (E k))
    (n : Nat) (b : Bus) : Adds b (iter n f b) ((List.range n).map E).flatten := by
  induction n with
  | zero => rfl
  | succ n ih => simpa [iter, List.range_succ] using ih.append (step n (iter n f b))

/-- The events of a loop over bytes. -/
theorem forBytes_adds (f : Nat → Byte → Bus → Bus) (E : Nat → Byte → List BusEvent)
    (step : ∀ k v b, Adds b (f k v b) (E k v)) (i : Nat) (vs : List Byte) (b : Bus) :
    Adds b (forBytes f i vs b) (vs.mapIdx fun k v => E (i + k) v).flatten := by
  induction vs generalizing i b with
  | nil => rfl
  | cons v vs ih =>
    have h := (step i v b).append (ih (i + 1) (f i v b))
    simpa [forBytes, List.mapIdx_cons, Nat.add_assoc, Nat.add_comm, Nat.add_left_comm] using h

/-- The events of a fold. -/
theorem foldl_adds {α : Type} (f : Bus → α → Bus) (E : α → List BusEvent)
    (step : ∀ x b, Adds b (f b x) (E x)) (xs : List α) (b : Bus) :
    Adds b (xs.foldl f b) (xs.map E).flatten := by
  induction xs generalizing b with
  | nil => rfl
  | cons x xs ih => simpa using (step x b).append (ih (f b x))

/-- One event for each element is the list of those events. -/
theorem flatten_map_one {α β : Type} (f : α → β) (xs : List α) : (xs.map fun x => [f x]).flatten = xs.map f := by
  induction xs with
  | nil => rfl
  | cons x xs ih => simp [ih]

/-- A loop over a list that ignores the index is a map. -/
theorem mapIdx_ignore {α β : Type} (f : α → β) (xs : List α) : (xs.mapIdx fun _ x => f x) = xs.map f := by
  induction xs with
  | nil => rfl
  | cons x xs ih => simp only [List.mapIdx_cons, List.map_cons, ih]

/-- The same with the index. -/
theorem flatten_mapIdx_one {α β : Type} (f : Nat → α → β) (xs : List α) :
    (xs.mapIdx fun k x => [f k x]).flatten = xs.mapIdx f := by
  induction xs generalizing f with
  | nil => rfl
  | cons x xs ih => simp [List.mapIdx_cons, ih]

end Sys2Proof.Machine
end

