-- ==== Sys2Proof/Laws/Memory.lean ====
section
/-! SUPPORT. The host buffer space and the byte images: a read after a write, and the canonical form, which
every write keeps. -/

namespace Sys2Proof.Machine

theorem lookup_filter_key (p : Nat → Bool) (cs : List Host.Cell) (x : Nat) :
    (cs.filter fun c => p c.1).lookup x = if p x then cs.lookup x else none := by
  induction cs with
  | nil => simp
  | cons c cs ih =>
    obtain ⟨k, v⟩ := c
    by_cases hk : p k = true
    · by_cases hx : x = k
      · subst hx; simp [hk]
      · have : (x == k) = false := by simpa using hx
        simp [hk, List.lookup_cons, this, ih]
    · by_cases hx : x = k
      · subst hx; simp [hk, ih]
      · have : (x == k) = false := by simpa using hx
        simp [hk, List.lookup_cons, this, ih]

theorem freshCells_key {unl : Nat → Byte} {bytes : List Byte} {a : Nat} {c : Host.Cell}
    (h : c ∈ freshCells unl a bytes) : a ≤ c.1 ∧ c.1 < a + bytes.length ∧ c.2 ≠ unl c.1 := by
  induction bytes generalizing a with
  | nil => simp [freshCells] at h
  | cons v vs ih =>
    unfold freshCells at h
    split at h
    · obtain ⟨h1, h2, h3⟩ := ih h
      exact ⟨by omega, by simp only [List.length_cons]; omega, h3⟩
    · rcases List.mem_cons.1 h with rfl | h
      · exact ⟨Nat.le_refl _, by simp, ‹_›⟩
      · obtain ⟨h1, h2, h3⟩ := ih h
        exact ⟨by omega, by simp only [List.length_cons]; omega, h3⟩

theorem lookup_none_of_key {cs : List Host.Cell} {x : Nat} (h : ∀ c ∈ cs, c.1 ≠ x) : cs.lookup x = none := by
  induction cs with
  | nil => rfl
  | cons c cs ih =>
    obtain ⟨k, v⟩ := c
    have hk : (x == k) = false := by simpa using (h (k, v) (by simp)).symm
    simp only [List.lookup_cons, hk]
    exact ih fun c hc => h c (by simp [hc])

/-- A fresh block holds its bytes. -/
theorem freshCells_lookup (unl : Nat → Byte) (bytes : List Byte) (a k : Nat) (v : Byte)
    (h : bytes[k]? = some v) : ((freshCells unl a bytes).lookup (a + k)).getD (unl (a + k)) = v := by
  induction bytes generalizing a k with
  | nil => simp at h
  | cons w ws ih =>
    cases k with
    | zero =>
      obtain rfl : w = v := by simpa using h
      unfold freshCells
      split
      · rename_i e
        rw [lookup_none_of_key]
        · simpa using e.symm
        · intro c hc; have := (freshCells_key hc).1; omega
      · simp
    | succ k =>
      have h' : ws[k]? = some v := by simpa using h
      have e : a + (k + 1) = a + 1 + k := by omega
      have hn : (a + 1 + k == a) = false := by simp; omega
      unfold freshCells
      split
      · rw [e]; exact ih (a + 1) k h'
      · rw [e, List.lookup_cons, hn]; exact ih (a + 1) k h'

theorem cellWrite_lookup (unl : Nat → Byte) (a : Nat) (bytes : List Byte) (cs : List Host.Cell) (x : Nat) :
    (cellWrite unl a bytes cs).lookup x =
      if x < a then cs.lookup x
      else if x < a + bytes.length then (freshCells unl a bytes).lookup x
      else cs.lookup x := by
  have h1 := lookup_filter_key (fun k => decide (k < a)) cs x
  have h2 := lookup_filter_key (fun k => decide (a + bytes.length ≤ k)) cs x
  simp only [cellWrite, List.lookup_append, h1, h2]
  by_cases hx : x < a
  · have hf : (freshCells unl a bytes).lookup x = none :=
      lookup_none_of_key fun c hc => by have := (freshCells_key hc).1; omega
    have : ¬ a + bytes.length ≤ x := by omega
    simp [hx, hf, this]
  · by_cases hy : x < a + bytes.length
    · have : ¬ a + bytes.length ≤ x := by omega
      simp [hx, hy, this]
    · have hf : (freshCells unl a bytes).lookup x = none :=
        lookup_none_of_key fun c hc => by have := (freshCells_key hc).2.1; omega
      have : a + bytes.length ≤ x := by omega
      simp [hx, hy, hf, this]

/-- Everything a stored block does to the bytes read: its own bytes at their addresses, every other byte as
before. -/
theorem writeBlock_stores (m : Memory) (a : Nat) (bytes : List Byte) :
    Stores m (m.writeBlock a bytes) a bytes := by
  refine ⟨fun k v h => ?_, fun x hx => ?_⟩
  · have hk : k < bytes.length := (List.getElem?_eq_some_iff.1 h).1
    have n1 : ¬ a + k < a := by omega
    have n2 : a + k < a + bytes.length := by omega
    simp only [Memory.read, Memory.writeBlock, cellRead, cellWrite_lookup, n1, n2, if_true, if_false]
    exact freshCells_lookup _ _ _ _ _ h
  · simp only [Memory.read, Memory.writeBlock, cellRead, cellWrite_lookup]
    rcases hx with hx | hx
    · simp [hx]
    · have n1 : ¬ x < a := by omega
      have n2 : ¬ x < a + bytes.length := by omega
      simp [n1, n2]

/-- A block of no bytes stores nothing. -/
theorem stores_nil (m m' : Memory) (a : Nat) (h : Stores m m' a []) (x : Nat) : m'.read x = m.read x :=
  h.2 x (by simp; omega)

theorem freshCells_rising (unl : Nat → Byte) (bytes : List Byte) (a : Nat) :
    (freshCells unl a bytes).Pairwise fun x y => x.1 < y.1 := by
  induction bytes generalizing a with
  | nil => simp [freshCells]
  | cons v vs ih =>
    unfold freshCells
    split
    · exact ih _
    · exact List.pairwise_cons.2 ⟨fun c hc => by have := (freshCells_key hc).1; simp; omega, ih _⟩

/-- A write keeps the canonical form. -/
theorem cellWrite_canonical (unl : Nat → Byte) (a : Nat) (bytes : List Byte) (cs : List Host.Cell)
    (h : CellsCanonical unl cs) : CellsCanonical unl (cellWrite unl a bytes cs) := by
  obtain ⟨hp, hn⟩ := h
  refine ⟨?_, ?_⟩
  · unfold cellWrite
    rw [List.pairwise_append, List.pairwise_append]
    refine ⟨⟨hp.sublist List.filter_sublist, freshCells_rising _ _ _, ?_⟩,
      hp.sublist List.filter_sublist, ?_⟩
    · intro x hx y hy
      have h1 : x.1 < a := by simpa using (List.mem_filter.1 hx).2
      have h2 := (freshCells_key hy).1
      omega
    · intro x hx y hy
      have h2 : a + bytes.length ≤ y.1 := by simpa using (List.mem_filter.1 hy).2
      rcases List.mem_append.1 hx with hx | hx
      · have h1 : x.1 < a := by simpa using (List.mem_filter.1 hx).2
        omega
      · have h1 := (freshCells_key hx).2.1
        omega
  · intro c hc
    unfold cellWrite at hc
    rcases List.mem_append.1 hc with hc | hc
    · rcases List.mem_append.1 hc with hc | hc
      · exact hn c (List.mem_filter.1 hc).1
      · exact (freshCells_key hc).2.2
    · exact hn c (List.mem_filter.1 hc).1

/-- A block stored inside the host buffer space keeps its canonical form. -/
theorem writeBlock_wf (m : Memory) (a : Nat) (bytes : List Byte) (h : m.wf)
    (fits : a + bytes.length ≤ Config.hbufSize) : (m.writeBlock a bytes).wf := by
  refine ⟨cellWrite_canonical _ _ _ _ h.1, fun c hc => ?_⟩
  unfold Memory.writeBlock cellWrite at hc
  rcases List.mem_append.1 hc with hc | hc
  · rcases List.mem_append.1 hc with hc | hc
    · exact h.2 c (List.mem_filter.1 hc).1
    · have := (freshCells_key hc).2.1; omega
  · exact h.2 c (List.mem_filter.1 hc).1

/-- The reset memory is in canonical form. -/
theorem reset_hbuf_wf : State.reset.hbuf.wf := by decide

@[simp] theorem readBlock_length (m : Memory) (a n : Nat) : (m.readBlock a n).length = n := by
  simp [Memory.readBlock]

/-- Byte `k` of a block read. -/
theorem readBlock_get (m : Memory) (a n k : Nat) (h : k < n) : (m.readBlock a n)[k]? = some (m.read (a + k)) := by
  simp [Memory.readBlock, h]

end Sys2Proof.Machine
end

