-- ==== Sys2Proof/Laws/Chunks.lean ====
section
/-! SUPPORT. Lists cut into chunks of one size (the last one maybe shorter), as the bulk operations read and
write them, and the values of a loop one by one. -/

namespace Sys2Proof.Machine

theorem gather_get {α : Type} {P : Nat → α → Prop} (f : Nat → Bus → α × Bus) (step : ∀ k b, P k (f k b).1)
    (n : Nat) (b : Bus) (k : Nat) (x : α) (h : (gather n f b).1[k]? = some x) : P k x := by
  have key : ∀ n, ∀ k x, (gatherRev n f b).1.reverse[k]? = some x → P k x := by
    intro n
    induction n with
    | zero => intro k x h; simp [gatherRev] at h
    | succ n ih =>
      intro k x h
      simp only [gatherRev, List.reverse_cons] at h
      by_cases hk : k < n
      · rw [List.getElem?_append_left (by simpa [gatherRev_length] using hk)] at h
        exact ih k x h
      · rw [List.getElem?_append_right (by simpa [gatherRev_length] using hk)] at h
        simp only [List.length_reverse, gatherRev_length] at h
        by_cases hn : k = n
        · subst hn
          obtain rfl : (f k (gatherRev k f b).2).1 = x := by simpa using h
          exact step _ _
        · have : k - n ≠ 0 := by omega
          obtain ⟨d, hd⟩ := Nat.exists_eq_succ_of_ne_zero this
          simp [hd] at h
  exact key n k x h

/-- A list mapped with its indices is the range mapped. -/
theorem mapIdx_eq_range_map {α β : Type} (E : Nat → α → β) (F : Nat → β) (L : List α)
    (h : ∀ j x, L[j]? = some x → E j x = F j) : L.mapIdx E = (List.range L.length).map F := by
  apply List.ext_getElem?
  intro j
  by_cases hj : j < L.length
  · simp [hj, h j L[j] (List.getElem?_eq_getElem hj)]
  · simp [Nat.not_lt.1 hj]

section chunks
variable {α : Type} (n : Nat)

/-- The chunks of `sz` elements, `n` at a time: the length of what they spell. -/
theorem chunks_length (L : List (List α)) (sz : Nat)
    (h : ∀ j x, L[j]? = some x → x.length = min n (sz - j * n)) :
    L.flatten.length = min (n * L.length) sz := by
  induction L generalizing sz with
  | nil => simp
  | cons x xs ih =>
    have h0 : x.length = min n sz := by simpa using h 0 x rfl
    have hs := ih (sz - n) fun j y hy => by
      have := h (j + 1) y (by simpa using hy)
      rw [this, Nat.sub_sub, Nat.succ_mul, Nat.add_comm n]
    simp only [List.flatten_cons, List.length_append, List.length_cons, h0, hs, Nat.mul_add, Nat.mul_one]
    omega

/-- Chunk `j` is the slice at its place. -/
theorem chunks_slice (L : List (List Byte)) (sz : Nat)
    (h : ∀ j x, L[j]? = some x → x.length = min n (sz - j * n)) (j : Nat) (x : List Byte)
    (hx : L[j]? = some x) : slice (j * n) n L.flatten = x := by
  induction L generalizing sz j x with
  | nil => simp at hx
  | cons y ys ih =>
    have h0 : y.length = min n sz := by simpa using h 0 y rfl
    have ht : ∀ j x, ys[j]? = some x → x.length = min n (sz - n - j * n) := fun j z hz => by
      have := h (j + 1) z (by simpa using hz)
      rw [this, Nat.sub_sub, Nat.succ_mul, Nat.add_comm n]
    have hl := chunks_length n ys (sz - n) ht
    by_cases hn : n ≤ sz
    · have hy : y.length = n := by omega
      cases j with
      | zero =>
        obtain rfl : y = x := by simpa using hx
        simp [slice, ← hy]
      | succ j =>
        have := ih (sz - n) ht j x (by simpa using hx)
        rw [← this]
        simp only [slice, List.flatten_cons]
        rw [List.drop_append, List.drop_eq_nil_of_le (by rw [hy, Nat.succ_mul]; omega), hy, Nat.succ_mul]
        simp
    · have hy : y.length = sz := by omega
      have he : ys.flatten = [] := List.length_eq_zero_iff.1 (by omega)
      cases j with
      | zero =>
        obtain rfl : y = x := by simpa using hx
        simp only [slice, List.flatten_cons, he, List.append_nil, Nat.zero_mul, List.drop_zero]
        exact List.take_of_length_le (by omega)
      | succ j =>
        have hz : x.length = 0 := by
          have := ht j x (by simpa using hx)
          omega
        obtain rfl := List.length_eq_zero_iff.1 hz
        simp only [slice, List.flatten_cons, he, List.append_nil]
        rw [List.drop_eq_nil_of_le (by rw [Nat.succ_mul]; omega), List.take_nil]

end chunks

/-- The length of a slice. -/
theorem slice_length (lo n : Nat) (bytes : List Byte) : (slice lo n bytes).length = min n (bytes.length - lo) := by
  simp [slice]

/-- An element of a slice. -/
theorem slice_get (lo n k : Nat) (bytes : List Byte) (h : k < n) : (slice lo n bytes)[k]? = bytes[lo + k]? := by
  simp [slice, h]

/-- A loop over a slice of a block read from the host buffer space. -/
theorem slice_readBlock_mapIdx {β : Type} (m : Memory) (a N lo n : Nat) (E : Nat → Byte → β) :
    (slice lo n (m.readBlock a N)).mapIdx E =
      (List.range (min n (N - lo))).map fun o => E o (m.read (a + lo + o)) := by
  rw [mapIdx_eq_range_map E fun o => E o (m.read (a + lo + o))]
  · simp [slice_length]
  · intro j x hx
    have hj : j < (slice lo n (m.readBlock a N)).length := (List.getElem?_eq_some_iff.1 hx).1
    rw [slice_length, readBlock_length] at hj
    rw [slice_get _ _ _ _ (by omega), readBlock_get _ _ _ _ (by omega)] at hx
    obtain rfl : m.read (a + (lo + j)) = x := by simpa using hx
    rw [Nat.add_assoc]

/-- A loop over a block read from the host buffer space. -/
theorem readBlock_mapIdx {β : Type} (m : Memory) (a N : Nat) (E : Nat → Byte → β) :
    (m.readBlock a N).mapIdx E = (List.range N).map fun o => E o (m.read (a + o)) := by
  rw [mapIdx_eq_range_map E fun o => E o (m.read (a + o))]
  · simp
  · intro j x hx
    have hj : j < N := by simpa using (List.getElem?_eq_some_iff.1 hx).1
    rw [readBlock_get _ _ _ _ hj] at hx
    obtain rfl : m.read (a + j) = x := by simpa using hx
    rfl

end Sys2Proof.Machine
end

