-- ==== Sys2Proof/Laws/Primitives.lean ====
section
/-! SUPPORT. What each cartridge primitive keeps and which events it records: one lemma each, so that no
later proof unfolds a pin sequence. -/

namespace Sys2Proof.Machine

theorem GbCycles.refl (b : Bus) : GbCycles b b := by constructor <;> rfl

theorem GbCycles.trans {b c d : Bus} (h : GbCycles b c) (k : GbCycles c d) : GbCycles b d :=
  { gbaPwr := k.gbaPwr.trans h.gbaPwr, gbaCs := k.gbaCs.trans h.gbaCs, gbaCs2 := k.gbaCs2.trans h.gbaCs2,
    gbaRd := k.gbaRd.trans h.gbaRd, gbaWr := k.gbaWr.trans h.gbaWr, det := k.det.trans h.det,
    pwrGba := k.pwrGba.trans h.pwrGba, ownGba := k.ownGba.trans h.ownGba,
    crdActive := k.crdActive.trans h.crdActive, crdChip := k.crdChip.trans h.crdChip,
    gbPwr := k.gbPwr.trans h.gbPwr, gbCsDir := k.gbCsDir.trans h.gbCsDir,
    gbRdDir := k.gbRdDir.trans h.gbRdDir, gbWrDir := k.gbWrDir.trans h.gbWrDir,
    pwrGb := k.pwrGb.trans h.pwrGb, ownGb := k.ownGb.trans h.ownGb,
    portADir := k.portADir.trans h.portADir, portBDir := k.portBDir.trans h.portBDir,
    portD := k.portD.trans h.portD }

theorem GbaCycles.refl (b : Bus) : GbaCycles b b := by constructor <;> rfl

theorem GbaCycles.trans {b c d : Bus} (h : GbaCycles b c) (k : GbaCycles c d) : GbaCycles b d :=
  { gbPwr := k.gbPwr.trans h.gbPwr, gbCs := k.gbCs.trans h.gbCs, gbRd := k.gbRd.trans h.gbRd,
    gbWr := k.gbWr.trans h.gbWr, det := k.det.trans h.det, pwrGb := k.pwrGb.trans h.pwrGb,
    ownGb := k.ownGb.trans h.ownGb, mbcw := k.mbcw.trans h.mbcw, gbaPwr := k.gbaPwr.trans h.gbaPwr,
    gbaCsDir := k.gbaCsDir.trans h.gbaCsDir, gbaCs2Dir := k.gbaCs2Dir.trans h.gbaCs2Dir,
    gbaRdDir := k.gbaRdDir.trans h.gbaRdDir, gbaWrDir := k.gbaWrDir.trans h.gbaWrDir,
    pwrGba := k.pwrGba.trans h.pwrGba, ownGba := k.ownGba.trans h.ownGba, portD := k.portD.trans h.portD }

theorem SaveCycles.refl (b : Bus) : SaveCycles b b := { GbaCycles.refl b with crdActive := rfl, crdChip := rfl }

theorem SaveCycles.of {b c : Bus} (h : GbaCycles b c) (active : c.crdActive = b.crdActive)
    (chip : c.crdChip = b.crdChip) : SaveCycles b c := { h with crdActive := active, crdChip := chip }

theorem SaveCycles.trans {b c d : Bus} (h : SaveCycles b c) (k : SaveCycles c d) : SaveCycles b d :=
  { GbaCycles.trans h.toGbaCycles k.toGbaCycles with
    crdActive := k.crdActive.trans h.crdActive, crdChip := k.crdChip.trans h.crdChip }

/-! ## Chip select for the cartridge RAM window -/

variable (a : Half) (v : Bool) (b : Bus)

@[simp] theorem ramSelect_exp : (ramSelect a v b).exp = b.exp := by
  unfold ramSelect; split <;> rfl
@[simp] theorem ramSelect_crdActive : (ramSelect a v b).crdActive = b.crdActive := by
  unfold ramSelect; split <;> rfl
@[simp] theorem ramSelect_crdChip : (ramSelect a v b).crdChip = b.crdChip := by
  unfold ramSelect; split <;> rfl
@[simp] theorem ramSelect_pwrGb : (ramSelect a v b).pwrGb = b.pwrGb := by
  unfold ramSelect; split <;> rfl
@[simp] theorem ramSelect_pwrGba : (ramSelect a v b).pwrGba = b.pwrGba := by
  unfold ramSelect; split <;> rfl
@[simp] theorem ramSelect_ownGb : (ramSelect a v b).ownGb = b.ownGb := by
  unfold ramSelect; split <;> rfl
@[simp] theorem ramSelect_ownGba : (ramSelect a v b).ownGba = b.ownGba := by
  unfold ramSelect; split <;> rfl
@[simp] theorem ramSelect_mbcw : (ramSelect a v b).mbcw = b.mbcw := by
  unfold ramSelect; split <;> rfl
@[simp] theorem ramSelect_hist : (ramSelect a v b).hist = b.hist := by
  unfold ramSelect; split <;> rfl
@[simp] theorem ramSelect_tick : (ramSelect a v b).tick = b.tick := by
  unfold ramSelect; split <;> rfl
@[simp] theorem ramSelect_env : (ramSelect a v b).env = b.env := by
  unfold ramSelect; split <;> rfl
@[simp] theorem ramSelect_gbPwr : (ramSelect a v b).pins.gbPwr = b.pins.gbPwr := by
  unfold ramSelect; split <;> rfl
@[simp] theorem ramSelect_gbRd : (ramSelect a v b).pins.gbRd = b.pins.gbRd := by
  unfold ramSelect; split <;> rfl
@[simp] theorem ramSelect_gbWr : (ramSelect a v b).pins.gbWr = b.pins.gbWr := by
  unfold ramSelect; split <;> rfl
@[simp] theorem ramSelect_gbaPwr : (ramSelect a v b).pins.gbaPwr = b.pins.gbaPwr := by
  unfold ramSelect; split <;> rfl
@[simp] theorem ramSelect_gbaCs : (ramSelect a v b).pins.gbaCs = b.pins.gbaCs := by
  unfold ramSelect; split <;> rfl
@[simp] theorem ramSelect_gbaCs2 : (ramSelect a v b).pins.gbaCs2 = b.pins.gbaCs2 := by
  unfold ramSelect; split <;> rfl
@[simp] theorem ramSelect_gbaRd : (ramSelect a v b).pins.gbaRd = b.pins.gbaRd := by
  unfold ramSelect; split <;> rfl
@[simp] theorem ramSelect_gbaWr : (ramSelect a v b).pins.gbaWr = b.pins.gbaWr := by
  unfold ramSelect; split <;> rfl
@[simp] theorem ramSelect_det : (ramSelect a v b).pins.det = b.pins.det := by
  unfold ramSelect; split <;> rfl

@[simp] theorem ramSelect_gbCsDir : (ramSelect a v b).pins.gbCs.dir = b.pins.gbCs.dir := by
  unfold ramSelect; split <;> rfl

/-! ## The port registers after each expander write the engines make -/

@[simp] theorem expWrite2_ab_exp (v w : Byte) (b : Bus) : (expWrite2 .ab v w b).exp =
    { b.exp with a := { b.exp.a with out := v }, b := { b.exp.b with out := w } } := (rfl)
@[simp] theorem expWrite2_cd_exp (v w : Byte) (b : Bus) : (expWrite2 .cd v w b).exp =
    { b.exp with c := { b.exp.c with out := v }, d := { b.exp.d with out := w } } := (rfl)
@[simp] theorem expDir2_ab_exp (v w : Byte) (b : Bus) : (expDir2 .ab v w b).exp =
    { b.exp with a := { b.exp.a with dir := v }, b := { b.exp.b with dir := w } } := (rfl)
@[simp] theorem expDir2_cd_exp (v w : Byte) (b : Bus) : (expDir2 .cd v w b).exp =
    { b.exp with c := { b.exp.c with dir := v }, d := { b.exp.d with dir := w } } := (rfl)
@[simp] theorem expPull2_ab_exp (v w : Byte) (b : Bus) : (expPull2 .ab v w b).exp =
    { b.exp with a := { b.exp.a with pull := v }, b := { b.exp.b with pull := w } } := (rfl)
@[simp] theorem expPull2_cd_exp (v w : Byte) (b : Bus) : (expPull2 .cd v w b).exp =
    { b.exp with c := { b.exp.c with pull := v }, d := { b.exp.d with pull := w } } := (rfl)
@[simp] theorem expWrite_a_exp (v : Byte) (b : Bus) : (expWrite .a v b).exp =
    { b.exp with a := { b.exp.a with out := v } } := (rfl)
@[simp] theorem expWrite_c_exp (v : Byte) (b : Bus) : (expWrite .c v b).exp =
    { b.exp with c := { b.exp.c with out := v } } := (rfl)
@[simp] theorem expDir_a_exp (v : Byte) (b : Bus) : (expDir .a v b).exp =
    { b.exp with a := { b.exp.a with dir := v } } := (rfl)
@[simp] theorem expDir_c_exp (v : Byte) (b : Bus) : (expDir .c v b).exp =
    { b.exp with c := { b.exp.c with dir := v } } := (rfl)
@[simp] theorem expPull_c_exp (v : Byte) (b : Bus) : (expPull .c v b).exp =
    { b.exp with c := { b.exp.c with pull := v } } := (rfl)

/-! ## One primitive at a time -/

theorem gbRead_cycles (a : Half) (b : Bus) : GbCycles b (gbRead a b).2 := by
  constructor <;> simp [gbRead, setPin, getPin]

@[simp] theorem gbRead_mbcw (a : Half) (b : Bus) : (gbRead a b).2.mbcw = b.mbcw := by simp [gbRead]

theorem gbRead_adds (a : Half) (b : Bus) : Adds b (gbRead a b).2 [.gbR a (gbRead a b).1] := by
  simp [Adds, gbRead]

theorem gbWrite_cycles (a : Half) (d : Byte) (b : Bus) : GbCycles b (gbWrite a d b) := by
  constructor <;> simp [gbWrite, setPin, getPin]

@[simp] theorem gbWrite_mbcw (a : Half) (d : Byte) (b : Bus) : (gbWrite a d b).mbcw = b.mbcw := by simp [gbWrite]

theorem gbWrite_adds (a : Half) (d : Byte) (b : Bus) : Adds b (gbWrite a d b) [.gbW a d] := by
  simp [Adds, gbWrite]

theorem saveRead_cycles (a : Half) (b : Bus) : SaveCycles b (saveRead a b).2 := by
  refine .of ?_ (by simp [saveRead]) (by simp [saveRead])
  constructor <;> simp [saveRead, setPin, getPin]

theorem saveRead_adds (a : Half) (b : Bus) : Adds b (saveRead a b).2 [.saveR a (saveRead a b).1] := by
  simp [Adds, saveRead]

theorem saveWrite_cycles (a : Half) (d : Byte) (b : Bus) : SaveCycles b (saveWrite a d b) := by
  refine .of ?_ (by simp [saveWrite]) (by simp [saveWrite])
  constructor <;> simp [saveWrite, setPin, getPin]

theorem saveWrite_adds (a : Half) (d : Byte) (b : Bus) : Adds b (saveWrite a d b) [.saveW a d] := by
  simp [Adds, saveWrite]

theorem eepBegin_cycles (b : Bus) : SaveCycles b (eepBegin b) := by
  refine .of ?_ (by simp [eepBegin]) (by simp [eepBegin])
  constructor <;> simp [eepBegin, setPin, getPin]

theorem eepBegin_adds (b : Bus) : Adds b (eepBegin b) [.eepOpen] := by
  simp [Adds, eepBegin]

theorem eepOut_cycles (v : Bool) (b : Bus) : SaveCycles b (eepOut v b) := by
  refine .of ?_ (by simp [eepOut]) (by simp [eepOut])
  constructor <;> simp [eepOut, setPin, getPin]

theorem eepOut_adds (v : Bool) (b : Bus) : Adds b (eepOut v b) [.eepOutBit v] := by
  simp [Adds, eepOut]

theorem eepTurn_cycles (b : Bus) : SaveCycles b (eepTurn b) := by
  refine .of ?_ (by simp [eepTurn]) (by simp [eepTurn])
  constructor <;> simp [eepTurn]

theorem eepTurn_adds (b : Bus) : Adds b (eepTurn b) [.eepTurn] := by
  simp [Adds, eepTurn]

theorem eepIn_cycles (b : Bus) : SaveCycles b (eepIn b).2 := by
  refine .of ?_ (by simp [eepIn]) (by simp [eepIn])
  constructor <;> simp [eepIn, setPin, getPin]

theorem eepIn_adds (b : Bus) : Adds b (eepIn b).2 [.eepInBit (eepIn b).1] := by
  simp [Adds, eepIn]

theorem eepEnd_cycles (b : Bus) : SaveCycles b (eepEnd b) := by
  refine .of ?_ (by simp [eepEnd]) (by simp [eepEnd])
  constructor <;> simp [eepEnd, setPin, getPin]

theorem eepEnd_adds (b : Bus) : Adds b (eepEnd b) [.eepClose] := by
  simp [Adds, eepEnd]

theorem delay_cycles (t : DelayName) (b : Bus) : SaveCycles b (delay t b) := by
  refine .of ?_ (by simp) (by simp)
  constructor <;> simp

theorem delay_adds (t : DelayName) (b : Bus) : Adds b (delay t b) [.delay t] := rfl

theorem gbaLatch_cycles (ha : BitVec 24) (b : Bus) : GbaCycles b (gbaLatch ha b) := by
  constructor <;> simp [gbaLatch, setPin, getPin]

theorem gbaLatch_adds (ha : BitVec 24) (b : Bus) : Adds b (gbaLatch ha b) [.romLatch ha] := by
  simp [Adds, gbaLatch]

theorem gbaNext_cycles (b : Bus) : GbaCycles b (gbaNext b).2 := by
  constructor <;> simp [gbaNext, setPin, getPin]

@[simp] theorem gbaNext_crdActive (b : Bus) : (gbaNext b).2.crdActive = b.crdActive := by simp [gbaNext]

theorem gbaNext_adds (b : Bus) : Adds b (gbaNext b).2 [.romNext (gbaNext b).1] := by
  simp [Adds, gbaNext]

theorem gbaEnd_cycles (b : Bus) : GbaCycles b (gbaEnd b) := by
  constructor <;> simp [gbaEnd, setPin, getPin]

theorem gbaEnd_adds (b : Bus) : Adds b (gbaEnd b) [.romEnd] := by
  simp [Adds, gbaEnd]

@[simp] theorem gbaEnd_crdActive (b : Bus) : (gbaEnd b).crdActive = false := by simp [gbaEnd]

end Sys2Proof.Machine
end

