-- ==== Sys2Proof/Laws/Sequences.lean ====
section
/-! SUPPORT. What each sequence of cartridge primitives keeps, how much it returns, and the events it
records: one lemma of each kind for each sequence. -/

namespace Sys2Proof.Machine

/-! ## GB/GBC bus -/

theorem gbReadRange_cycles (a n : Nat) (b : Bus) : GbCycles b (gbReadRange a n b).2 :=
  gather_keeps GbCycles.refl GbCycles.trans _ (fun _ => gbRead_cycles _) n b

@[simp] theorem gbReadRange_mbcw (a n : Nat) (b : Bus) : (gbReadRange a n b).2.mbcw = b.mbcw :=
  gather_keeps (R := fun b c => c.mbcw = b.mbcw) (fun _ => rfl) (fun h k => k.trans h) _
    (fun _ => gbRead_mbcw _) n b

@[simp] theorem gbReadRange_length (a n : Nat) (b : Bus) : (gbReadRange a n b).1.length = n := gather_length _ _ _

/-- A range of reads records one `GbR` for each address, in order, with the value returned for it. -/
theorem gbReadRange_adds (a n : Nat) (b : Bus) :
    Adds b (gbReadRange a n b).2 (gbReads a (gbReadRange a n b).1) := by
  have h := gather_adds (fun k => gbRead (BitVec.ofNat 16 (a + k)))
    (fun k v => [.gbR (BitVec.ofNat 16 (a + k)) v]) (fun k => gbRead_adds _) n b
  rwa [flatten_mapIdx_one] at h

theorem gbWrites_cycles (ws : List (Half × Byte)) (b : Bus) : GbCycles b (gbWrites ws b) :=
  foldl_keeps GbCycles.refl GbCycles.trans _ (fun _ => gbWrite_cycles _ _) ws b

@[simp] theorem gbWrites_mbcw (ws : List (Half × Byte)) (b : Bus) : (gbWrites ws b).mbcw = b.mbcw :=
  foldl_keeps (R := fun b c => c.mbcw = b.mbcw) (fun _ => rfl) (fun h k => k.trans h) _
    (fun _ => gbWrite_mbcw _ _) ws b

/-- A list of writes records one `GbW` for each, in order. -/
theorem gbWrites_adds (ws : List (Half × Byte)) (b : Bus) : Adds b (gbWrites ws b) (gbWriteEvents ws) := by
  have h := foldl_adds (fun b (w : Half × Byte) => gbWrite w.1 w.2 b) (fun w => [.gbW w.1 w.2])
    (fun w => gbWrite_adds _ _) ws b
  rwa [flatten_map_one] at h

theorem mbcStep_cycles (ws : List (Half × Byte)) (g : Mbcw → Mbcw) (b : Bus) : GbCycles b (mbcStep ws g b) :=
  GbCycles.trans (gbWrites_cycles ws b) (by constructor <;> rfl)

/-- A bank operation records its register writes and nothing else. -/
theorem mbcStep_adds (ws : List (Half × Byte)) (g : Mbcw → Mbcw) (b : Bus) :
    Adds b (mbcStep ws g b) (gbWriteEvents ws) := gbWrites_adds ws b

@[simp] theorem mbcStep_mbcw (ws : List (Half × Byte)) (g : Mbcw → Mbcw) (b : Bus) :
    (mbcStep ws g b).mbcw = g b.mbcw := congrArg g (gbWrites_mbcw ws b)

/-! ## Save bus -/

theorem saveReadRange_cycles (a n : Nat) (b : Bus) : SaveCycles b (saveReadRange a n b).2 :=
  gather_keeps SaveCycles.refl SaveCycles.trans _ (fun _ => saveRead_cycles _) n b

@[simp] theorem saveReadRange_length (a n : Nat) (b : Bus) : (saveReadRange a n b).1.length = n :=
  gather_length _ _ _

/-- A range of save-bus reads records one `SaveR` for each address, in order, with its value. -/
theorem saveReadRange_adds (a n : Nat) (b : Bus) :
    Adds b (saveReadRange a n b).2 (saveReads a (saveReadRange a n b).1) := by
  have h := gather_adds (fun k => saveRead (BitVec.ofNat 16 (a + k)))
    (fun k v => [.saveR (BitVec.ofNat 16 (a + k)) v]) (fun k => saveRead_adds _) n b
  rwa [flatten_mapIdx_one] at h

theorem saveWrites_cycles (ws : List (Half × Byte)) (b : Bus) : SaveCycles b (saveWrites ws b) :=
  foldl_keeps SaveCycles.refl SaveCycles.trans _ (fun _ => saveWrite_cycles _ _) ws b

/-- A list of save-bus writes records one `SaveW` for each, in order. -/
theorem saveWrites_adds (ws : List (Half × Byte)) (b : Bus) :
    Adds b (saveWrites ws b) (saveWriteEvents ws) := by
  have h := foldl_adds (fun b (w : Half × Byte) => saveWrite w.1 w.2 b) (fun w => [.saveW w.1 w.2])
    (fun w => saveWrite_adds _ _) ws b
  rwa [flatten_map_one] at h

/-! ## EEPROM rows -/

theorem eepSend_cycles (bits : List Bool) (b : Bus) : SaveCycles b (eepSend bits b) :=
  foldl_keeps SaveCycles.refl SaveCycles.trans _ (fun _ => eepOut_cycles _) bits b

/-- Bits clocked out are recorded in order. -/
theorem eepSend_adds (bits : List Bool) (b : Bus) : Adds b (eepSend bits b) (bits.map .eepOutBit) := by
  have h := foldl_adds (fun b v => eepOut v b) (fun v => [.eepOutBit v]) (fun v => eepOut_adds _) bits b
  rwa [flatten_map_one] at h

/-- Bits clocked in, as one loop. -/
theorem eepIn_loop (n : Nat) (b : Bus) :
    SaveCycles b (gather n (fun _ => eepIn) b).2 ∧
      Adds b (gather n (fun _ => eepIn) b).2 ((gather n (fun _ => eepIn) b).1.map .eepInBit) := by
  refine ⟨gather_keeps SaveCycles.refl SaveCycles.trans _ (fun _ => eepIn_cycles) n b, ?_⟩
  have h := gather_adds (fun _ => eepIn) (fun _ v => [.eepInBit v]) (fun _ => eepIn_adds) n b
  rwa [flatten_mapIdx_one, mapIdx_ignore] at h

@[simp] theorem bytesOfBits_length (n : Nat) (bits : List Bool) : (bytesOfBits n bits).length = n := by
  induction n generalizing bits with
  | zero => rfl
  | succ n ih => simp [bytesOfBits, ih]

@[simp] theorem eepReadRow_length (frm : Framing) (row : Nat) (b : Bus) : (eepReadRow frm row b).1.length = 8 :=
  bytesOfBits_length _ _

/-- A row read: what it keeps, and its events with the 68 bits clocked in, the last 64 of which spell the row. -/
theorem eepReadRow_spec (frm : Framing) (row : Nat) (b : Bus) :
    SaveCycles b (eepReadRow frm row b).2 ∧
      ∃ nibble bits : List Bool, nibble.length = 4 ∧ bits.length = 64 ∧
        (eepReadRow frm row b).1 = bytesOfBits 8 bits ∧
        Adds b (eepReadRow frm row b).2 (rowRead frm row nibble bits) := by
  let c := eepTurn (eepSend (eepReadRequest frm row) (eepBegin b))
  let d := (gather 4 (fun _ => eepIn) c).2
  have h1 := eepIn_loop 4 c
  have h2 := eepIn_loop 64 d
  have h0 : Adds b c ([.eepOpen] ++ (eepReadRequest frm row).map .eepOutBit ++ [.eepTurn]) :=
    ((eepBegin_adds b).append (eepSend_adds _ _)).append (eepTurn_adds _)
  exact ⟨((((eepBegin_cycles b).trans (eepSend_cycles _ _)).trans (eepTurn_cycles _)).trans
      (h1.1.trans h2.1)).trans (eepEnd_cycles _), (gather 4 (fun _ => eepIn) c).1,
      (gather 64 (fun _ => eepIn) d).1, gather_length _ _ _, gather_length _ _ _, rfl,
      ((h0.append h1.2).append h2.2).append (eepEnd_adds _)⟩

/-- A row write: what it keeps and its events, the programming delay last. -/
theorem eepWriteRow_spec (frm : Framing) (row : Nat) (data : List Byte) (b : Bus) :
    SaveCycles b (eepWriteRow frm row data b) ∧
      Adds b (eepWriteRow frm row data b) (rowWrite frm row data) :=
  ⟨((eepBegin_cycles b).trans (eepSend_cycles _ _)).trans ((eepEnd_cycles _).trans (delay_cycles _ _)),
    ((eepBegin_adds b).append (eepSend_adds (eepWriteRequest frm row data) _)).append
      ((eepEnd_adds _).append (delay_adds .eepWrite _))⟩

/-! ## Flash commands -/

/-- A command that is save-bus writes and a wait: what it keeps and its events. -/
theorem saveWrites_delay_spec (ws : List (Half × Byte)) (t : DelayName) (b : Bus) :
    SaveCycles b (delay t (saveWrites ws b)) ∧
      Adds b (delay t (saveWrites ws b)) (saveWriteEvents ws ++ [.delay t]) :=
  ⟨(saveWrites_cycles ws b).trans (delay_cycles t _), (saveWrites_adds ws b).append (delay_adds t _)⟩

/-- The flash ID read: eight events, the two values being the IDs returned (`45_gba_save.md` R384). -/
theorem flashId_spec (b : Bus) :
    SaveCycles b (flashId b).2 ∧
      Adds b (flashId b).2
        (saveWriteEvents [(0x5555, 0xAA), (0x2AAA, 0x55), (0x5555, 0x90)] ++
          [.saveR 0x0000 (flashId b).1.1, .saveR 0x0001 (flashId b).1.2] ++
          saveWriteEvents [(0x5555, 0xAA), (0x2AAA, 0x55), (0x5555, 0xF0)]) :=
  ⟨(saveWrites_cycles _ b).trans
      ((saveRead_cycles _ _).trans ((saveRead_cycles _ _).trans (saveWrites_cycles _ _))),
    ((saveWrites_adds _ b).append ((saveRead_adds 0x0000 _).append (saveRead_adds 0x0001 _))).append
      (saveWrites_adds _ _)⟩

/-- Consecutive save-bus writes of an array. -/
theorem forSaveWrites_spec (f : Nat → Half) (data : List Byte) (b : Bus) :
    SaveCycles b (forBytes (fun k v => saveWrite (f k) v) 0 data b) ∧
      Adds b (forBytes (fun k v => saveWrite (f k) v) 0 data b) (data.mapIdx fun k v => .saveW (f k) v) := by
  refine ⟨forBytes_keeps SaveCycles.refl SaveCycles.trans _ (fun _ _ => saveWrite_cycles _ _) 0 data b, ?_⟩
  have h := forBytes_adds (fun k v => saveWrite (f k) v) (fun k v => [.saveW (f k) v])
    (fun _ _ => saveWrite_adds _ _) 0 data b
  rwa [flatten_mapIdx_one (fun k v => BusEvent.saveW (f (0 + k)) v),
    show (fun k v => BusEvent.saveW (f (0 + k)) v) = fun k v => BusEvent.saveW (f k) v by simp] at h

/-! ## ROM bursts -/

theorem burstStep_spec (ha k : Nat) (b : Bus) :
    GbaCycles b (burstStep ha k b).2 ∧
      Adds b (burstStep ha k b).2
        ((if 0 < k ∧ (ha + k) % 65536 = 0 then [.romEnd, .romLatch (BitVec.ofNat 24 (ha + k))] else []) ++
          [.romNext (burstStep ha k b).1]) := by
  unfold burstStep Config.gbaRelatch
  split
  · exact ⟨((gbaEnd_cycles b).trans (gbaLatch_cycles _ _)).trans (gbaNext_cycles _),
      ((gbaEnd_adds b).append (gbaLatch_adds _ _)).append (gbaNext_adds _)⟩
  · exact ⟨gbaNext_cycles b, gbaNext_adds b⟩

/-- Inside a burst the continuous read is of chip 0. -/
theorem burstStep_crdChip (ha k : Nat) (b : Bus) (h : b.crdChip = .ab) : (burstStep ha k b).2.crdChip = .ab := by
  unfold burstStep
  split <;> simp [gbaNext, gbaEnd, gbaLatch, h]

@[simp] theorem gbaRomRead_crdChip (ba n : Nat) (b : Bus) : (gbaRomRead ba n b).2.crdChip = .ab := by
  have h := gather_keeps (R := fun b c => b.crdChip = .ab → c.crdChip = .ab) (fun _ h => h)
    (fun h k e => k (h e)) _ (fun k b => burstStep_crdChip (ba / 2) k b) (n / 2)
    (gbaLatch (BitVec.ofNat 24 (ba / 2)) b) (by simp [gbaLatch])
  simpa [gbaRomRead, gbaEnd] using h

@[simp] theorem gbaRomRead_crdActive (ba n : Nat) (b : Bus) : (gbaRomRead ba n b).2.crdActive = false := by
  simp [gbaRomRead]

theorem burstBytes_length (vs : List Half) : (burstBytes vs).length = 2 * vs.length := by
  induction vs with
  | nil => rfl
  | cons v vs ih =>
    simp only [burstBytes, halfBytes, List.map_cons, List.flatten_cons, List.length_append, List.length_cons,
      List.length_nil] at ih ⊢
    omega

/-- A ROM burst: what it keeps, its events, and the bytes it gives, two for each halfword. -/
theorem gbaRomRead_spec (ba n : Nat) (b : Bus) :
    GbaCycles b (gbaRomRead ba n b).2 ∧
      ∃ vs : List Half, vs.length = n / 2 ∧ (gbaRomRead ba n b).1 = burstBytes vs ∧
        Adds b (gbaRomRead ba n b).2 (burst (ba / 2) vs) := by
  refine ⟨((gbaLatch_cycles _ b).trans
      (gather_keeps GbaCycles.refl GbaCycles.trans _ (fun k b => (burstStep_spec (ba / 2) k b).1) _ _)).trans
      (gbaEnd_cycles _), _, gather_length _ _ _, rfl, ?_⟩
  exact ((gbaLatch_adds _ b).append (gather_adds _ _ (fun k b => (burstStep_spec (ba / 2) k b).2) _ _)).append
    (gbaEnd_adds _)

/-- A burst of `n` bytes gives two bytes for each halfword. -/
@[simp] theorem gbaRomRead_length (ba n : Nat) (b : Bus) : (gbaRomRead ba n b).1.length = 2 * (n / 2) := by
  obtain ⟨-, vs, h, e, -⟩ := gbaRomRead_spec ba n b
  rw [e, burstBytes_length, h]

end Sys2Proof.Machine
end

