-- ==== Sys2Proof/Laws/Power.lean ====
section
/-! SUPPORT. What the power sequencers do, said once for each: the pins and ports they leave, what they
keep, the events they record. -/

namespace Sys2Proof.Machine

theorem GbaSideKept.trans {b c d : Bus} (h : GbaSideKept b c) (k : GbaSideKept c d) : GbaSideKept b d :=
  { gbaPwr := k.gbaPwr.trans h.gbaPwr, gbaCs := k.gbaCs.trans h.gbaCs, gbaCs2 := k.gbaCs2.trans h.gbaCs2,
    gbaRd := k.gbaRd.trans h.gbaRd, gbaWr := k.gbaWr.trans h.gbaWr, det := k.det.trans h.det,
    pwrGba := k.pwrGba.trans h.pwrGba, ownGba := k.ownGba.trans h.ownGba,
    crdActive := k.crdActive.trans h.crdActive, crdChip := k.crdChip.trans h.crdChip }

theorem GbSideKept.trans {b c d : Bus} (h : GbSideKept b c) (k : GbSideKept c d) : GbSideKept b d :=
  { gbPwr := k.gbPwr.trans h.gbPwr, gbCs := k.gbCs.trans h.gbCs, gbRd := k.gbRd.trans h.gbRd,
    gbWr := k.gbWr.trans h.gbWr, det := k.det.trans h.det, pwrGb := k.pwrGb.trans h.pwrGb,
    ownGb := k.ownGb.trans h.ownGb, mbcw := k.mbcw.trans h.mbcw }

/-- Bus cycles of the GB slot keep the GBA side. -/
theorem GbCycles.side {b c : Bus} (h : GbCycles b c) : GbaSideKept b c :=
  { gbaPwr := h.gbaPwr, gbaCs := h.gbaCs, gbaCs2 := h.gbaCs2, gbaRd := h.gbaRd, gbaWr := h.gbaWr, det := h.det,
    pwrGba := h.pwrGba, ownGba := h.ownGba, crdActive := h.crdActive, crdChip := h.crdChip }

/-- Bus cycles of the GBA slot keep the GB side. -/
theorem GbaCycles.side {b c : Bus} (h : GbaCycles b c) : GbSideKept b c :=
  { gbPwr := h.gbPwr, gbCs := h.gbCs, gbRd := h.gbRd, gbWr := h.gbWr, det := h.det, pwrGb := h.pwrGb,
    ownGb := h.ownGb, mbcw := h.mbcw }

@[simp] theorem drivePin_pins (p : Pin) (v : Bool) (b : Bus) :
    (drivePin p v b).pins = setPin p (.driven v) b.pins := by
  cases p <;> rfl

/-- The GB default pin state: what it sets and what it keeps. -/
theorem gbDefaults_spec (b : Bus) :
    GbDefault b (gbDefaults b) ∧ GbaSideKept b (gbDefaults b) ∧ (gbDefaults b).hist = b.hist ∧
      (gbDefaults b).pwrGb = b.pwrGb ∧ (gbDefaults b).ownGb = b.ownGb ∧ (gbDefaults b).mbcw = b.mbcw ∧
      (gbDefaults b).pins.gbPwr = b.pins.gbPwr := by
  refine ⟨?_, ?_, ?_, ?_, ?_, ?_, ?_⟩
  · constructor <;> simp [gbDefaults, setPin, PortReg.grounded]
  · constructor <;> simp [gbDefaults, setPin]
  all_goals simp [gbDefaults, setPin]

/-- The GBA default pin state: what it sets and what it keeps. -/
theorem gbaDefaults_spec (b : Bus) :
    GbaDefault b (gbaDefaults b) ∧ GbSideKept b (gbaDefaults b) ∧ (gbaDefaults b).hist = b.hist ∧
      (gbaDefaults b).pwrGba = b.pwrGba ∧ (gbaDefaults b).ownGba = b.ownGba ∧
      (gbaDefaults b).crdActive = b.crdActive ∧ (gbaDefaults b).crdChip = b.crdChip ∧
      (gbaDefaults b).pins.gbaPwr = b.pins.gbaPwr := by
  refine ⟨?_, ?_, ?_, ?_, ?_, ?_, ?_, ?_⟩
  · constructor <;> simp [gbaDefaults, setPin, PortReg.lowPulled]
  · constructor <;> simp [gbaDefaults, setPin]
  all_goals simp [gbaDefaults, setPin]

/-- Everything a GB power-up does (`42_power.md` R231, R232). -/
structure GbUp (b b' : Bus) : Prop where
  pins : GbDefault b b'
  side : GbaSideKept b b'
  flag : b'.pwrGb = true
  owner : b'.ownGb = b.ownGb
  events : Adds b b' (powerOn .gb b.pwrGb)
  record : b'.mbcw = if b.pwrGb then b.mbcw else .nothing
  power : b'.pins.gbPwr = if b.pwrGb then b.pins.gbPwr else .driven (Config.pwrOnLevel .gb)

theorem gbPowerUp_spec (b : Bus) : GbUp b (gbPowerUp b) := by
  obtain ⟨hd, hs, hh, hp, ho, hm, hw⟩ := gbDefaults_spec b
  unfold gbPowerUp
  simp only [hp]
  cases hb : b.pwrGb
  · refine { pins := ?_, side := ?_, flag := rfl, owner := ?_, events := ?_, record := by simp [hb], power := ?_ }
    · constructor <;> simp [setPin, hd.cs, hd.rd, hd.wr, hd.portA, hd.portB, hd.portC, hd.portD]
    · constructor <;> simp [setPin, hs.gbaPwr, hs.gbaCs, hs.gbaCs2, hs.gbaRd, hs.gbaWr, hs.det, hs.pwrGba,
        hs.ownGba, hs.crdActive, hs.crdChip]
    · simp [ho]
    · simp [Adds, powerOn, hh, hb]
    · simp [setPin, hb]
  · exact { pins := hd, side := hs, flag := by simp [hp, hb], owner := by simp [ho],
            events := by simp [Adds, powerOn, hh, hb], record := by simp [hm, hb], power := by simp [hw, hb] }

/-- Everything a GBA power-up does (`42_power.md` R231, R234). -/
structure GbaUp (b b' : Bus) : Prop where
  pins : GbaDefault b b'
  side : GbSideKept b b'
  flag : b'.pwrGba = true
  owner : b'.ownGba = b.ownGba
  events : Adds b b' (powerOn .gba b.pwrGba)
  stream : b'.crdActive = b.crdActive
  chip : b'.crdChip = b.crdChip
  power : b'.pins.gbaPwr = if b.pwrGba then b.pins.gbaPwr else .driven (Config.pwrOnLevel .gba)

theorem gbaPowerUp_spec (b : Bus) : GbaUp b (gbaPowerUp b) := by
  obtain ⟨hd, hs, hh, hp, ho, hc, hk, hw⟩ := gbaDefaults_spec b
  unfold gbaPowerUp
  simp only [hp]
  cases hb : b.pwrGba
  · refine { pins := ?_, side := ?_, flag := rfl, owner := ?_, events := ?_, stream := ?_, chip := ?_, power := ?_ }
    · constructor <;> simp [setPin, hd.cs, hd.cs2, hd.rd, hd.wr, hd.portA, hd.portB, hd.portC, hd.portD]
    · constructor <;> simp [setPin, hs.gbPwr, hs.gbCs, hs.gbRd, hs.gbWr, hs.det, hs.pwrGb, hs.ownGb, hs.mbcw]
    · simp [ho]
    · simp [Adds, powerOn, hh, hb]
    · simp [hc]
    · simp [hk]
    · simp [setPin, hb]
  · exact { pins := hd, side := hs, flag := by simp [hp, hb], owner := by simp [ho],
            events := by simp [Adds, powerOn, hh, hb], stream := by simp [hc], chip := by simp [hk],
            power := by simp [hw, hb] }

@[simp] theorem floatLines_pins (b : Bus) : (floatLines b).pins = b.pins := by simp [floatLines]
@[simp] theorem floatLines_hist (b : Bus) : (floatLines b).hist = b.hist := by simp [floatLines]
@[simp] theorem floatLines_pwrGb (b : Bus) : (floatLines b).pwrGb = b.pwrGb := by simp [floatLines]
@[simp] theorem floatLines_pwrGba (b : Bus) : (floatLines b).pwrGba = b.pwrGba := by simp [floatLines]
@[simp] theorem floatLines_ownGb (b : Bus) : (floatLines b).ownGb = b.ownGb := by simp [floatLines]
@[simp] theorem floatLines_ownGba (b : Bus) : (floatLines b).ownGba = b.ownGba := by simp [floatLines]
@[simp] theorem floatLines_crdActive (b : Bus) : (floatLines b).crdActive = b.crdActive := by simp [floatLines]
@[simp] theorem floatLines_crdChip (b : Bus) : (floatLines b).crdChip = b.crdChip := by simp [floatLines]
@[simp] theorem floatLines_mbcw (b : Bus) : (floatLines b).mbcw = b.mbcw := by simp [floatLines]

/-- Phase 1 leaves every pull-up off, which phase 3 keeps (`42_power.md` R236). -/
@[simp] theorem floatLines_pull (b : Bus) :
    (floatLines b).exp.a.pull = 0 ∧ (floatLines b).exp.b.pull = 0 ∧ (floatLines b).exp.c.pull = 0 ∧
      (floatLines b).exp.d.pull = 0 := by
  simp [floatLines]

/-- Phase 3 on lines whose pull-ups are off grounds them all. -/
theorem groundLines_exp (b : Bus) (ha : b.exp.a.pull = 0) (hb : b.exp.b.pull = 0) (hc : b.exp.c.pull = 0)
    (hd : b.exp.d.pull = 0) : LinesGrounded (groundLines b) := by
  simp [LinesGrounded, groundLines, PortReg.grounded, ha, hb, hc, hd]

@[simp] theorem groundLines_pins (b : Bus) : (groundLines b).pins = b.pins := by simp [groundLines]
@[simp] theorem groundLines_hist (b : Bus) : (groundLines b).hist = b.hist := by simp [groundLines]
@[simp] theorem groundLines_pwrGb (b : Bus) : (groundLines b).pwrGb = b.pwrGb := by simp [groundLines]
@[simp] theorem groundLines_pwrGba (b : Bus) : (groundLines b).pwrGba = b.pwrGba := by simp [groundLines]
@[simp] theorem groundLines_ownGb (b : Bus) : (groundLines b).ownGb = b.ownGb := by simp [groundLines]
@[simp] theorem groundLines_ownGba (b : Bus) : (groundLines b).ownGba = b.ownGba := by simp [groundLines]
@[simp] theorem groundLines_crdActive (b : Bus) : (groundLines b).crdActive = b.crdActive := by simp [groundLines]
@[simp] theorem groundLines_crdChip (b : Bus) : (groundLines b).crdChip = b.crdChip := by simp [groundLines]
@[simp] theorem groundLines_mbcw (b : Bus) : (groundLines b).mbcw = b.mbcw := by simp [groundLines]

@[simp] theorem gbRelease_pwrGb (b : Bus) : (gbRelease b).pwrGb = b.pwrGb := by simp [gbRelease]
@[simp] theorem gbRelease_pwrGba (b : Bus) : (gbRelease b).pwrGba = b.pwrGba := by simp [gbRelease]
@[simp] theorem gbRelease_ownGb (b : Bus) : (gbRelease b).ownGb = b.ownGb := by simp [gbRelease]
@[simp] theorem gbRelease_ownGba (b : Bus) : (gbRelease b).ownGba = b.ownGba := by simp [gbRelease]
@[simp] theorem gbRelease_crdActive (b : Bus) : (gbRelease b).crdActive = b.crdActive := by simp [gbRelease]
@[simp] theorem gbRelease_crdChip (b : Bus) : (gbRelease b).crdChip = b.crdChip := by simp [gbRelease]
@[simp] theorem gbRelease_mbcw (b : Bus) : (gbRelease b).mbcw = b.mbcw := by simp [gbRelease]
@[simp] theorem gbRelease_gbaPwr (b : Bus) : (gbRelease b).pins.gbaPwr = b.pins.gbaPwr := by simp [gbRelease, setPin, getPin]
@[simp] theorem gbRelease_gbaCs (b : Bus) : (gbRelease b).pins.gbaCs = b.pins.gbaCs := by simp [gbRelease, setPin, getPin]
@[simp] theorem gbRelease_gbaCs2 (b : Bus) : (gbRelease b).pins.gbaCs2 = b.pins.gbaCs2 := by simp [gbRelease, setPin, getPin]
@[simp] theorem gbRelease_gbaRd (b : Bus) : (gbRelease b).pins.gbaRd = b.pins.gbaRd := by simp [gbRelease, setPin, getPin]
@[simp] theorem gbRelease_gbaWr (b : Bus) : (gbRelease b).pins.gbaWr = b.pins.gbaWr := by simp [gbRelease, setPin, getPin]
@[simp] theorem gbRelease_det (b : Bus) : (gbRelease b).pins.det = b.pins.det := by simp [gbRelease, setPin, getPin]
@[simp] theorem gbGround_pwrGb (b : Bus) : (gbGround b).pwrGb = b.pwrGb := by simp [gbGround]
@[simp] theorem gbGround_pwrGba (b : Bus) : (gbGround b).pwrGba = b.pwrGba := by simp [gbGround]
@[simp] theorem gbGround_ownGb (b : Bus) : (gbGround b).ownGb = b.ownGb := by simp [gbGround]
@[simp] theorem gbGround_ownGba (b : Bus) : (gbGround b).ownGba = b.ownGba := by simp [gbGround]
@[simp] theorem gbGround_crdActive (b : Bus) : (gbGround b).crdActive = b.crdActive := by simp [gbGround]
@[simp] theorem gbGround_crdChip (b : Bus) : (gbGround b).crdChip = b.crdChip := by simp [gbGround]
@[simp] theorem gbGround_mbcw (b : Bus) : (gbGround b).mbcw = b.mbcw := by simp [gbGround]
@[simp] theorem gbGround_gbaPwr (b : Bus) : (gbGround b).pins.gbaPwr = b.pins.gbaPwr := by simp [gbGround, setPin]
@[simp] theorem gbGround_gbaCs (b : Bus) : (gbGround b).pins.gbaCs = b.pins.gbaCs := by simp [gbGround, setPin]
@[simp] theorem gbGround_gbaCs2 (b : Bus) : (gbGround b).pins.gbaCs2 = b.pins.gbaCs2 := by simp [gbGround, setPin]
@[simp] theorem gbGround_gbaRd (b : Bus) : (gbGround b).pins.gbaRd = b.pins.gbaRd := by simp [gbGround, setPin]
@[simp] theorem gbGround_gbaWr (b : Bus) : (gbGround b).pins.gbaWr = b.pins.gbaWr := by simp [gbGround, setPin]
@[simp] theorem gbGround_det (b : Bus) : (gbGround b).pins.det = b.pins.det := by simp [gbGround, setPin]
@[simp] theorem gbRelease_hist (b : Bus) : (gbRelease b).hist = .power .gb false :: b.hist := by simp [gbRelease]
@[simp] theorem gbRelease_gbPwr (b : Bus) : (gbRelease b).pins.gbPwr = .driven (!Config.pwrOnLevel .gb) := by
  simp [gbRelease, setPin]
@[simp] theorem gbRelease_exp (b : Bus) : (gbRelease b).exp = (floatLines b).exp := by simp [gbRelease]
@[simp] theorem gbGround_hist (b : Bus) : (gbGround b).hist = b.hist := by simp [gbGround]
@[simp] theorem gbGround_gbPwr (b : Bus) : (gbGround b).pins.gbPwr = b.pins.gbPwr := by simp [gbGround, setPin]
@[simp] theorem gbGround_exp (b : Bus) : (gbGround b).exp = (groundLines b).exp := by simp [gbGround]
@[simp] theorem gbGround_gbCs (b : Bus) : (gbGround b).pins.gbCs = .driven false := by simp [gbGround, setPin]
@[simp] theorem gbGround_gbRd (b : Bus) : (gbGround b).pins.gbRd = .driven false := by simp [gbGround, setPin]
@[simp] theorem gbGround_gbWr (b : Bus) : (gbGround b).pins.gbWr = .driven false := by simp [gbGround, setPin]

@[simp] theorem gbaRelease_pwrGb (b : Bus) : (gbaRelease b).pwrGb = b.pwrGb := by simp [gbaRelease]
@[simp] theorem gbaRelease_pwrGba (b : Bus) : (gbaRelease b).pwrGba = b.pwrGba := by simp [gbaRelease]
@[simp] theorem gbaRelease_ownGb (b : Bus) : (gbaRelease b).ownGb = b.ownGb := by simp [gbaRelease]
@[simp] theorem gbaRelease_ownGba (b : Bus) : (gbaRelease b).ownGba = b.ownGba := by simp [gbaRelease]
@[simp] theorem gbaRelease_crdActive (b : Bus) : (gbaRelease b).crdActive = b.crdActive := by simp [gbaRelease]
@[simp] theorem gbaRelease_crdChip (b : Bus) : (gbaRelease b).crdChip = b.crdChip := by simp [gbaRelease]
@[simp] theorem gbaRelease_mbcw (b : Bus) : (gbaRelease b).mbcw = b.mbcw := by simp [gbaRelease]
@[simp] theorem gbaRelease_gbPwr (b : Bus) : (gbaRelease b).pins.gbPwr = b.pins.gbPwr := by simp [gbaRelease, setPin, getPin]
@[simp] theorem gbaRelease_gbCs (b : Bus) : (gbaRelease b).pins.gbCs = b.pins.gbCs := by simp [gbaRelease, setPin, getPin]
@[simp] theorem gbaRelease_gbRd (b : Bus) : (gbaRelease b).pins.gbRd = b.pins.gbRd := by simp [gbaRelease, setPin, getPin]
@[simp] theorem gbaRelease_gbWr (b : Bus) : (gbaRelease b).pins.gbWr = b.pins.gbWr := by simp [gbaRelease, setPin, getPin]
@[simp] theorem gbaRelease_det (b : Bus) : (gbaRelease b).pins.det = b.pins.det := by simp [gbaRelease, setPin, getPin]
@[simp] theorem gbaGround_pwrGb (b : Bus) : (gbaGround b).pwrGb = b.pwrGb := by simp [gbaGround]
@[simp] theorem gbaGround_pwrGba (b : Bus) : (gbaGround b).pwrGba = b.pwrGba := by simp [gbaGround]
@[simp] theorem gbaGround_ownGb (b : Bus) : (gbaGround b).ownGb = b.ownGb := by simp [gbaGround]
@[simp] theorem gbaGround_ownGba (b : Bus) : (gbaGround b).ownGba = b.ownGba := by simp [gbaGround]
@[simp] theorem gbaGround_crdActive (b : Bus) : (gbaGround b).crdActive = b.crdActive := by simp [gbaGround]
@[simp] theorem gbaGround_crdChip (b : Bus) : (gbaGround b).crdChip = b.crdChip := by simp [gbaGround]
@[simp] theorem gbaGround_mbcw (b : Bus) : (gbaGround b).mbcw = b.mbcw := by simp [gbaGround]
@[simp] theorem gbaGround_gbPwr (b : Bus) : (gbaGround b).pins.gbPwr = b.pins.gbPwr := by simp [gbaGround, setPin]
@[simp] theorem gbaGround_gbCs (b : Bus) : (gbaGround b).pins.gbCs = b.pins.gbCs := by simp [gbaGround, setPin]
@[simp] theorem gbaGround_gbRd (b : Bus) : (gbaGround b).pins.gbRd = b.pins.gbRd := by simp [gbaGround, setPin]
@[simp] theorem gbaGround_gbWr (b : Bus) : (gbaGround b).pins.gbWr = b.pins.gbWr := by simp [gbaGround, setPin]
@[simp] theorem gbaGround_det (b : Bus) : (gbaGround b).pins.det = b.pins.det := by simp [gbaGround, setPin]
@[simp] theorem gbaRelease_hist (b : Bus) : (gbaRelease b).hist = .power .gba false :: b.hist := by simp [gbaRelease]
@[simp] theorem gbaRelease_gbaPwr (b : Bus) : (gbaRelease b).pins.gbaPwr = .driven (!Config.pwrOnLevel .gba) := by
  simp [gbaRelease, setPin]
@[simp] theorem gbaRelease_exp (b : Bus) : (gbaRelease b).exp = (floatLines b).exp := by simp [gbaRelease]
@[simp] theorem gbaGround_hist (b : Bus) : (gbaGround b).hist = b.hist := by simp [gbaGround]
@[simp] theorem gbaGround_gbaPwr (b : Bus) : (gbaGround b).pins.gbaPwr = b.pins.gbaPwr := by simp [gbaGround, setPin]
@[simp] theorem gbaGround_exp (b : Bus) : (gbaGround b).exp = (groundLines b).exp := by simp [gbaGround]
@[simp] theorem gbaGround_gbaCs (b : Bus) : (gbaGround b).pins.gbaCs = .driven false := by simp [gbaGround, setPin]
@[simp] theorem gbaGround_gbaCs2 (b : Bus) : (gbaGround b).pins.gbaCs2 = .driven false := by simp [gbaGround, setPin]
@[simp] theorem gbaGround_gbaRd (b : Bus) : (gbaGround b).pins.gbaRd = .driven false := by simp [gbaGround, setPin]
@[simp] theorem gbaGround_gbaWr (b : Bus) : (gbaGround b).pins.gbaWr = .driven false := by simp [gbaGround, setPin]

/-- Everything a GB power-down does (`42_power.md` R236). -/
structure GbDown (b b' : Bus) : Prop where
  grounded : GbGrounded b'
  side : GbaSideKept b b'
  events : Adds b b' [.power .gb false]
  record : b'.mbcw = b.mbcw

theorem gbPowerDown_spec (b : Bus) : GbDown b (gbPowerDown b) := by
  have hl : LinesGrounded (groundLines (gbRelease b)) := groundLines_exp _ (by simp) (by simp) (by simp) (by simp)
  refine { grounded := ?_, side := ?_, events := ?_, record := ?_ }
  · refine { flag := by simp [gbPowerDown], owner := by simp [gbPowerDown], lines := ?_, cs := ?_, rd := ?_, wr := ?_, pwr := ?_ }
    · have e : (gbPowerDown b).exp = (groundLines (gbRelease b)).exp := by simp [gbPowerDown]
      exact e.trans hl
    all_goals simp [gbPowerDown]
  · constructor <;> simp [gbPowerDown]
  · simp [Adds, gbPowerDown]
  · simp [gbPowerDown]

/-- Everything a GBA power-down does (`42_power.md` R237). -/
structure GbaDown (b b' : Bus) : Prop where
  grounded : GbaGrounded b'
  side : GbSideKept b b'
  events : Adds b b' [.power .gba false]
  stream : b'.crdActive = b.crdActive
  chip : b'.crdChip = b.crdChip

theorem gbaPowerDown_spec (b : Bus) : GbaDown b (gbaPowerDown b) := by
  have hl : LinesGrounded (groundLines (gbaRelease b)) := groundLines_exp _ (by simp) (by simp) (by simp) (by simp)
  refine { grounded := ?_, side := ?_, events := ?_, stream := ?_, chip := ?_ }
  · refine { flag := by simp [gbaPowerDown], owner := by simp [gbaPowerDown], lines := ?_, cs := ?_, cs2 := ?_,
             rd := ?_, wr := ?_, pwr := ?_ }
    · have e : (gbaPowerDown b).exp = (groundLines (gbaRelease b)).exp := by simp [gbaPowerDown]
      exact e.trans hl
    all_goals simp [gbaPowerDown]
  · constructor <;> simp [gbaPowerDown]
  · simp [Adds, gbaPowerDown]
  · simp [gbaPowerDown]
  · simp [gbaPowerDown]

end Sys2Proof.Machine
end

