-- ==== Sys2Proof/Laws/Outcome.lean ====
section
/-! SUPPORT. How an operation ends: when its checks pass, what a passed check tells, and the state each shared
form of an operation then gives. -/

namespace Sys2Proof.Machine

variable {s t : State} {op : Instr}

/-! ## The checks -/

theorem needInit_ok (h : s.spiReady = true) : needInit op s = .ok () := by simp [needInit, h]

theorem needInit_inv {u : Unit} (h : needInit op s = .ok u) : s.spiReady = true := by
  unfold needInit at h
  split at h
  · assumption
  · cases h

theorem needBuf_ok {n : Nat} (h : BufferFits n s) : needBuf n s = .ok () := by
  simp [needBuf, h.1, h.2]

theorem needBuf_inv {n : Nat} {u : Unit} (h : needBuf n s = .ok u) : BufferFits n s := by
  unfold needBuf at h
  split at h
  · cases h
  · split at h
    · exact ⟨by simpa using ‹¬s.me.bufSet = false›, ‹_›⟩
    · cases h

theorem BufferFits.mono {m n : Nat} (h : BufferFits n s) (le : m ≤ n) : BufferFits m s :=
  ⟨h.1, by have := h.2; omega⟩

theorem raceFree_ok (h : Calm s) : raceFree s = .ok () := by
  have h : intruded s = none := h
  simp [raceFree, h]

theorem raceFree_inv {u : Unit} (h : raceFree s = .ok u) : Calm s := by
  unfold raceFree at h
  split at h
  · cases h
  · assumption

theorem busReady_ok (h : Ready s) : busReady op s = .ok () := by
  simp [busReady, raceFree_ok h.calm, h.closed, h.selected, bind, Except.bind]

theorem busReady_inv {u : Unit} (h : busReady op s = .ok u) :
    raceFree s = .ok () ∧ s.bus.crdActive = false ∧ s.csForceIdle = false := by
  unfold busReady at h
  cases hr : raceFree s with
  | error f => simp [hr, bind, Except.bind] at h
  | ok v =>
    simp only [hr, bind, Except.bind] at h
    split at h
    · cases h
    · split at h
      · cases h
      · exact ⟨rfl, by simpa using ‹¬s.bus.crdActive = true›, by simpa using ‹¬s.csForceIdle = true›⟩

theorem streamReady_ok (calm : Calm s) (opened : s.bus.crdActive = true) (sel : s.csForceIdle = false) :
    streamReady op s = .ok () := by
  simp [streamReady, raceFree_ok calm, opened, sel, bind, Except.bind]

theorem streamReady_inv {u : Unit} (h : streamReady op s = .ok u) :
    raceFree s = .ok () ∧ s.bus.crdActive = true ∧ s.csForceIdle = false := by
  unfold streamReady at h
  cases hr : raceFree s with
  | error f => simp [hr, bind, Except.bind] at h
  | ok v =>
    simp only [hr, bind, Except.bind] at h
    split at h
    · cases h
    · split at h
      · cases h
      · exact ⟨rfl, by simpa using ‹¬s.bus.crdActive = false›, by simpa using ‹¬s.csForceIdle = true›⟩

theorem gbPowerReady_ok (h : ReadyGb s) : gbPowerReady op s = .ok () := by
  simp [gbPowerReady, h.other, busReady_ok h.ready]

theorem gbPowerReady_inv {u : Unit} (h : gbPowerReady op s = .ok u) :
    s.bus.pwrGba = false ∧ raceFree s = .ok () ∧ s.bus.crdActive = false ∧ s.csForceIdle = false := by
  unfold gbPowerReady at h
  split at h
  · cases h
  · exact ⟨by simpa using ‹¬s.bus.pwrGba = true›, busReady_inv h⟩

theorem gbaPowerReady_ok (h : ReadyGba s) : gbaPowerReady op s = .ok () := by
  simp [gbaPowerReady, h.other, busReady_ok h.ready]

theorem gbaPowerReady_inv {u : Unit} (h : gbaPowerReady op s = .ok u) :
    s.bus.pwrGb = false ∧ raceFree s = .ok () ∧ s.bus.crdActive = false ∧ s.csForceIdle = false := by
  unfold gbaPowerReady at h
  split at h
  · cases h
  · exact ⟨by simpa using ‹¬s.bus.pwrGb = true›, busReady_inv h⟩

theorem strobeReady_ok (calm : Calm s) : strobeReady op s = .ok () := by
  simp [strobeReady, raceFree_ok calm, Config.wiring, bind, Except.bind]

/-- The strobe pins are wired to the host (`Config.wiring`), so only a race keeps a strobe step from happening. -/
theorem strobeReady_eq : strobeReady op s = raceFree s := by
  cases h : raceFree s <;> simp [strobeReady, h, Config.wiring, bind, Except.bind]

/-! ## The active session (`46_dispatcher.md` R424) -/

theorem active_gb (h : s.gb.romSize ≠ 0) : active s = .gb := if_pos h

theorem active_gba (h : s.gb.romSize = 0) (k : s.gba.romSize ≠ 0) : active s = .gba := by
  unfold active
  rw [if_neg (fun n => n h), if_pos k]

theorem active_none (h : s.gb.romSize = 0) (k : s.gba.romSize = 0) : active s = .none := by
  unfold active
  rw [if_neg (fun n => n h), if_neg (fun n => n k)]

/-! ## How an operation ends -/

theorem conclude_inv {r : Except Fault (Word × State)} (h : conclude r = .next t) :
    ∃ v s', r = .ok (v, s') ∧ t = finish v s' := by
  unfold conclude at h
  split at h
  · cases h; exact ⟨_, _, rfl, rfl⟩
  · cases h

/-- A check in front of a body that concluded passed. -/
theorem check_inv {α : Type} {c : Except Fault Unit} {k : Unit → Except Fault α} {r : α}
    (h : (c >>= k) = .ok r) : c = .ok () ∧ k () = .ok r := by
  cases c with
  | error f => cases h
  | ok u => exact ⟨rfl, h⟩

/-- A step in front of a body that concluded gave a value. -/
theorem bind_inv {α β : Type} {c : Except Fault α} {k : α → Except Fault β} {r : β}
    (h : (c >>= k) = .ok r) : ∃ v, c = .ok v ∧ k v = .ok r := by
  cases c with
  | error f => cases h
  | ok v => exact ⟨v, rfl, h⟩

theorem guarded_ok {body : Host.Outcome State Fault Refusal} (h : op.wellFormed = true) :
    guarded op s body = body := by simp [guarded, h]

theorem guarded_inv {body : Host.Outcome State Fault Refusal} (h : guarded op s body = .next t) :
    (op.wellFormed = true ∧ body = .next t) ∨ (op.wellFormed = false ∧ t = refuse s) := by
  unfold guarded at h
  split at h
  · exact .inl ⟨‹_›, h⟩
  · cases h; exact .inr ⟨by simpa using ‹¬op.wellFormed = true›, rfl⟩

theorem lockHeld_free (body : State → Except Fault (Word × State)) (h : s.lock = 0 ∨ s.lock = Config.gbxKey) :
    lockHeld op s body = conclude (do
      let r ← body (locked s)
      .ok (r.1, releaseLock Config.gbxKey r.2)) := by
  have : lockFree Config.gbxKey s = true := by simpa [lockFree] using h
  simp [lockHeld, this, locked]

theorem lockHeld_held (body : State → Except Fault (Word × State)) (h0 : s.lock ≠ 0)
    (hk : s.lock ≠ Config.gbxKey) : lockHeld op s body = .next (hold op s) := by
  have h0 : ¬s.lock = 0#32 := h0
  have : lockFree Config.gbxKey s = false := by simp [lockFree, h0, hk]
  simp [lockHeld, this]

/-- Everything an operation under the lock can do: wait, or run its body with the lock held and free it. -/
theorem lockHeld_inv {body : State → Except Fault (Word × State)} (h : lockHeld op s body = .next t) :
    t = hold op s ∨ ∃ v s', body (locked s) = .ok (v, s') ∧ t = finish v (releaseLock Config.gbxKey s') := by
  unfold lockHeld at h
  split at h
  · obtain ⟨v, s', e, rfl⟩ := conclude_inv h
    obtain ⟨r, hr, k⟩ := bind_inv e
    cases k
    exact .inr ⟨_, _, hr, rfl⟩
  · cases h; exact .inl rfl

/-! ## What an ended operation left alone -/

theorem OnlyBus.refl (s : State) : OnlyBus s s := by constructor <;> rfl

theorem OnlyBus.bus (s : State) (b : Bus) : OnlyBus s { s with bus := b } := by constructor <;> rfl

theorem OnlyBus.trans {a b c : State} (h : OnlyBus a b) (k : OnlyBus b c) : OnlyBus a c :=
  { others := k.others.trans h.others, inputs := k.inputs.trans h.inputs, hbuf := k.hbuf.trans h.hbuf,
    spiReady := k.spiReady.trans h.spiReady, spiDiv := k.spiDiv.trans h.spiDiv, fifo := k.fifo.trans h.fifo,
    lock := k.lock.trans h.lock, csForceIdle := k.csForceIdle.trans h.csForceIdle, gb := k.gb.trans h.gb,
    gba := k.gba.trans h.gba, rx := k.rx.trans h.rx, bufp := k.bufp.trans h.bufp,
    bufSet := k.bufSet.trans h.bufSet, seen := k.seen.trans h.seen, name := k.name.trans h.name }

theorem returned_finish (v : Word) (s : State) : Returned v (finish v s) := by constructor <;> rfl

theorem onlyBus_finish (v : Word) (s : State) : OnlyBus s (finish v s) := by constructor <;> rfl

/-- An operation that returns `v` after changing only the bus is done. -/
theorem done_finish (v : Word) {s s' : State} (h : OnlyBus s s') : Done v s (finish v s') :=
  { returned_finish v s', h.trans (onlyBus_finish v s') with }

theorem done_bus (v : Word) (s : State) (b : Bus) : Done v s (finish v { s with bus := b }) :=
  done_finish v (.bus s b)

theorem onlyBus_hold (s : State) (op : Instr) : OnlyBus s (hold op s) := by constructor <;> rfl

theorem quiet_tick (b : Bus) (n : Nat) : QuietBus b { b with tick := n } := rfl

theorem quiet_finish (v : Word) (s : State) : QuietBus s.bus (finish v s).bus := rfl

theorem quiet_hold (s : State) : QuietBus s.bus (hold op s).bus := rfl

/-! ## The counter is no part of what a bus sequence says -/

section tick
variable {b c : Bus} {es : List BusEvent} (n : Nat)

theorem FlagsKept.tick (h : FlagsKept b c) : FlagsKept b { c with tick := n } := { h with }
theorem OnlyPorts.tick (h : OnlyPorts b c) : OnlyPorts b { c with tick := n } := { h with }
theorem GbaSideKept.tick (h : GbaSideKept b c) : GbaSideKept b { c with tick := n } := { h with }
theorem GbSideKept.tick (h : GbSideKept b c) : GbSideKept b { c with tick := n } := { h with }
theorem GbCycles.tick (h : GbCycles b c) : GbCycles b { c with tick := n } := { h with }
theorem GbaCycles.tick (h : GbaCycles b c) : GbaCycles b { c with tick := n } := { h with }
theorem SaveCycles.tick (h : SaveCycles b c) : SaveCycles b { c with tick := n } := { h with }
theorem GbDefault.tick (h : GbDefault b c) : GbDefault b { c with tick := n } := { h with }
theorem GbaDefault.tick (h : GbaDefault b c) : GbaDefault b { c with tick := n } := { h with }
theorem GbGrounded.tick (h : GbGrounded b) : GbGrounded { b with tick := n } := { h with }
theorem GbaGrounded.tick (h : GbaGrounded b) : GbaGrounded { b with tick := n } := { h with }
theorem Adds.tick (h : Adds b c es) : Adds b { c with tick := n } es := h

end tick

theorem OnlyPorts.refl (b : Bus) : OnlyPorts b b :=
  { pwrGb := rfl, pwrGba := rfl, ownGb := rfl, ownGba := rfl, mbcw := rfl, crdActive := rfl, pins := rfl,
    crdChip := rfl, hist := rfl, env := rfl }

theorem OnlyPorts.trans {b c d : Bus} (h : OnlyPorts b c) (k : OnlyPorts c d) : OnlyPorts b d :=
  { pwrGb := k.pwrGb.trans h.pwrGb, pwrGba := k.pwrGba.trans h.pwrGba, ownGb := k.ownGb.trans h.ownGb,
    ownGba := k.ownGba.trans h.ownGba, mbcw := k.mbcw.trans h.mbcw, crdActive := k.crdActive.trans h.crdActive,
    pins := k.pins.trans h.pins, crdChip := k.crdChip.trans h.crdChip, hist := k.hist.trans h.hist,
    env := k.env.trans h.env }

/-! ## The shared forms of an operation -/

theorem expanderOp_next {α : Type} {f : Bus → α × Bus} {v : α → Word} (h : Ready s) :
    expanderOp op s f v = .next (finish (v (f s.bus).1) { s with bus := (f s.bus).2 }) := by
  simp [expanderOp, needInit_ok h.init, busReady_ok h, onBus, conclude, bind, Except.bind]

/-- Everything an expander operation can do. -/
theorem expanderOp_inv {α : Type} {f : Bus → α × Bus} {v : α → Word} (h : expanderOp op s f v = .next t) :
    s.spiReady = true ∧ s.bus.crdActive = false ∧ s.csForceIdle = false ∧
      t = finish (v (f s.bus).1) { s with bus := (f s.bus).2 } := by
  obtain ⟨w, s', e, rfl⟩ := conclude_inv h
  obtain ⟨hi, e⟩ := check_inv e
  obtain ⟨hb, e⟩ := check_inv e
  cases e
  exact ⟨needInit_inv hi, (busReady_inv hb).2.1, (busReady_inv hb).2.2, rfl⟩

theorem streamOp_next {α : Type} {f : Bus → α × Bus} {v : α → Word} (init : s.spiReady = true) (calm : Calm s)
    (opened : s.bus.crdActive = true) (sel : s.csForceIdle = false) :
    streamOp op s f v = .next (finish (v (f s.bus).1) { s with bus := (f s.bus).2 }) := by
  simp [streamOp, needInit_ok init, streamReady_ok calm opened sel, onBus, conclude, bind, Except.bind]

/-- Everything an operation inside a continuous read can do. -/
theorem streamOp_inv {α : Type} {f : Bus → α × Bus} {v : α → Word} (h : streamOp op s f v = .next t) :
    s.spiReady = true ∧ s.bus.crdActive = true ∧ s.csForceIdle = false ∧
      t = finish (v (f s.bus).1) { s with bus := (f s.bus).2 } := by
  obtain ⟨w, s', e, rfl⟩ := conclude_inv h
  obtain ⟨hi, e⟩ := check_inv e
  obtain ⟨hb, e⟩ := check_inv e
  cases e
  exact ⟨needInit_inv hi, (streamReady_inv hb).2.1, (streamReady_inv hb).2.2, rfl⟩

theorem cartridgeOp_next {α : Type} {f : Bus → α × Bus} {v : α → Word} (h : Ready s) :
    cartridgeOp op s f v = .next (finish (v (f s.bus).1) { s with bus := (f s.bus).2 }) := by
  simp [cartridgeOp, needInit_ok h.init, busReady_ok h, onBus, conclude, bind, Except.bind]

/-- Everything a cartridge operation with no power step can do. -/
theorem cartridgeOp_inv {α : Type} {f : Bus → α × Bus} {v : α → Word} (h : cartridgeOp op s f v = .next t) :
    s.spiReady = true ∧ s.bus.crdActive = false ∧ s.csForceIdle = false ∧
      t = finish (v (f s.bus).1) { s with bus := (f s.bus).2 } := by
  obtain ⟨w, s', e, rfl⟩ := conclude_inv h
  obtain ⟨hi, e⟩ := check_inv e
  obtain ⟨hb, e⟩ := check_inv e
  cases e
  exact ⟨needInit_inv hi, (busReady_inv hb).2.1, (busReady_inv hb).2.2, rfl⟩

theorem mbcOp_next {ws : List (Half × Byte)} {f : Bus → Bus} (h : Ready s) (ne : ws ≠ []) :
    mbcOp op s ws f = .next (finish 0 { s with bus := f s.bus }) := by
  simp [mbcOp, needInit_ok h.init, busReady_ok h, ne, conclude, bind, Except.bind]

theorem mbcOp_none {f : Bus → Bus} (h : s.spiReady = true) : mbcOp op s [] f = .next (finish 0 s) := by
  simp [mbcOp, needInit_ok h, conclude, bind, Except.bind]

/-- Everything a bank operation can do. -/
theorem mbcOp_inv {ws : List (Half × Byte)} {f : Bus → Bus} (h : mbcOp op s ws f = .next t) :
    s.spiReady = true ∧ ((ws = [] ∧ t = finish 0 s) ∨
      (s.bus.crdActive = false ∧ s.csForceIdle = false ∧ t = finish 0 { s with bus := f s.bus })) := by
  obtain ⟨w, s', e, rfl⟩ := conclude_inv h
  obtain ⟨hi, e⟩ := check_inv e
  refine ⟨needInit_inv hi, ?_⟩
  split at e
  · cases e; exact .inl ⟨‹_›, rfl⟩
  · obtain ⟨hb, e⟩ := check_inv e
    cases e
    exact .inr ⟨(busReady_inv hb).2.1, (busReady_inv hb).2.2, rfl⟩

theorem wireOp_next {f : Bus → List Byte × Bus} (wf : op.wellFormed = true) (h : Ready s) :
    wireOp op s f = .next (finish 0 { s with bus := (f s.bus).2, rx := (f s.bus).1 }) := by
  simp [wireOp, guarded_ok wf, needInit_ok h.init, busReady_ok h, conclude, bind, Except.bind]

/-- Everything a wire frame run by itself can do. -/
theorem wireOp_inv {f : Bus → List Byte × Bus} (h : wireOp op s f = .next t) :
    (op.wellFormed = false ∧ t = refuse s) ∨
      (s.spiReady = true ∧ s.bus.crdActive = false ∧ s.csForceIdle = false ∧
        t = finish 0 { s with bus := (f s.bus).2, rx := (f s.bus).1 }) := by
  rcases guarded_inv h with ⟨-, h⟩ | h
  · obtain ⟨w, s', e, rfl⟩ := conclude_inv h
    obtain ⟨hi, e⟩ := check_inv e
    obtain ⟨hb, e⟩ := check_inv e
    cases e
    exact .inr ⟨needInit_inv hi, (busReady_inv hb).2.1, (busReady_inv hb).2.2, rfl⟩
  · exact .inl h

end Sys2Proof.Machine
end

