-- ==== Sys2Proof/Laws/GbEngine.lean ====
section
/-! SUPPORT. What the GB/GBC engine does on the bus in each of its operations, said once: the slot powered up
at the start and grounded at the end, and the events in between. -/

namespace Sys2Proof.Machine

/-- A power-up, some cycles and a power-down of the GB slot. -/
structure GbRun (b b' : Bus) (m : Mbcw) (es : List BusEvent) : Prop where
  grounded : GbGrounded b'
  side : GbaSideKept b b'
  record : b'.mbcw = m
  events : Adds b b' (powerOn .gb b.pwrGb ++ es ++ [.power .gb false])

theorem GbRun.of {b c : Bus} {m : Mbcw} {es : List BusEvent} (h : GbCycles (gbPowerUp b) c) (hm : c.mbcw = m)
    (ha : Adds (gbPowerUp b) c es) : GbRun b (gbPowerDown c) m es :=
  { grounded := (gbPowerDown_spec c).grounded
    side := ((gbPowerUp_spec b).side.trans h.side).trans (gbPowerDown_spec c).side
    record := (gbPowerDown_spec c).record.trans hm
    events := ((gbPowerUp_spec b).events.append ha).append (gbPowerDown_spec c).events }

theorem GbRun.tick {b c : Bus} {m : Mbcw} {es : List BusEvent} (n : Nat) (h : GbRun b c m es) :
    GbRun b { c with tick := n } m es :=
  { grounded := h.grounded.tick n, side := h.side.tick n, record := h.record, events := h.events }

@[simp] theorem gbPowerUp_mbcw (b : Bus) : (gbPowerUp b).mbcw = mbcwPowered b := (gbPowerUp_spec b).record

theorem gbHeaderRead_run (b : Bus) :
    ∃ wake : List Byte, wake.length = 4 ∧ (gbHeaderRead b).1.length = 1024 ∧
      GbRun b (gbHeaderRead b).2 (mbcwPowered b) (gbReads 0 wake ++ gbReads 0 (gbHeaderRead b).1) := by
  refine ⟨(gbReadRange 0 4 (gbPowerUp b)).1, by simp, by simp [gbHeaderRead], ?_⟩
  simp only [gbHeaderRead]
  exact .of ((gbReadRange_cycles _ _ _).trans (gbReadRange_cycles _ _ _)) (by simp)
    ((gbReadRange_adds _ _ _).append (gbReadRange_adds _ _ _))

theorem gbCheckRead_run (b : Bus) :
    (gbCheckRead b).1.length = 64 ∧
      GbRun b (gbCheckRead b).2 (mbcwPowered b) (gbReads 0x104 (gbCheckRead b).1) := by
  simp only [gbCheckRead]
  exact ⟨gbReadRange_length _ _ _, .of (gbReadRange_cycles _ _ _) (by simp) (gbReadRange_adds _ _ _)⟩

/-! ## ROM dump -/

/-- One switched bank of a dump, the window of `w` bytes. -/
theorem gbBankRead_spec (m : Mbc) (w i : Nat) (b : Bus) :
    GbCycles b (gbReadRange 0x4000 w (gbRomBank m (BitVec.ofNat 9 (i + 1)) b)).2 ∧
      (gbReadRange 0x4000 w (gbRomBank m (BitVec.ofNat 9 (i + 1)) b)).1.length = w ∧
      Adds b (gbReadRange 0x4000 w (gbRomBank m (BitVec.ofNat 9 (i + 1)) b)).2
        (gbWriteEvents (romBankWrites m (BitVec.ofNat 9 (i + 1))) ++
          gbReads 0x4000 (gbReadRange 0x4000 w (gbRomBank m (BitVec.ofNat 9 (i + 1)) b)).1) :=
  ⟨(mbcStep_cycles _ _ _).trans (gbReadRange_cycles _ _ _), gbReadRange_length _ _ _,
    (mbcStep_adds _ _ _).append (gbReadRange_adds _ _ _)⟩

theorem mbcwRomBank_twice (m : Mbc) (i j : BitVec 9) (x : Mbcw) :
    mbcwRomBank m j (mbcwRomBank m i x) = mbcwRomBank m j x := by
  cases m <;> rfl

@[simp] theorem gbRomBank_mbcw (m : Mbc) (i : BitVec 9) (b : Bus) :
    (gbRomBank m i b).mbcw = mbcwRomBank m i b.mbcw := mbcStep_mbcw _ _ _

/-- The loop over the switched banks, the window of `w` bytes. -/
theorem gbBankLoop_spec (m : Mbc) (w n : Nat) (b : Bus) :
    GbCycles b (gather n (fun i b => gbReadRange 0x4000 w (gbRomBank m (BitVec.ofNat 9 (i + 1)) b)) b).2 ∧
      (gather n (fun i b => gbReadRange 0x4000 w (gbRomBank m (BitVec.ofNat 9 (i + 1)) b)) b).1.flatten.length =
        w * n ∧
      mbcwRomBank m 1
        (gather n (fun i b => gbReadRange 0x4000 w (gbRomBank m (BitVec.ofNat 9 (i + 1)) b)) b).2.mbcw =
        mbcwRomBank m 1 b.mbcw ∧
      Adds b (gather n (fun i b => gbReadRange 0x4000 w (gbRomBank m (BitVec.ofNat 9 (i + 1)) b)) b).2
        ((List.range n).map fun i => gbWriteEvents (romBankWrites m (BitVec.ofNat 9 (i + 1))) ++
          gbReads 0x4000 (slice (i * w) w
            (gather n (fun i b => gbReadRange 0x4000 w (gbRomBank m (BitVec.ofNat 9 (i + 1)) b)) b).1.flatten)).flatten := by
  generalize hf : (fun i b => gbReadRange 0x4000 w (gbRomBank m (BitVec.ofNat 9 (i + 1)) b)) = f
  have hs : ∀ i b, GbCycles b (f i b).2 ∧ (f i b).1.length = w ∧
      Adds b (f i b).2 (gbWriteEvents (romBankWrites m (BitVec.ofNat 9 (i + 1))) ++ gbReads 0x4000 (f i b).1) := by
    intro i b; rw [← hf]; exact gbBankRead_spec m w i b
  have hm : ∀ i b, mbcwRomBank m 1 (f i b).2.mbcw = mbcwRomBank m 1 b.mbcw := by
    intro i b; rw [← hf]; simp [mbcwRomBank_twice]
  have hlen : ∀ j x, (gather n f b).1[j]? = some x → x.length = min w (w * n - j * w) := by
    intro j x h
    have hj : j < n := by simpa using (List.getElem?_eq_some_iff.1 h).1
    have hx : x.length = w := gather_get (P := fun _ x => x.length = w) f (fun k b => (hs k b).2.1) _ _ _ _ h
    have : (j + 1) * w ≤ n * w := Nat.mul_le_mul_right w hj
    rw [Nat.succ_mul] at this
    rw [hx, Nat.mul_comm w n]
    omega
  have htot := chunks_length _ _ _ hlen
  refine ⟨gather_keeps GbCycles.refl GbCycles.trans f (fun k b => (hs k b).1) n b, ?_,
    gather_keeps (R := fun b c => mbcwRomBank m 1 c.mbcw = mbcwRomBank m 1 b.mbcw) (fun _ => rfl)
      (fun h k => k.trans h) f hm n b, ?_⟩
  · rw [htot, gather_length]; omega
  · have h := gather_adds f (fun i bytes => gbWriteEvents (romBankWrites m (BitVec.ofNat 9 (i + 1))) ++
      gbReads 0x4000 bytes) (fun k b => (hs k b).2.2) n b
    rwa [mapIdx_eq_range_map _ (fun i => gbWriteEvents (romBankWrites m (BitVec.ofNat 9 (i + 1))) ++
      gbReads 0x4000 (slice (i * w) w (gather n f b).1.flatten))
      _ (fun j x hx => by rw [chunks_slice _ _ _ hlen j x hx]), gather_length] at h

/-- The switched banks of a dump: the bytes in image order, the bank writes, and bank 1 restored. -/
theorem gbDumpBanks_spec (m : Mbc) (n : Nat) (b : Bus) :
    GbCycles b (gbDumpBanks m n b).2 ∧ (gbDumpBanks m n b).1.length = 0x4000 * (n - 1) ∧
      (gbDumpBanks m n b).2.mbcw = mbcwRomBank m 1 b.mbcw ∧
      Adds b (gbDumpBanks m n b).2 (((List.range (n - 1)).map fun i =>
        gbWriteEvents (romBankWrites m (BitVec.ofNat 9 (i + 1))) ++
          gbReads 0x4000 (slice (i * 0x4000) 0x4000 (gbDumpBanks m n b).1)).flatten ++
        gbWriteEvents (romBankWrites m 1)) := by
  obtain ⟨hc, hl, hm, ha⟩ := gbBankLoop_spec m 0x4000 (n - 1) b
  unfold gbDumpBanks
  exact ⟨hc.trans (mbcStep_cycles _ _ _), hl, (gbRomBank_mbcw _ _ _).trans hm, ha.append (mbcStep_adds _ _ _)⟩

/-- A dump of a cartridge with no controller. -/
theorem gbDump_noMbc_run (g : GbSession) (b : Bus) (hm : g.mbc = .noMbc) (hs : 0x4000 ≤ gbDumpTotal g) :
    (gbDump g b).1.length = gbDumpTotal g ∧
      GbRun b (gbDump g b).2 (mbcwPowered b) (gbReads 0 ((gbDump g b).1.take 0x4000) ++
        gbReads 0x4000 ((gbDump g b).1.drop 0x4000)) := by
  have e : gbDump g b = ((gbReadRange 0 0x4000 (gbPowerUp b)).1 ++
      (gbReadRange 0x4000 (gbDumpTotal g - 0x4000) (gbReadRange 0 0x4000 (gbPowerUp b)).2).1,
      gbPowerDown (gbReadRange 0x4000 (gbDumpTotal g - 0x4000) (gbReadRange 0 0x4000 (gbPowerUp b)).2).2) := by
    simp [gbDump, hm]
  rw [e]
  refine ⟨by simp; omega, .of ((gbReadRange_cycles _ _ _).trans (gbReadRange_cycles _ _ _)) (by simp) ?_⟩
  rw [List.take_left' (gbReadRange_length _ _ _), List.drop_left' (gbReadRange_length _ _ _)]
  exact (gbReadRange_adds _ _ _).append (gbReadRange_adds _ _ _)

/-- A dump of a cartridge with a controller. -/
theorem gbDump_mbc_run (g : GbSession) (b : Bus) (hm : g.mbc ≠ .noMbc) (hs : 0x4000 ≤ g.romSize.toNat)
    (hd : g.romSize.toNat % 0x4000 = 0) :
    (gbDump g b).1.length = gbDumpTotal g ∧
      GbRun b (gbDump g b).2 (mbcwRomBank g.mbc 1 (mbcwPowered b)) (gbReads 0 ((gbDump g b).1.take 0x4000) ++
        (((List.range (g.romSize.toNat / 0x4000 - 1)).map fun i =>
          gbWriteEvents (romBankWrites g.mbc (BitVec.ofNat 9 (i + 1))) ++
            gbReads 0x4000 (slice ((i + 1) * 0x4000) 0x4000 (gbDump g b).1)).flatten ++
          gbWriteEvents (romBankWrites g.mbc 1))) := by
  let low := gbReadRange 0 0x4000 (gbPowerUp b)
  have e : gbDump g b = (low.1 ++ (gbDumpBanks g.mbc (g.romSize.toNat / 0x4000) low.2).1,
      gbPowerDown (gbDumpBanks g.mbc (g.romSize.toNat / 0x4000) low.2).2) := by
    simp [gbDump, hm, low]
  have hl : low.1.length = 0x4000 := gbReadRange_length _ _ _
  obtain ⟨hc, hn, hr, ha⟩ := gbDumpBanks_spec g.mbc (g.romSize.toNat / 0x4000) low.2
  rw [e]
  have hsl : ∀ i, slice ((i + 1) * 0x4000) 0x4000
      (low.1 ++ (gbDumpBanks g.mbc (g.romSize.toNat / 0x4000) low.2).1) =
      slice (i * 0x4000) 0x4000 (gbDumpBanks g.mbc (g.romSize.toNat / 0x4000) low.2).1 := by
    intro i
    simp only [slice]
    rw [List.drop_append, List.drop_eq_nil_of_le (by omega), hl]
    simp [Nat.succ_mul]
  refine ⟨?_, .of ((gbReadRange_cycles _ _ _).trans hc) ?_ ?_⟩
  · simp only [List.length_append, hl, hn, gbDumpTotal, hm, if_false]
    omega
  · rw [hr]; simp [low]
  · simp only [hsl]
    rw [List.take_left' hl]
    exact (gbReadRange_adds _ _ _).append ha

/-! ## Save read and write -/

theorem gbSaveBankRead_spec (m : Mbc) (sz j : Nat) (b : Bus) :
    let r := gbReadRange 0xA000 (saveBankLen sz j) (gbRamBank m (BitVec.ofNat 4 j) b)
    GbCycles b r.2 ∧ r.1.length = min 0x2000 (sz - j * 0x2000) ∧
      Adds b r.2 (gbWriteEvents (ramBankWrites m (BitVec.ofNat 4 j)) ++ gbReads 0xA000 r.1) :=
  ⟨(mbcStep_cycles _ _ _).trans (gbReadRange_cycles _ _ _), gbReadRange_length _ _ _,
    (mbcStep_adds _ _ _).append (gbReadRange_adds _ _ _)⟩

/-- Closing the RAM sets everything that opening it and selecting its banks set. -/
theorem mbcwRamClose_bank (m : Mbc) (j : BitVec 4) (x : Mbcw) :
    mbcwRamClose m (mbcwRamBank m j x) = mbcwRamClose m x := by
  cases m <;> rfl

theorem mbcwRamClose_open (m : Mbc) (x : Mbcw) : mbcwRamClose m (mbcwRamOpen m x) = mbcwRamClose m x := by
  cases m <;> rfl

/-- A save read: the bytes, the RAM opened, each bank selected and read, the RAM closed. -/
theorem gbSaveDump_run (m : Mbc) (sz : Nat) (b : Bus) :
    (gbSaveDump m sz b).1.length = sz ∧
      GbRun b (gbSaveDump m sz b).2 (mbcwRamClose m (mbcwPowered b)) (gbWriteEvents (ramOpenWrites m) ++
        ((List.range ((sz + 0x1FFF) / 0x2000)).map fun j =>
          gbWriteEvents (ramBankWrites m (BitVec.ofNat 4 j)) ++
            gbReads 0xA000 (slice (j * 0x2000) 0x2000 (gbSaveDump m sz b).1)).flatten ++
        gbWriteEvents (ramCloseWrites m)) := by
  let f := fun j b => gbReadRange 0xA000 (saveBankLen sz j) (gbRamBank m (BitVec.ofNat 4 j) b)
  let c := gbRamOpen m (gbPowerUp b)
  have hlen : ∀ j x, (gather (saveBanks sz) f c).1[j]? = some x → x.length = min 0x2000 (sz - j * 0x2000) :=
    fun j x h => gather_get (P := fun j x => x.length = min 0x2000 (sz - j * 0x2000)) f
      (fun k b => (gbSaveBankRead_spec m sz k b).2.1) _ _ _ _ h
  have htot := chunks_length _ _ _ hlen
  have hmb : mbcwRamClose m (gather (saveBanks sz) f c).2.mbcw = mbcwRamClose m (mbcwPowered b) := by
    have key : ∀ n, mbcwRamClose m (gatherRev n f c).2.mbcw = mbcwRamClose m (mbcwPowered b) := by
      intro n
      induction n with
      | zero => simp [gatherRev, c, gbRamOpen, mbcwRamClose_open]
      | succ n ih => simpa [gatherRev, f, gbRamBank, mbcwRamClose_bank] using ih
    exact key _
  have hadds := gather_adds f (fun j bytes => gbWriteEvents (ramBankWrites m (BitVec.ofNat 4 j)) ++
    gbReads 0xA000 bytes) (fun k b => (gbSaveBankRead_spec m sz k b).2.2) (saveBanks sz) c
  rw [mapIdx_eq_range_map _ (fun j => gbWriteEvents (ramBankWrites m (BitVec.ofNat 4 j)) ++
    gbReads 0xA000 (slice (j * 0x2000) 0x2000 (gather (saveBanks sz) f c).1.flatten))
    _ (fun j x hx => by rw [chunks_slice _ _ _ hlen j x hx]), gather_length] at hadds
  refine ⟨?_, .of (((mbcStep_cycles _ _ _).trans (gather_keeps GbCycles.refl GbCycles.trans f
    (fun k b => (gbSaveBankRead_spec m sz k b).1) _ _)).trans (mbcStep_cycles _ _ _)) ?_ ?_⟩
  · simp only [gather_length] at htot
    simp only [gbSaveDump, saveBanks] at htot ⊢
    exact htot.trans (by omega)
  · simpa [gbRamClose] using hmb
  · exact ((mbcStep_adds _ _ _).append hadds).append (mbcStep_adds _ _ _)

theorem gbWriteLoop_spec (vs : List Byte) (b : Bus) :
    let c := forBytes (fun o v => gbWrite (BitVec.ofNat 16 (0xA000 + o)) v) 0 vs b
    GbCycles b c ∧ c.mbcw = b.mbcw ∧
      Adds b c (vs.mapIdx fun o v => .gbW (BitVec.ofNat 16 (0xA000 + o)) v) := by
  refine ⟨forBytes_keeps GbCycles.refl GbCycles.trans _ (fun _ _ => gbWrite_cycles _ _) 0 vs b,
    forBytes_keeps (R := fun b c => c.mbcw = b.mbcw) (fun _ => rfl) (fun h k => k.trans h) _
      (fun _ _ => gbWrite_mbcw _ _) 0 vs b, ?_⟩
  have h := forBytes_adds (fun o v => gbWrite (BitVec.ofNat 16 (0xA000 + o)) v)
    (fun o v => [.gbW (BitVec.ofNat 16 (0xA000 + o)) v]) (fun _ _ => gbWrite_adds _ _) 0 vs b
  simpa only [Nat.zero_add, flatten_mapIdx_one] using h

/-- A save write: the RAM opened, each bank selected and written, the RAM closed. -/
theorem gbSaveStore_run (m : Mbc) (data : List Byte) (b : Bus) :
    GbRun b (gbSaveStore m data b) (mbcwRamClose m (mbcwPowered b)) (gbWriteEvents (ramOpenWrites m) ++
      ((List.range ((data.length + 0x1FFF) / 0x2000)).map fun j =>
        gbWriteEvents (ramBankWrites m (BitVec.ofNat 4 j)) ++
          (slice (j * 0x2000) (saveBankLen data.length j) data).mapIdx fun o v =>
            .gbW (BitVec.ofNat 16 (0xA000 + o)) v).flatten ++
      gbWriteEvents (ramCloseWrites m)) := by
  let f := fun j b => forBytes (fun o v => gbWrite (BitVec.ofNat 16 (0xA000 + o)) v) 0
    (slice (j * 0x2000) (saveBankLen data.length j) data) (gbRamBank m (BitVec.ofNat 4 j) b)
  have hc : ∀ j b, GbCycles b (f j b) := fun j b => (mbcStep_cycles _ _ _).trans (gbWriteLoop_spec _ _).1
  have hadds := iter_adds f (fun j => gbWriteEvents (ramBankWrites m (BitVec.ofNat 4 j)) ++
      (slice (j * 0x2000) (saveBankLen data.length j) data).mapIdx fun o v =>
        .gbW (BitVec.ofNat 16 (0xA000 + o)) v)
    (fun j b => (mbcStep_adds _ _ _).append (gbWriteLoop_spec _ _).2.2) (saveBanks data.length)
    (gbRamOpen m (gbPowerUp b))
  refine .of (((mbcStep_cycles _ _ _).trans (iter_keeps GbCycles.refl GbCycles.trans f hc _ _)).trans
    (mbcStep_cycles _ _ _)) ?_ (((mbcStep_adds _ _ _).append hadds).append (mbcStep_adds _ _ _))
  have key : ∀ n, mbcwRamClose m (iter n f (gbRamOpen m (gbPowerUp b))).mbcw = mbcwRamClose m (mbcwPowered b) := by
    intro n
    induction n with
    | zero => simp [iter, gbRamOpen, mbcwRamClose_open]
    | succ n ih => simpa [iter, f, gbRamBank, (gbWriteLoop_spec _ _).2.1, mbcwRamClose_bank] using ih
  simpa [gbRamClose, f] using key (saveBanks data.length)

end Sys2Proof.Machine
end

