-- ==== Sys2Proof/Laws/Run.lean ====
section
/-! SUPPORT. What running the steps of an operation comes to: the equations of `Prog.run`, and `Plays`, which says
that some steps, from a state of a kind, all happen and come to a function of the state. -/

namespace Sys2Proof.Machine

variable {α β : Type}

/-! ## The equations of a run -/

@[simp] theorem run_ret (v : α) (s : State) : (Prog.ret v).run s = .ok (v, s) := rfl

/-- Steps in front of others: the others go on from where they end. -/
theorem run_bind (p : Prog α) (f : α → Prog β) (s : State) :
    (p.bind f).run s = match p.run s with
      | .ok (v, t) => (f v).run t
      | .error e => .error e := by
  induction p generalizing s with
  | ret v => rfl
  | act a k ih =>
    simp only [Prog.bind, Prog.run]
    cases a.run s with
    | error e => rfl
    | ok r => exact ih r.1 r.2

theorem run_bind_ok {p : Prog α} {f : α → Prog β} {s t : State} {v : α} (h : p.run s = .ok (v, t)) :
    (p.bind f).run s = (f v).run t := by rw [run_bind, h]

theorem run_bind_error {p : Prog α} {f : α → Prog β} {s : State} {e : Stop} (h : p.run s = .error e) :
    (p.bind f).run s = .error e := by rw [run_bind, h]

theorem run_then_ok {p : Prog α} {q : Prog β} {s t : State} {v : α} (h : p.run s = .ok (v, t)) :
    (p.then q).run s = q.run t := run_bind_ok h

theorem run_then_error {p : Prog α} {q : Prog β} {s : State} {e : Stop} (h : p.run s = .error e) :
    (p.then q).run s = .error e := run_bind_error h

/-- Marking the steps of a session changes nothing about a run. -/
@[simp] theorem run_within (p : Prog α) (s : State) : p.within.run s = p.run s := by
  induction p generalizing s with
  | ret v => rfl
  | act a k ih =>
    simp only [Prog.within, Prog.run]
    cases a.run s with
    | error e => rfl
    | ok r => exact ih r.1 r.2

/-- A coding hands on what it is given. -/
def Coding.Faithful (c : Coding α) : Prop := ∀ v, c.dec (c.enc v) = v

theorem asUnit_faithful : asUnit.Faithful := fun _ => rfl
theorem asBit_faithful : asBit.Faithful := fun _ => rfl
theorem asByte_faithful : asByte.Faithful := fun _ => rfl
theorem asHalf_faithful : asHalf.Faithful := fun _ => rfl
theorem asWord_faithful : asWord.Faithful := fun _ => rfl
theorem asBytes_faithful : asBytes.Faithful := fun _ => rfl
theorem asGb_faithful : asGb.Faithful := fun _ => rfl
theorem asGba_faithful : asGba.Faithful := fun _ => rfl
theorem asText_faithful : asText.Faithful := by intro t; cases t <;> rfl
theorem asPlatform_faithful : asPlatform.Faithful := by intro p; cases p <;> rfl

/-- Everything a single step can do. -/
theorem run_step (kind : StepKind) (check : State → Except Fault Unit) {c : Coding α} (hc : c.Faithful)
    (f : State → α × State) (s : State) :
    (Prog.step kind check c f).run s = match check s with
      | .ok _ => .ok (f s)
      | .error e => .error (.fault e) := by
  simp only [Prog.step, Prog.run]
  cases check s with
  | error e => rfl
  | ok u => simp [hc (f s).1]

theorem run_step_error {kind : StepKind} {check : State → Except Fault Unit} {c : Coding α} {f : State → α × State}
    {s : State} {e : Fault} (h : check s = .error e) : (Prog.step kind check c f).run s = .error (.fault e) := by
  simp [Prog.step, Prog.run, h]

@[simp] theorem run_ensure (check : State → Except Fault Unit) (s : State) :
    (ensure check).run s = match check s with
      | .ok _ => .ok ((), s)
      | .error e => .error (.fault e) := run_step _ _ asUnit_faithful _ _

theorem run_look {c : Coding α} (hc : c.Faithful) (f : State → α) (s : State) : (look c f).run s = .ok (f s, s) :=
  run_step _ _ hc _ _

@[simp] theorem run_update (f : State → State) (s : State) : (update f).run s = .ok ((), f s) :=
  run_step _ _ asUnit_faithful _ _

@[simp] theorem run_lockStep (force : Bool) (key : Word) (s : State) :
    (lockStep force key).run s = if lockFree key s then .ok ((), takeLock force key s) else .error .blocked := by
  simp only [lockStep, Prog.run]
  cases lockFree key s <;> rfl

/-! ## Runs as outcomes -/

/-- A check in front of the steps of an operation. -/
theorem perform_ensure (op : Instr) (check : State → Except Fault Unit) (p : Prog Word) (s : State) :
    perform op ((ensure check).then p) s = guarded op s (match check s with
      | .ok _ => settle op s (p.run s)
      | .error e => .fault e) := by
  unfold perform
  cases h : check s with
  | error e => rw [run_then_error (by rw [run_ensure, h])]; rfl
  | ok u => rw [run_then_ok (t := s) (v := ()) (by rw [run_ensure, h])]

/-- What a run comes to, as the body of an operation. -/
def asBody (r : Except Fault (Word × State)) : Except Stop (Word × State) :=
  match r with
  | .ok x => .ok x
  | .error f => .error (.fault f)

theorem settle_asBody (op : Instr) (s : State) (r : Except Fault (Word × State)) :
    settle op s (asBody r) = conclude r := by
  cases r <;> rfl

/-- An operation whose steps, from this state, come to a body, is that body. -/
theorem perform_eq {op : Instr} {p : Prog Word} {s : State} {r : Except Fault (Word × State)}
    (h : p.run s = asBody r) : perform op p s = guarded op s (conclude r) := by
  rw [perform, h, settle_asBody]

theorem asBody_check {c : Except Fault Unit} {k : Unit → Except Fault (Word × State)} {p : Prog Word} {s : State}
    {check : State → Except Fault Unit} (hc : check s = c) (h : c = .ok () → p.run s = asBody (k ())) :
    ((ensure check).then p).run s = asBody (c >>= k) := by
  cases c with
  | error f => rw [run_then_error (by rw [run_ensure, hc])]; rfl
  | ok u => rw [run_then_ok (t := s) (v := ()) (by rw [run_ensure, hc])]; exact h rfl

/-! ## Steps that all happen -/

/-- From every state with `I` the steps of `p` all happen, come to `F`, and end in a state with `O`. -/
def Plays (I O : State → Prop) (p : Prog α) (F : State → α × State) : Prop :=
  ∀ s, I s → p.run s = .ok (F s) ∧ O (F s).2

section plays
variable {I J O : State → Prop} {p : Prog α} {F : State → α × State}

theorem Plays.run (h : Plays I O p F) {s : State} (hs : I s) : p.run s = .ok (F s) := (h s hs).1

theorem Plays.ret (v : α) : Plays I I (.ret v) fun s => (v, s) := fun _ hs => ⟨rfl, hs⟩

theorem Plays.bind {f : α → Prog β} {G : α → State → β × State} (h : Plays I J p F)
    (k : ∀ v, Plays J O (f v) (G v)) : Plays I O (p.bind f) fun s => G (F s).1 (F s).2 := fun s hs => by
  obtain ⟨h1, h2⟩ := h s hs
  rw [run_bind_ok (v := (F s).1) (t := (F s).2) h1]
  exact k _ _ h2

theorem Plays.then {q : Prog β} {G : State → β × State} (h : Plays I J p F) (k : Plays J O q G) :
    Plays I O (p.then q) fun s => G (F s).2 := h.bind fun _ => k

theorem Plays.map (h : Plays I O p F) (g : α → β) : Plays I O (p.map g) fun s => (g (F s).1, (F s).2) :=
  h.bind fun _ => .ret _

theorem Plays.within (h : Plays I O p F) : Plays I O p.within F := fun s hs => by
  rw [run_within]; exact h s hs

theorem Plays.congr {G : State → α × State} (h : Plays I O p F) (e : ∀ s, I s → F s = G s) : Plays I O p G :=
  fun s hs => by rw [← e s hs]; exact h s hs

theorem Plays.weaken {I' : State → Prop} (h : Plays I O p F) (hi : ∀ s, I' s → I s) : Plays I' O p F :=
  fun s hs => h s (hi s hs)

theorem Plays.step {kind : StepKind} {check : State → Except Fault Unit} {c : Coding α} (hc : c.Faithful)
    {f : State → α × State} (chk : ∀ s, I s → check s = .ok ()) (keep : ∀ s, I s → O (f s).2) :
    Plays I O (Prog.step kind check c f) f := fun s hs => ⟨by rw [run_step _ _ hc, chk s hs], keep s hs⟩

theorem Plays.update {f : State → State} (keep : ∀ s, I s → O (f s)) : Plays I O (update f) fun s => ((), f s) :=
  .step asUnit_faithful (fun _ _ => rfl) keep

theorem Plays.look {c : Coding α} (hc : c.Faithful) {f : State → α} : Plays I I (look c f) fun s => (f s, s) :=
  .step hc (fun _ _ => rfl) fun _ h => h

theorem Plays.ensure {check : State → Except Fault Unit} (chk : ∀ s, I s → check s = .ok ()) :
    Plays I I (ensure check) fun s => ((), s) := .step asUnit_faithful chk fun _ h => h

/-- A choice made before the steps. -/
theorem Plays.ite {c : Prop} [Decidable c] {q : Prog α} {G : State → α × State} (h : c → Plays I O p F)
    (k : ¬ c → Plays I O q G) : Plays I O (if c then p else q) fun s => if c then F s else G s := by
  by_cases e : c
  · simp only [e, if_true]; exact h e
  · simp only [e, if_false]; exact k e

end plays

/-! ## Bus steps -/

/-- A function of the bus, as one of the state. -/
def onB {γ : Type} (F : Bus → γ × Bus) (s : State) : γ × State := ((F s.bus).1, { s with bus := (F s.bus).2 })

/-- A bus function that gives nothing. -/
def silent (F : Bus → Bus) (b : Bus) : Unit × Bus := ((), F b)

/-- The power flags and the owners of the sessions are as before. -/
structure SlotsKept (b b' : Bus) : Prop where
  pwrGb : b'.pwrGb = b.pwrGb
  pwrGba : b'.pwrGba = b.pwrGba
  ownGb : b'.ownGb = b.ownGb
  ownGba : b'.ownGba = b.ownGba

theorem SlotsKept.trans {b c d : Bus} (h : SlotsKept b c) (k : SlotsKept c d) : SlotsKept b d where
  pwrGb := k.pwrGb.trans h.pwrGb
  pwrGba := k.pwrGba.trans h.pwrGba
  ownGb := k.ownGb.trans h.ownGb
  ownGba := k.ownGba.trans h.ownGba

theorem GbCycles.slots {b c : Bus} (h : GbCycles b c) : SlotsKept b c :=
  ⟨h.pwrGb, h.pwrGba, h.ownGb, h.ownGba⟩

theorem GbaCycles.slots {b c : Bus} (h : GbaCycles b c) : SlotsKept b c :=
  ⟨h.pwrGb, h.pwrGba, h.ownGb, h.ownGba⟩

/-- The other slot of a power session is off. -/
def OtherOff (slot : Option Slot) (b : Bus) : Prop :=
  match slot with
  | none => True
  | some .gb => b.pwrGba = false
  | some .gba => b.pwrGb = false

/-- Nothing keeps a bus step of this agent from happening: calm, the chips not forced idle, the continuous read as
it should be, the other slot off where a power session is open, room for `n` bytes in the buffer space. -/
structure Going (slot : Option Slot) (crd : Bool) (n : Nat) (s : State) : Prop where
  calm : Calm s
  selected : s.csForceIdle = false
  stream : s.bus.crdActive = crd
  other : OtherOff slot s.bus
  room : s.me.bufp.toNat + n ≤ Config.hbufSize

section going
variable {slot : Option Slot} {crd crd' : Bool} {n : Nat} {s : State} {op : Instr}

theorem Going.busReady (h : Going slot false n s) : busReady op s = .ok () := by
  simp [Machine.busReady, raceFree_ok h.calm, h.stream, h.selected, bind, Except.bind]

theorem Going.streamReady (h : Going slot true n s) : streamReady op s = .ok () := by
  simp [Machine.streamReady, raceFree_ok h.calm, h.stream, h.selected, bind, Except.bind]

theorem Going.strobeReady {crd : Bool} (h : Going slot crd n s) : strobeReady op s = .ok () := strobeReady_ok h.calm

theorem Going.gbaIsOff {crd : Bool} (h : Going (some .gb) crd n s) : gbaIsOff s = .ok () := by
  have o : s.bus.pwrGba = false := h.other
  simp [Machine.gbaIsOff, o]

theorem Going.gbIsOff {crd : Bool} (h : Going (some .gba) crd n s) : gbIsOff s = .ok () := by
  have o : s.bus.pwrGb = false := h.other
  simp [Machine.gbIsOff, o]

theorem Going.inHbuf (h : Going slot crd n s) {k m : Nat} (fits : k + m ≤ n) : inHbuf k m s = .ok () := by
  have r := h.room
  have : s.me.bufp.toNat + k + m ≤ Config.hbufSize := by omega
  simp [Machine.inHbuf, this]

/-- A state with only its bus side changed goes on where the owners and flags allow. -/
theorem Going.withBus (h : Going slot crd n s) (b : Bus) (gb : b.ownGb = s.bus.ownGb ∨ b.ownGb = none)
    (gba : b.ownGba = s.bus.ownGba ∨ b.ownGba = none) (stream : b.crdActive = crd') (other : OtherOff slot b) :
    Going slot crd' n { s with bus := b } where
  calm := by
    have c : intruded s = none := h.calm
    simp only [intruded, Option.or_eq_none_iff] at c
    show intruded { s with bus := b } = none
    simp only [intruded, Option.or_eq_none_iff]
    refine ⟨⟨?_, ?_⟩, c.2⟩
    · rcases gb with e | e <;> simp only [e]
      · exact c.1.1
      · rfl
    · rcases gba with e | e <;> simp only [e]
      · exact c.1.2
      · rfl
  selected := h.selected
  stream := stream
  other := other
  room := h.room

theorem OtherOff.kept {b c : Bus} (h : OtherOff slot b) (k : SlotsKept b c) : OtherOff slot c := by
  cases slot with
  | none => trivial
  | some x => cases x
              · exact k.pwrGba.trans h
              · exact k.pwrGb.trans h

theorem Going.kept (h : Going slot crd n s) {b : Bus} (k : SlotsKept s.bus b) (stream : b.crdActive = crd') :
    Going slot crd' n { s with bus := b } :=
  h.withBus b (.inl k.ownGb) (.inl k.ownGba) stream (h.other.kept k)

/-- The conditions of an operation with expander steps, as those of its steps. -/
theorem Ready.going (h : Ready s) (fits : s.me.bufp.toNat + n ≤ Config.hbufSize) : Going none false n s :=
  ⟨h.calm, h.selected, h.closed, trivial, fits⟩

theorem room_zero (s : State) : s.me.bufp.toNat + 0 ≤ Config.hbufSize := by
  have := s.me.bufp.isLt
  simp only [Config.hbufSize]
  omega

end going

/-- Bus steps that all happen and come to a function of the bus. -/
def BusPlays (slot : Option Slot) (crd crd' : Bool) (n : Nat) (p : Prog α) (F : Bus → α × Bus) : Prop :=
  Plays (Going slot crd n) (Going slot crd' n) p (onB F)

section busplays
variable {slot : Option Slot} {crd crd1 crd2 : Bool} {n : Nat} {p : Prog α} {F : Bus → α × Bus}

theorem BusPlays.ret (v : α) : BusPlays slot crd crd n (.ret v) fun b => (v, b) := Plays.ret v

theorem BusPlays.bind {f : α → Prog β} {G : α → Bus → β × Bus} (h : BusPlays slot crd crd1 n p F)
    (k : ∀ v, BusPlays slot crd1 crd2 n (f v) (G v)) :
    BusPlays slot crd crd2 n (p.bind f) fun b => G (F b).1 (F b).2 := Plays.bind h k

theorem BusPlays.then {q : Prog β} {G : Bus → β × Bus} (h : BusPlays slot crd crd1 n p F)
    (k : BusPlays slot crd1 crd2 n q G) : BusPlays slot crd crd2 n (p.then q) fun b => G (F b).2 := Plays.then h k

theorem BusPlays.map (h : BusPlays slot crd crd1 n p F) (g : α → β) :
    BusPlays slot crd crd1 n (p.map g) fun b => (g (F b).1, (F b).2) := Plays.map h g

theorem BusPlays.within (h : BusPlays slot crd crd1 n p F) : BusPlays slot crd crd1 n p.within F := Plays.within h

theorem BusPlays.congr {G : Bus → α × Bus} (h : BusPlays slot crd crd1 n p F) (e : ∀ b, F b = G b) :
    BusPlays slot crd crd1 n p G := Plays.congr h fun s _ => by simp only [onB, e]

/-- A choice made before the steps. -/
theorem BusPlays.ite {c : Prop} [Decidable c] {q : Prog α} {G : Bus → α × Bus} (h : c → BusPlays slot crd crd1 n p F)
    (k : ¬ c → BusPlays slot crd crd1 n q G) :
    BusPlays slot crd crd1 n (if c then p else q) fun b => if c then F b else G b := by
  by_cases e : c
  · simp only [e, if_true]; exact h e
  · simp only [e, if_false]; exact k e

/-- A bus step with a value. -/
theorem BusPlays.read {kind : StepKind} {check : State → Except Fault Unit} {c : Coding α} (hc : c.Faithful)
    (chk : ∀ s, Going slot crd n s → check s = .ok ()) (kept : ∀ b, SlotsKept b (F b).2)
    (stream : ∀ b, b.crdActive = crd → (F b).2.crdActive = crd1) :
    BusPlays slot crd crd1 n (busRead kind check c F) F :=
  Plays.step hc chk fun _ h => h.kept (kept _) (stream _ h.stream)

/-- A bus step. -/
theorem BusPlays.act {kind : StepKind} {check : State → Except Fault Unit} {f : Bus → Bus}
    (chk : ∀ s, Going slot crd n s → check s = .ok ()) (kept : ∀ b, SlotsKept b (f b))
    (stream : ∀ b, b.crdActive = crd → (f b).crdActive = crd1) :
    BusPlays slot crd crd1 n (busDo kind check f) (silent f) :=
  Plays.step asUnit_faithful chk fun _ h => h.kept (kept _) (stream _ h.stream)

/-- Steps in order. -/
theorem BusPlays.nil : BusPlays slot crd crd n (Prog.steps []) (silent fun b => b) := Plays.ret ()

theorem BusPlays.cons {p : Prog Unit} {ps : List (Prog Unit)} {f g : Bus → Bus}
    (h : BusPlays slot crd crd1 n p (silent f)) (k : BusPlays slot crd1 crd2 n (Prog.steps ps) (silent g)) :
    BusPlays slot crd crd2 n (Prog.steps (p :: ps)) (silent fun b => g (f b)) := h.then k

/-- A step for each element of a list. -/
theorem BusPlays.fold {γ : Type} (xs : List γ) {f : γ → Prog Unit} {g : Bus → γ → Bus}
    (h : ∀ x, BusPlays slot crd crd n (f x) (silent fun b => g b x)) :
    BusPlays slot crd crd n (Prog.steps (xs.map f)) (silent fun b => xs.foldl g b) := by
  induction xs with
  | nil => exact .nil
  | cons x xs ih => exact .cons (h x) ih

/-- A counted loop that gathers values, from `i` on. -/
def gatherFrom (F : Nat → Bus → α × Bus) : Nat → Nat → Bus → List α × Bus
  | _, 0, b => ([], b)
  | i, m + 1, b =>
    let r := F i b
    let rest := gatherFrom F (i + 1) m r.2
    (r.1 :: rest.1, rest.2)

theorem gatherFrom_snoc (F : Nat → Bus → α × Bus) (i m : Nat) (b : Bus) :
    gatherFrom F i (m + 1) b =
      ((gatherFrom F i m b).1 ++ [(F (i + m) (gatherFrom F i m b).2).1], (F (i + m) (gatherFrom F i m b).2).2) := by
  induction m generalizing i b with
  | zero => rfl
  | succ m ih =>
    rw [gatherFrom, ih (i + 1)]
    have e : i + 1 + m = i + (m + 1) := by omega
    simp only [e, gatherFrom, List.cons_append]

theorem gatherFrom_zero (F : Nat → Bus → α × Bus) (m : Nat) (b : Bus) : gatherFrom F 0 m b = gather m F b := by
  induction m with
  | zero => rfl
  | succ m ih =>
    rw [gatherFrom_snoc, ih]
    simp [gather, gatherRev]

/-- A counted loop that gathers values, whatever else its steps keep. -/
theorem Plays.collectB {I : State → Prop} {f : Nat → Prog α} {F : Nat → Bus → α × Bus} (m : Nat)
    (h : ∀ k, k < m → Plays I I (f k) (onB (F k))) : Plays I I (Prog.collect f 0 m) (onB (gather m F)) := by
  have key : ∀ m i, (∀ k, i ≤ k → k < i + m → Plays I I (f k) (onB (F k))) →
      Plays I I (Prog.collect f i m) (onB (gatherFrom F i m)) := by
    intro m
    induction m with
    | zero => intro i _; exact Plays.ret _
    | succ m ih =>
      intro i h
      exact Plays.bind (h i (by omega) (by omega)) fun v =>
        Plays.map (ih (i + 1) fun k h1 h2 => h k (by omega) (by omega)) _
  exact (key m 0 fun k _ hk => h k (by omega)).congr fun s _ => by simp only [onB, gatherFrom_zero]

theorem BusPlays.collect {f : Nat → Prog α} {F : Nat → Bus → α × Bus} (m : Nat)
    (h : ∀ k, k < m → BusPlays slot crd crd n (f k) (F k)) :
    BusPlays slot crd crd n (Prog.collect f 0 m) (gather m F) := Plays.collectB m h

/-- A counted loop from `i` on. -/
def iterFrom (f : Nat → Bus → Bus) : Nat → Nat → Bus → Bus
  | _, 0, b => b
  | i, m + 1, b => iterFrom f (i + 1) m (f i b)

theorem iterFrom_snoc (f : Nat → Bus → Bus) (i m : Nat) (b : Bus) :
    iterFrom f i (m + 1) b = f (i + m) (iterFrom f i m b) := by
  induction m generalizing i b with
  | zero => rfl
  | succ m ih =>
    rw [iterFrom, ih (i + 1)]
    have e : i + 1 + m = i + (m + 1) := by omega
    simp only [e, iterFrom]

theorem iterFrom_zero (f : Nat → Bus → Bus) (m : Nat) (b : Bus) : iterFrom f 0 m b = iter m f b := by
  induction m with
  | zero => rfl
  | succ m ih => rw [iterFrom_snoc, ih, Nat.zero_add]; rfl

/-- A counted loop, whatever else its steps keep. -/
theorem Plays.loopB {I : State → Prop} {f : Nat → Prog Unit} {F : Nat → Bus → Bus} (m : Nat)
    (h : ∀ k, k < m → Plays I I (f k) (onB (silent (F k)))) :
    Plays I I (Prog.loop f 0 m) (onB (silent (iter m F))) := by
  have key : ∀ m i, (∀ k, i ≤ k → k < i + m → Plays I I (f k) (onB (silent (F k)))) →
      Plays I I (Prog.loop f i m) (onB (silent (iterFrom F i m))) := by
    intro m
    induction m with
    | zero => intro i _; exact Plays.ret _
    | succ m ih =>
      intro i h
      exact Plays.then (h i (by omega) (by omega)) (ih (i + 1) fun k h1 h2 => h k (by omega) (by omega))
  exact (key m 0 fun k _ hk => h k (by omega)).congr fun s _ => by simp only [onB, silent, iterFrom_zero]

/-- A bus value looked at. -/
theorem BusPlays.look {c : Coding α} (hc : c.Faithful) (f : Bus → α) :
    BusPlays slot crd crd n (look c fun s => f s.bus) fun b => (f b, b) := Plays.look hc

end busplays

/-! ## Steps that fill the buffer -/

/-- Bytes stored at a place of the agent's buffer; no bytes change nothing. -/
def store (off : Nat) (bytes : List Byte) (s : State) : State :=
  if bytes = [] then s else { s with hbuf := s.hbuf.writeBlock (s.me.bufp.toNat + off) bytes }

/-- A bus function whose bytes go to a place of the agent's buffer. -/
def filling (off : Nat) (F : Bus → List Byte × Bus) (s : State) : Unit × State :=
  ((), store off (F s.bus).1 { s with bus := (F s.bus).2 })

theorem freshCells_append (unl : Nat → Byte) (a : Nat) (xs ys : List Byte) :
    freshCells unl a (xs ++ ys) = freshCells unl a xs ++ freshCells unl (a + xs.length) ys := by
  induction xs generalizing a with
  | nil => simp [freshCells]
  | cons x xs ih =>
    have e : a + (xs.length + 1) = a + 1 + xs.length := by omega
    simp only [List.cons_append, freshCells, List.length_cons, ih, e]
    split <;> simp

/-- Two blocks stored one after the other at adjacent places are one block. -/
theorem writeBlock_append (m : Memory) (a : Nat) (xs ys : List Byte) :
    (m.writeBlock a xs).writeBlock (a + xs.length) ys = m.writeBlock a (xs ++ ys) := by
  have f1 : ∀ (l : List Host.Cell) (p : Host.Cell → Bool), (∀ c ∈ l, p c = true) → l.filter p = l :=
    fun l p h => List.filter_eq_self.2 h
  have f0 : ∀ (l : List Host.Cell) (p : Host.Cell → Bool), (∀ c ∈ l, p c = false) → l.filter p = [] :=
    fun l p h => List.filter_eq_nil_iff.2 fun c hc => by simp [h c hc]
  simp only [Memory.writeBlock, Memory.mk.injEq, cellWrite, List.filter_append, List.filter_filter]
  rw [f1 (freshCells unlistedByte a xs) _ fun c hc => by have := (freshCells_key hc).2.1; simp; omega]
  rw [f0 (freshCells unlistedByte a xs) _ fun c hc => by have := (freshCells_key hc).2.1; simp; omega]
  have e1 : m.cells.filter (fun c => decide (c.1 < a + xs.length) && decide (c.1 < a)) =
      m.cells.filter fun c => decide (c.1 < a) := by
    congr 1; funext c; rw [Bool.eq_iff_iff]; simp; omega
  have e2 : m.cells.filter (fun c => decide (c.1 < a + xs.length) && decide (a + xs.length ≤ c.1)) = [] :=
    List.filter_eq_nil_iff.2 fun c _ => by simp
  have e3 : m.cells.filter (fun c => decide (a + xs.length + ys.length ≤ c.1) && decide (c.1 < a)) = [] :=
    List.filter_eq_nil_iff.2 fun c _ => by simp; omega
  have e4 : m.cells.filter (fun c => decide (a + xs.length + ys.length ≤ c.1) && decide (a + xs.length ≤ c.1)) =
      m.cells.filter fun c => decide (a + (xs ++ ys).length ≤ c.1) := by
    congr 1; funext c; rw [Bool.eq_iff_iff]; simp; omega
  rw [e1, e2, e3, e4, freshCells_append]
  simp

theorem store_store (off : Nat) (xs ys : List Byte) (s : State) :
    store (off + xs.length) ys (store off xs s) = store off (xs ++ ys) s := by
  by_cases hx : xs = []
  · subst hx; simp [store]
  · by_cases hy : ys = []
    · subst hy; simp [store]
    · have hxy : xs ++ ys ≠ [] := by simp [hx]
      simp only [store, hx, hy, hxy, if_false]
      rw [← Nat.add_assoc, writeBlock_append]

theorem store_bus (off : Nat) (xs : List Byte) (s : State) : (store off xs s).bus = s.bus := by
  unfold store; split <;> rfl

theorem store_withBus (off : Nat) (xs : List Byte) (s : State) (b : Bus) :
    { store off xs s with bus := b } = store off xs { s with bus := b } := by
  unfold store; split <;> rfl

theorem Going.store {slot : Option Slot} {crd : Bool} {n : Nat} {s : State} (h : Going slot crd n s) (off : Nat)
    (xs : List Byte) : Going slot crd n (store off xs s) := by
  unfold Machine.store
  split
  · exact h
  · exact ⟨h.calm, h.selected, h.stream, h.other, h.room⟩

/-- Steps that put what a bus function gives at a place of the agent's buffer. -/
def Fills (slot : Option Slot) (crd crd' : Bool) (n off : Nat) (p : Prog Unit) (F : Bus → List Byte × Bus) : Prop :=
  Plays (Going slot crd n) (Going slot crd' n) p (filling off F)

section fills
variable {slot : Option Slot} {crd crd1 crd2 : Bool} {n off : Nat} {p q : Prog Unit} {F G : Bus → List Byte × Bus}

theorem Fills.congr (h : Fills slot crd crd1 n off p F) (e : ∀ b, F b = G b) : Fills slot crd crd1 n off p G :=
  Plays.congr h fun s _ => by simp only [filling, e]

/-- A fill after another one, at the place where that one ends. -/
theorem Fills.then (L : Nat) (len : ∀ b, (F b).1.length = L) (h : Fills slot crd crd1 n off p F)
    (k : Fills slot crd1 crd2 n (off + L) q G) :
    Fills slot crd crd2 n off (p.then q) fun b => ((F b).1 ++ (G (F b).2).1, (G (F b).2).2) :=
  Plays.congr (Plays.then h k) fun s _ => by
    simp only [filling, store_bus, store_withBus]
    rw [← len s.bus, store_store]

theorem Fills.nothing : Fills slot crd crd n off (.ret ()) fun b => ([], b) := Plays.ret ()

/-- Bus steps in front of a fill. -/
theorem Fills.after {g : Bus → Bus} (h : BusPlays slot crd crd1 n p (silent g)) (k : Fills slot crd1 crd2 n off q F) :
    Fills slot crd crd2 n off (p.then q) fun b => F (g b) := Plays.then h k

/-- Bus steps behind a fill. -/
theorem Fills.before {g : Bus → Bus} (h : Fills slot crd crd1 n off p F) (k : BusPlays slot crd1 crd2 n q (silent g)) :
    Fills slot crd crd2 n off (p.then q) fun b => ((F b).1, g (F b).2) :=
  Plays.congr (Plays.then h k) fun s _ => by
    simp only [filling, onB, silent, store_bus, store_withBus]

theorem Fills.mono {n m : Nat} (h : Fills slot crd crd1 n off p F) (le : n = m) : Fills slot crd crd1 m off p F := le ▸ h

theorem run_memWrite {k : Nat} {bytes : List Byte} {s : State} (h : inHbuf k bytes.length s = .ok ()) :
    (memWrite k bytes).run s = .ok ((), { s with hbuf := s.hbuf.writeBlock (s.me.bufp.toNat + k) bytes }) := by
  rw [memWrite, run_step _ _ asUnit_faithful, h]

/-- Bytes read and then stored. -/
theorem Fills.of_bytes {p : Prog (List Byte)} (L : Nat) (len : ∀ b, (F b).1.length = L) (pos : 0 < L) (fits : off + L ≤ n)
    (h : BusPlays slot crd crd1 n p F) : Fills slot crd crd1 n off (p.bind fun v => memWrite off v) F := fun s hs => by
  obtain ⟨h1, h2⟩ := h s hs
  have l := len s.bus
  have ne : (F s.bus).1 ≠ [] := by intro e; rw [e] at l; simp at l; omega
  refine ⟨(run_bind_ok h1).trans ((run_memWrite (h2.inHbuf (by show off + (F s.bus).1.length ≤ n; omega))).trans ?_),
    Going.store h2 _ _⟩
  simp [filling, store, ne, onB]

/-- One byte read and then stored. -/
theorem Fills.of_byte {p : Prog Byte} {F : Bus → Byte × Bus} (fits : off < n) (h : BusPlays slot crd crd1 n p F) :
    Fills slot crd crd1 n off (storeByte off p) fun b => ([(F b).1], (F b).2) := fun s hs => by
  obtain ⟨h1, h2⟩ := h s hs
  refine ⟨(run_bind_ok h1).trans ((run_memWrite (h2.inHbuf (by simp; omega))).trans ?_),
    Going.store (n := n) h2 off [(F s.bus).1]⟩
  simp [filling, store, onB]

/-- A loop of fills, each at the place where the one before it ends. -/
theorem Fills.loop {f : Nat → Prog Unit} {F : Nat → Bus → List Byte × Bus} (i m : Nat) (place len : Nat → Nat)
    (h : ∀ j, i ≤ j → j < i + m → Fills slot crd crd n (place j) (f j) (F j))
    (lens : ∀ j b, i ≤ j → j < i + m → (F j b).1.length = len j)
    (next : ∀ j, i ≤ j → j + 1 < i + m → place (j + 1) = place j + len j) :
    Fills slot crd crd n (place i) (Prog.loop f i m) fun b =>
      ((gatherFrom F i m b).1.flatten, (gatherFrom F i m b).2) := by
  induction m generalizing i with
  | zero => exact (Fills.nothing (off := place i)).congr fun b => rfl
  | succ m ih =>
    have k := ih (i + 1) (fun j h1 h2 => h j (by omega) (by omega)) (fun j b h1 h2 => lens j b (by omega) (by omega))
      (fun j h1 h2 => next j (by omega) (by omega))
    cases m with
    | zero =>
      have e : Fills slot crd crd n (place i) ((f i).then (Prog.loop f (i + 1) 0)) fun b =>
          ((F i b).1 ++ [], (F i b).2) :=
        Fills.then (len i) (fun b => lens i b (by omega) (by omega)) (h i (by omega) (by omega))
          (Fills.nothing (off := place i + len i))
      exact e.congr fun b => by simp [gatherFrom]
    | succ m =>
      rw [next i (by omega) (by omega)] at k
      exact (Fills.then (len i) (fun b => lens i b (by omega) (by omega)) (h i (by omega) (by omega)) k).congr fun b => by
        simp [gatherFrom]

/-- The values of a loop of single bytes. -/
theorem gatherFrom_singletons (F : Nat → Bus → Byte × Bus) (i m : Nat) (b : Bus) :
    gatherFrom (fun k b => ([(F k b).1], (F k b).2)) i m b =
      ((gatherFrom F i m b).1.map fun v => [v], (gatherFrom F i m b).2) := by
  induction m generalizing i b with
  | zero => rfl
  | succ m ih => simp [gatherFrom, ih]

theorem flatten_singletons (xs : List Byte) : (xs.map fun v => [v]).flatten = xs := by
  induction xs with
  | nil => rfl
  | cons x xs ih => simp [ih]

/-- A loop of single bytes read and stored. -/
theorem Fills.bytes {f : Nat → Prog Byte} {F : Nat → Bus → Byte × Bus} (m : Nat) (fits : off + m ≤ n)
    (h : ∀ k, k < m → BusPlays slot crd crd n (f k) (F k)) :
    Fills slot crd crd n off (Prog.loop (fun k => storeByte (off + k) (f k)) 0 m) (gather m F) := by
  have k := Fills.loop (slot := slot) (crd := crd) (n := n) (f := fun k => storeByte (off + k) (f k))
    (F := fun k b => ([(F k b).1], (F k b).2)) 0 m (fun j => off + j) (fun _ => 1)
    (fun j _ hj => Fills.of_byte (by omega) (h j (by omega))) (fun _ _ _ _ => rfl) (fun _ _ _ => rfl)
  exact k.congr fun b => by rw [gatherFrom_singletons, gatherFrom_zero, flatten_singletons]

end fills

/-- A loop whose index starts one higher. -/
theorem loop_shift (f : Nat → Prog Unit) (i m : Nat) : Prog.loop f (i + 1) m = Prog.loop (fun k => f (k + 1)) i m := by
  induction m generalizing i with
  | zero => rfl
  | succ m ih => simp only [Prog.loop, ih]

theorem gatherFrom_shift (F : Nat → Bus → α × Bus) (i m : Nat) (b : Bus) :
    gatherFrom F (i + 1) m b = gatherFrom (fun k => F (k + 1)) i m b := by
  induction m generalizing i b with
  | zero => rfl
  | succ m ih => simp only [gatherFrom, ih]

end Sys2Proof.Machine
end

