-- ==== Sys2Proof/Laws/PlaysPower.lean ====
section
/-! SUPPORT. What the steps of the shared sequences come to when nothing keeps them from happening: the bus
functions of `Laws/Whole.lean`. -/

namespace Sys2Proof.Machine

variable {slot : Option Slot} {n : Nat} {op : Instr}

/-! ## Power sequences -/

theorem pinStep_plays {crd : Bool} {f : Bus → Bus} (kept : ∀ b, SlotsKept b (f b))
    (stream : ∀ b, (f b).crdActive = b.crdActive) : BusPlays slot crd crd n (pinStep op f) (silent f) :=
  .act (fun _ h => h.strobeReady) kept fun b h => (stream b).trans h

theorem drive_plays {crd : Bool} (p : Pin) (v : Bool) :
    BusPlays slot crd crd n (drive op p v) (silent (drivePin p v)) :=
  (pinStep_plays (fun b => by constructor <;> simp) fun b => by simp).then
    (pinStep_plays (fun b => by constructor <;> simp) fun b => by simp)

theorem drivePower_plays {crd : Bool} (p : Pin) (v : Bool) (x : Slot) (on : Bool) :
    BusPlays slot crd crd n (drivePower op p v x on) (silent fun b => record (.power x on) (drivePin p v b)) :=
  BusPlays.then (pinStep_plays (fun b => by constructor <;> simp) fun b => by simp)
    (pinStep_plays (fun b => by constructor <;> simp) fun b => by simp)

/-- A frame that keeps flags, owners and the continuous read. -/
theorem frameStep_plays {f : Bus → Bus} (kept : ∀ b, SlotsKept b (f b))
    (stream : ∀ b, (f b).crdActive = b.crdActive) : BusPlays slot false false n (frameStep op f) (silent f) :=
  .act (fun _ h => h.busReady) kept fun b h => (stream b).trans h

theorem delay_plays {crd : Bool} (t : DelayName) :
    BusPlays slot crd crd n (delayStep t) (silent (delay t)) :=
  .act (fun _ _ => rfl) (fun b => by constructor <;> simp) fun b h => by simpa using h

theorem gbDefaults_plays : BusPlays slot false false n (gbDefaultsSteps op) (silent gbDefaults) := by
  have h : BusPlays slot false false n (gbDefaultsSteps op) _ :=
    .cons (drive_plays .gbCs true) <| .cons (drive_plays .gbRd true) <| .cons (drive_plays .gbWr true) <|
    .cons (frameStep_plays (fun b => by constructor <;> simp) fun b => by simp) <|
    .cons (frameStep_plays (fun b => by constructor <;> simp) fun b => by simp) <|
    .cons (frameStep_plays (fun b => by constructor <;> simp) fun b => by simp) <|
    .cons (frameStep_plays (fun b => by constructor <;> simp) fun b => by simp) <|
    .cons (frameStep_plays (fun b => by constructor <;> simp) fun b => by simp) .nil
  exact h

theorem gbaDefaults_plays : BusPlays slot false false n (gbaDefaultsSteps op) (silent gbaDefaults) := by
  have h : BusPlays slot false false n (gbaDefaultsSteps op) _ :=
    .cons (drive_plays .gbaCs true) <| .cons (drive_plays .gbaCs2 true) <|
    .cons (drive_plays .gbaRd true) <| .cons (drive_plays .gbaWr true) <|
    .cons (frameStep_plays (fun b => by constructor <;> simp) fun b => by simp) <|
    .cons (frameStep_plays (fun b => by constructor <;> simp) fun b => by simp) <|
    .cons (frameStep_plays (fun b => by constructor <;> simp) fun b => by simp) <|
    .cons (frameStep_plays (fun b => by constructor <;> simp) fun b => by simp) <|
    .cons (frameStep_plays (fun b => by constructor <;> simp) fun b => by simp) <|
    .cons (frameStep_plays (fun b => by constructor <;> simp) fun b => by simp) .nil
  exact h

theorem gbPowerUp_plays :
    BusPlays (some .gb) false false n (gbPowerUpSteps op) (silent gbPowerUp) := by
  have up : BusPlays (some .gb) false false n (Prog.steps [
      drivePower op .gbPwr (Config.pwrOnLevel .gb) .gb true,
      delayStep .settle, busDo .quiet gbaIsOff gbFlagOn]) _ :=
    .cons (drivePower_plays _ _ _ _) <| .cons (delay_plays _) <|
    .cons (f := gbFlagOn) (Plays.step asUnit_faithful (fun _ h => h.gbaIsOff)
      fun s h => h.withBus _ (.inl rfl) (.inl rfl) h.stream h.other) .nil
  have h : BusPlays (some .gb) false false n (gbPowerUpSteps op) _ :=
    gbDefaults_plays.then <|
    (BusPlays.look asBit_faithful (fun b => b.pwrGb)).bind fun on => .ite (fun _ => .ret ()) fun _ => up
  refine h.congr fun b => ?_
  by_cases e : (gbDefaults b).pwrGb = true
  · simp only [silent, gbPowerUp, e, if_true]
  · simp only [silent, gbPowerUp, e]
    rfl

theorem gbaPowerUp_plays :
    BusPlays (some .gba) false false n (gbaPowerUpSteps op) (silent gbaPowerUp) := by
  have up : BusPlays (some .gba) false false n (Prog.steps [
      drivePower op .gbaPwr (Config.pwrOnLevel .gba) .gba true,
      delayStep .settle, busDo .quiet gbIsOff gbaFlagOn]) _ :=
    .cons (drivePower_plays _ _ _ _) <| .cons (delay_plays _) <|
    .cons (f := gbaFlagOn) (Plays.step asUnit_faithful (fun _ h => h.gbIsOff)
      fun s h => h.withBus _ (.inl rfl) (.inl rfl) h.stream h.other) .nil
  have h : BusPlays (some .gba) false false n (gbaPowerUpSteps op) _ :=
    gbaDefaults_plays.then <|
    (BusPlays.look asBit_faithful (fun b => b.pwrGba)).bind fun on => .ite (fun _ => .ret ()) fun _ => up
  refine h.congr fun b => ?_
  by_cases e : (gbaDefaults b).pwrGba = true
  · simp only [silent, gbaPowerUp, e, if_true]
  · simp only [silent, gbaPowerUp, e]
    rfl

theorem float_plays :
    BusPlays slot false false n (floatSteps op) (silent floatLines) := by
  have h : BusPlays slot false false n (floatSteps op) _ :=
    .cons (frameStep_plays (fun b => by constructor <;> simp) fun b => by simp) <|
    .cons (frameStep_plays (fun b => by constructor <;> simp) fun b => by simp) <|
    .cons (frameStep_plays (fun b => by constructor <;> simp) fun b => by simp) <|
    .cons (frameStep_plays (fun b => by constructor <;> simp) fun b => by simp) .nil
  exact h

theorem ground_plays :
    BusPlays slot false false n (groundSteps op) (silent groundLines) := by
  have h : BusPlays slot false false n (groundSteps op) _ :=
    .cons (frameStep_plays (fun b => by constructor <;> simp) fun b => by simp) <|
    .cons (frameStep_plays (fun b => by constructor <;> simp) fun b => by simp) <|
    .cons (frameStep_plays (fun b => by constructor <;> simp) fun b => by simp) <|
    .cons (frameStep_plays (fun b => by constructor <;> simp) fun b => by simp) .nil
  exact h

theorem gbPowerDown_plays : BusPlays slot false false n (gbPowerDownSteps op) (silent fun b => gbGround (gbRelease b)) := by
  have h : BusPlays slot false false n (gbPowerDownSteps op) _ :=
    .cons float_plays <|
    .cons (pinStep_plays (fun b => by constructor <;> simp) fun b => by simp) <|
    .cons (pinStep_plays (fun b => by constructor <;> simp) fun b => by simp) <|
    .cons (pinStep_plays (fun b => by constructor <;> simp) fun b => by simp) <|
    .cons (drivePower_plays .gbPwr _ .gb false) <| .cons ground_plays <|
    .cons (drive_plays .gbCs false) <| .cons (drive_plays .gbRd false) <|
    .cons (drive_plays .gbWr false) .nil
  exact h

theorem gbaPowerDown_plays :
    BusPlays slot false false n (gbaPowerDownSteps op) (silent fun b => gbaGround (gbaRelease b)) := by
  have h : BusPlays slot false false n (gbaPowerDownSteps op) _ :=
    .cons float_plays <|
    .cons (pinStep_plays (fun b => by constructor <;> simp) fun b => by simp) <|
    .cons (pinStep_plays (fun b => by constructor <;> simp) fun b => by simp) <|
    .cons (pinStep_plays (fun b => by constructor <;> simp) fun b => by simp) <|
    .cons (pinStep_plays (fun b => by constructor <;> simp) fun b => by simp) <|
    .cons (drivePower_plays .gbaPwr _ .gba false) <| .cons ground_plays <|
    .cons (drive_plays .gbaCs false) <| .cons (drive_plays .gbaCs2 false) <|
    .cons (drive_plays .gbaRd false) <| .cons (drive_plays .gbaWr false) .nil
  exact h

theorem gbFlagOff_plays : BusPlays slot false false n gbFlagOffStep (silent gbFlagOff) :=
  Plays.step asUnit_faithful (fun _ _ => rfl) fun s h =>
    h.withBus _ (.inr rfl) (.inl rfl) h.stream (by
      have o := h.other
      cases slot with
      | none => trivial
      | some x => cases x
                  · exact o
                  · rfl)

theorem gbaFlagOff_plays : BusPlays slot false false n gbaFlagOffStep (silent gbaFlagOff) :=
  Plays.step asUnit_faithful (fun _ _ => rfl) fun s h =>
    h.withBus _ (.inl rfl) (.inr rfl) h.stream (by
      have o := h.other
      cases slot with
      | none => trivial
      | some x => cases x
                  · rfl
                  · exact o)

/-- Steps between others that open and close a session. -/
theorem session_plays {α : Type} {I : State → Prop} {check : State → Except Fault Unit} {up down off : Prog Unit}
    {body : Prog α} {U D E Z : Bus → Bus} {F : State → α × State} (hc : ∀ s, I s → check s = .ok ())
    (hu : Plays I I up (onB (silent U))) (hd : Plays I I down (onB (silent D))) (ho : Plays I I off (onB (silent E)))
    (e : ∀ b, E (D b) = Z b) (h : Plays I I body F) :
    Plays I I
      ((ensure check).then <| ((up.then (body.bind fun v => down.then (.ret v))).within).bind fun v => off.then (.ret v))
      fun s =>
        let r := F { s with bus := U s.bus }
        (r.1, { r.2 with bus := Z r.2.bus }) := by
  have k := Plays.then (Plays.ensure hc) ((Plays.within (Plays.then hu (h.bind fun v => Plays.then hd (.ret v)))).bind
    fun v => Plays.then ho (.ret v))
  exact k.congr fun s _ => by simp only [onB, silent, e]

/-- Steps inside a power session of the GB slot. -/
theorem withGbPower_plays {α : Type} {body : Prog α} {F : State → α × State}
    (h : Plays (Going (some .gb) false n) (Going (some .gb) false n) body F) :
    Plays (Going (some .gb) false n) (Going (some .gb) false n) (withGbPower op body) fun s =>
      let r := F { s with bus := gbPowerUp s.bus }
      (r.1, { r.2 with bus := gbPowerDown r.2.bus }) :=
  session_plays (fun _ h => h.gbaIsOff) gbPowerUp_plays gbPowerDown_plays gbFlagOff_plays (fun _ => rfl) h

/-- Steps inside a power session of the GBA slot. -/
theorem withGbaPower_plays {α : Type} {body : Prog α} {F : State → α × State}
    (h : Plays (Going (some .gba) false n) (Going (some .gba) false n) body F) :
    Plays (Going (some .gba) false n) (Going (some .gba) false n) (withGbaPower op body) fun s =>
      let r := F { s with bus := gbaPowerUp s.bus }
      (r.1, { r.2 with bus := gbaPowerDown r.2.bus }) :=
  session_plays (fun _ h => h.gbIsOff) gbaPowerUp_plays gbaPowerDown_plays gbaFlagOff_plays (fun _ => rfl) h

end Sys2Proof.Machine
end

