-- ==== Sys2Proof/Laws/PlaysFetch.lean ====
section
/-! SUPPORT. Steps that send what the agent's buffer holds: while none of them writes the buffer, each byte they
read is one of the bytes it held at the start. -/

namespace Sys2Proof.Machine

variable {α β : Type} {slot : Option Slot} {crd crd' : Bool} {n : Nat} {data : List Byte}

/-- Nothing keeps a bus step from happening, and the agent's buffer holds `data`. -/
structure Holding (slot : Option Slot) (crd : Bool) (n : Nat) (data : List Byte) (s : State) : Prop where
  going : Going slot crd n s
  holds : s.hbuf.readBlock s.me.bufp.toNat data.length = data
  fits : data.length ≤ n

theorem slice_readBlock (m : Memory) (a N k len : Nat) (h : k + len ≤ N) :
    slice k len (m.readBlock a N) = m.readBlock (a + k) len := by
  apply List.ext_getElem?
  intro i
  by_cases hi : i < len
  · rw [slice_get _ _ _ _ hi, readBlock_get _ _ _ _ (by omega), readBlock_get _ _ _ _ hi]
    congr 2
    omega
  · rw [List.getElem?_eq_none (by simp [slice_length]; omega), List.getElem?_eq_none (by simp; omega)]

/-- What a read of the buffer gives. -/
theorem Holding.read {s : State} (h : Holding slot crd n data s) {k len : Nat} (le : k + len ≤ data.length) :
    s.hbuf.readBlock (s.me.bufp.toNat + k) len = slice k len data := by
  rw [← slice_readBlock _ _ data.length _ _ le, h.holds]

/-- Bus steps leave the buffer as it is. -/
theorem BusPlays.holding {p : Prog α} {F : Bus → α × Bus} (h : BusPlays slot crd crd' n p F) :
    Plays (Holding slot crd n data) (Holding slot crd' n data) p (onB F) := fun s hs =>
  ⟨(h s hs.going).1, (h s hs.going).2, hs.holds, hs.fits⟩

/-- Bus steps leave anything alone that does not look at the bus. -/
theorem BusPlays.keeping {K : State → Prop} (kept : ∀ s b, K s → K { s with bus := b })
    {F : Bus → α × Bus} (h : BusPlays slot crd crd' n p F) :
    Plays (fun s => Holding slot crd n data s ∧ K s) (fun s => Holding slot crd' n data s ∧ K s) p (onB F) :=
  fun s hs => ⟨(h.holding s hs.1).1, (h.holding s hs.1).2, kept _ _ hs.2⟩

/-- A read of the buffer. -/
theorem memRead_plays {k len : Nat} (le : k + len ≤ data.length) :
    Plays (Holding slot crd n data) (Holding slot crd n data) (memRead k len)
      (onB fun b => (slice k len data, b)) := fun s hs => by
  refine ⟨?_, hs⟩
  rw [memRead, run_step _ _ asBytes_faithful, hs.going.inHbuf (Nat.le_trans le hs.fits)]
  simp only [hs.read le, onB]

/-- Bus steps of what a place of the buffer holds. -/
theorem fetch_plays {f : List Byte → Prog α} {F : List Byte → Bus → α × Bus} {k len : Nat}
    (le : k + len ≤ data.length) (h : ∀ v, BusPlays slot crd crd' n (f v) (F v)) :
    Plays (Holding slot crd n data) (Holding slot crd' n data) ((memRead k len).bind f) (onB (F (slice k len data))) :=
  Plays.bind (memRead_plays le) fun v => (h v).holding

/-- A single byte of the buffer. -/
theorem slice_one (k : Nat) : (slice k 1 data).headD 0 = data.getD k 0 := by
  simp [slice, List.getD_eq_getElem?_getD, List.headD_eq_head?_getD, List.head?_take]

/-- A loop over bytes as a counted loop. -/
theorem forBytes_iterFrom (f : Nat → Byte → Bus → Bus) (i : Nat) (xs : List Byte) (b : Bus) :
    forBytes f i xs b = iterFrom (fun k b => f k (xs.getD (k - i) 0) b) i xs.length b := by
  have key : ∀ (xs pre : List Byte) (i : Nat) (b : Bus), pre.length ≤ i →
      forBytes f i xs b = iterFrom (fun k b => f k ((pre ++ xs).getD (k - (i - pre.length)) 0) b) i xs.length b := by
    intro xs
    induction xs with
    | nil => intro pre i b _; rfl
    | cons x xs ih =>
      intro pre i b hi
      have e := ih (pre ++ [x]) (i + 1) (f i x b) (by simp; omega)
      simp only [List.append_assoc, List.singleton_append, List.length_append, List.length_singleton] at e
      have w : i + 1 - (pre.length + 1) = i - pre.length := by omega
      rw [w] at e
      have g : (pre ++ x :: xs).getD (i - (i - pre.length)) 0 = x := by
        have : i - (i - pre.length) = pre.length := by omega
        rw [this]
        simp
      simp only [forBytes, List.length_cons, iterFrom, e, g]
  simpa using key xs [] i b (by simp)

theorem forBytes_iter (f : Nat → Byte → Bus → Bus) (xs : List Byte) (b : Bus) :
    forBytes f 0 xs b = iter xs.length (fun k b => f k (xs.getD k 0) b) b := by
  rw [forBytes_iterFrom, iterFrom_zero]; rfl

/-- Counted loops that do the same at each index. -/
theorem iter_congr {f g : Nat → Bus → Bus} (m : Nat) (h : ∀ k b, k < m → f k b = g k b) (b : Bus) :
    iter m f b = iter m g b := by
  induction m with
  | zero => rfl
  | succ m ih => simp only [iter, ih fun k b hk => h k b (by omega), h m _ (by omega)]

/-- A loop that sends the bytes of a part of the buffer one by one. -/
theorem fetchBytes_plays {f : Nat → Byte → Prog Unit} {F : Nat → Byte → Bus → Bus} (off m : Nat)
    (le : off + m ≤ data.length) (h : ∀ k v, k < m → BusPlays slot crd crd n (f k v) (silent (F k v))) :
    Plays (Holding slot crd n data) (Holding slot crd n data)
      (Prog.loop (fun k => (memRead (off + k) 1).bind fun v => f k (v.headD 0)) 0 m)
      (onB (silent fun b => forBytes F 0 (slice off m data) b)) := by
  refine (Plays.loopB (F := fun k => F k ((slice (off + k) 1 data).headD 0)) m fun k hk =>
    fetch_plays (F := fun v => silent (F k (v.headD 0))) (by omega) fun v => h k _ hk).congr fun s _ => ?_
  have e : (slice off m data).length = m := by rw [slice_length]; omega
  simp only [onB, silent, forBytes_iter, e]
  rw [iter_congr m fun k b hk => ?_]
  rw [slice_one, List.getD_eq_getElem?_getD, List.getD_eq_getElem?_getD, slice_get _ _ _ _ hk]

/-- Bytes sent one by one. -/
theorem BusPlays.forBytes {f : Nat → Byte → Prog Unit} {F : Nat → Byte → Bus → Bus} (xs : List Byte)
    (h : ∀ k v, BusPlays slot crd crd n (f k v) (silent (F k v))) :
    BusPlays slot crd crd n (Prog.steps (xs.mapIdx f)) (silent fun b => forBytes F 0 xs b) := by
  have key : ∀ (xs : List Byte) (i : Nat),
      BusPlays slot crd crd n (Prog.steps (xs.mapIdx fun k v => f (i + k) v)) (silent fun b => Machine.forBytes F i xs b) := by
    intro xs
    induction xs with
    | nil => intro i; exact .nil
    | cons x xs ih =>
      intro i
      have e : (fun k v => f (i + (k + 1)) v) = fun k v => f (i + 1 + k) v := by
        funext k v
        congr 1
        omega
      rw [List.mapIdx_cons, e]
      exact BusPlays.cons (g := fun b => Machine.forBytes F (i + 1) xs b) (h i x) (ih (i + 1))
  simpa using key xs 0

/-- The bytes a state's buffer holds are those read from it. -/
theorem Going.holding {s : State} (h : Going slot crd n s) {m : Nat} (le : m ≤ n) :
    Holding slot crd n (s.hbuf.readBlock s.me.bufp.toNat m) s := by
  refine ⟨h, ?_, ?_⟩ <;> simp [le]

/-- Steps that send from the buffer, inside a power session of the GB slot. -/
theorem withGbPower_holding {op : Instr} {body : Prog α} {F : State → α × State}
    (h : Plays (Holding (some .gb) false n data) (Holding (some .gb) false n data) body F) :
    Plays (Holding (some .gb) false n data) (Holding (some .gb) false n data) (withGbPower op body) fun s =>
      let r := F { s with bus := gbPowerUp s.bus }
      (r.1, { r.2 with bus := gbPowerDown r.2.bus }) :=
  session_plays (fun _ h => h.going.gbaIsOff) gbPowerUp_plays.holding gbPowerDown_plays.holding gbFlagOff_plays.holding
    (fun _ => rfl) h

/-- The same for the GBA slot, with something else that holds throughout. -/
theorem withGbaPower_keeping {op : Instr} {body : Prog α} {F : State → α × State} {K : State → Prop}
    (kept : ∀ s b, K s → K { s with bus := b })
    (h : Plays (fun s => Holding (some .gba) false n data s ∧ K s) (fun s => Holding (some .gba) false n data s ∧ K s)
      body F) :
    Plays (fun s => Holding (some .gba) false n data s ∧ K s) (fun s => Holding (some .gba) false n data s ∧ K s)
      (withGbaPower op body) fun s =>
      let r := F { s with bus := gbaPowerUp s.bus }
      (r.1, { r.2 with bus := gbaPowerDown r.2.bus }) :=
  session_plays (fun _ h => h.1.going.gbIsOff) (gbaPowerUp_plays.keeping kept) (gbaPowerDown_plays.keeping kept)
    (gbaFlagOff_plays.keeping kept) (fun _ => rfl) h

end Sys2Proof.Machine
end

