-- ==== Sys2Proof/Laws/PlaysGb.lean ====
section
/-! SUPPORT. What the steps of the GB/GBC engine come to when nothing keeps them from happening: the functions of
`Laws/Whole.lean`. -/

namespace Sys2Proof.Machine

variable {slot : Option Slot} {n : Nat} {op : Instr}

/-! ## Bus cycles and bank switching -/

theorem gbReadStep_plays (a : Half) : BusPlays slot false false n (gbReadStep op a) (gbRead a) :=
  .read asByte_faithful (fun _ h => h.busReady) (fun b => (gbRead_cycles a b).slots)
    fun b h => (gbRead_cycles a b).crdActive.trans h

theorem gbWriteStep_plays (a : Half) (d : Byte) :
    BusPlays slot false false n (gbWriteStep op a d) (silent (gbWrite a d)) :=
  .act (fun _ h => h.busReady) (fun b => (gbWrite_cycles a d b).slots)
    fun b h => (gbWrite_cycles a d b).crdActive.trans h

theorem gbReadMany_plays (a m : Nat) : BusPlays slot false false n (gbReadMany op a m) (gbReadRange a m) :=
  .collect m fun _ _ => gbReadStep_plays _

theorem gbWriteSteps_plays (ws : List (Half × Byte)) :
    BusPlays slot false false n (gbWriteSteps op ws) (silent (gbWrites ws)) :=
  .fold ws fun _ => gbWriteStep_plays _ _

theorem mbcSteps_plays (ws : List (Half × Byte)) (g : Mbcw → Mbcw) :
    BusPlays slot false false n (mbcSteps op ws g) (silent (mbcStep ws g)) :=
  (gbWriteSteps_plays ws).then
    (BusPlays.act (f := fun b => { b with mbcw := g b.mbcw }) (fun _ _ => rfl) (fun _ => ⟨rfl, rfl, rfl, rfl⟩)
      fun _ h => h)

/-- Addresses read and stored, in order. -/
theorem gbStore_fills (off a m : Nat) (fits : off + m ≤ n) :
    Fills slot false false n off (gbStore op off a m) (gbReadRange a m) :=
  Fills.bytes m fits fun _ _ => gbReadStep_plays _

/-! ## Header and re-check -/

/-- What the session that a header gives comes to, inside the power session. -/
def gbJudge (h : List Byte) (s : State) : Option GbSession × State :=
  match gbSessionOf h (sha1Hex h) with
  | some g => (some g, s)
  | none => (none, gbClear s)

theorem gbJudge_plays (h : List Byte) :
    Plays (Going slot false n) (Going slot false n) (gbJudgeSteps h) (gbJudge h) := by
  unfold gbJudge gbJudgeSteps
  cases gbSessionOf h (sha1Hex h) with
  | none => exact Plays.then (.update fun s h => ⟨h.calm, h.selected, h.stream, h.other, h.room⟩) (.ret _)
  | some g => exact .ret _

/-- What a verified session comes to after the power session. -/
def gbKeep (r : Option GbSession) (s : State) : Word × State :=
  match r with
  | some g => (1, { s with gb := g })
  | none => (0, s)

theorem gbKeep_plays (r : Option GbSession) :
    Plays (Going slot false n) (Going slot false n) (gbKeepSteps r) (gbKeep r) := by
  cases r with
  | none => exact .ret _
  | some g => exact Plays.then (.update fun s h => ⟨h.calm, h.selected, h.stream, h.other, h.room⟩) (.ret _)

/-- A header read by any bus steps in a power session, judged before the power-down and kept after it. -/
theorem gbLoadFrom_plays {α : Type} {P : Prog α} {Q : Prog (List Byte)} {F : Bus → α × Bus} {G : Bus → List Byte × Bus}
    (hp : BusPlays (some .gb) false false n P F) (hq : BusPlays (some .gb) false false n Q G) :
    Plays (Going (some .gb) false n) (Going (some .gb) false n)
      ((withGbPower op <| P.then <| Q.bind gbJudgeSteps).bind gbKeepSteps) fun s =>
      let r := G (F (gbPowerUp s.bus)).2
      let t := { s with bus := gbPowerDown r.2 }
      gbKeep (gbJudge r.1 t).1 (gbJudge r.1 t).2 := by
  refine ((withGbPower_plays (Plays.then hp (Plays.bind hq gbJudge_plays))).bind gbKeep_plays).congr fun s _ => ?_
  simp only [onB]
  generalize G (F (gbPowerUp s.bus)).2 = r
  simp only [gbJudge]
  cases gbSessionOf r.1 (sha1Hex r.1) <;> rfl

/-- The header read in its power session; a header that fails clears the session before the power-down. -/
theorem gbLoad_plays : Plays (Going (some .gb) false n) (Going (some .gb) false n) (gbLoadSteps op) gbLoadHeader := by
  intro s hs
  have h := gbLoadFrom_plays (op := op) (gbReadMany_plays (n := n) (op := op) 0 4) (gbReadMany_plays (op := op) 0 1024) s hs
  unfold gbLoadSteps gbLoadHeader gbHeaderRead
  dsimp only at h ⊢
  generalize gbReadRange 0 1024 (gbReadRange 0 4 (gbPowerUp s.bus)).2 = r at h ⊢
  simp only [gbJudge] at h
  cases e : gbSessionOf r.1 (sha1Hex r.1) <;> rw [e] at h <;> exact h

/-- The 64 bytes of a re-check, read in their power session. -/
theorem gbCheck_plays : BusPlays (some .gb) false false n (gbCheckSteps op) gbCheckRead :=
  withGbPower_plays (gbReadMany_plays 0x104 64)

/-- The re-check of a session. -/
theorem gbIsLoaded_plays {s : State} (loaded : s.gb.loaded = true) (h : Going (some .gb) false n s) :
    (gbIsLoadedSteps op).run s = .ok (gbRecheck s) := by
  have k := (gbCheck_plays (op := op)).run h
  rw [gbIsLoadedSteps, run_bind_ok (run_look asGb_faithful _ _), if_neg (by simp [loaded]), run_bind_ok k,
    run_bind_ok (run_look asGb_faithful _ _)]
  simp only [gbRecheck]
  split
  · rfl
  · rw [run_then_ok (run_update _ _)]; rfl

/-! ## Bulk reads -/

/-- Banks read through the switched window `a`, each stored `w` bytes above the one before it. -/
theorem gbBanks_fills (m : Mbc) (a w k : Nat) (fits : k * w ≤ n) :
    Fills slot false false n (1 * w)
      (Prog.loop (fun i => (romBankSteps op m (BitVec.ofNat 9 i)).then (gbStore op (i * w) a w)) 1 (k - 1))
      fun b =>
        let r := gatherFrom (fun i b => gbReadRange a w (gbRomBank m (BitVec.ofNat 9 i) b)) 1 (k - 1) b
        (r.1.flatten, r.2) :=
  Fills.loop 1 (k - 1) (fun i => i * w) (fun _ => w)
    (fun i h1 h2 => Fills.after (mbcSteps_plays _ _) (gbStore_fills _ _ _ (by
      have e : (i + 1) * w ≤ k * w := Nat.mul_le_mul_right w (by omega)
      rw [Nat.add_mul] at e
      omega)))
    (fun _ _ _ _ => gbReadRange_length _ _ _) (fun i _ _ => by rw [Nat.add_mul]; omega)

/-- Banks `1` to `n - 1` read through the switched window. -/
theorem gbDumpBanks_fills (m : Mbc) (k : Nat) (fits : k * 0x4000 ≤ n) :
    Fills slot false false n 0x4000 (gbDumpBankSteps op m k) (gbDumpBanks m k) := by
  have h := Fills.before (gbBanks_fills (slot := slot) (op := op) m 0x4000 0x4000 k fits)
    (mbcSteps_plays (op := op) (romBankWrites m 1) (mbcwRomBank m 1))
  rw [Nat.one_mul] at h
  refine Fills.congr h fun b => ?_
  simp only [gatherFrom_shift _ 0, gatherFrom_zero, gbDumpBanks, gbRomBank]

/-- The bytes of a ROM dump, read and stored (`43_gb_engine.md` R284). -/
theorem gbDump_fills (g : GbSession) (total : 0x4000 ≤ gbDumpTotal g) (fits : gbDumpTotal g ≤ n)
    (whole : g.mbc ≠ .noMbc → g.romSize.toNat / 0x4000 * 0x4000 ≤ n) :
    Plays (Going (some .gb) false n) (Going (some .gb) false n)
      (withGbPower op <| (gbStore op 0 0 0x4000).then <|
        if g.mbc = .noMbc then gbStore op 0x4000 0x4000 (gbDumpTotal g - 0x4000)
        else gbDumpBankSteps op g.mbc (g.romSize.toNat / 0x4000)) (filling 0 (gbDump g)) := by
  have body : Fills (some .gb) false false n 0 ((gbStore op 0 0 0x4000).then <|
      if g.mbc = .noMbc then gbStore op 0x4000 0x4000 (gbDumpTotal g - 0x4000)
      else gbDumpBankSteps op g.mbc (g.romSize.toNat / 0x4000)) _ :=
    Fills.then 0x4000 (fun b => gbReadRange_length _ _ _) (gbStore_fills 0 0 0x4000 (by omega))
      (show Fills (some .gb) false false n (0 + 0x4000) _ (fun b =>
          if g.mbc = .noMbc then gbReadRange 0x4000 (gbDumpTotal g - 0x4000) b
          else gbDumpBanks g.mbc (g.romSize.toNat / 0x4000) b) from
        Plays.congr (.ite (fun _ => gbStore_fills 0x4000 0x4000 _ (by omega))
          fun e => gbDumpBanks_fills _ _ (whole e)) fun s _ => by simp only [filling]; split <;> rfl)
  refine (withGbPower_plays body).congr fun s _ => ?_
  simp only [filling, store_bus, store_withBus, gbDump]

/-- The bytes of a save, read and stored (`43_gb_engine.md` R288). -/
theorem gbSaveDump_fills (m : Mbc) (sz : Nat) (fits : sz ≤ n) :
    Plays (Going (some .gb) false n) (Going (some .gb) false n)
      (withGbPower op <| (ramOpenSteps op m).then <| (Prog.loop (fun j =>
        (ramBankSteps op m (BitVec.ofNat 4 j)).then (gbStore op (j * 0x2000) 0xA000 (saveBankLen sz j))) 0
          (saveBanks sz)).then <| ramCloseSteps op m) (filling 0 (gbSaveDump m sz)) := by
  have banks : ∀ j, j < saveBanks sz → j * 0x2000 + saveBankLen sz j ≤ sz := fun j hj => by
    unfold saveBanks at hj; unfold saveBankLen; omega
  have loop := Fills.loop (slot := some .gb) (crd := false) (n := n)
    (f := fun j => (ramBankSteps op m (BitVec.ofNat 4 j)).then (gbStore op (j * 0x2000) 0xA000 (saveBankLen sz j)))
    (F := fun j b => gbReadRange 0xA000 (saveBankLen sz j) (gbRamBank m (BitVec.ofNat 4 j) b)) 0 (saveBanks sz)
    (fun j => j * 0x2000) (saveBankLen sz)
    (fun j _ hj => Fills.after (mbcSteps_plays _ _)
      (gbStore_fills _ _ _ (Nat.le_trans (banks j (by omega)) fits)))
    (fun _ _ _ _ => gbReadRange_length _ _ _)
    (fun j _ hj => by unfold saveBanks at hj; unfold saveBankLen; omega)
  have body := Fills.after (off := 0 * 0x2000) (mbcSteps_plays (op := op) (ramOpenWrites m) (mbcwRamOpen m))
    (loop.before (mbcSteps_plays (op := op) (ramCloseWrites m) (mbcwRamClose m)))
  refine (withGbPower_plays body).congr fun s _ => ?_
  simp only [filling, store_bus, store_withBus, gatherFrom_zero, Nat.zero_mul]
  rfl

/-! ## The save write -/

/-- Bytes of the buffer sent to a window, one by one. -/
theorem gbFetch_plays {data : List Byte} (off a m : Nat) (le : off + m ≤ data.length) :
    Plays (Holding slot false n data) (Holding slot false n data) (gbFetch op off a m)
      (onB (silent fun b => forBytes (fun o v => gbWrite (BitVec.ofNat 16 (a + o)) v) 0 (slice off m data) b)) :=
  fetchBytes_plays off m le fun _ _ _ => gbWriteStep_plays _ _

/-- The bytes of the buffer written to a save (`43_gb_engine.md` R291). -/
theorem gbSaveStore_plays (m : Mbc) {data : List Byte} :
    Plays (Holding (some .gb) false n data) (Holding (some .gb) false n data)
      (withGbPower op <| (ramOpenSteps op m).then <| (Prog.loop (fun j =>
        (ramBankSteps op m (BitVec.ofNat 4 j)).then (gbFetch op (j * 0x2000) 0xA000 (saveBankLen data.length j))) 0
          (saveBanks data.length)).then <| ramCloseSteps op m) (onB (silent (gbSaveStore m data))) := by
  have loop := Plays.loopB (I := Holding (some .gb) false n data)
    (f := fun j => (ramBankSteps op m (BitVec.ofNat 4 j)).then (gbFetch op (j * 0x2000) 0xA000 (saveBankLen data.length j)))
    (F := fun j b => forBytes (fun o v => gbWrite (BitVec.ofNat 16 (0xA000 + o)) v) 0
      (slice (j * 0x2000) (saveBankLen data.length j) data) (gbRamBank m (BitVec.ofNat 4 j) b)) (saveBanks data.length)
    fun j hj => Plays.then (mbcSteps_plays _ _).holding (gbFetch_plays _ _ _ (by
      unfold saveBanks at hj; unfold saveBankLen; omega))
  have body := Plays.then (mbcSteps_plays (op := op) (ramOpenWrites m) (mbcwRamOpen m)).holding
    (Plays.then loop (mbcSteps_plays (op := op) (ramCloseWrites m) (mbcwRamClose m)).holding)
  exact (withGbPower_holding body).congr fun s _ => rfl

end Sys2Proof.Machine
end

