-- ==== Sys2Proof/Laws/GbaEngine.lean ====
section
/-! SUPPORT. What the GBA engines do on the bus in each of their operations, said once: the slot powered up at
the start and grounded at the end, and the events in between. -/

namespace Sys2Proof.Machine

/-- A power-up, some cycles and a power-down of the GBA slot, with the continuous read left as said. -/
structure GbaRun (b b' : Bus) (active : Bool) (chip : Chip) (es : List BusEvent) : Prop where
  grounded : GbaGrounded b'
  side : GbSideKept b b'
  crdActive : b'.crdActive = active
  crdChip : b'.crdChip = chip
  events : Adds b b' (powerOn .gba b.pwrGba ++ es ++ [.power .gba false])

theorem GbaRun.of {b c : Bus} {active : Bool} {chip : Chip} {es : List BusEvent} (h : GbaCycles (gbaPowerUp b) c)
    (hact : c.crdActive = active) (hchip : c.crdChip = chip) (ha : Adds (gbaPowerUp b) c es) :
    GbaRun b (gbaPowerDown c) active chip es :=
  { grounded := (gbaPowerDown_spec c).grounded
    side := ((gbaPowerUp_spec b).side.trans h.side).trans (gbaPowerDown_spec c).side
    crdActive := (gbaPowerDown_spec c).stream.trans hact
    crdChip := (gbaPowerDown_spec c).chip.trans hchip
    events := ((gbaPowerUp_spec b).events.append ha).append (gbaPowerDown_spec c).events }

/-- The same with save-bus cycles only, which keep the continuous read. -/
theorem GbaRun.save {b c : Bus} {es : List BusEvent} (h : SaveCycles (gbaPowerUp b) c)
    (ha : Adds (gbaPowerUp b) c es) : GbaRun b (gbaPowerDown c) b.crdActive b.crdChip es :=
  .of h.toGbaCycles (h.crdActive.trans (gbaPowerUp_spec b).stream) (h.crdChip.trans (gbaPowerUp_spec b).chip) ha

theorem GbaRun.tick {b c : Bus} {active : Bool} {chip : Chip} {es : List BusEvent} (n : Nat)
    (h : GbaRun b c active chip es) : GbaRun b { c with tick := n } active chip es :=
  { grounded := h.grounded.tick n, side := h.side.tick n, crdActive := h.crdActive, crdChip := h.crdChip,
    events := h.events }

/-! ## ROM -/

/-- The header read with the slot powered up. -/
theorem gbaHeaderRead_spec (b : Bus) :
    GbaCycles (gbaPowerUp b) (gbaHeaderRead b).2 ∧ (gbaHeaderRead b).2.crdActive = false ∧
      (gbaHeaderRead b).2.crdChip = .ab ∧
      ∃ vs : List Half, vs.length = 96 ∧ (gbaHeaderRead b).1 = burstBytes vs ∧
        Adds (gbaPowerUp b) (gbaHeaderRead b).2 (burst 0 vs) := by
  unfold gbaHeaderRead
  exact ⟨(gbaRomRead_spec 0 192 _).1, gbaRomRead_crdActive _ _ _, gbaRomRead_crdChip _ _ _,
    (gbaRomRead_spec 0 192 _).2⟩

theorem gbaCheckRead_run (b : Bus) :
    ∃ vs : List Half, vs.length = 96 ∧ (gbaCheckRead b).1 = burstBytes vs ∧
      GbaRun b (gbaCheckRead b).2 false .ab (burst 0 vs) := by
  obtain ⟨hc, ha, hk, vs, hl, e, h⟩ := gbaHeaderRead_spec b
  unfold gbaCheckRead
  exact ⟨vs, hl, e, .of hc ha hk h⟩

/-- A dump of an even number of bytes. -/
theorem gbaDump_run (n : Nat) (b : Bus) :
    ∃ vs : List Half, vs.length = n / 2 ∧ (gbaDump n b).1 = burstBytes vs ∧
      GbaRun b (gbaDump n b).2 false .ab (burst 0 vs) := by
  obtain ⟨hc, vs, hl, e, h⟩ := gbaRomRead_spec 0 n (gbaPowerUp b)
  unfold gbaDump
  exact ⟨vs, hl, e, .of hc (gbaRomRead_crdActive _ _ _) (gbaRomRead_crdChip _ _ _) h⟩

/-- What the size probe does: the three reads it makes, smallest boundary first, and the size it gives at each
(`44_gba_rom.md` R325). -/
theorem gbaProbeSize_spec (h : List Byte) (b : Bus) :
    GbaCycles b (gbaProbeSize h b).2 ∧ (gbaProbeSize h b).2.crdActive = false ∧
      (gbaProbeSize h b).2.crdChip = .ab ∧
      ∃ w4 w8 w16 : List Half, (∀ w ∈ [w4, w8, w16], w.length = 100) ∧
        ((burstBytes w4).drop 8 = h →
          (gbaProbeSize h b).1 = 0x400000 ∧ Adds b (gbaProbeSize h b).2 (burst 0x1FFFFC w4)) ∧
        ((burstBytes w4).drop 8 ≠ h → (burstBytes w8).drop 8 = h →
          (gbaProbeSize h b).1 = 0x800000 ∧
            Adds b (gbaProbeSize h b).2 (burst 0x1FFFFC w4 ++ burst 0x3FFFFC w8)) ∧
        ((burstBytes w4).drop 8 ≠ h → (burstBytes w8).drop 8 ≠ h →
          (gbaProbeSize h b).1 = (if (burstBytes w16).drop 8 = h then 0x1000000 else 0x2000000) ∧
            Adds b (gbaProbeSize h b).2 (burst 0x1FFFFC w4 ++ burst 0x3FFFFC w8 ++ burst 0x7FFFFC w16)) := by
  obtain ⟨c4, w4, l4, e4, a4⟩ := gbaRomRead_spec (0x400000 - 8) 200 b
  have k4 := gbaRomRead_crdChip (0x400000 - 8) 200 b
  have s4 := gbaRomRead_crdActive (0x400000 - 8) 200 b
  unfold gbaProbeSize
  generalize gbaRomRead (0x400000 - 8) 200 b = r4 at *
  obtain ⟨c8, w8, l8, e8, a8⟩ := gbaRomRead_spec (0x800000 - 8) 200 r4.2
  have k8 := gbaRomRead_crdChip (0x800000 - 8) 200 r4.2
  have s8 := gbaRomRead_crdActive (0x800000 - 8) 200 r4.2
  simp only
  generalize gbaRomRead (0x800000 - 8) 200 r4.2 = r8 at *
  obtain ⟨c16, w16, l16, e16, a16⟩ := gbaRomRead_spec (0x1000000 - 8) 200 r8.2
  have k16 := gbaRomRead_crdChip (0x1000000 - 8) 200 r8.2
  have s16 := gbaRomRead_crdActive (0x1000000 - 8) 200 r8.2
  generalize gbaRomRead (0x1000000 - 8) 200 r8.2 = r16 at *
  simp only [wrapsAt, e4, e8, e16]
  by_cases h4 : (burstBytes w4).drop 8 = h
  · simp only [h4, beq_self_eq_true, if_true]
    exact ⟨c4, s4, k4, w4, w8, w16, by simp [l4, l8, l16], fun _ => ⟨trivial, a4⟩, fun n => absurd h4 n,
      fun n => absurd h4 n⟩
  · have b4 : ((burstBytes w4).drop 8 == h) = false := by simpa using h4
    simp only [b4, Bool.false_eq_true, if_false]
    by_cases h8 : (burstBytes w8).drop 8 = h
    · simp only [h8, beq_self_eq_true, if_true]
      exact ⟨c4.trans c8, s8, k8, w4, w8, w16, by simp [l4, l8, l16], fun n => absurd n h4,
        fun _ _ => ⟨trivial, a4.append a8⟩, fun _ n => absurd h8 n⟩
    · have b8 : ((burstBytes w8).drop 8 == h) = false := by simpa using h8
      simp only [b8, Bool.false_eq_true, if_false]
      refine ⟨?_, ?_, ?_, w4, w8, w16, by simp [l4, l8, l16], fun n => absurd n h4, fun _ n => absurd n h8,
        fun _ _ => ⟨?_, ?_⟩⟩
      · split
        · exact (c4.trans c8).trans c16
        · exact (c4.trans c8).trans c16
      · split
        · exact s16
        · exact s16
      · split
        · exact k16
        · exact k16
      · by_cases h16 : (burstBytes w16).drop 8 = h
        · simp [h16]
        · have : ((burstBytes w16).drop 8 == h) = false := by simpa using h16
          simp [this, h16]
      · split
        · exact (a4.append a8).append a16
        · exact (a4.append a8).append a16

theorem gbaProbeSize_cases (h : List Byte) (b : Bus) :
    (gbaProbeSize h b).1 = 0x400000 ∨ (gbaProbeSize h b).1 = 0x800000 ∨ (gbaProbeSize h b).1 = 0x1000000 ∨
      (gbaProbeSize h b).1 = 0x2000000 := by
  unfold gbaProbeSize
  simp only
  split
  · simp
  · split
    · simp
    · split <;> simp

theorem gbaProbeSize_adds (h : List Byte) (b : Bus) : ∃ es, Adds b (gbaProbeSize h b).2 es := by
  obtain ⟨-, -, -, w4, w8, w16, -, h1, h2, h3⟩ := gbaProbeSize_spec h b
  by_cases e4 : (burstBytes w4).drop 8 = h
  · exact ⟨_, (h1 e4).2⟩
  · by_cases e8 : (burstBytes w8).drop 8 = h
    · exact ⟨_, (h2 e4 e8).2⟩
    · exact ⟨_, (h3 e4 e8).2⟩

/-! ## Classification -/

/-- The rows the EEPROM probe reads. -/
theorem eepRows_spec (frm : Framing) (n : Nat) (b : Bus) :
    SaveCycles b (gather n (fun row => eepReadRow frm row) b).2 ∧
      ∃ qs : List (List Bool × List Bool), qs.length = n ∧ (∀ q ∈ qs, RowBits q) ∧
        (gather n (fun row => eepReadRow frm row) b).1.flatten = rowsBytes qs ∧
        Adds b (gather n (fun row => eepReadRow frm row) b).2 (rowsRead frm qs) := by
  refine ⟨gather_keeps SaveCycles.refl SaveCycles.trans _ (fun k b => (eepReadRow_spec frm k b).1) n b, ?_⟩
  have key : ∀ n, ∃ qs : List (List Bool × List Bool), qs.length = n ∧ (∀ q ∈ qs, RowBits q) ∧
      (gatherRev n (fun row => eepReadRow frm row) b).1.reverse.flatten = rowsBytes qs ∧
      Adds b (gatherRev n (fun row => eepReadRow frm row) b).2 (rowsRead frm qs) := by
    intro n
    induction n with
    | zero => exact ⟨[], rfl, by simp, rfl, rfl⟩
    | succ n ih =>
      obtain ⟨qs, hl, hq, hb, ha⟩ := ih
      obtain ⟨-, nib, bits, h4, h64, e, a⟩ := eepReadRow_spec frm n (gatherRev n (fun row => eepReadRow frm row) b).2
      refine ⟨qs ++ [(nib, bits)], by simp [hl], ?_, ?_, ?_⟩
      · intro q hq'
        rcases List.mem_append.1 hq' with h | h
        · exact hq q h
        · obtain rfl := List.mem_singleton.1 h
          exact ⟨h4, h64⟩
      · simp [gatherRev, hb, rowsBytes, e]
      · have := ha.append a
        simpa [gatherRev, rowsRead, List.mapIdx_append, hl] using this
  exact key n

theorem eepProbe_spec (b : Bus) :
    SaveCycles b (eepProbe b).2 ∧
      ∃ qs : List (List Bool × List Bool), qs.length = 65 ∧ (∀ q ∈ qs, RowBits q) ∧
        (eepProbe b).1 = eepVerdict (rowsBytes qs) ∧ Adds b (eepProbe b).2 (rowsRead .k64 qs) := by
  obtain ⟨hc, qs, hl, hq, hb, ha⟩ := eepRows_spec .k64 Config.eepProbeRows b
  unfold eepProbe
  exact ⟨hc, qs, hl, hq, by rw [← hb], ha⟩

/-- The windows of the presence test, by their number, stride and length. -/
theorem windows_spec (n stride len : Nat) (b : Bus) :
    SaveCycles b (gather n (fun k => saveReadRange (k * stride) len) b).2 ∧
      (gather n (fun k => saveReadRange (k * stride) len) b).1.length = n ∧
      (∀ w ∈ (gather n (fun k => saveReadRange (k * stride) len) b).1, w.length = len) ∧
      Adds b (gather n (fun k => saveReadRange (k * stride) len) b).2
        ((gather n (fun k => saveReadRange (k * stride) len) b).1.mapIdx fun k w => saveReads (stride * k) w).flatten := by
  simp only [Nat.mul_comm stride]
  refine ⟨gather_keeps SaveCycles.refl SaveCycles.trans _ (fun k b => saveReadRange_cycles _ _ b) n b,
    gather_length _ _ _, ?_, gather_adds (fun k => saveReadRange (k * stride) len)
      (fun k w => saveReads (k * stride) w) (fun k b => saveReadRange_adds (k * stride) len b) n b⟩
  intro w hw
  obtain ⟨j, hj⟩ := List.mem_iff_getElem?.1 hw
  exact gather_get (P := fun _ w => w.length = len) (fun k => saveReadRange (k * stride) len)
    (fun k b => saveReadRange_length (k * stride) len b) n b j w hj

/-- The presence test in the terms of its parameters. -/
theorem savePresent_params (b : Bus) :
    SaveCycles b (savePresent b).2 ∧
      ∃ wins : List (List Byte), wins.length = Config.presWindows ∧ (∀ w ∈ wins, w.length = Config.presWinLen) ∧
        (savePresent b).1 = !outsideBand Config.lenPresence (popcount wins.flatten)
          (8 * (Config.presWindows * Config.presWinLen)) ∧
        Adds b (savePresent b).2
          (wins.mapIdx fun k w => saveReads (Config.presSpan / Config.presWindows * k) w).flatten := by
  obtain ⟨hc, hl, hw, ha⟩ :=
    windows_spec Config.presWindows (Config.presSpan / Config.presWindows) Config.presWinLen b
  unfold savePresent presenceRead
  generalize gather Config.presWindows
    (fun k => saveReadRange (k * (Config.presSpan / Config.presWindows)) Config.presWinLen) b = r at *
  exact ⟨hc, r.1, hl, hw, rfl, ha⟩

theorem savePresent_spec (b : Bus) :
    SaveCycles b (savePresent b).2 ∧
      ∃ wins : List (List Byte), wins.length = 128 ∧ (∀ w ∈ wins, w.length = 64) ∧
        (savePresent b).1 = !outsideBand 95 (popcount wins.flatten) 65536 ∧
        Adds b (savePresent b).2 (wins.mapIdx fun k w => saveReads (512 * k) w).flatten := by
  obtain ⟨hc, wins, hl, hw, he, ha⟩ := savePresent_params b
  generalize savePresent b = r at *
  exact ⟨hc, wins, hl, hw, he, ha⟩

theorem sramProbe_spec (b : Bus) :
    SaveCycles b (sramProbe b).2 ∧
      ∃ o r1 r2 : Byte, (sramProbe b).1 = (r1 != o && r2 == o) ∧
        Adds b (sramProbe b).2 [.saveR 0 o, .saveW 0 (~~~o), .saveR 0 r1, .saveW 0 o, .saveR 0 r2] := by
  unfold sramProbe
  exact ⟨((((saveRead_cycles _ _).trans (saveWrite_cycles _ _ _)).trans (saveRead_cycles _ _)).trans
      (saveWrite_cycles _ _ _)).trans (saveRead_cycles _ _), _, _, _, rfl,
    ((((saveRead_adds _ _).append (saveWrite_adds _ _ _)).append (saveRead_adds _ _)).append
      (saveWrite_adds _ _ _)).append (saveRead_adds _ _)⟩

/-- Two samples of the SRAM size test. -/
theorem sramSize_params (b : Bus) :
    SaveCycles b (sramSize b).2 ∧
      ∃ x y : List Byte, x.length = Config.saveWrapSample ∧ y.length = Config.saveWrapSample ∧
        (sramSize b).1 = (if agrees Config.lenSram (sampleSame x y) (8 * Config.saveWrapSample) then .sram256k
          else .sram512k) ∧
        Adds b (sramSize b).2 (saveReads 0 x ++ saveReads 0x8000 y) := by
  unfold sramSize
  have lx := saveReadRange_length 0 Config.saveWrapSample b
  have cx := saveReadRange_cycles 0 Config.saveWrapSample b
  have ax := saveReadRange_adds 0 Config.saveWrapSample b
  generalize saveReadRange 0 Config.saveWrapSample b = x at *
  have ly := saveReadRange_length 0x8000 Config.saveWrapSample x.2
  have cy := saveReadRange_cycles 0x8000 Config.saveWrapSample x.2
  have ay := saveReadRange_adds 0x8000 Config.saveWrapSample x.2
  simp only
  generalize saveReadRange 0x8000 Config.saveWrapSample x.2 = y at *
  exact ⟨cx.trans cy, x.1, y.1, lx, ly, rfl, ax.append ay⟩

theorem sramSize_spec (b : Bus) :
    SaveCycles b (sramSize b).2 ∧
      ∃ x y : List Byte, x.length = 192 ∧ y.length = 192 ∧
        (sramSize b).1 = (if (1536 - bitDiff x y) * 100 ≥ 95 * 1536 then .sram256k else .sram512k) ∧
        Adds b (sramSize b).2 (saveReads 0 x ++ saveReads 0x8000 y) := by
  obtain ⟨hc, x, y, hx, hy, he, ha⟩ := sramSize_params b
  generalize sramSize b = r at *
  exact ⟨hc, x, y, hx, hy, by simpa [agrees, sampleSame, Config.lenSram, Config.saveWrapSample] using he, ha⟩

/-- Two samples of the flash fallback. -/
theorem flashFallback_params (b : Bus) :
    SaveCycles b (flashFallback b).2 ∧
      ∃ x y : List Byte, x.length = Config.saveWrapSample ∧ y.length = Config.saveWrapSample ∧
        (flashFallback b).1 = (if agrees Config.lenFlash (sampleSame x y) (8 * Config.saveWrapSample) then .flash512k
          else .flash1m) ∧
        Adds b (flashFallback b).2 (saveReads 0 x ++
          saveWriteEvents [(0x5555, 0xAA), (0x2AAA, 0x55), (0x5555, 0xB0), (0x0000, 0x01)] ++ saveReads 0 y ++
          saveWriteEvents [(0x5555, 0xAA), (0x2AAA, 0x55), (0x5555, 0xB0), (0x0000, 0x00)]) := by
  unfold flashFallback
  have lx := saveReadRange_length 0 Config.saveWrapSample b
  have cx := saveReadRange_cycles 0 Config.saveWrapSample b
  have ax := saveReadRange_adds 0 Config.saveWrapSample b
  generalize saveReadRange 0 Config.saveWrapSample b = x at *
  have ly := saveReadRange_length 0 Config.saveWrapSample (flashBank true x.2)
  have cy := saveReadRange_cycles 0 Config.saveWrapSample (flashBank true x.2)
  have ay := saveReadRange_adds 0 Config.saveWrapSample (flashBank true x.2)
  simp only
  generalize saveReadRange 0 Config.saveWrapSample (flashBank true x.2) = y at *
  exact ⟨((cx.trans (saveWrites_cycles _ _)).trans cy).trans (saveWrites_cycles _ _), x.1, y.1, lx, ly, rfl,
    ((ax.append (saveWrites_adds _ _)).append ay).append (saveWrites_adds _ _)⟩

theorem flashFallback_spec (b : Bus) :
    SaveCycles b (flashFallback b).2 ∧
      ∃ x y : List Byte, x.length = 192 ∧ y.length = 192 ∧
        (flashFallback b).1 = (if (1536 - bitDiff x y) * 100 ≥ 95 * 1536 then .flash512k else .flash1m) ∧
        Adds b (flashFallback b).2 (saveReads 0 x ++
          saveWriteEvents [(0x5555, 0xAA), (0x2AAA, 0x55), (0x5555, 0xB0), (0x0000, 0x01)] ++ saveReads 0 y ++
          saveWriteEvents [(0x5555, 0xAA), (0x2AAA, 0x55), (0x5555, 0xB0), (0x0000, 0x00)]) := by
  obtain ⟨hc, x, y, hx, hy, he, ha⟩ := flashFallback_params b
  generalize flashFallback b = r at *
  exact ⟨hc, x, y, hx, hy, by simpa [agrees, sampleSame, Config.lenFlash, Config.saveWrapSample] using he, ha⟩

/-- The flash branch: the ID read, then the table's answer or the fallback's. -/
theorem classifyFlash_spec (b : Bus) :
    SaveCycles b (classifyFlash b).2 ∧
      ∃ (mfr dev : Byte) (hs : List BusEvent),
        Adds b (classifyFlash b).2 (saveWriteEvents [(0x5555, 0xAA), (0x2AAA, 0x55), (0x5555, 0x90)] ++
          [.saveR 0 mfr, .saveR 1 dev] ++ saveWriteEvents [(0x5555, 0xAA), (0x2AAA, 0x55), (0x5555, 0xF0)] ++ hs) ∧
        (classifyFlash b).1.mfr = mfr ∧ (classifyFlash b).1.dev = dev ∧
        (∀ k, flashTable mfr dev = some k → hs = [] ∧ (classifyFlash b).1.kind = k) ∧
        (flashTable mfr dev = none → ∃ x y : List Byte, x.length = 192 ∧ y.length = 192 ∧
          hs = saveReads 0 x ++
            saveWriteEvents [(0x5555, 0xAA), (0x2AAA, 0x55), (0x5555, 0xB0), (0x0000, 0x01)] ++ saveReads 0 y ++
            saveWriteEvents [(0x5555, 0xAA), (0x2AAA, 0x55), (0x5555, 0xB0), (0x0000, 0x00)] ∧
          (classifyFlash b).1.kind =
            if (1536 - bitDiff x y) * 100 ≥ 95 * 1536 then .flash512k else .flash1m) := by
  obtain ⟨hc, ha⟩ := flashId_spec b
  unfold classifyFlash
  generalize flashId b = id at *
  simp only
  cases ht : flashTable id.1.1 id.1.2 with
  | some k =>
    exact ⟨hc, id.1.1, id.1.2, [], by simpa using ha, rfl, rfl, fun k' h => ⟨rfl, by simpa [ht] using h⟩,
      fun h => by rw [ht] at h; cases h⟩
  | none =>
    obtain ⟨fc, x, y, hx, hy, e, fa⟩ := flashFallback_spec id.2
    generalize flashFallback id.2 = r at *
    dsimp only
    refine ⟨hc.trans fc, id.1.1, id.1.2, _, ha.append fa, rfl, rfl, ?_, fun _ => ⟨x, y, hx, hy, rfl, e⟩⟩
    intro k h
    rw [ht] at h
    cases h

/-- The flash table names flash types only. -/
theorem flashTable_kind {mfr dev : Byte} {k : SaveType} (h : flashTable mfr dev = some k) :
    k = .flash512k ∨ k = .flash1m := by
  unfold flashTable at h
  split at h <;> simp at h <;> simp [← h]

theorem classifyFlash_kind (b : Bus) :
    (classifyFlash b).1.kind = .flash512k ∨ (classifyFlash b).1.kind = .flash1m := by
  obtain ⟨-, mfr, dev, hs, -, -, -, h1, h2⟩ := classifyFlash_spec b
  cases ht : flashTable mfr dev with
  | some k => rw [(h1 k ht).2]; exact flashTable_kind ht
  | none =>
    obtain ⟨x, y, -, -, -, e⟩ := h2 ht
    rw [e]; split <;> simp

/-- The SRAM and flash branches, probe by probe. -/
theorem classifyParallel_spec (b : Bus) :
    SaveCycles b (classifyParallel b).2 ∧
      ∃ (wins : List (List Byte)) (fs : List BusEvent), wins.length = 128 ∧ (∀ w ∈ wins, w.length = 64) ∧
        Adds b (classifyParallel b).2 ((wins.mapIdx fun k w => saveReads (512 * k) w).flatten ++ fs) ∧
        if outsideBand 95 (popcount wins.flatten) 65536 then
          fs = [] ∧ (classifyParallel b).1 = { kind := .unknown, mfr := 0, dev := 0 }
        else ∃ (o r1 r2 : Byte) (c : Bus) (gs : List BusEvent),
          fs = [.saveR 0 o, .saveW 0 (~~~o), .saveR 0 r1, .saveW 0 o, .saveR 0 r2] ++ gs ∧
          if r1 ≠ o ∧ r2 = o then
            ∃ x y : List Byte, x.length = 192 ∧ y.length = 192 ∧ gs = saveReads 0 x ++ saveReads 0x8000 y ∧
              (classifyParallel b).1 =
                { kind := if (1536 - bitDiff x y) * 100 ≥ 95 * 1536 then .sram256k else .sram512k, mfr := 0, dev := 0 }
          else Adds c (classifyFlash c).2 gs ∧ (classifyParallel b).1 = (classifyFlash c).1 := by
  obtain ⟨pc, wins, hl, hw, e, pa⟩ := savePresent_spec b
  unfold classifyParallel
  simp only [e]
  cases hb : outsideBand 95 (popcount wins.flatten) 65536 with
  | true =>
    refine ⟨by simpa using pc, wins, [], hl, hw, by simpa using pa, ?_⟩
    simp [hb]
  | false =>
    simp only [Bool.not_false, if_true]
    obtain ⟨sc, o, r1, r2, se, sa⟩ := sramProbe_spec (savePresent b).2
    simp only [se]
    by_cases hr : r1 ≠ o ∧ r2 = o
    · have hr' : (r1 != o && r2 == o) = true := by simp [hr.1, hr.2]
      obtain ⟨zc, x, y, hx, hy, ze, za⟩ := sramSize_spec (sramProbe (savePresent b).2).2
      simp only [hr', if_true]
      refine ⟨(pc.trans sc).trans zc, wins, _, hl, hw, pa.append (sa.append za), ?_⟩
      simp only [hb, Bool.false_eq_true, if_false]
      refine ⟨o, r1, r2, b, _, rfl, ?_⟩
      rw [if_pos hr]
      exact ⟨x, y, hx, hy, rfl, by rw [ze]⟩
    · have hr' : (r1 != o && r2 == o) = false := by
        cases h1 : (r1 != o) <;> cases h2 : (r2 == o) <;> simp_all
      simp only [hr', Bool.false_eq_true, if_false]
      obtain ⟨fc, mfr, dev, hs, fa, -⟩ := classifyFlash_spec (sramProbe (savePresent b).2).2
      refine ⟨(pc.trans sc).trans fc, wins, _, hl, hw, pa.append (sa.append fa), ?_⟩
      simp only [hb, Bool.false_eq_true, if_false]
      refine ⟨o, r1, r2, (sramProbe (savePresent b).2).2, _, rfl, ?_⟩
      rw [if_neg hr]
      exact ⟨fa, rfl⟩

theorem classifyPowered_some (b : Bus) (k : SaveType) (h : (eepProbe b).1 = some k) :
    classifyPowered b = ({ kind := k, mfr := 0, dev := 0 }, (eepProbe b).2) := by
  unfold classifyPowered
  simp only [h]

theorem classifyPowered_none (b : Bus) (h : (eepProbe b).1 = none) :
    classifyPowered b = classifyParallel (eepProbe b).2 := by
  unfold classifyPowered
  simp only [h]

/-- The probes in their order: the EEPROM verdict first, then the others. -/
theorem classifyPowered_spec (b : Bus) :
    SaveCycles b (classifyPowered b).2 ∧
      ∃ (qs : List (List Bool × List Bool)) (es : List BusEvent), qs.length = 65 ∧ (∀ q ∈ qs, RowBits q) ∧
        Adds b (classifyPowered b).2 (rowsRead .k64 qs ++ es) ∧
        (∀ k, eepVerdict (rowsBytes qs) = some k →
          es = [] ∧ (classifyPowered b).1 = { kind := k, mfr := 0, dev := 0 }) ∧
        (eepVerdict (rowsBytes qs) = none → ∃ c,
          Adds c (classifyParallel c).2 es ∧ (classifyPowered b).1 = (classifyParallel c).1) := by
  obtain ⟨ec, qs, hl, hq, e, ea⟩ := eepProbe_spec b
  cases hv : eepVerdict (rowsBytes qs) with
  | some k =>
    rw [classifyPowered_some b k (e.trans hv)]
    refine ⟨ec, qs, [], hl, hq, by rwa [List.append_nil], ?_, ?_⟩
    · intro k' h
      have hk : k = k' := Option.some.inj (hv.symm.trans h)
      exact ⟨rfl, by rw [hk]⟩
    · intro h
      exact absurd (hv.symm.trans h) (Option.some_ne_none k)
  | none =>
    rw [classifyPowered_none b (e.trans hv)]
    obtain ⟨pc, wins, fs, -, -, pa, -⟩ := classifyParallel_spec (eepProbe b).2
    exact ⟨ec.trans pc, qs, _, hl, hq, ea.append pa, fun k' h => absurd (hv.symm.trans h) (by simp),
      fun _ => ⟨_, pa, rfl⟩⟩

/-- A classification by itself. -/
theorem gbaClassify_run (b : Bus) :
    ∃ (qs : List (List Bool × List Bool)) (es : List BusEvent), qs.length = 65 ∧ (∀ q ∈ qs, RowBits q) ∧
      GbaRun b (gbaClassify b).2 b.crdActive b.crdChip (rowsRead .k64 qs ++ es) ∧
      (∀ k, eepVerdict (rowsBytes qs) = some k →
        es = [] ∧ (gbaClassify b).1 = { kind := k, mfr := 0, dev := 0 }) ∧
      (eepVerdict (rowsBytes qs) = none → ∃ c,
        Adds c (classifyParallel c).2 es ∧ (gbaClassify b).1 = (classifyParallel c).1) := by
  obtain ⟨hc, qs, es, hl, hq, ha, h1, h2⟩ := classifyPowered_spec (gbaPowerUp b)
  simp only [gbaClassify]
  generalize classifyPowered (gbaPowerUp b) = r at *
  exact ⟨qs, es, hl, hq, .save hc ha, h1, h2⟩

/-- The events of two sequences that lead to the same place are the same. -/
theorem Adds.unique {b c : Bus} {es fs : List BusEvent} (h : Adds b c es) (k : Adds b c fs) : es = fs := by
  simp only [Adds] at h k
  rw [h] at k
  exact List.reverse_injective (List.append_cancel_right k)

/-- A type that is no flash has no flash ID. -/
theorem classifyParallel_ids (b : Bus) (h1 : (classifyParallel b).1.kind ≠ .flash512k)
    (h2 : (classifyParallel b).1.kind ≠ .flash1m) :
    (classifyParallel b).1.mfr = 0 ∧ (classifyParallel b).1.dev = 0 := by
  unfold classifyParallel at *
  simp only at *
  split
  · split
    · exact ⟨rfl, rfl⟩
    · rename_i hp hs
      simp only [hp, hs, if_true, if_false, Bool.false_eq_true] at h1 h2
      rcases classifyFlash_kind (sramProbe (savePresent b).2).2 with e | e
      · exact absurd e h1
      · exact absurd e h2
  · exact ⟨rfl, rfl⟩

theorem classifyPowered_ids (b : Bus) (h1 : (classifyPowered b).1.kind ≠ .flash512k)
    (h2 : (classifyPowered b).1.kind ≠ .flash1m) :
    (classifyPowered b).1.mfr = 0 ∧ (classifyPowered b).1.dev = 0 := by
  unfold classifyPowered at *
  simp only at *
  split
  · exact ⟨rfl, rfl⟩
  · rename_i hn
    simp only [hn] at h1 h2
    exact classifyParallel_ids _ h1 h2

/-! ## Bulk save operations -/

theorem flashReadAt_spec (a : Nat) (b : Bus) :
    SaveCycles b (flashReadAt a b).2 ∧
      Adds b (flashReadAt a b).2 ((if a = 0x10000 then
        saveWriteEvents [(0x5555, 0xAA), (0x2AAA, 0x55), (0x5555, 0xB0), (0x0000, 0x01)] else []) ++
        [.saveR (BitVec.ofNat 16 a) (flashReadAt a b).1]) := by
  unfold flashReadAt
  split
  · exact ⟨(saveWrites_cycles _ b).trans (saveRead_cycles _ _), (saveWrites_adds _ b).append (saveRead_adds _ _)⟩
  · exact ⟨saveRead_cycles _ _, saveRead_adds _ _⟩

theorem flashHome_spec (sz : Nat) (b : Bus) :
    SaveCycles b (flashHome sz b) ∧
      Adds b (flashHome sz b) (if 0x10000 < sz then
        saveWriteEvents [(0x5555, 0xAA), (0x2AAA, 0x55), (0x5555, 0xB0), (0x0000, 0x00)] else []) := by
  unfold flashHome
  split
  · exact ⟨saveWrites_cycles _ b, saveWrites_adds _ b⟩
  · exact ⟨SaveCycles.refl b, Adds.none b⟩

theorem saveImageRead_cycles (t : SaveType) (sz : Nat) (b : Bus) : SaveCycles b (saveImageRead t sz b).2 := by
  unfold saveImageRead
  split
  · exact (eepRows_spec _ _ b).1
  · exact (eepRows_spec _ _ b).1
  · exact saveReadRange_cycles _ _ b
  · exact saveReadRange_cycles _ _ b
  · exact (gather_keeps SaveCycles.refl SaveCycles.trans _ (fun k b => (flashReadAt_spec k b).1) _ b).trans
      (flashHome_spec _ _).1
  · exact (gather_keeps SaveCycles.refl SaveCycles.trans _ (fun k b => (flashReadAt_spec k b).1) _ b).trans
      (flashHome_spec _ _).1
  · exact SaveCycles.refl b

theorem rowsBytes_length (qs : List (List Bool × List Bool)) : (rowsBytes qs).length = 8 * qs.length := by
  induction qs with
  | nil => rfl
  | cons q qs ih =>
    simp only [rowsBytes, List.map_cons, List.flatten_cons, List.length_append, bytesOfBits_length,
      List.length_cons] at ih ⊢
    omega

/-- A save image of whole rows has the bytes asked for. -/
theorem saveImageRead_length (t : SaveType) (sz : Nat) (b : Bus) (known : t ≠ .unknown) (rows : sz % 8 = 0) :
    (saveImageRead t sz b).1.length = sz := by
  have he : ∀ frm, (gather (sz / 8) (fun row => eepReadRow frm row) b).1.flatten.length = sz := by
    intro frm
    obtain ⟨-, qs, hl, -, e, -⟩ := eepRows_spec frm (sz / 8) b
    rw [e, rowsBytes_length, hl]
    omega
  cases t <;> simp only [saveImageRead]
  · exact absurd rfl known
  · exact he _
  · exact he _
  · exact saveReadRange_length _ _ b
  · exact saveReadRange_length _ _ b
  · exact gather_length _ _ b
  · exact gather_length _ _ b

theorem atmelSectorWrite_spec (data : List Byte) (i : Nat) (b : Bus) :
    SaveCycles b (atmelSectorWrite data i b) ∧
      Adds b (atmelSectorWrite data i b) ((if 128 * i = 0x10000 then
        saveWriteEvents [(0x5555, 0xAA), (0x2AAA, 0x55), (0x5555, 0xB0), (0x0000, 0x01)] else []) ++
        (saveWriteEvents [(0x5555, 0xAA), (0x2AAA, 0x55), (0x5555, 0xA0)] ++
          ((slice (128 * i) 128 data).mapIdx fun k v =>
            .saveW (BitVec.ofNat 16 (128 * i) + BitVec.ofNat 16 k) v) ++ [.delay .flashAtmel])) := by
  have hp : ∀ c, SaveCycles c (flashProg128 (BitVec.ofNat 16 (128 * i)) (slice (128 * i) 128 data) c) ∧
      Adds c (flashProg128 (BitVec.ofNat 16 (128 * i)) (slice (128 * i) 128 data) c)
        (saveWriteEvents [(0x5555, 0xAA), (0x2AAA, 0x55), (0x5555, 0xA0)] ++
          ((slice (128 * i) 128 data).mapIdx fun k v =>
            .saveW (BitVec.ofNat 16 (128 * i) + BitVec.ofNat 16 k) v) ++ [.delay .flashAtmel]) := by
    intro c
    obtain ⟨fc, fa⟩ := forSaveWrites_spec (fun k => BitVec.ofNat 16 (128 * i) + BitVec.ofNat 16 k)
      (slice (128 * i) 128 data) (saveWrites (flashUnlock ++ [(0x5555, 0xA0)]) c)
    exact ⟨((saveWrites_cycles _ c).trans fc).trans (delay_cycles _ _),
      ((saveWrites_adds _ c).append fa).append (delay_adds _ _)⟩
  unfold atmelSectorWrite
  split
  · exact ⟨(saveWrites_cycles _ b).trans (hp _).1, (saveWrites_adds _ b).append (hp _).2⟩
  · exact hp b

/-- A sector address is its own sector. -/
theorem eraseSector_of_aligned (a : Nat) (h : a % 4096 = 0) : eraseSector (BitVec.ofNat 16 a) = BitVec.ofNat 16 a := by
  have h1 : (BitVec.ofNat 16 a).toNat % 4096 = 0 := by simp; omega
  apply BitVec.eq_of_toNat_eq
  generalize BitVec.ofNat 16 a = v at *
  have : v.toNat < 65536 := v.isLt
  simp only [eraseSector, BitVec.toNat_append, BitVec.extractLsb'_toNat, show BitVec.toNat (0 : BitVec 12) = 0 from rfl,
    Nat.or_zero, Nat.shiftLeft_eq, Nat.shiftRight_eq_div_pow, Nat.reducePow]
  omega

theorem flashByteWrite_spec (a : Nat) (v : Byte) (b : Bus) :
    SaveCycles b (flashByteWrite a v b) ∧
      Adds b (flashByteWrite a v b) ((if a = 0x10000 then
        saveWriteEvents [(0x5555, 0xAA), (0x2AAA, 0x55), (0x5555, 0xB0), (0x0000, 0x01)] else []) ++
        (if a % 4096 = 0 then
          saveWriteEvents [(0x5555, 0xAA), (0x2AAA, 0x55), (0x5555, 0x80), (0x5555, 0xAA), (0x2AAA, 0x55),
            (BitVec.ofNat 16 a, 0x30)] ++ [.delay .flashErase] else []) ++
        (saveWriteEvents [(0x5555, 0xAA), (0x2AAA, 0x55), (0x5555, 0xA0), (BitVec.ofNat 16 a, v)] ++
          [.delay .flashProg])) := by
  have hb : ∀ c : Bus, SaveCycles c (if a = 0x10000 then flashBank true c else c) ∧
      Adds c (if a = 0x10000 then flashBank true c else c) (if a = 0x10000 then
        saveWriteEvents [(0x5555, 0xAA), (0x2AAA, 0x55), (0x5555, 0xB0), (0x0000, 0x01)] else []) := by
    intro c
    split
    · exact ⟨saveWrites_cycles _ c, saveWrites_adds _ c⟩
    · exact ⟨.refl c, .none c⟩
  have he : ∀ c : Bus, SaveCycles c (if a % 4096 = 0 then flashErase (BitVec.ofNat 16 a) c else c) ∧
      Adds c (if a % 4096 = 0 then flashErase (BitVec.ofNat 16 a) c else c) (if a % 4096 = 0 then
        saveWriteEvents [(0x5555, 0xAA), (0x2AAA, 0x55), (0x5555, 0x80), (0x5555, 0xAA), (0x2AAA, 0x55),
          (BitVec.ofNat 16 a, 0x30)] ++ [.delay .flashErase] else []) := by
    intro c
    split
    · rename_i h
      have := saveWrites_delay_spec (flashUnlock ++ [(0x5555, 0x80)] ++ flashUnlock ++
        [(eraseSector (BitVec.ofNat 16 a), 0x30)]) .flashErase c
      rw [eraseSector_of_aligned a h] at this
      unfold flashErase
      rw [eraseSector_of_aligned a h]
      exact this
    · exact ⟨.refl c, .none c⟩
  unfold flashByteWrite
  exact ⟨((hb b).1.trans (he _).1).trans (saveWrites_delay_spec _ _ _).1,
    ((hb b).2.append (he _).2).append (saveWrites_delay_spec _ _ _).2⟩

theorem saveImageWrite_cycles (t : SaveType) (mfr : Byte) (data : List Byte) (b : Bus) :
    SaveCycles b (saveImageWrite t mfr data b) := by
  have flash : SaveCycles b (if mfr = atmel then
      flashHome data.length (iter (data.length / 128) (atmelSectorWrite data) b)
      else flashHome data.length (forBytes flashByteWrite 0 data b)) := by
    split
    · exact (iter_keeps SaveCycles.refl SaveCycles.trans _ (fun k b => (atmelSectorWrite_spec data k b).1) _ b).trans
        (flashHome_spec _ _).1
    · exact (forBytes_keeps SaveCycles.refl SaveCycles.trans _ (fun k v b => (flashByteWrite_spec k v b).1) _ _ b).trans
        (flashHome_spec _ _).1
  have rows : ∀ frm, SaveCycles b
      (iter (data.length / 8) (fun row => eepWriteRow frm row (slice (8 * row) 8 data)) b) := fun frm =>
    iter_keeps SaveCycles.refl SaveCycles.trans _ (fun k b => (eepWriteRow_spec frm k _ b).1) _ b
  cases t <;> unfold saveImageWrite
  · exact SaveCycles.refl b
  · exact rows _
  · exact rows _
  · exact (forSaveWrites_spec _ data b).1
  · exact (forSaveWrites_spec _ data b).1
  · exact flash
  · exact flash

end Sys2Proof.Machine
end

