-- ==== Sys2Proof/Laws/PlaysGba.lean ====
section
/-! SUPPORT. What the steps of the GBA engines come to when nothing keeps them from happening: the functions of
`Laws/Whole.lean`. -/

namespace Sys2Proof.Machine

variable {slot : Option Slot} {n : Nat} {op : Instr}

/-! ## ROM bursts -/

theorem gbaLatchStep_plays (ha : BitVec 24) :
    BusPlays slot false true n (gbaLatchStep op ha) (silent (gbaLatch ha)) :=
  BusPlays.within (.act (fun _ h => h.busReady) (fun b => (gbaLatch_cycles ha b).slots) fun b _ => by
    simp [gbaLatch, crdStart])

theorem gbaNextStep_plays : BusPlays slot true true n (gbaNextStep op) gbaNext :=
  BusPlays.within (.read asHalf_faithful (fun _ h => h.streamReady) (fun b => (gbaNext_cycles b).slots)
    fun b h => by simpa [gbaNext] using h)

theorem gbaEndStep_plays : BusPlays slot true false n (gbaEndStep op) (silent gbaEnd) :=
  .act (fun _ h => h.streamReady) (fun b => (gbaEnd_cycles b).slots) fun b _ => by simp [gbaEnd]

theorem burstSteps_plays (ha k : Nat) : BusPlays slot true true n (burstSteps op ha k) (burstStep ha k) := by
  have h := BusPlays.ite (c := 0 < k ∧ (ha + k) % Config.gbaRelatch = 0)
    (fun _ => (gbaEndStep_plays (op := op)).then <|
      (gbaLatchStep_plays (slot := slot) (n := n) (op := op) (BitVec.ofNat 24 (ha + k))).then (gbaNextStep_plays (op := op)))
    fun _ => gbaNextStep_plays (op := op)
  exact h.congr fun b => by simp only [burstStep, silent]; split <;> rfl

/-- A burst of `m` bytes. -/
theorem gbaRomRead_plays (ba m : Nat) : BusPlays slot false false n (gbaRomReadSteps op ba m) (gbaRomRead ba m) :=
  (gbaLatchStep_plays _).then <| (BusPlays.collect (m / 2) fun k _ => burstSteps_plays _ k).bind fun _ =>
    gbaEndStep_plays.then (.ret _)

/-! ## Header, size and re-check -/

theorem gbaProbeSize_plays (h : List Byte) :
    BusPlays slot false false n (gbaProbeSizeSteps op h) (gbaProbeSize h) := by
  have k := (gbaRomRead_plays (slot := slot) (n := n) (op := op) (0x400000 - 8) 200).bind fun w4 =>
    BusPlays.ite (c := wrapsAt w4 h) (fun _ => .ret (0x400000 : Word)) fun _ =>
    (gbaRomRead_plays (op := op) (0x800000 - 8) 200).bind fun w8 =>
    BusPlays.ite (c := wrapsAt w8 h) (fun _ => .ret (0x800000 : Word)) fun _ =>
    (gbaRomRead_plays (op := op) (0x1000000 - 8) 200).map fun w16 =>
      if wrapsAt w16 h then (0x1000000 : Word) else 0x2000000
  refine BusPlays.congr k fun b => ?_
  unfold gbaProbeSize
  generalize gbaRomRead (0x400000 - 8) 200 b = w4
  dsimp only
  split
  · rfl
  · generalize gbaRomRead (0x800000 - 8) 200 w4.2 = w8
    split
    · rfl
    · generalize gbaRomRead (0x1000000 - 8) 200 w8.2 = w16
      split <;> rfl

/-- The bytes of a re-check, read in their power session. -/
theorem gbaCheck_plays : BusPlays (some .gba) false false n (gbaCheckSteps op) gbaCheckRead :=
  (withGbaPower_plays (gbaRomRead_plays (op := op) 0 192)).congr fun s _ => by
    simp only [onB, gbaCheckRead, gbaHeaderRead]

/-- The size probe in its power session. -/
theorem gbaProbe_plays : BusPlays (some .gba) false false n
    (withGbaPower op <| (gbaHeaderSteps op).bind fun h => gbaProbeSizeSteps op h) gbaProbe :=
  (withGbaPower_plays (Plays.bind (gbaRomRead_plays (op := op) 0 192) fun h => gbaProbeSize_plays (op := op) h)).congr
    fun s _ => by simp only [onB, gbaProbe, gbaHeaderRead]

/-- The re-check of a session. -/
theorem gbaIsLoaded_plays {s : State} (loaded : s.gba.loaded = true) (h : Going (some .gba) false n s) :
    (gbaIsLoadedSteps op).run s = .ok (gbaRecheck s) := by
  have k := (gbaCheck_plays (op := op)).run h
  rw [gbaIsLoadedSteps, run_bind_ok (run_look asGba_faithful _ _), if_neg (by simp [loaded]), run_bind_ok k,
    run_bind_ok (run_look asGba_faithful _ _)]
  simp only [gbaRecheck]
  split
  · rfl
  · rw [run_then_ok (run_update _ _)]; rfl

/-- A ROM dump, read and stored (`44_gba_rom.md` R331). -/
theorem gbaDump_fills (m : Nat) (pos : 0 < m / 2) (fits : 2 * (m / 2) ≤ n) :
    Plays (Going (some .gba) false n) (Going (some .gba) false n)
      (withGbaPower op <| (gbaRomReadSteps op 0 m).bind fun out => memWrite 0 out) (filling 0 (gbaDump m)) := by
  have body := Fills.of_bytes (slot := some .gba) (off := 0) (2 * (m / 2)) (fun b => gbaRomRead_length 0 m b)
    (by omega) (by omega) (gbaRomRead_plays (n := n) (op := op) 0 m)
  refine (withGbaPower_plays body).congr fun s _ => ?_
  simp only [filling, store_bus, store_withBus, gbaDump]

/-! ## Save-bus cycles -/

theorem saveReadStep_plays (a : Half) : BusPlays slot false false n (saveReadStep op a) (saveRead a) :=
  .read asByte_faithful (fun _ h => h.busReady) (fun b => (saveRead_cycles a b).slots)
    fun b h => (saveRead_cycles a b).crdActive.trans h

theorem saveWriteStep_plays (a : Half) (d : Byte) :
    BusPlays slot false false n (saveWriteStep op a d) (silent (saveWrite a d)) :=
  .act (fun _ h => h.busReady) (fun b => (saveWrite_cycles a d b).slots)
    fun b h => (saveWrite_cycles a d b).crdActive.trans h

theorem saveReadMany_plays (a m : Nat) : BusPlays slot false false n (saveReadMany op a m) (saveReadRange a m) :=
  .collect m fun _ _ => saveReadStep_plays _

theorem saveWriteSteps_plays (ws : List (Half × Byte)) :
    BusPlays slot false false n (saveWriteSteps op ws) (silent (saveWrites ws)) :=
  .fold ws fun _ => saveWriteStep_plays _ _

/-! ## EEPROM rows -/

/-- A step inside an EEPROM request. -/
theorem saveAct_plays {f : Bus → Bus} (h : ∀ b, SaveCycles b (f b)) :
    BusPlays slot false false n (busDo .transaction (busReady op) f) (silent f) :=
  .act (fun _ h => h.busReady) (fun b => (h b).slots) fun b e => (h b).crdActive.trans e

theorem eepInStep_plays : BusPlays slot false false n (eepInStep op) eepIn :=
  .read asBit_faithful (fun _ h => h.busReady) (fun b => (eepIn_cycles b).slots)
    fun b h => (eepIn_cycles b).crdActive.trans h

theorem eepOpen_plays (bits : List Bool) :
    BusPlays slot false false n (eepOpenSteps op bits) (silent fun b => eepSend bits (eepBegin b)) :=
  (saveAct_plays eepBegin_cycles).then (.fold bits fun v => saveAct_plays (eepOut_cycles v))

theorem eepReadRow_plays (frm : Framing) (row : Nat) :
    BusPlays slot false false n (eepReadRowSteps op frm row) (eepReadRow frm row) := by
  have k := (BusPlays.within ((eepOpen_plays (slot := slot) (n := n) (op := op) (eepReadRequest frm row)).then <|
    (saveAct_plays (op := op) eepTurn_cycles).then <|
    (BusPlays.collect 4 fun _ _ => eepInStep_plays (op := op)).then <|
    BusPlays.collect 64 fun _ _ => eepInStep_plays (op := op))).bind
    fun bits => (saveAct_plays (op := op) eepEnd_cycles).then (.ret (bytesOfBits 8 bits))
  exact BusPlays.congr k fun b => by simp only [eepReadRow, silent]

theorem eepWriteRow_plays (frm : Framing) (row : Nat) (data : List Byte) :
    BusPlays slot false false n (eepWriteRowSteps op frm row data) (silent (eepWriteRow frm row data)) :=
  ((BusPlays.within ((eepOpen_plays (op := op) (eepWriteRequest frm row data)).then
    (saveAct_plays (op := op) eepEnd_cycles))).then (delay_plays .eepWrite)).congr fun b => by
      simp only [eepWriteRow, silent]

/-! ## Flash commands -/

theorem flashId_plays : BusPlays slot false false n (flashIdSteps op) flashId := by
  have k := (saveWriteSteps_plays (slot := slot) (n := n) (op := op) (flashUnlock ++ [(0x5555, 0x90)])).then <|
    (saveReadStep_plays (op := op) 0x0000).bind fun mfr => (saveReadStep_plays (op := op) 0x0001).bind fun dev =>
    (saveWriteSteps_plays (op := op) (flashUnlock ++ [(0x5555, 0xF0)])).then (.ret (mfr, dev))
  exact BusPlays.congr k fun b => by simp only [flashId, silent]

theorem flashBank_plays (bank : Bool) :
    BusPlays slot false false n (flashBankSteps op bank) (silent (flashBank bank)) := saveWriteSteps_plays _

theorem flashErase_plays (a : Half) : BusPlays slot false false n (flashEraseSteps op a) (silent (flashErase a)) :=
  ((saveWriteSteps_plays (op := op) (flashUnlock ++ [(0x5555, 0x80)] ++ flashUnlock ++ [(eraseSector a, 0x30)])).then
    (delay_plays .flashErase)).congr fun b => by simp only [flashErase, silent]

theorem flashProg_plays (a : Half) (d : Byte) :
    BusPlays slot false false n (flashProgSteps op a d) (silent (flashProg a d)) :=
  ((saveWriteSteps_plays (op := op) (flashUnlock ++ [(0x5555, 0xA0), (a, d)])).then (delay_plays .flashProg)).congr
    fun b => by simp only [flashProg, silent]

theorem flashProg128_plays (sector : Half) (data : List Byte) :
    BusPlays slot false false n (flashProg128Steps op sector data) (silent (flashProg128 sector data)) :=
  ((saveWriteSteps_plays (op := op) (flashUnlock ++ [(0x5555, 0xA0)])).then <|
    (BusPlays.forBytes (f := fun k v => saveWriteStep op (sector + BitVec.ofNat 16 k) v) data
      fun _ _ => saveWriteStep_plays _ _).then (delay_plays .flashAtmel)).congr fun b => by
        simp only [flashProg128, silent]

/-! ## Classification -/

theorem eepProbe_plays : BusPlays slot false false n (eepProbeSteps op) eepProbe := by
  have k := (BusPlays.collect (slot := slot) (n := n) Config.eepProbeRows fun row _ =>
    eepReadRow_plays (op := op) .k64 row).map fun rows => eepVerdict rows.flatten
  exact BusPlays.congr k fun b => by simp only [eepProbe]

theorem savePresent_plays : BusPlays slot false false n (savePresentSteps op) savePresent := by
  have k := ((BusPlays.collect (slot := slot) (n := n) Config.presWindows fun k _ =>
    saveReadMany_plays (op := op) (k * (Config.presSpan / Config.presWindows)) Config.presWinLen).map List.flatten).map
    presenceVerdict
  exact BusPlays.congr k fun b => by simp only [savePresent, presenceRead, presenceVerdict]

theorem sramProbe_plays : BusPlays slot false false n (sramProbeSteps op) sramProbe := by
  have k := (saveReadStep_plays (slot := slot) (n := n) (op := op) 0x0000).bind fun o =>
    (saveWriteStep_plays (op := op) 0x0000 (~~~o)).then <| (saveReadStep_plays (op := op) 0x0000).bind fun r1 =>
    (saveWriteStep_plays (op := op) 0x0000 o).then <| (saveReadStep_plays (op := op) 0x0000).map fun r2 =>
      r1 != o && r2 == o
  exact BusPlays.congr k fun b => by simp only [sramProbe, silent]

theorem sramSize_plays : BusPlays slot false false n (sramSizeSteps op) sramSize := by
  have k := (saveReadMany_plays (slot := slot) (n := n) (op := op) 0 Config.saveWrapSample).bind fun x =>
    (saveReadMany_plays (op := op) 0x8000 Config.saveWrapSample).map fun y => sramVerdict x y
  exact BusPlays.congr k fun b => by simp only [sramSize, sramVerdict]

theorem flashFallback_plays : BusPlays slot false false n (flashFallbackSteps op) flashFallback := by
  have k := (saveReadMany_plays (slot := slot) (n := n) (op := op) 0 Config.saveWrapSample).bind fun x =>
    (flashBank_plays (op := op) true).then <| (saveReadMany_plays (op := op) 0 Config.saveWrapSample).bind fun y =>
    (flashBank_plays (op := op) false).then (.ret (flashVerdict x y))
  exact BusPlays.congr k fun b => by
    simp only [flashFallback, flashVerdict, silent]
    rfl

/-- The flash branch of a classification. -/
theorem classifyFlash_plays : BusPlays slot false false n (classifyFlashSteps op) classifyFlash := by
  have k := (flashId_plays (slot := slot) (n := n) (op := op)).bind fun id =>
    show BusPlays slot false false n (classifyFlashOf op id) (fun b => match flashTable id.1 id.2 with
      | some t => ({ kind := t, mfr := id.1, dev := id.2 }, b)
      | none => ({ kind := (flashFallback b).1, mfr := id.1, dev := id.2 }, (flashFallback b).2)) by
    unfold classifyFlashOf
    cases flashTable id.1 id.2 with
    | some t => exact .ret _
    | none => exact flashFallback_plays.map _
  exact BusPlays.congr k fun b => by
    unfold classifyFlash
    generalize flashId b = r
    cases h : flashTable r.1.1 r.1.2 <;> simp only [h]

/-- The SRAM and flash branches of a classification. -/
theorem classifyParallel_plays : BusPlays slot false false n (classifyParallelSteps op) classifyParallel := by
  have k := (savePresent_plays (slot := slot) (n := n) (op := op)).bind fun present =>
    BusPlays.ite (c := present = true)
      (fun _ => (sramProbe_plays (op := op)).bind fun sram => BusPlays.ite (c := sram = true)
        (fun _ => (sramSize_plays (op := op)).map unflashed) fun _ => classifyFlash_plays (op := op))
      fun _ => .ret (unflashed .unknown)
  exact BusPlays.congr k fun b => by
    simp only [classifyParallel, unflashed]

/-- The probes of a classification. -/
theorem classifyProbes_plays : BusPlays slot false false n (classifyProbes op) classifyPowered := by
  have k := (eepProbe_plays (slot := slot) (n := n) (op := op)).bind fun e =>
    show BusPlays slot false false n (classifyAfter op e) (fun b => match e with
      | some t => (unflashed t, b)
      | none => classifyParallel b) by
    cases e with
    | some t => exact .ret _
    | none => exact classifyParallel_plays
  exact BusPlays.congr k fun b => by
    unfold classifyPowered
    generalize eepProbe b = r
    dsimp only
    cases r.1 <;> rfl

/-- A classification in its power session. -/
theorem classify_plays : BusPlays (some .gba) false false n (classifySteps op) gbaClassify :=
  (withGbaPower_plays (classifyProbes_plays (op := op))).congr fun s _ => by simp only [onB, gbaClassify]

/-! ## Header load -/

/-- What a header comes to inside the power session: its size, or a cleared session. -/
def gbaJudge (h : List Byte) (s : State) : Option (List Byte × Word) × State :=
  if gbaChecksumOk h then (some (h, (gbaProbeSize h s.bus).1), { s with bus := (gbaProbeSize h s.bus).2 })
  else (none, gbaClear s)

theorem gbaJudge_plays (h : List Byte) :
    Plays (Going slot false n) (Going slot false n) (gbaJudgeSteps op h) (gbaJudge h) :=
  Plays.congr (Plays.ite (c := gbaChecksumOk h = true)
    (fun _ => (gbaProbeSize_plays (op := op) h).map fun rs => some (h, rs))
    fun _ => Plays.then (.update fun s h => ⟨h.calm, h.selected, h.stream, h.other, h.room⟩) (.ret none))
    fun s _ => by unfold gbaJudge; split <;> rfl

/-- What a sized header comes to after the power session: the classification, and the session. -/
def gbaKeep (r : Option (List Byte × Word)) (s : State) : Word × State :=
  match r with
  | some x => (1, { s with bus := (gbaClassify s.bus).2, gba := gbaSessionOf x.1 x.2 (gbaClassify s.bus).1 })
  | none => (0, s)

theorem gbaKeep_plays (r : Option (List Byte × Word)) :
    Plays (Going (some .gba) false n) (Going (some .gba) false n) (gbaKeepSteps op r) (gbaKeep r) := by
  cases r with
  | none => exact .ret _
  | some x =>
    have k := Plays.bind (classify_plays (n := n) (op := op)) fun c =>
      Plays.then (.update (O := Going (some .gba) false n) (f := fun s => { s with gba := gbaSessionOf x.1 x.2 c })
        fun s h => ⟨h.calm, h.selected, h.stream, h.other, h.room⟩) (.ret (1 : Word))
    exact Plays.congr k fun s _ => by simp only [onB, gbaKeep]

/-- The header load (`44_gba_rom.md` R320). -/
theorem gbaLoad_plays :
    Plays (Going (some .gba) false n) (Going (some .gba) false n) (gbaLoadSteps op) gbaLoadHeader := by
  have h := (withGbaPower_plays (op := op) (Plays.bind (gbaRomRead_plays (slot := some .gba) (n := n) (op := op) 0 192)
    (gbaJudge_plays (op := op)))).bind (gbaKeep_plays (op := op))
  refine Plays.congr h fun s _ => ?_
  unfold gbaLoadHeader gbaHeaderRead
  simp only [onB]
  generalize gbaRomRead 0 192 (gbaPowerUp s.bus) = r
  unfold gbaJudge
  split <;> rfl

/-! ## Save images -/

theorem flashTurn_plays (a : Nat) :
    BusPlays slot false false n (flashTurnSteps op a) (silent fun b => if a = 0x10000 then flashBank true b else b) :=
  (BusPlays.ite (fun _ => flashBank_plays (op := op) true) fun _ => .ret ()).congr fun b => by
    simp only [silent]; split <;> rfl

theorem flashHome_plays (sz : Nat) :
    BusPlays slot false false n (flashHomeSteps op sz) (silent (flashHome sz)) :=
  (BusPlays.ite (fun _ => flashBank_plays (op := op) false) fun _ => .ret ()).congr fun b => by
    simp only [silent, flashHome]; split <;> rfl

/-- The rows of an EEPROM, read and stored. -/
theorem eepRows_fills (frm : Framing) (m : Nat) (fits : 8 * m ≤ n) :
    Fills slot false false n 0
      (Prog.loop (fun row => (eepReadRowSteps op frm row).bind fun bytes => memWrite (8 * row) bytes) 0 m)
      fun b =>
        let r := gather m (fun row => eepReadRow frm row) b
        (r.1.flatten, r.2) := by
  have h := Fills.loop (slot := slot) (crd := false) (n := n)
    (f := fun row => (eepReadRowSteps op frm row).bind fun bytes => memWrite (8 * row) bytes)
    (F := fun row => eepReadRow frm row) 0 m (fun row => 8 * row) (fun _ => 8)
    (fun row _ hr => Fills.of_bytes 8 (fun b => eepReadRow_length frm row b) (by omega) (by omega)
      (eepReadRow_plays frm row))
    (fun _ _ _ _ => eepReadRow_length _ _ _) (fun _ _ _ => by omega)
  exact Fills.congr h fun b => by simp only [gatherFrom_zero]

/-- A range of the save bus, read and stored. -/
theorem saveRange_fills (m : Nat) (fits : m ≤ n) :
    Fills slot false false n 0
      (Prog.loop (fun a => storeByte a (saveReadStep op (BitVec.ofNat 16 a))) 0 m) (saveReadRange 0 m) := by
  have h := Fills.bytes (slot := slot) (crd := false) (n := n) (off := 0)
    (f := fun a => saveReadStep op (BitVec.ofNat 16 a)) (F := fun a => saveRead (BitVec.ofNat 16 a)) m (by omega)
    fun _ _ => saveReadStep_plays _
  simp only [Nat.zero_add] at h
  exact Fills.congr h fun b => by simp only [saveReadRange, Nat.zero_add]

/-- The bytes of a flash chip, read and stored, the banks switched on the way. -/
theorem flashRange_fills (m : Nat) (fits : m ≤ n) :
    Fills slot false false n 0
      (Prog.loop (fun a => (flashTurnSteps op a).then (storeByte a (saveReadStep op (BitVec.ofNat 16 a)))) 0 m)
      (gather m flashReadAt) := by
  have h := Fills.loop (slot := slot) (crd := false) (n := n)
    (f := fun a => (flashTurnSteps op a).then (storeByte a (saveReadStep op (BitVec.ofNat 16 a))))
    (F := fun a b => ([(flashReadAt a b).1], (flashReadAt a b).2)) 0 m (fun a => a) (fun _ => 1)
    (fun a _ ha => Fills.after (flashTurn_plays a) (Fills.of_byte (by omega) (saveReadStep_plays _)))
    (fun _ _ _ _ => rfl) (fun _ _ _ => rfl)
  exact Fills.congr h fun b => by rw [gatherFrom_singletons, gatherFrom_zero, flatten_singletons]

/-- The bytes of a save by its type, read and stored (`45_gba_save.md` R396). -/
theorem saveImageRead_fills (t : SaveType) (sz : Nat) (fits : sz ≤ n) :
    Fills slot false false n 0 (saveImageReadSteps op t sz) (saveImageRead t sz) := by
  cases t with
  | unknown => exact Fills.nothing
  | eeprom4k => exact eepRows_fills _ _ (by omega)
  | eeprom64k => exact eepRows_fills _ _ (by omega)
  | sram256k => exact saveRange_fills _ fits
  | sram512k => exact saveRange_fills _ fits
  | flash512k => exact (flashRange_fills sz fits).before (flashHome_plays (op := op) sz)
  | flash1m => exact (flashRange_fills sz fits).before (flashHome_plays (op := op) sz)

/-- A save read in its power session (`45_gba_save.md` R396). -/
theorem gbaSaveDump_fills (t : SaveType) (sz : Nat) (fits : sz ≤ n) :
    Plays (Going (some .gba) false n) (Going (some .gba) false n)
      (withGbaPower op (saveImageReadSteps op t sz)) (filling 0 (gbaSaveDump t sz)) :=
  (withGbaPower_plays (saveImageRead_fills (op := op) t sz fits)).congr fun s _ => by
    simp only [filling, store_bus, store_withBus, gbaSaveDump]

section write
variable {data : List Byte}

/-- Sector `i` of an Atmel flash save. -/
theorem atmelSector_plays (i : Nat) (le : 128 * i + 128 ≤ data.length) :
    Plays (Holding slot false n data) (Holding slot false n data) (atmelSectorSteps op i)
      (onB (silent (atmelSectorWrite data i))) :=
  Plays.then (flashTurn_plays (op := op) (128 * i)).holding
    (fetch_plays (F := fun v => silent (flashProg128 (BitVec.ofNat 16 (128 * i)) v)) le fun _ =>
      flashProg128_plays _ _)

/-- A byte of any other flash save. -/
theorem flashByte_plays (a : Nat) (le : a + 1 ≤ data.length) :
    Plays (Holding slot false n data) (Holding slot false n data) (flashByteSteps op a)
      (onB (silent (flashByteWrite a (data.getD a 0)))) := by
  have h := Plays.then (flashTurn_plays (slot := slot) (n := n) (op := op) a).holding
    (Plays.then (BusPlays.ite (c := a % 4096 = 0) (fun _ => flashErase_plays (op := op) (BitVec.ofNat 16 a))
        fun _ => .ret ()).holding
      (fetch_plays (F := fun v => silent (flashProg (BitVec.ofNat 16 a) (v.headD 0))) le fun v =>
        flashProg_plays (op := op) (BitVec.ofNat 16 a) (v.headD 0)))
  refine Plays.congr h fun s _ => ?_
  simp only [onB, silent, flashByteWrite, slice_one]
  split <;> split <;> rfl

/-- The bytes of the buffer written to a save, by its type (`45_gba_save.md` R400). -/
theorem saveImageWrite_plays (t : SaveType) (mfr : Byte) :
    Plays (fun s => Holding slot false n data s ∧ s.gba.flashMfr = mfr)
      (fun s => Holding slot false n data s ∧ s.gba.flashMfr = mfr) (saveImageWriteSteps op t data.length)
      (onB (silent (saveImageWrite t mfr data))) := by
  have rows : ∀ frm, Plays (Holding slot false n data) (Holding slot false n data)
      (Prog.loop (fun row => (memRead (8 * row) 8).bind fun data => eepWriteRowSteps op frm row data) 0 (data.length / 8))
      (onB (silent (iter (data.length / 8) fun row => eepWriteRow frm row (slice (8 * row) 8 data)))) := fun frm =>
    Plays.loopB _ fun row hr => fetch_plays (F := fun v => silent (eepWriteRow frm row v)) (by omega) fun _ =>
      eepWriteRow_plays _ _ _
  have bytes : Plays (Holding slot false n data) (Holding slot false n data)
      (Prog.loop (fun a => (memRead a 1).bind fun v => saveWriteStep op (BitVec.ofNat 16 a) (v.headD 0)) 0 data.length)
      (onB (silent fun b => forBytes (fun a v => saveWrite (BitVec.ofNat 16 a) v) 0 data b)) := by
    have h := fetchBytes_plays (slot := slot) (crd := false) (n := n) (data := data)
      (f := fun a v => saveWriteStep op (BitVec.ofNat 16 a) v) (F := fun a v => saveWrite (BitVec.ofNat 16 a) v)
      0 data.length (by omega) fun _ _ _ => saveWriteStep_plays _ _
    simpa only [Nat.zero_add, slice, List.drop_zero, List.take_length] using h
  have flash : Plays (Holding slot false n data) (Holding slot false n data)
      (flashImageWriteSteps op data.length mfr)
      (onB (silent fun b =>
        if mfr = atmel then flashHome data.length (iter (data.length / 128) (atmelSectorWrite data) b)
        else flashHome data.length (forBytes flashByteWrite 0 data b))) := by
    have h := Plays.then (Plays.ite (c := mfr = atmel)
        (fun _ => Plays.loopB (I := Holding slot false n data) (f := atmelSectorSteps op) (F := atmelSectorWrite data)
          (data.length / 128) fun i hi => atmelSector_plays (op := op) i (by omega))
        fun _ => Plays.loopB (I := Holding slot false n data) (f := flashByteSteps op)
          (F := fun a => flashByteWrite a (data.getD a 0)) data.length fun a ha => flashByte_plays (op := op) a (by omega))
      (flashHome_plays (op := op) data.length).holding
    refine Plays.congr h fun s _ => ?_
    split <;> simp only [onB, silent, forBytes_iter]
  have keep : ∀ {p : Prog Unit} {F : Bus → Unit × Bus},
      Plays (Holding slot false n data) (Holding slot false n data) p (onB F) →
      Plays (fun s => Holding slot false n data s ∧ s.gba.flashMfr = mfr)
        (fun s => Holding slot false n data s ∧ s.gba.flashMfr = mfr) p (onB F) := fun h s hs =>
    ⟨(h s hs.1).1, (h s hs.1).2, hs.2⟩
  have looked : Plays (fun s => Holding slot false n data s ∧ s.gba.flashMfr = mfr)
      (fun s => Holding slot false n data s ∧ s.gba.flashMfr = mfr)
      ((look asByte fun s => s.gba.flashMfr).bind (flashImageWriteSteps op data.length))
      (onB (silent fun b =>
        if mfr = atmel then flashHome data.length (iter (data.length / 128) (atmelSectorWrite data) b)
        else flashHome data.length (forBytes flashByteWrite 0 data b))) := fun s hs => by
    rw [run_bind_ok (run_look asByte_faithful _ _), hs.2]
    exact keep flash s hs
  cases t with
  | unknown => exact .ret ()
  | eeprom4k => exact keep (rows _)
  | eeprom64k => exact keep (rows _)
  | sram256k => exact keep bytes
  | sram512k => exact keep bytes
  | flash512k => exact looked
  | flash1m => exact looked

/-- A save written in its power session (`45_gba_save.md` R400). -/
theorem gbaSaveStore_plays (t : SaveType) (mfr : Byte) :
    Plays (fun s => Holding (some .gba) false n data s ∧ s.gba.flashMfr = mfr)
      (fun s => Holding (some .gba) false n data s ∧ s.gba.flashMfr = mfr)
      (withGbaPower op (saveImageWriteSteps op t data.length)) (onB (silent (gbaSaveStore t mfr data))) :=
  (withGbaPower_keeping (fun _ _ h => h) (saveImageWrite_plays (op := op) t mfr)).congr fun _ _ => rfl

end write

end Sys2Proof.Machine
end

