-- ==== Sys2Proof/Laws/Blocked.lean ====
section
/-! SUPPORT. The fault that keeps the first bus step of an operation from happening, or the first frame of a power
sequence: where `gbPowerReady`, `gbaPowerReady` or `busReady` names one, the run ends in it. -/

namespace Sys2Proof.Machine

variable {α β : Type} {op : Instr} {e : Fault} {s : State}

/-- Steps in front of others that end in a fault. -/
theorem Plays.error {I J : State → Prop} {p : Prog α} {F : State → α × State} {q : Prog β} {x : Stop}
    (h : Plays I J p F) (k : ∀ t, J t → q.run t = .error x) (hs : I s) : (p.then q).run s = .error x :=
  (run_then_ok (v := (F s).1) (t := (F s).2) (h s hs).1).trans (k _ (h s hs).2)

/-- A frame of this operation is kept from happening by a fault, and it is no race. -/
structure Stuck (op : Instr) (e : Fault) (s : State) : Prop where
  calm : Calm s
  fault : busReady op s = .error e

theorem Stuck.kept {b : Bus} (h : Stuck op e s) (k : SlotsKept s.bus b) (stream : b.crdActive = s.bus.crdActive) :
    Stuck op e { s with bus := b } := by
  have c : Calm { s with bus := b } := by
    have c : intruded s = none := h.calm
    show intruded { s with bus := b } = none
    rw [← c]
    simp only [intruded, k.ownGb, k.ownGba]
  refine ⟨c, ?_⟩
  have f := h.fault
  simp only [busReady, raceFree_ok h.calm, bind, Except.bind] at f
  simp only [busReady, raceFree_ok c, bind, Except.bind, stream]
  exact f

theorem pinStep_stuck {f : Bus → Bus} (kept : ∀ b, SlotsKept b (f b)) (stream : ∀ b, (f b).crdActive = b.crdActive) :
    Plays (Stuck op e) (Stuck op e) (pinStep op f) (onB (silent f)) :=
  Plays.step asUnit_faithful (fun _ h => strobeReady_ok h.calm) fun _ h => h.kept (kept _) (stream _)

theorem drive_stuck (p : Pin) (v : Bool) :
    Plays (Stuck op e) (Stuck op e) (drive op p v) (onB (silent (drivePin p v))) :=
  Plays.then (pinStep_stuck (fun b => by constructor <;> simp) fun b => by simp)
    (pinStep_stuck (fun b => by constructor <;> simp) fun b => by simp)

theorem frameStep_error (f : Bus → Bus) (h : busReady op s = .error e) :
    (frameStep op f).run s = .error (.fault e) := run_step_error h

theorem pinStep_race (f : Bus → Bus) (h : raceFree s = .error e) : (pinStep op f).run s = .error (.fault e) :=
  run_step_error (strobeReady_eq.trans h)

theorem drive_race (p : Pin) (v : Bool) (h : raceFree s = .error e) : (drive op p v).run s = .error (.fault e) :=
  run_then_error (pinStep_race _ h)

/-- A fault that names no race leaves a calm state in which frames are stuck. -/
theorem stuck_of (c : raceFree s = .ok ()) (h : busReady op s = .error e) : Stuck op e s := ⟨raceFree_inv c, h⟩

theorem race_of {f : Fault} (c : raceFree s = .error f) : busReady op s = .error f := by
  simp [busReady, c, bind, Except.bind]

theorem gbDefaults_blocked (h : busReady op s = .error e) : (gbDefaultsSteps op).run s = .error (.fault e) := by
  cases c : raceFree s with
  | error f =>
    obtain rfl : f = e := by rw [race_of c] at h; exact Except.error.inj h
    exact run_then_error (drive_race _ _ c)
  | ok u =>
    exact (drive_stuck .gbCs true).error (fun t ht => (drive_stuck .gbRd true).error (fun t ht =>
      (drive_stuck .gbWr true).error (fun t ht => run_then_error (frameStep_error _ ht.fault)) ht) ht) (stuck_of c h)

theorem gbaDefaults_blocked (h : busReady op s = .error e) : (gbaDefaultsSteps op).run s = .error (.fault e) := by
  cases c : raceFree s with
  | error f =>
    obtain rfl : f = e := by rw [race_of c] at h; exact Except.error.inj h
    exact run_then_error (drive_race _ _ c)
  | ok u =>
    exact (drive_stuck .gbaCs true).error (fun t ht => (drive_stuck .gbaCs2 true).error (fun t ht =>
      (drive_stuck .gbaRd true).error (fun t ht => (drive_stuck .gbaWr true).error (fun t ht =>
        run_then_error (frameStep_error _ ht.fault)) ht) ht) ht) (stuck_of c h)

theorem gbPowerUp_blocked (h : busReady op s = .error e) : (gbPowerUpSteps op).run s = .error (.fault e) :=
  run_then_error (gbDefaults_blocked h)

theorem gbaPowerUp_blocked (h : busReady op s = .error e) : (gbaPowerUpSteps op).run s = .error (.fault e) :=
  run_then_error (gbaDefaults_blocked h)

/-- What a passed or failed check of a `PWRUP` tells about the other slot and the frames. -/
theorem gbPowerReady_error (h : gbPowerReady op s = .error e) :
    gbaIsOff s = .error e ∨ (gbaIsOff s = .ok () ∧ busReady op s = .error e) := by
  unfold gbPowerReady at h
  unfold gbaIsOff
  split at h
  · cases h; exact .inl (if_pos ‹_›)
  · exact .inr ⟨if_neg ‹_›, h⟩

theorem gbaPowerReady_error (h : gbaPowerReady op s = .error e) :
    gbIsOff s = .error e ∨ (gbIsOff s = .ok () ∧ busReady op s = .error e) := by
  unfold gbaPowerReady at h
  unfold gbIsOff
  split at h
  · cases h; exact .inl (if_pos ‹_›)
  · exact .inr ⟨if_neg ‹_›, h⟩

/-- A power session that cannot begin. -/
theorem withGbPower_blocked {body : Prog α} (h : gbPowerReady op s = .error e) :
    (withGbPower op body).run s = .error (.fault e) := by
  rcases gbPowerReady_error h with k | ⟨o, k⟩
  · exact run_then_error (by rw [run_ensure, k])
  · refine (run_then_ok (t := s) (v := ()) (by rw [run_ensure, o])).trans (run_bind_error ?_)
    rw [run_within]
    exact run_then_error (gbPowerUp_blocked k)

theorem withGbaPower_blocked {body : Prog α} (h : gbaPowerReady op s = .error e) :
    (withGbaPower op body).run s = .error (.fault e) := by
  rcases gbaPowerReady_error h with k | ⟨o, k⟩
  · exact run_then_error (by rw [run_ensure, k])
  · refine (run_then_ok (t := s) (v := ()) (by rw [run_ensure, o])).trans (run_bind_error ?_)
    rw [run_within]
    exact run_then_error (gbaPowerUp_blocked k)

/-- The conditions of a power session, as those of its steps. -/
theorem gbPowerReady_going {n : Nat} (h : gbPowerReady op s = .ok ()) (room : s.me.bufp.toNat + n ≤ Config.hbufSize) :
    Going (some .gb) false n s := by
  obtain ⟨o, r, c, f⟩ := gbPowerReady_inv h
  exact ⟨raceFree_inv r, f, c, o, room⟩

theorem gbaPowerReady_going {n : Nat} (h : gbaPowerReady op s = .ok ()) (room : s.me.bufp.toNat + n ≤ Config.hbufSize) :
    Going (some .gba) false n s := by
  obtain ⟨o, r, c, f⟩ := gbaPowerReady_inv h
  exact ⟨raceFree_inv r, f, c, o, room⟩

theorem busReady_going {n : Nat} (h : busReady op s = .ok ()) (room : s.me.bufp.toNat + n ≤ Config.hbufSize) :
    Going none false n s := by
  obtain ⟨r, c, f⟩ := busReady_inv h
  exact ⟨raceFree_inv r, f, c, trivial, room⟩

/-- A power session and what follows it, as the body of an operation: its check, and then what it comes to. -/
theorem gb_session_run {body : Prog α} {k : α → Prog Word} {G : Word × State}
    (e : gbPowerReady op s = .ok () → ((withGbPower op body).bind k).run s = .ok G) :
    ((withGbPower op body).bind k).run s = asBody (do
      gbPowerReady op s
      .ok G) := by
  cases c : gbPowerReady op s with
  | error f => exact run_bind_error (withGbPower_blocked c)
  | ok u => rw [e c]; rfl

theorem gba_session_run {body : Prog α} {k : α → Prog Word} {G : Word × State}
    (e : gbaPowerReady op s = .ok () → ((withGbaPower op body).bind k).run s = .ok G) :
    ((withGbaPower op body).bind k).run s = asBody (do
      gbaPowerReady op s
      .ok G) := by
  cases c : gbaPowerReady op s with
  | error f => exact run_bind_error (withGbaPower_blocked c)
  | ok u => rw [e c]; rfl

end Sys2Proof.Machine
end

