-- ==== Sys2Proof/Laws/Meaning.lean ====
section
/-! SUPPORT. What each operation does when nothing falls between its steps: the big-step forms of
`Laws/Whole.lean`, faults and all (`10_state.md` R24). -/

namespace Sys2Proof.Machine

variable {op : Instr} {s : State}

/-- The room that a checked buffer leaves. -/
theorem needBuf_room {n : Nat} (h : needBuf n s = .ok ()) : s.me.bufp.toNat + n ≤ Config.hbufSize := (needBuf_inv h).2

/-- The body of an operation behind the check of `spi_ready`. -/
theorem perform_init {p : Prog Word} {r : Except Fault (Word × State)} (h : p.run s = asBody r) :
    perform op ((ensure (needInit op)).then p) s = guarded op s (conclude (do
      needInit op s
      r)) :=
  perform_eq (asBody_check rfl fun _ => h)

/-- A buffer check in front of a body. -/
theorem run_needBuf {n : Nat} {p : Prog Word} {r : Except Fault (Word × State)}
    (h : needBuf n s = .ok () → p.run s = asBody r) :
    ((ensure (needBuf n)).then p).run s = asBody (do
      needBuf n s
      r) := asBody_check rfl h

/-! ## The engines -/

theorem gbLoad_run : (gbLoadSteps op).run s = asBody (do
    gbPowerReady op s
    .ok (gbLoadHeader s)) :=
  gb_session_run fun c => gbLoad_plays.run (gbPowerReady_going c (room_zero s))

theorem gbaLoad_run : (gbaLoadSteps op).run s = asBody (do
    gbaPowerReady op s
    .ok (gbaLoadHeader s)) :=
  gba_session_run fun c => gbaLoad_plays.run (gbaPowerReady_going c (room_zero s))

theorem gbIsLoaded_run : (gbIsLoadedSteps op).run s = asBody (gbIsLoaded op s) := by
  by_cases l : s.gb.loaded = false
  · rw [gbIsLoadedSteps, run_bind_ok (run_look asGb_faithful _ _), if_pos l, gbIsLoaded, if_pos l]
    rfl
  · have r := gbIsLoaded_plays (op := op) (n := 0) (s := s) (by simpa using l)
    rw [gbIsLoaded, if_neg l]
    rw [gbIsLoadedSteps, run_bind_ok (run_look asGb_faithful _ _), if_neg l] at r ⊢
    exact gb_session_run fun c => r (gbPowerReady_going c (room_zero s))

theorem gbaIsLoaded_run : (gbaIsLoadedSteps op).run s = asBody (gbaIsLoaded op s) := by
  by_cases l : s.gba.loaded = false
  · rw [gbaIsLoadedSteps, run_bind_ok (run_look asGba_faithful _ _), if_pos l, gbaIsLoaded, if_pos l]
    rfl
  · have r := gbaIsLoaded_plays (op := op) (n := 0) (s := s) (by simpa using l)
    rw [gbaIsLoaded, if_neg l]
    rw [gbaIsLoadedSteps, run_bind_ok (run_look asGba_faithful _ _), if_neg l] at r ⊢
    exact gba_session_run fun c => r (gbaPowerReady_going c (room_zero s))

/-- Bytes filled in at the agent's buffer, with their count. -/
theorem store_count (m : Nat) (r : List Byte × Bus) (ne : r.1 ≠ []) :
    ((countWord m, store 0 r.1 { s with bus := r.2 }) : Word × State) = intoBuffer m r s := by
  simp [store, ne, intoBuffer]

/-- The ROM dump of a session that a load can leave. -/
theorem gbReadRom_run (ok : GbSessionOk s.gb) : (gbReadRomSteps op).run s = asBody (gbReadRom op s) := by
  by_cases l : s.gb.loaded = false
  · rw [gbReadRomSteps, run_bind_ok (run_look asGb_faithful _ _), if_pos l, gbReadRom, if_pos l]
    rfl
  · obtain ⟨k, hk, size⟩ := ok.size (by simpa using l)
    have big : 32768 ≤ s.gb.romSize.toNat := by
      rw [size]
      exact Nat.le_mul_of_pos_right _ (Nat.pow_pos (by decide))
    have total : 0x4000 ≤ gbDumpTotal s.gb := by unfold gbDumpTotal; split <;> omega
    have whole : s.gb.mbc ≠ .noMbc → s.gb.romSize.toNat / 0x4000 * 0x4000 ≤ gbDumpTotal s.gb := fun e => by
      rw [gbDumpTotal, if_neg e]; exact Nat.div_mul_le_self _ _
    rw [gbReadRomSteps, run_bind_ok (run_look asGb_faithful _ _), if_neg l, gbReadRom, if_neg l]
    refine run_needBuf fun b => gb_session_run fun c => ?_
    rw [run_bind_ok ((gbDump_fills (op := op) s.gb total (Nat.le_refl _) whole).run
      (gbPowerReady_going c (needBuf_room b))), run_ret, store_count]
    intro h
    have len : (gbDump s.gb s.bus).1.length = 0 := by rw [h]; rfl
    simp [gbDump] at len

/-- The save read of the GB/GBC engine. -/
theorem gbReadSave_run : (gbReadSaveSteps op).run s = asBody (gbReadSave op s) := by
  by_cases l : s.gb.loaded = false ∨ s.gb.saveSize = 0
  · rw [gbReadSaveSteps, run_bind_ok (run_look asGb_faithful _ _), if_pos l, gbReadSave, if_pos l]
    rfl
  · rw [gbReadSaveSteps, run_bind_ok (run_look asGb_faithful _ _), if_neg l, gbReadSave, if_neg l]
    refine run_needBuf fun b => gb_session_run fun c => ?_
    rw [run_bind_ok ((gbSaveDump_fills (op := op) s.gb.mbc s.gb.saveSize.toNat (Nat.le_refl _)).run
      (gbPowerReady_going c (needBuf_room b))), run_ret, store_count]
    intro h
    have pos : 0 < s.gb.saveSize.toNat := by
      rcases Nat.eq_zero_or_pos s.gb.saveSize.toNat with z | z
      · exact absurd (.inr (BitVec.eq_of_toNat_eq z)) l
      · exact z
    have len := (gbSaveDump_run s.gb.mbc s.gb.saveSize.toNat s.bus).1
    rw [h] at len
    simp at len
    omega

/-- The save write of the GB/GBC engine. -/
theorem gbWriteSave_run : (gbWriteSaveSteps op).run s = asBody (gbWriteSave op s) := by
  by_cases l : s.gb.loaded = false ∨ s.gb.saveSize = 0
  · rw [gbWriteSaveSteps, run_bind_ok (run_look asGb_faithful _ _), if_pos l, gbWriteSave, if_pos l]
    rfl
  · rw [gbWriteSaveSteps, run_bind_ok (run_look asGb_faithful _ _), if_neg l, gbWriteSave, if_neg l]
    refine run_needBuf fun b => gb_session_run fun c => ?_
    have h := (gbSaveStore_plays (op := op) s.gb.mbc).run
      ((gbPowerReady_going c (needBuf_room b)).holding (Nat.le_refl s.gb.saveSize.toNat))
    rw [readBlock_length] at h
    rw [run_bind_ok h]
    rfl

/-- The ROM dump of a session that a load can leave. -/
theorem gbaReadRom_run (ok : GbaSessionOk s.gba) : (gbaReadRomSteps op).run s = asBody (gbaReadRom op s) := by
  by_cases l : s.gba.loaded = false
  · rw [gbaReadRomSteps, run_bind_ok (run_look asGba_faithful _ _), if_pos l, gbaReadRom, if_pos l]
    rfl
  · have size : 0 < s.gba.romSize.toNat / 2 := by
      rcases ok.size (by simpa using l) with e | e | e | e <;> rw [e] <;> decide
    rw [gbaReadRomSteps, run_bind_ok (run_look asGba_faithful _ _), if_neg l, gbaReadRom, if_neg l]
    refine run_needBuf fun b => gba_session_run fun c => ?_
    rw [run_bind_ok ((gbaDump_fills (op := op) s.gba.romSize.toNat size (by omega)).run
      (gbaPowerReady_going c (needBuf_room b))), run_ret, store_count]
    intro h
    have len := gbaRomRead_length 0 s.gba.romSize.toNat (gbaPowerUp s.bus)
    simp only [gbaDump] at h
    rw [h] at len
    simp at len
    omega

/-- The save read of a session that a load can leave. -/
theorem gbaReadSave_run (ok : GbaSessionOk s.gba) : (gbaReadSaveSteps op).run s = asBody (gbaReadSave op s) := by
  by_cases l : s.gba.loaded = false ∨ s.gba.saveType = .unknown
  · rw [gbaReadSaveSteps, run_bind_ok (run_look asGba_faithful _ _), if_pos l, gbaReadSave, if_pos l]
    rfl
  · rw [gbaReadSaveSteps, run_bind_ok (run_look asGba_faithful _ _), if_neg l, gbaReadSave, if_neg l]
    refine run_needBuf fun b => gba_session_run fun c => ?_
    rw [run_bind_ok ((gbaSaveDump_fills (op := op) s.gba.saveType s.gba.saveSize.toNat (Nat.le_refl _)).run
      (gbaPowerReady_going c (needBuf_room b))), run_ret, store_count]
    have known : s.gba.saveType ≠ .unknown := fun e => l (.inr e)
    have size : s.gba.saveSize.toNat % 8 = 0 ∧ 0 < s.gba.saveSize.toNat := by
      rw [ok.save]
      cases t : s.gba.saveType <;> first | exact absurd t known | decide
    intro h
    have len := saveImageRead_length s.gba.saveType s.gba.saveSize.toNat (gbaPowerUp s.bus) known size.1
    simp only [gbaSaveDump] at h
    rw [h] at len
    simp at len
    omega

/-- The save write of the GBA engine. -/
theorem gbaWriteSave_run : (gbaWriteSaveSteps op).run s = asBody (gbaWriteSave op s) := by
  by_cases l : s.gba.loaded = false ∨ s.gba.saveType = .unknown
  · rw [gbaWriteSaveSteps, run_bind_ok (run_look asGba_faithful _ _), if_pos l, gbaWriteSave, if_pos l]
    rfl
  · rw [gbaWriteSaveSteps, run_bind_ok (run_look asGba_faithful _ _), if_neg l, gbaWriteSave, if_neg l]
    refine run_needBuf fun b => gba_session_run fun c => ?_
    have h := (gbaSaveStore_plays (op := op) s.gba.saveType s.gba.flashMfr).run
      ⟨(gbaPowerReady_going c (needBuf_room b)).holding (Nat.le_refl s.gba.saveSize.toNat), rfl⟩
    rw [readBlock_length] at h
    rw [run_bind_ok h]
    rfl

/-! ## Shared forms -/

/-- An operation whose steps come to a value and a state. -/
theorem perform_ok {p : Prog Word} {v : Word} {t : State} (h : p.run s = .ok (v, t)) :
    perform op p s = guarded op s (.next (finish v t)) := by rw [perform, h]; rfl

/-- An operation that is one bus step with a value. -/
theorem oneStep_eq {α : Type} {kind : StepKind} {check : State → Except Fault Unit} {c : Coding α} (hc : c.Faithful)
    (f : Bus → α × Bus) (v : α → Word) :
    perform op (oneStep op kind check c f v) s = guarded op s (conclude (do
      needInit op s
      check s
      .ok (onBus s (f s.bus) v))) := by
  refine perform_init ?_
  cases h : check s with
  | error e => exact run_bind_error (run_step_error h)
  | ok u => exact (run_bind_ok (by rw [busRead, run_step _ _ hc, h])).trans rfl

/-- An operation that is one bus step. -/
theorem oneWrite_eq {kind : StepKind} {check : State → Except Fault Unit} (f : Bus → Bus) :
    perform op (oneWrite op kind check f) s = guarded op s (conclude (do
      needInit op s
      check s
      .ok (onBus s (silently f s.bus) id))) := by
  refine perform_init ?_
  cases h : check s with
  | error e => exact run_then_error (run_step_error h)
  | ok u =>
    refine (run_then_ok (v := ()) (t := { s with bus := f s.bus }) ?_).trans rfl
    rw [busDo, run_step _ _ asUnit_faithful, h]

/-- Steps whose first is a cartridge transaction: the fault that keeps it from happening, or what all come to. -/
structure Transacts {α : Type} (op : Instr) (p : Prog α) (F : Bus → α × Bus) : Prop where
  plays : BusPlays none false false 0 p F
  blocked : ∀ s e, busReady op s = .error e → p.run s = .error (.fault e)

/-- Such steps and what follows them, as the body of an operation. -/
theorem Transacts.run {α : Type} {p : Prog α} {F : Bus → α × Bus} (h : Transacts op p F) {k : α → Prog Word}
    {G : Word × State} (e : (k (F s.bus).1).run { s with bus := (F s.bus).2 } = .ok G) :
    (p.bind k).run s = asBody (do
      busReady op s
      .ok G) := by
  cases c : busReady op s with
  | error f => exact run_bind_error (h.blocked s f c)
  | ok u => exact (run_bind_ok (h.plays.run (busReady_going c (room_zero s)))).trans (e.trans rfl)

/-- A raw operation that is a run of transactions with a value. -/
theorem Transacts.map_eq {α : Type} {p : Prog α} {F : Bus → α × Bus} (h : Transacts op p F) (v : α → Word) :
    perform op ((ensure (needInit op)).then (p.map v)) s = guarded op s (cartridgeOp op s F v) :=
  perform_init (h.run rfl)

/-- A raw operation that is a run of transactions. -/
theorem Transacts.then_eq {p : Prog Unit} {f : Bus → Bus} (h : Transacts op p (silent f)) (w : Word) :
    perform op ((ensure (needInit op)).then (p.then (.ret w))) s =
      guarded op s (cartridgeOp op s (silent f) fun _ => w) :=
  perform_init (h.run rfl)

theorem transacts_gbRead (a : Half) : Transacts op (gbReadStep op a) (gbRead a) :=
  ⟨gbReadStep_plays a, fun _ _ => run_step_error⟩

theorem transacts_gbWrite (a : Half) (d : Byte) : Transacts op (gbWriteStep op a d) (silent (gbWrite a d)) :=
  ⟨gbWriteStep_plays a d, fun _ _ => run_step_error⟩

theorem transacts_burst (ba m : Nat) : Transacts op (gbaRomReadSteps op ba m) (gbaRomRead ba m) :=
  ⟨gbaRomRead_plays ba m, fun _ _ h => run_then_error ((run_within _ _).trans (run_step_error h))⟩

theorem transacts_saveRead (a : Half) : Transacts op (saveReadStep op a) (saveRead a) :=
  ⟨saveReadStep_plays a, fun _ _ => run_step_error⟩

theorem transacts_saveWrite (a : Half) (d : Byte) : Transacts op (saveWriteStep op a d) (silent (saveWrite a d)) :=
  ⟨saveWriteStep_plays a d, fun _ _ => run_step_error⟩

theorem saveWriteSteps_blocked {e : Fault} (w : Half × Byte) (ws : List (Half × Byte)) (h : busReady op s = .error e) :
    (saveWriteSteps op (w :: ws)).run s = .error (.fault e) := run_then_error (run_step_error h)

theorem transacts_eepRead (frm : Framing) (row : Nat) : Transacts op (eepReadRowSteps op frm row) (eepReadRow frm row) :=
  ⟨eepReadRow_plays frm row, fun _ _ h => run_bind_error ((run_within _ _).trans
    (run_then_error (run_then_error (run_step_error h))))⟩

theorem transacts_eepWrite (frm : Framing) (row : Nat) (data : List Byte) :
    Transacts op (eepWriteRowSteps op frm row data) (silent (eepWriteRow frm row data)) :=
  ⟨eepWriteRow_plays frm row data, fun _ _ h => run_then_error ((run_within _ _).trans
    (run_then_error (run_then_error (run_step_error h))))⟩

theorem transacts_flashId : Transacts op (flashIdSteps op) flashId :=
  ⟨flashId_plays, fun _ _ h => run_then_error (saveWriteSteps_blocked _ _ h)⟩

theorem transacts_flashBank (bank : Bool) : Transacts op (flashBankSteps op bank) (silent (flashBank bank)) :=
  ⟨flashBank_plays bank, fun _ _ h => saveWriteSteps_blocked _ _ h⟩

theorem transacts_flashErase (a : Half) : Transacts op (flashEraseSteps op a) (silent (flashErase a)) :=
  ⟨flashErase_plays a, fun _ _ h => run_then_error (saveWriteSteps_blocked _ _ h)⟩

theorem transacts_flashProg (a : Half) (d : Byte) : Transacts op (flashProgSteps op a d) (silent (flashProg a d)) :=
  ⟨flashProg_plays a d, fun _ _ h => run_then_error (saveWriteSteps_blocked _ _ h)⟩

theorem transacts_flashProg128 (a : Half) (data : List Byte) :
    Transacts op (flashProg128Steps op a data) (silent (flashProg128 a data)) :=
  ⟨flashProg128_plays a data, fun _ _ h => run_then_error (saveWriteSteps_blocked _ _ h)⟩

/-- A bank operation: no step at all for a controller without the register. -/
theorem mbc_eq (ws : List (Half × Byte)) (g : Mbcw → Mbcw) (none : ws = [] → ∀ x, g x = x) :
    perform op ((ensure (needInit op)).then ((mbcSteps op ws g).then (.ret 0))) s =
      guarded op s (mbcOp op s ws (mbcStep ws g)) := by
  refine perform_init ?_
  cases ws with
  | nil =>
    rw [run_then_ok (v := ()) (t := s)]
    · rfl
    · refine (run_then_ok (v := ()) (t := s) rfl).trans ?_
      rw [busDo, run_step _ _ asUnit_faithful]
      simp only [always, none rfl]
  | cons w ws =>
    have t : Transacts op (mbcSteps op (w :: ws) g) (silent (mbcStep (w :: ws) g)) :=
      ⟨mbcSteps_plays _ g, fun _ _ h => run_then_error (run_then_error (run_step_error h))⟩
    rw [if_neg (List.cons_ne_nil _ _)]
    exact t.run rfl

/-! ## Transport and lock -/

theorem execInit_eq (hz : Word) :
    execInit hz s = .next (finish (initialise hz s).1 (initialise hz s).2) :=
  (perform_ok (by rw [initSteps, run_step _ _ asWord_faithful]; rfl)).trans (guarded_ok rfl)

theorem execStbDir_eq (p : Pin) (d : PinDir) : execStbDir p d s = guarded (.stbDir p d) s (conclude (do
    needInit (.stbDir p d) s
    strobeReady (.stbDir p d) s
    .ok (0, { s with bus := pinDirect p d s.bus }))) := oneWrite_eq (kind := .pin) _

theorem execStbWr_eq (p : Pin) (v : Bool) : execStbWr p v s = guarded (.stbWr p v) s (conclude (do
    needInit (.stbWr p v) s
    strobeReady (.stbWr p v) s
    .ok (0, { s with bus := strobe p v s.bus }))) := oneWrite_eq (kind := .pin) _

theorem execStbRd_eq (p : Pin) : execStbRd p s = conclude (do
    needInit (.stbRd p) s
    strobeReady (.stbRd p) s
    .ok (boolWord (pinRead p s.bus).1, { s with bus := (pinRead p s.bus).2 })) :=
  (oneStep_eq (kind := .pin) asBit_faithful _ _).trans (guarded_ok rfl)

theorem execLock_eq (force : Bool) (key : Word) : execLock force key s = guarded (.lock force key) s
    (if lockFree key s then .next (finish 0 (takeLock force key s)) else .next (hold (.lock force key) s)) := by
  rw [execLock, perform, lockSteps]
  cases h : lockFree key s with
  | false => rw [run_then_error (by rw [run_lockStep, h]; rfl)]; rfl
  | true => rw [run_then_ok (v := ()) (t := takeLock force key s) (by rw [run_lockStep, h]; rfl)]; rfl

theorem execUnlock_eq (key : Word) :
    execUnlock key s = guarded (.unlock key) s (.next (finish 0 (releaseLock key s))) :=
  perform_ok (by rw [unlockSteps, run_then_ok (run_update _ _)]; rfl)

theorem execSetbuf_eq (buf : Word) : execSetbuf buf s = .next (finish 0 (setBuffer buf s)) :=
  (perform_ok (by rw [setbufSteps, run_then_ok (run_update _ _)]; rfl)).trans (guarded_ok rfl)

/-! ## Port expander -/

theorem execExpDir_eq (p : Port) (v : Byte) : execExpDir p v s = expanderOp (.expDir p v) s (silently (expDir p v)) id :=
  (oneWrite_eq (kind := .frame) _).trans (guarded_ok rfl)

theorem execExpPull_eq (p : Port) (v : Byte) :
    execExpPull p v s = expanderOp (.expPull p v) s (silently (expPull p v)) id :=
  (oneWrite_eq (kind := .frame) _).trans (guarded_ok rfl)

theorem execExpWr_eq (p : Port) (v : Byte) : execExpWr p v s = expanderOp (.expWr p v) s (silently (expWrite p v)) id :=
  (oneWrite_eq (kind := .frame) _).trans (guarded_ok rfl)

theorem execExpRd_eq (p : Port) :
    execExpRd p s = expanderOp (.expRd p) s (expReadAs (.portPins p) p) (·.setWidth 32) :=
  (oneStep_eq (kind := .frame) asByte_faithful _ _).trans (guarded_ok rfl)

theorem execExpDir2_eq (c : Chip) (pair : Half) :
    execExpDir2 c pair s = expanderOp (.expDir2 c pair) s (silently (expDir2 c (loByte pair) (hiByte pair))) id :=
  (oneWrite_eq (kind := .frame) _).trans (guarded_ok rfl)

theorem execExpPull2_eq (c : Chip) (pair : Half) :
    execExpPull2 c pair s = expanderOp (.expPull2 c pair) s (silently (expPull2 c (loByte pair) (hiByte pair))) id :=
  (oneWrite_eq (kind := .frame) _).trans (guarded_ok rfl)

theorem execExpWr2_eq (c : Chip) (pair : Half) :
    execExpWr2 c pair s = expanderOp (.expWr2 c pair) s (silently (expWrite2 c (loByte pair) (hiByte pair))) id :=
  (oneWrite_eq (kind := .frame) _).trans (guarded_ok rfl)

theorem execExpRd2_eq (c : Chip) : execExpRd2 c s = expanderOp (.expRd2 c) s (expRead2 c) (·.setWidth 32) :=
  (oneStep_eq (kind := .frame) asHalf_faithful _ _).trans (guarded_ok rfl)

theorem execCrdStart_eq (c : Chip) : execCrdStart c s = expanderOp (.crdStart c) s (silently (crdStart c)) id :=
  (oneWrite_eq (kind := .frame) _).trans (guarded_ok rfl)

theorem execCrdCont_eq : execCrdCont s = streamOp .crdCont s crdCont (·.setWidth 32) :=
  (oneStep_eq (kind := .frame) asHalf_faithful _ _).trans (guarded_ok rfl)

theorem execCrdEnd_eq : execCrdEnd s = streamOp .crdEnd s (silently crdEnd) id :=
  (oneWrite_eq (kind := .frame) _).trans (guarded_ok rfl)

/-! ## Power -/

theorem execGbPwrup_eq : execGbPwrup s = conclude (do
    needInit .gbPwrup s
    gbPowerReady .gbPwrup s
    .ok (0, gbClaim { s with bus := gbPowerUp s.bus })) := by
  refine (perform_init ?_).trans (guarded_ok rfl)
  cases c : gbPowerReady .gbPwrup s with
  | error e =>
    rcases gbPowerReady_error c with k | ⟨o, k⟩
    · exact run_then_error (by rw [run_ensure, k])
    · exact (run_then_ok (t := s) (v := ()) (by rw [run_ensure, o])).trans
        (run_then_error ((run_within _ _).trans (gbPowerUp_blocked k)))
  | ok u =>
    have g := gbPowerReady_going c (room_zero s)
    refine (run_then_ok (t := s) (v := ()) (by rw [run_ensure, g.gbaIsOff])).trans ?_
    refine (run_then_ok ((run_within _ _).trans (gbPowerUp_plays.run g))).trans ?_
    rw [run_then_ok (run_update _ _)]
    rfl

theorem execGbaPwrup_eq : execGbaPwrup s = conclude (do
    needInit .gbaPwrup s
    gbaPowerReady .gbaPwrup s
    .ok (0, gbaClaim { s with bus := gbaPowerUp s.bus })) := by
  refine (perform_init ?_).trans (guarded_ok rfl)
  cases c : gbaPowerReady .gbaPwrup s with
  | error e =>
    rcases gbaPowerReady_error c with k | ⟨o, k⟩
    · exact run_then_error (by rw [run_ensure, k])
    · exact (run_then_ok (t := s) (v := ()) (by rw [run_ensure, o])).trans
        (run_then_error ((run_within _ _).trans (gbaPowerUp_blocked k)))
  | ok u =>
    have g := gbaPowerReady_going c (room_zero s)
    refine (run_then_ok (t := s) (v := ()) (by rw [run_ensure, g.gbIsOff])).trans ?_
    refine (run_then_ok ((run_within _ _).trans (gbaPowerUp_plays.run g))).trans ?_
    rw [run_then_ok (run_update _ _)]
    rfl

theorem execGbPwrdn_eq : execGbPwrdn s = conclude (do
    needInit .gbPwrdn s
    busReady .gbPwrdn s
    .ok (0, { s with bus := gbPowerDown s.bus })) := by
  refine (perform_init ?_).trans (guarded_ok rfl)
  cases c : busReady .gbPwrdn s with
  | error e => exact run_then_error (run_then_error (run_then_error (frameStep_error _ c)))
  | ok u =>
    have g := busReady_going c (room_zero s)
    refine (run_then_ok (gbPowerDown_plays.run g)).trans ?_
    refine (run_then_ok (gbFlagOff_plays.run (gbPowerDown_plays (op := .gbPwrdn) s g).2)).trans ?_
    simp only [run_ret, onB, silent, gbFlagOff, gbPowerDown]
    rfl

theorem execGbaPwrdn_eq : execGbaPwrdn s = conclude (do
    needInit .gbaPwrdn s
    busReady .gbaPwrdn s
    .ok (0, { s with bus := gbaPowerDown s.bus })) := by
  refine (perform_init ?_).trans (guarded_ok rfl)
  cases c : busReady .gbaPwrdn s with
  | error e => exact run_then_error (run_then_error (run_then_error (frameStep_error _ c)))
  | ok u =>
    have g := busReady_going c (room_zero s)
    refine (run_then_ok (gbaPowerDown_plays.run g)).trans ?_
    refine (run_then_ok (gbaFlagOff_plays.run (gbaPowerDown_plays (op := .gbaPwrdn) s g).2)).trans ?_
    simp only [run_ret, onB, silent, gbaFlagOff, gbaPowerDown]
    rfl

/-! ## The GB/GBC engine -/

theorem execGbBusrd_eq (a : Half) : execGbBusrd a s = cartridgeOp (.gbBusrd a) s (gbRead a) (·.setWidth 32) :=
  ((transacts_gbRead a).map_eq _).trans (guarded_ok rfl)

theorem execGbBuswr_eq (a : Half) (d : Byte) : execGbBuswr a d s = conclude (do
    needInit (.gbBuswr a d) s
    busReady (.gbBuswr a d) s
    .ok (0, { s with bus := { gbWrite a d s.bus with mbcw := mbcwRaw s.gb a d (gbWrite a d s.bus).mbcw } })) := by
  refine (perform_init ((transacts_gbWrite a d).run ?_)).trans (guarded_ok rfl)
  rw [run_then_ok (run_update _ _)]
  rfl

theorem execGbRombank_eq (m : Mbc) (i : BitVec 9) : execGbRombank m i s =
    guarded (.gbRombank m i) s (mbcOp (.gbRombank m i) s (romBankWrites m i) (gbRomBank m i)) :=
  mbc_eq _ _ fun e _ => by cases m <;> simp [romBankWrites] at e ⊢; rfl

theorem execGbRamopen_eq (m : Mbc) : execGbRamopen m s =
    guarded (.gbRamopen m) s (mbcOp (.gbRamopen m) s (ramOpenWrites m) (gbRamOpen m)) :=
  mbc_eq _ _ fun e _ => by cases m <;> simp [ramOpenWrites] at e ⊢; rfl

theorem execGbRambank_eq (m : Mbc) (j : BitVec 4) : execGbRambank m j s =
    guarded (.gbRambank m j) s (mbcOp (.gbRambank m j) s (ramBankWrites m j) (gbRamBank m j)) :=
  mbc_eq _ _ fun e _ => by cases m <;> simp [ramBankWrites] at e ⊢ <;> rfl

theorem execGbRamclose_eq (m : Mbc) : execGbRamclose m s =
    guarded (.gbRamclose m) s (mbcOp (.gbRamclose m) s (ramCloseWrites m) (gbRamClose m)) :=
  mbc_eq _ _ fun e _ => by cases m <;> simp [ramCloseWrites] at e ⊢; rfl

theorem execGbLoadhdr_eq : execGbLoadhdr s = conclude (do
    needInit .gbLoadhdr s
    gbPowerReady .gbLoadhdr s
    .ok (gbLoadHeader s)) := (perform_init gbLoad_run).trans (guarded_ok rfl)

theorem execGbIsloaded_eq : execGbIsloaded s = conclude (do
    needInit .gbIsloaded s
    gbIsLoaded .gbIsloaded s) := (perform_init gbIsLoaded_run).trans (guarded_ok rfl)

theorem execGbReadrom_eq (ok : GbSessionOk s.gb) : execGbReadrom s = conclude (do
    needInit .gbReadrom s
    gbReadRom .gbReadrom s) := (perform_init (gbReadRom_run ok)).trans (guarded_ok rfl)

theorem execGbReadsave_eq : execGbReadsave s = conclude (do
    needInit .gbReadsave s
    gbReadSave .gbReadsave s) := (perform_init gbReadSave_run).trans (guarded_ok rfl)

theorem execGbWritesave_eq : execGbWritesave s = conclude (do
    needInit .gbWritesave s
    gbWriteSave .gbWritesave s) := (perform_init gbWriteSave_run).trans (guarded_ok rfl)

theorem execGbClear_eq : execGbClear s = .next (finish 0 (gbClear s)) :=
  (perform_ok (by rw [gbClearSteps, run_then_ok (run_update _ _)]; rfl)).trans (guarded_ok rfl)

/-! ## The GBA engines -/

/-- Bytes stored at the start of the buffer, and their count, behind a passed check. -/
theorem run_intoBuffer {n : Nat} (bytes : List Byte) (len : bytes.length = n) (b : Bus) (h : needBuf n s = .ok ()) :
    ((memWrite 0 bytes).then (.ret (countWord n))).run { s with bus := b } = .ok (intoBuffer n (bytes, b) s) := by
  have k : inHbuf 0 bytes.length { s with bus := b } = .ok () := by
    have r := needBuf_room h
    simp only [inHbuf, len]
    rw [if_pos (by omega)]
  rw [run_then_ok (run_memWrite k)]
  rfl

/-- A value of transactions stored at the agent's buffer. -/
theorem transacts_stored {n : Nat} {p : Prog (List Byte)} {F : Bus → List Byte × Bus} (h : Transacts op p F)
    (len : ∀ b, (F b).1.length = n) :
    perform op ((ensure (needInit op)).then <| (ensure (needBuf n)).then <|
        p.bind fun out => (memWrite 0 out).then (.ret (countWord n))) s =
      guarded op s (conclude (do
        needInit op s
        needBuf n s
        busReady op s
        .ok (intoBuffer n (F s.bus) s))) :=
  perform_init (run_needBuf fun b => h.run (run_intoBuffer _ (len _) _ b))

theorem execGbaRomrd_eq (a : BitVec 25) (len : Half) (even : len.toNat % 2 = 0) : execGbaRomrd a len s =
    guarded (.gbaRomrd a len) s (conclude (do
      needInit (.gbaRomrd a len) s
      needBuf len.toNat s
      busReady (.gbaRomrd a len) s
      .ok (intoBuffer len.toNat (gbaRomRead a.toNat len.toNat s.bus) s))) :=
  transacts_stored (transacts_burst _ _) fun b => by rw [gbaRomRead_length]; omega

theorem execEepRdrow_eq (frm : Framing) (row : BitVec 14) : execEepRdrow frm row s =
    guarded (.eepRdrow frm row) s (conclude (do
      needInit (.eepRdrow frm row) s
      needBuf 8 s
      busReady (.eepRdrow frm row) s
      .ok (intoBuffer 8 (eepReadRow frm row.toNat s.bus) s))) :=
  transacts_stored (transacts_eepRead _ _) fun b => eepReadRow_length _ _ b

/-- Transactions of what the buffer holds, behind a passed check. -/
theorem transacts_fetched {n : Nat} {p : List Byte → Prog Unit} {f : List Byte → Bus → Bus}
    (h : ∀ v, Transacts op (p v) (silent (f v))) :
    perform op ((ensure (needInit op)).then <| (ensure (needBuf n)).then <|
        (memRead 0 n).bind fun data => (p data).then (.ret (BitVec.ofNat 32 n))) s =
      guarded op s (conclude (do
        needInit op s
        needBuf n s
        busReady op s
        .ok (BitVec.ofNat 32 n, { s with bus := f (s.hbuf.readBlock s.me.bufp.toNat n) s.bus }))) := by
  refine perform_init (run_needBuf fun b => ?_)
  have k : inHbuf 0 n s = .ok () := by
    have r := needBuf_room b
    simp only [inHbuf]
    rw [if_pos (by omega)]
  rw [run_bind_ok (v := s.hbuf.readBlock s.me.bufp.toNat n) (t := s)]
  · exact (h _).run rfl
  · rw [memRead, run_step _ _ asBytes_faithful, k]
    rfl

theorem execEepWrrow_eq (frm : Framing) (row : BitVec 14) : execEepWrrow frm row s =
    guarded (.eepWrrow frm row) s (conclude (do
      needInit (.eepWrrow frm row) s
      needBuf 8 s
      busReady (.eepWrrow frm row) s
      .ok (8, { s with bus := eepWriteRow frm row.toNat (s.hbuf.readBlock s.me.bufp.toNat 8) s.bus }))) :=
  transacts_fetched fun _ => transacts_eepWrite _ _ _

theorem execFlashProg128_eq (a : Half) : execFlashProg128 a s =
    guarded (.flashProg128 a) s (conclude (do
      needInit (.flashProg128 a) s
      needBuf 128 s
      busReady (.flashProg128 a) s
      .ok (128, { s with bus := flashProg128 a (s.hbuf.readBlock s.me.bufp.toNat 128) s.bus }))) :=
  transacts_fetched fun _ => transacts_flashProg128 _ _

theorem execSaveRd_eq (a : Half) : execSaveRd a s = cartridgeOp (.saveRd a) s (saveRead a) (·.setWidth 32) :=
  ((transacts_saveRead a).map_eq _).trans (guarded_ok rfl)

theorem execSaveWr_eq (a : Half) (d : Byte) :
    execSaveWr a d s = cartridgeOp (.saveWr a d) s (silent (saveWrite a d)) fun _ => 0 :=
  ((transacts_saveWrite a d).then_eq _).trans (guarded_ok rfl)

theorem execFlashId_eq :
    execFlashId s = cartridgeOp .flashId s flashId fun id => (pairOf id.1 id.2).setWidth 32 :=
  (transacts_flashId.map_eq _).trans (guarded_ok rfl)

theorem execFlashBank_eq (bank : Bool) :
    execFlashBank bank s = cartridgeOp (.flashBank bank) s (silent (flashBank bank)) fun _ => 0 :=
  ((transacts_flashBank bank).then_eq _).trans (guarded_ok rfl)

theorem execFlashErase_eq (a : Half) :
    execFlashErase a s = cartridgeOp (.flashErase a) s (silent (flashErase a)) fun _ => 0 :=
  ((transacts_flashErase a).then_eq _).trans (guarded_ok rfl)

theorem execFlashProg_eq (a : Half) (d : Byte) :
    execFlashProg a d s = cartridgeOp (.flashProg a d) s (silent (flashProg a d)) fun _ => 0 :=
  ((transacts_flashProg a d).then_eq _).trans (guarded_ok rfl)

theorem execGbaLoadhdr_eq : execGbaLoadhdr s = conclude (do
    needInit .gbaLoadhdr s
    gbaPowerReady .gbaLoadhdr s
    .ok (gbaLoadHeader s)) := (perform_init gbaLoad_run).trans (guarded_ok rfl)

theorem execGbaIsloaded_eq : execGbaIsloaded s = conclude (do
    needInit .gbaIsloaded s
    gbaIsLoaded .gbaIsloaded s) := (perform_init gbaIsLoaded_run).trans (guarded_ok rfl)

theorem execGbaReadrom_eq (ok : GbaSessionOk s.gba) : execGbaReadrom s = conclude (do
    needInit .gbaReadrom s
    gbaReadRom .gbaReadrom s) := (perform_init (gbaReadRom_run ok)).trans (guarded_ok rfl)

theorem execGbaReadsave_eq (ok : GbaSessionOk s.gba) : execGbaReadsave s = conclude (do
    needInit .gbaReadsave s
    gbaReadSave .gbaReadsave s) := (perform_init (gbaReadSave_run ok)).trans (guarded_ok rfl)

theorem execGbaWritesave_eq : execGbaWritesave s = conclude (do
    needInit .gbaWritesave s
    gbaWriteSave .gbaWritesave s) := (perform_init gbaWriteSave_run).trans (guarded_ok rfl)

theorem execGbaProbesize_eq : execGbaProbesize s = conclude (do
    needInit .gbaProbesize s
    gbaPowerReady .gbaProbesize s
    .ok ((gbaProbe s.bus).1, { s with bus := (gbaProbe s.bus).2 })) := by
  refine (perform_init ?_).trans (guarded_ok rfl)
  cases c : gbaPowerReady .gbaProbesize s with
  | error e => exact withGbaPower_blocked c
  | ok u => exact (gbaProbe_plays.run (gbaPowerReady_going c (room_zero s))).trans rfl

theorem execGbaClassify_eq : execGbaClassify s = conclude (do
    needInit .gbaClassify s
    gbaPowerReady .gbaClassify s
    .ok (saveTypeCode (gbaClassify s.bus).1.kind, { s with bus := (gbaClassify s.bus).2 })) :=
  (perform_init (gba_session_run fun c =>
    (run_bind_ok (classify_plays.run (gbaPowerReady_going c (room_zero s)))).trans rfl)).trans (guarded_ok rfl)

theorem execGbaClear_eq : execGbaClear s = .next (finish 0 (gbaClear s)) :=
  (perform_ok (by rw [gbaClearSteps, run_then_ok (run_update _ _)]; rfl)).trans (guarded_ok rfl)

/-! ## The dispatcher -/

/-- Steps under the lock: held while another key has it, else the body with the lock taken and freed
(`46_dispatcher.md` R420). -/
theorem underLock_eq {p : Prog Word} {body : State → Except Fault (Word × State)}
    (h : p.run (locked s) = asBody (body (locked s))) :
    settle op s ((underLock p).run s) = lockHeld op s body := by
  unfold lockHeld
  cases f : lockFree Config.gbxKey s with
  | false => rw [underLock, run_then_error (by rw [run_lockStep, f]; rfl)]; rfl
  | true =>
    rw [underLock, run_then_ok (v := ()) (t := locked s) (by rw [run_lockStep, f]; rfl), if_pos rfl]
    change settle op s _ = conclude (body (locked s) >>= _)
    cases r : body (locked s) with
    | error e => rw [run_bind_error (h.trans (by rw [r]; rfl))]; rfl
    | ok x =>
      rw [run_bind_ok (v := x.1) (t := x.2) (h.trans (by rw [r]; rfl)), run_then_ok (run_update _ _)]
      rfl

/-- A dispatcher operation that needs `INIT`. -/
theorem dispatch_eq {p : Prog Word} {body : State → Except Fault (Word × State)}
    (h : p.run (locked s) = asBody (body (locked s))) :
    perform op ((ensure (needInit op)).then (underLock p)) s =
      guarded op s (if s.spiReady then lockHeld op s body else .fault (.notInitialised op)) := by
  rw [perform_ensure]
  unfold needInit
  cases s.spiReady with
  | false => rfl
  | true => exact congrArg (guarded op s) (underLock_eq h)

theorem asPlatform_active (s : State) : (look asPlatform active).run s = .ok (active s, s) :=
  run_look asPlatform_faithful _ _

theorem delegate_run {p q : Prog Word} {f g : State → Except Fault (Word × State)} (hp : p.run s = asBody (f s))
    (hq : q.run s = asBody (g s)) : (delegateSteps p q).run s = asBody (delegate f g s) := by
  rw [delegateSteps, activeStep, run_bind_ok (asPlatform_active s), delegate]
  cases active s
  · rfl
  · exact hp
  · exact hq

/-- A value of steps that come to a pair, made into a result. -/
theorem run_map_pair {α : Type} {p : Prog α} {f : α → Word} {r : α × State} (h : p.run s = .ok r) :
    (p.map f).run s = .ok (f r.1, r.2) := run_bind_ok (v := r.1) (t := r.2) h

/-- An engine's header load, its result made into a code. -/
theorem loaded_run {p : Prog Word} {f : Word → Word} {c : Except Fault Unit} {r : Word × State}
    (h : p.run s = asBody (do c; .ok r)) : (p.map f).run s = asBody (do c; .ok (f r.1, r.2)) := by
  cases c with
  | error e => exact run_bind_error h
  | ok u => exact run_map_pair h

/-- The header load between `Lock()` and `Unlock()`. -/
theorem gbxLoad_run : (gbxLoadSteps op).run s = asBody (gbxLoad op s) := by
  unfold gbxLoadSteps gbxLoad
  cases c : strobeReady op s with
  | error f => exact run_bind_error (run_step_error c)
  | ok u =>
    rw [run_bind_ok (v := (pinRead .det s.bus).1) (t := { s with bus := (pinRead .det s.bus).2 })
      (by rw [busRead, run_step _ _ asBit_faithful, c])]
    generalize pinRead .det s.bus = d
    by_cases e : d.1 = Config.detGbaLevel
    · rw [if_pos e, run_then_ok (run_update _ _), loaded_run gbaLoad_run]
      simp only [bind, Except.bind, e, if_true, loadedCode]
    · rw [if_neg e, run_then_ok (run_update _ _), loaded_run gbLoad_run]
      simp only [bind, Except.bind, e, if_false, loadedCode]

theorem writeAfter_run {v : Live} {clear : State → State} {p : Prog Word} {f : State → Except Fault (Word × State)}
    (h : p.run s = asBody (f s)) : (writeAfterSteps v clear p).run s = asBody (writeAfter v clear f s) := by
  cases v
  · exact (run_then_ok (run_update _ _)).trans rfl
  · exact (run_then_ok (run_update _ _)).trans rfl
  · exact h

/-- The save write between `Lock()` and `Unlock()`. -/
theorem gbxWrite_run : (gbxWriteSteps op).run s = asBody (gbxWrite op s) := by
  rw [gbxWriteSteps, activeStep, run_bind_ok (asPlatform_active s), gbxWrite]
  cases active s
  · rfl
  · cases c : gbPowerReady op s with
    | error f => exact run_bind_error (withGbPower_blocked c)
    | ok u =>
      have k := (gbCheck_plays (op := op)).run (gbPowerReady_going c (room_zero s))
      rw [onB] at k
      generalize gbCheckRead s.bus = r at k ⊢
      refine (run_bind_ok k).trans ?_
      rw [run_bind_ok (run_look asGb_faithful _ _)]
      exact writeAfter_run gbWriteSave_run
  · cases c : gbaPowerReady op s with
    | error f => exact run_bind_error (withGbaPower_blocked c)
    | ok u =>
      have k := (gbaCheck_plays (op := op)).run (gbaPowerReady_going c (room_zero s))
      rw [onB] at k
      generalize gbaCheckRead s.bus = r at k ⊢
      refine (run_bind_ok k).trans ?_
      rw [run_bind_ok (run_look asGba_faithful _ _)]
      exact writeAfter_run gbaWriteSave_run

/-- What a dispatcher operation that needs `INIT` does with a body. -/
def dispatched (op : Instr) (s : State) (body : State → Except Fault (Word × State)) :
    Host.Outcome State Fault Refusal :=
  if s.spiReady then lockHeld op s body else .fault (.notInitialised op)

theorem execGbxLoadhdr_eq : execGbxLoadhdr s = dispatched .gbxLoadhdr s (gbxLoad .gbxLoadhdr) :=
  (dispatch_eq gbxLoad_run).trans (guarded_ok rfl)

theorem execGbxIsloaded_eq : execGbxIsloaded s =
    dispatched .gbxIsloaded s (delegate (gbIsLoaded .gbxIsloaded) (gbaIsLoaded .gbxIsloaded)) :=
  (dispatch_eq (delegate_run gbIsLoaded_run gbaIsLoaded_run)).trans (guarded_ok rfl)

theorem execGbxReadrom_eq (gb : GbSessionOk s.gb) (gba : GbaSessionOk s.gba) : execGbxReadrom s =
    dispatched .gbxReadrom s (delegate (gbReadRom .gbxReadrom) (gbaReadRom .gbxReadrom)) :=
  (dispatch_eq (delegate_run (gbReadRom_run gb) (gbaReadRom_run gba))).trans (guarded_ok rfl)

theorem execGbxReadsave_eq (gba : GbaSessionOk s.gba) : execGbxReadsave s =
    dispatched .gbxReadsave s (delegate (gbReadSave .gbxReadsave) (gbaReadSave .gbxReadsave)) :=
  (dispatch_eq (delegate_run gbReadSave_run (gbaReadSave_run gba))).trans (guarded_ok rfl)

theorem execGbxWritesave_eq : execGbxWritesave s = dispatched .gbxWritesave s (gbxWrite .gbxWritesave) :=
  (dispatch_eq gbxWrite_run).trans (guarded_ok rfl)

theorem execGbxClear_eq :
    execGbxClear s = lockHeld .gbxClear s fun t => .ok (0, gbaClear (gbClear t)) := by
  refine Eq.trans (congrArg (guarded .gbxClear s) (underLock_eq ?_)) (guarded_ok rfl)
  rw [run_then_ok (run_update _ _), run_then_ok (run_update _ _)]
  rfl

theorem getter_eq (f : State → Word) : perform op (getterSteps f) s = guarded op s (.next (finish (f s) s)) :=
  perform_ok (run_look asWord_faithful _ _)

theorem execGbxType_eq : execGbxType s = .next (finish (platformCode (active s)) s) :=
  (getter_eq _).trans (guarded_ok rfl)
theorem execGbxRomsize_eq : execGbxRomsize s = .next (finish (activeRomSize s) s) :=
  (getter_eq _).trans (guarded_ok rfl)
theorem execGbxSavesize_eq : execGbxSavesize s = .next (finish (activeSaveSize s) s) :=
  (getter_eq _).trans (guarded_ok rfl)
theorem execGbxTRom_eq : execGbxTRom s = .next (finish (romTime s) s) := (getter_eq _).trans (guarded_ok rfl)
theorem execGbxTRdsave_eq : execGbxTRdsave s = .next (finish (saveTime .rdSave s) s) :=
  (getter_eq _).trans (guarded_ok rfl)
theorem execGbxTWrsave_eq : execGbxTWrsave s = .next (finish (saveTime .wrSave s) s) :=
  (getter_eq _).trans (guarded_ok rfl)

/-- A getter of bytes. -/
theorem text_eq (f : State → Option (List Byte)) : perform op (textSteps f) s =
    guarded op s (textOf (f s) s) := by
  rw [perform, textSteps, run_bind_ok (run_look asText_faithful _ _)]
  refine congrArg (guarded op s) ?_
  cases f s with
  | none => rfl
  | some x =>
    rw [textOf, bytesGetter]
    cases b : needBuf x.length s with
    | error e => rw [run_then_error (by rw [run_ensure, b])]; rfl
    | ok u =>
      have k := run_intoBuffer x rfl s.bus b
      rw [run_then_ok (v := ()) (t := s) (by rw [run_ensure, b]), k]
      rfl

theorem execGbxTitle_eq : execGbxTitle s = textOf (activeTitle s) s := (text_eq _).trans (guarded_ok rfl)
theorem execGbxIdent_eq : execGbxIdent s = textOf (activeIdent s) s := (text_eq _).trans (guarded_ok rfl)

/-! ## Wire rows -/

theorem run_keepRx (rx : List Byte) (w : Word) : ((keepRx rx).then (.ret w)).run s = .ok (w, { s with rx := rx }) :=
  (run_then_ok (run_update _ _)).trans rfl

/-- A run of transactions whose bytes are left in `rx`. -/
theorem kept_eq {p : Prog (List Byte)} {F : Bus → List Byte × Bus} (h : Transacts op p F) :
    perform op ((ensure (needInit op)).then <| p.bind fun rx => (keepRx rx).then (.ret 0)) s = wireOp op s F :=
  perform_init (h.run (run_keepRx _ _))

/-- A run of transactions that gives nothing. -/
theorem sent_eq {p : Prog Unit} {f : Bus → Bus} (h : Transacts op p (silent f)) :
    perform op ((ensure (needInit op)).then <| p.then <| (keepRx []).then (.ret 0)) s =
      wireOp op s fun b => ([], f b) :=
  perform_init (h.run (run_keepRx _ _))

/-- A frame run by itself. -/
theorem frame_eq (bytes : List Byte) : perform op (frameSteps op bytes) s = wireOp op s (sendFrame bytes) := by
  refine perform_init ?_
  cases c : busReady op s with
  | error e => exact run_bind_error (run_step_error c)
  | ok u =>
    refine (run_bind_ok (v := (sendFrame bytes s.bus).1) (t := { s with bus := (sendFrame bytes s.bus).2 }) ?_).trans ?_
    · rw [busRead, run_step _ _ asBytes_faithful, c]
      rfl
    · exact (run_keepRx _ _).trans rfl

theorem execWireExpFrame3Wr_eq (c : Chip) (reg v : Byte) : execWireExpFrame3Wr c reg v s =
    wireOp (.wireExpFrame3Wr c reg v) s (sendFrame [devOpcode c false, reg, v]) := frame_eq _
theorem execWireExpFrame3Rd_eq (c : Chip) (reg : Byte) : execWireExpFrame3Rd c reg s =
    wireOp (.wireExpFrame3Rd c reg) s (sendFrame [devOpcode c true, reg, 0x00]) := frame_eq _
theorem execWireExpFrame4Wr_eq (c : Chip) (reg v w : Byte) : execWireExpFrame4Wr c reg v w s =
    wireOp (.wireExpFrame4Wr c reg v w) s (sendFrame [devOpcode c false, reg, v, w]) := frame_eq _
theorem execWireExpFrame4Rd_eq (c : Chip) : execWireExpFrame4Rd c s =
    wireOp (.wireExpFrame4Rd c) s (sendFrame [devOpcode c true, 0x12, 0x00, 0x00]) := frame_eq _

theorem execWireCrdHeader_eq (c : Chip) : execWireCrdHeader c s =
    wireOp (.wireCrdHeader c) s fun b => ([], crdStart c b) := by
  refine perform_init ?_
  cases k : busReady (.wireCrdHeader c) s with
  | error e => exact run_then_error (run_step_error k)
  | ok u =>
    refine (run_then_ok (v := ()) (t := { s with bus := crdStart c s.bus }) ?_).trans ?_
    · rw [busDo, run_step _ _ asUnit_faithful, k]
    · exact (run_keepRx _ _).trans rfl

theorem execWireEepRead4k_eq (row : BitVec 6) : execWireEepRead4k row s =
    wireOp (.wireEepRead4k row) s (eepReadRow .k4 row.toNat) := kept_eq (transacts_eepRead _ _)
theorem execWireEepRead64k_eq (row : BitVec 14) : execWireEepRead64k row s =
    wireOp (.wireEepRead64k row) s (eepReadRow .k64 row.toNat) := kept_eq (transacts_eepRead _ _)
theorem execWireEepWrite4k_eq (row : BitVec 6) (data : BitVec 64) : execWireEepWrite4k row data s =
    wireOp (.wireEepWrite4k row data) s fun b => ([], eepWriteRow .k4 row.toNat (rowBytesOf data) b) :=
  sent_eq (transacts_eepWrite _ _ _)
theorem execWireEepWrite64k_eq (row : BitVec 14) (data : BitVec 64) : execWireEepWrite64k row data s =
    wireOp (.wireEepWrite64k row data) s fun b => ([], eepWriteRow .k64 row.toNat (rowBytesOf data) b) :=
  sent_eq (transacts_eepWrite _ _ _)

/-! ## `XFER` -/

theorem anyReplies_length (tx : List Byte) (b : Bus) : (anyReplies tx b).1.length = tx.length := by
  induction tx generalizing b with
  | nil => rfl
  | cons t ts ih => simp [anyReplies, ih]

theorem frameWrites_length (k : RegKind) (c : Chip) (q : Bool) (vs : List Byte) (b : Bus) :
    (frameWrites k c q vs b).1.length = vs.length := by
  induction vs generalizing q b with
  | nil => rfl
  | cons t ts ih => simp [frameWrites, ih]

theorem frameReads_length (k : RegKind) (c : Chip) (q : Bool) (vs : List Byte) (b : Bus) :
    (frameReads k c q vs b).1.length = vs.length := by
  induction vs generalizing q b with
  | nil => rfl
  | cons t ts ih => simp [frameReads, ih]

/-- A frame is answered byte for byte. -/
theorem expFrame_length (bytes : List Byte) (b : Bus) (h : isFrame bytes = true) :
    (expFrame bytes b).1.length = bytes.length := by
  match bytes with
  | [] => simp [isFrame] at h
  | [x] => simp [isFrame] at h
  | x :: y :: data =>
    simp only [isFrame] at h
    simp only [expFrame]
    split at h
    · split <;> simp [frameReads_length, frameWrites_length]
    · cases h

/-- What `Spi` gives back is as long as what it sends. -/
theorem spi_length {tx : List Byte} (h : spiReady op tx s = .ok ()) : (spi tx s).1.length = tx.length := by
  unfold spi
  split
  · exact anyReplies_length _ _
  · refine expFrame_length _ _ ?_
    unfold spiReady at h
    obtain ⟨-, h⟩ := check_inv h
    split at h
    · cases h
    · rename_i sel no
      by_contra f
      exact no ⟨by simpa using sel, by simpa using f⟩

/-- `XFER`: the exchange, its reply stored in place (`40_transport_lock.md` R174). -/
theorem execXfer_eq (len : Half) : execXfer len s = guarded (.xfer len) s (conclude (do
    needInit (.xfer len) s
    needBuf len.toNat s
    let tx := s.hbuf.readBlock s.me.bufp.toNat len.toNat
    spiReady (.xfer len) tx s
    .ok (intoBuffer len.toNat ((spi tx s).1, (spi tx s).2.bus) s))) := by
  refine perform_init (run_needBuf fun b => ?_)
  have k : inHbuf 0 len.toNat s = .ok () := by
    have r := needBuf_room b
    simp only [inHbuf]
    rw [if_pos (by omega)]
  rw [run_bind_ok (v := s.hbuf.readBlock s.me.bufp.toNat len.toNat) (t := s)
    (by rw [memRead, run_step _ _ asBytes_faithful, k]; rfl)]
  generalize e : s.hbuf.readBlock s.me.bufp.toNat len.toNat = tx
  dsimp only
  cases c : spiReady (.xfer len) tx s with
  | error f => exact run_bind_error (run_step_error c)
  | ok u =>
    refine (run_bind_ok (v := (spi tx s).1) (t := { s with bus := (spi tx s).2.bus }) ?_).trans
      ((run_intoBuffer _ ?_ _ b).trans rfl)
    · rw [run_step _ _ asBytes_faithful, c]
      rfl
    · rw [spi_length c, ← e, readBlock_length]

end Sys2Proof.Machine
end

