-- ==== Sys2Proof/Laws/Comes.lean ====
section
/-! SUPPORT. An operation that comes to the bus (`ComesToBus`) ends in the fault that keeps its first step there from
happening. -/

namespace Sys2Proof.Machine

variable {s : State} {e : Fault} {op : Instr}

theorem busReady_locked : busReady op (locked s) = busReady op s := by
  have f : (locked s).csForceIdle = s.csForceIdle := Bool.or_false _
  have c : raceFree (locked s) = raceFree s := rfl
  simp only [busReady, f, c]
  rfl

theorem gbPowerReady_blocked (off : s.bus.pwrGba = false) (h : busReady op s = .error e) :
    gbPowerReady op s = .error e := by simp [gbPowerReady, off, h]

theorem gbaPowerReady_blocked (off : s.bus.pwrGb = false) (h : busReady op s = .error e) :
    gbaPowerReady op s = .error e := by simp [gbaPowerReady, off, h]

/-- Steps behind a check of the buffer that holds. -/
theorem needBuf_then {α : Type} {n : Nat} {p : Prog α} {x : Stop} (fit : BufferFits n s) (h : p.run s = .error x) :
    ((ensure (needBuf n)).then p).run s = .error x :=
  (run_then_ok (v := ()) (t := s) (by rw [run_ensure, needBuf_ok fit])).trans h

theorem gbReadRom_blocked (c : GbReadsRom s) (h : busReady op s = .error e) :
    (gbReadRomSteps op).run s = .error (.fault e) := by
  rw [gbReadRomSteps, run_bind_ok (run_look asGb_faithful _ _), if_neg (by simp [c.2.1])]
  exact needBuf_then c.2.2 (run_bind_error (withGbPower_blocked (gbPowerReady_blocked c.1 h)))

theorem gbReadSave_blocked (c : GbMovesSave s) (h : busReady op s = .error e) :
    (gbReadSaveSteps op).run s = .error (.fault e) := by
  rw [gbReadSaveSteps, run_bind_ok (run_look asGb_faithful _ _), if_neg (by simpa [c.2.1] using c.2.2.1)]
  exact needBuf_then c.2.2.2 (run_bind_error (withGbPower_blocked (gbPowerReady_blocked c.1 h)))

theorem gbWriteSave_blocked (c : GbMovesSave s) (h : busReady op s = .error e) :
    (gbWriteSaveSteps op).run s = .error (.fault e) := by
  rw [gbWriteSaveSteps, run_bind_ok (run_look asGb_faithful _ _), if_neg (by simpa [c.2.1] using c.2.2.1)]
  exact needBuf_then c.2.2.2 (run_bind_error (withGbPower_blocked (gbPowerReady_blocked c.1 h)))

theorem gbIsLoaded_blocked (c : s.bus.pwrGba = false ∧ s.gb.loaded = true) (h : busReady op s = .error e) :
    (gbIsLoadedSteps op).run s = .error (.fault e) := by
  rw [gbIsLoadedSteps, run_bind_ok (run_look asGb_faithful _ _), if_neg (by simp [c.2])]
  exact run_bind_error (withGbPower_blocked (gbPowerReady_blocked c.1 h))

theorem gbaReadRom_blocked (c : GbaReadsRom s) (h : busReady op s = .error e) :
    (gbaReadRomSteps op).run s = .error (.fault e) := by
  rw [gbaReadRomSteps, run_bind_ok (run_look asGba_faithful _ _), if_neg (by simp [c.2.1])]
  exact needBuf_then c.2.2 (run_bind_error (withGbaPower_blocked (gbaPowerReady_blocked c.1 h)))

theorem gbaReadSave_blocked (c : GbaMovesSave s) (h : busReady op s = .error e) :
    (gbaReadSaveSteps op).run s = .error (.fault e) := by
  rw [gbaReadSaveSteps, run_bind_ok (run_look asGba_faithful _ _), if_neg (by simp [c.2.1, c.2.2.1])]
  exact needBuf_then c.2.2.2 (run_bind_error (withGbaPower_blocked (gbaPowerReady_blocked c.1 h)))

theorem gbaWriteSave_blocked (c : GbaMovesSave s) (h : busReady op s = .error e) :
    (gbaWriteSaveSteps op).run s = .error (.fault e) := by
  rw [gbaWriteSaveSteps, run_bind_ok (run_look asGba_faithful _ _), if_neg (by simp [c.2.1, c.2.2.1])]
  exact needBuf_then c.2.2.2 (run_bind_error (withGbaPower_blocked (gbaPowerReady_blocked c.1 h)))

theorem gbaIsLoaded_blocked (c : s.bus.pwrGb = false ∧ s.gba.loaded = true) (h : busReady op s = .error e) :
    (gbaIsLoadedSteps op).run s = .error (.fault e) := by
  rw [gbaIsLoadedSteps, run_bind_ok (run_look asGba_faithful _ _), if_neg (by simp [c.2])]
  exact run_bind_error (withGbaPower_blocked (gbaPowerReady_blocked c.1 h))

/-- An operation behind `INIT` whose steps end in a fault. -/
theorem perform_init_error {p : Prog Word} (wf : op.wellFormed = true) (init : s.spiReady = true)
    (h : p.run s = .error (.fault e)) : perform op ((ensure (needInit op)).then p) s = .fault e := by
  rw [perform, guarded_ok wf, run_then_ok (v := ()) (t := s) (by rw [run_ensure, needInit_ok init]), h]
  rfl

/-- A dispatcher operation whose body ends in a fault. -/
theorem perform_underLock_error {p : Prog Word} (wf : op.wellFormed = true) (init : s.spiReady = true)
    (free : LockFree s) (h : p.run (locked s) = .error (.fault e)) :
    perform op ((ensure (needInit op)).then (underLock p)) s = .fault e :=
  perform_init_error wf init (by
    rw [underLock, run_then_ok (v := ()) (t := locked s)]
    · exact run_bind_error h
    · rw [run_lockStep, if_pos (by simpa [lockFree, LockFree, or_comm] using free)]; rfl)

theorem delegate_blocked {p q : Prog Word} {gb gba : Prop} (c : OnActive gb gba s)
    (hp : gb → p.run s = .error (.fault e)) (hq : gba → q.run s = .error (.fault e)) :
    (delegateSteps p q).run s = .error (.fault e) := by
  rw [delegateSteps, activeStep, run_bind_ok (asPlatform_active s), active]
  by_cases g : s.gb.romSize = 0
  · rw [if_neg (by simpa using g), if_pos (c.2 g).1]; exact hq (c.2 g).2
  · rw [if_pos g]; exact hp (c.1 g)

theorem gbxWrite_blocked (c : OnActive (s.bus.pwrGba = false) (s.bus.pwrGb = false) s) (h : busReady op s = .error e) :
    (gbxWriteSteps op).run s = .error (.fault e) := by
  rw [gbxWriteSteps, activeStep, run_bind_ok (asPlatform_active s), active]
  by_cases g : s.gb.romSize = 0
  · rw [if_neg (by simpa using g), if_pos (c.2 g).1]
    exact run_bind_error (withGbaPower_blocked (gbaPowerReady_blocked (c.2 g).2 h))
  · rw [if_pos g]
    exact run_bind_error (withGbPower_blocked (gbPowerReady_blocked (c.1 g) h))

/-- A fault of frames that strobes may not have. -/
theorem gbxLoad_blocked (gb : s.bus.pwrGb = false) (gba : s.bus.pwrGba = false) (h : busReady op s = .error e) :
    (gbxLoadSteps op).run s = .error (.fault e) := by
  cases c : raceFree s with
  | error f =>
    obtain rfl : f = e := by rw [race_of c] at h; exact Except.error.inj h
    exact run_bind_error (run_step_error (strobeReady_eq.trans c))
  | ok u =>
    have t : Stuck op e { s with bus := (pinRead .det s.bus).2 } := (stuck_of c h).kept
      (by constructor <;> (unfold pinRead; split <;> rfl)) (by unfold pinRead; split <;> rfl)
    have off : (pinRead .det s.bus).2.pwrGb = false ∧ (pinRead .det s.bus).2.pwrGba = false := by
      unfold pinRead; split <;> exact ⟨gb, gba⟩
    rw [gbxLoad_run, gbxLoad, strobeReady_ok (raceFree_inv c)]
    have k1 : gbaPowerReady op (gbClear { s with bus := (pinRead .det s.bus).2 }) = .error e :=
      gbaPowerReady_blocked off.1 t.fault
    have k2 : gbPowerReady op (gbaClear { s with bus := (pinRead .det s.bus).2 }) = .error e :=
      gbPowerReady_blocked off.2 t.fault
    simp only [bind, Except.bind, k1, k2]
    split <;> rfl

/-- An operation that comes to a frame ends in the fault that keeps frames from being sent. -/
theorem exec_blocked (i : Instr) (init : s.spiReady = true) (c : ComesToBus i s) (str : strobes i = false)
    (con : continues i = false) (xfer : ∀ len, i ≠ .xfer len) (h : busReady i s = .error e) : exec i s = .fault e := by
  obtain ⟨wf, c⟩ := c
  have l : busReady i (locked s) = .error e := busReady_locked.trans h
  cases i with
  | init | setbuf | lock | unlock | gbClear | gbaClear | gbxClear | gbxType | gbxTitle | gbxIdent | gbxRomsize
  | gbxSavesize | gbxTRom | gbxTRdsave | gbxTWrsave => exact c.elim
  | xfer len => exact absurd rfl (xfer len)
  | stbDir | stbWr | stbRd => cases str
  | crdCont | crdEnd => cases con
  | expDir p v => exact (execExpDir_eq p v).trans (by rw [expanderOp, needInit_ok init, h]; rfl)
  | expPull p v => exact (execExpPull_eq p v).trans (by rw [expanderOp, needInit_ok init, h]; rfl)
  | expWr p v => exact (execExpWr_eq p v).trans (by rw [expanderOp, needInit_ok init, h]; rfl)
  | expRd p => exact (execExpRd_eq p).trans (by rw [expanderOp, needInit_ok init, h]; rfl)
  | expDir2 ch w => exact (execExpDir2_eq ch w).trans (by rw [expanderOp, needInit_ok init, h]; rfl)
  | expPull2 ch w => exact (execExpPull2_eq ch w).trans (by rw [expanderOp, needInit_ok init, h]; rfl)
  | expWr2 ch w => exact (execExpWr2_eq ch w).trans (by rw [expanderOp, needInit_ok init, h]; rfl)
  | expRd2 ch => exact (execExpRd2_eq ch).trans (by rw [expanderOp, needInit_ok init, h]; rfl)
  | crdStart ch => exact (execCrdStart_eq ch).trans (by rw [expanderOp, needInit_ok init, h]; rfl)
  | gbPwrup => exact execGbPwrup_eq.trans (by rw [needInit_ok init, gbPowerReady_blocked c h]; rfl)
  | gbaPwrup => exact execGbaPwrup_eq.trans (by rw [needInit_ok init, gbaPowerReady_blocked c h]; rfl)
  | gbPwrdn => exact execGbPwrdn_eq.trans (by rw [needInit_ok init, h]; rfl)
  | gbaPwrdn => exact execGbaPwrdn_eq.trans (by rw [needInit_ok init, h]; rfl)
  | gbBusrd a => exact (execGbBusrd_eq a).trans (by rw [cartridgeOp, needInit_ok init, h]; rfl)
  | gbBuswr a v => exact (execGbBuswr_eq a v).trans (by rw [needInit_ok init, h]; rfl)
  | gbRombank m b =>
    refine (execGbRombank_eq _ _).trans ?_
    rw [guarded_ok wf, mbcOp, needInit_ok init, if_neg (by cases m <;> simp_all [romBankWrites]), h]; rfl
  | gbRamopen m =>
    refine (execGbRamopen_eq _).trans ?_
    rw [guarded_ok wf, mbcOp, needInit_ok init, if_neg (by cases m <;> simp_all [ramOpenWrites]), h]; rfl
  | gbRambank m j =>
    refine (execGbRambank_eq _ _).trans ?_
    rw [guarded_ok wf, mbcOp, needInit_ok init, if_neg (by cases m <;> simp_all [ramBankWrites]), h]; rfl
  | gbRamclose m =>
    refine (execGbRamclose_eq _).trans ?_
    rw [guarded_ok wf, mbcOp, needInit_ok init, if_neg (by cases m <;> simp_all [ramCloseWrites]), h]; rfl
  | gbLoadhdr => exact execGbLoadhdr_eq.trans (by rw [needInit_ok init, gbPowerReady_blocked c h]; rfl)
  | gbIsloaded => exact perform_init_error wf init (gbIsLoaded_blocked c h)
  | gbReadrom => exact perform_init_error wf init (gbReadRom_blocked c h)
  | gbReadsave => exact perform_init_error wf init (gbReadSave_blocked c h)
  | gbWritesave => exact perform_init_error wf init (gbWriteSave_blocked c h)
  | gbaRomrd a len =>
    exact perform_init_error wf init (needBuf_then c (run_bind_error ((transacts_burst _ _).2 _ _ h)))
  | gbaLoadhdr => exact execGbaLoadhdr_eq.trans (by rw [needInit_ok init, gbaPowerReady_blocked c h]; rfl)
  | gbaIsloaded => exact perform_init_error wf init (gbaIsLoaded_blocked c h)
  | gbaReadrom => exact perform_init_error wf init (gbaReadRom_blocked c h)
  | gbaProbesize => exact execGbaProbesize_eq.trans (by rw [needInit_ok init, gbaPowerReady_blocked c h]; rfl)
  | gbaClassify => exact execGbaClassify_eq.trans (by rw [needInit_ok init, gbaPowerReady_blocked c h]; rfl)
  | eepRdrow frm row =>
    exact (execEepRdrow_eq frm row).trans (by rw [guarded_ok wf, needInit_ok init, needBuf_ok c, h]; rfl)
  | eepWrrow frm row =>
    exact (execEepWrrow_eq frm row).trans (by rw [guarded_ok wf, needInit_ok init, needBuf_ok c, h]; rfl)
  | saveRd a => exact (execSaveRd_eq a).trans (by rw [cartridgeOp, needInit_ok init, h]; rfl)
  | saveWr a v => exact (execSaveWr_eq a v).trans (by rw [cartridgeOp, needInit_ok init, h]; rfl)
  | flashId => exact execFlashId_eq.trans (by rw [cartridgeOp, needInit_ok init, h]; rfl)
  | flashBank b => exact (execFlashBank_eq b).trans (by rw [cartridgeOp, needInit_ok init, h]; rfl)
  | flashErase a => exact (execFlashErase_eq a).trans (by rw [cartridgeOp, needInit_ok init, h]; rfl)
  | flashProg a v => exact (execFlashProg_eq a v).trans (by rw [cartridgeOp, needInit_ok init, h]; rfl)
  | flashProg128 a =>
    exact (execFlashProg128_eq a).trans (by rw [guarded_ok wf, needInit_ok init, needBuf_ok c, h]; rfl)
  | gbaReadsave => exact perform_init_error wf init (gbaReadSave_blocked c h)
  | gbaWritesave => exact perform_init_error wf init (gbaWriteSave_blocked c h)
  | gbxLoadhdr => exact perform_underLock_error wf init c.1 (gbxLoad_blocked (s := locked s) c.2.1 c.2.2 l)
  | gbxIsloaded =>
    exact perform_underLock_error wf init c.1 (delegate_blocked (s := locked s) c.2 (fun k => gbIsLoaded_blocked (s := locked s) k l) (fun k => gbaIsLoaded_blocked (s := locked s) k l))
  | gbxReadrom =>
    exact perform_underLock_error wf init c.1 (delegate_blocked (s := locked s) c.2 (fun k => gbReadRom_blocked (s := locked s) k l) (fun k => gbaReadRom_blocked (s := locked s) k l))
  | gbxReadsave =>
    exact perform_underLock_error wf init c.1 (delegate_blocked (s := locked s) c.2 (fun k => gbReadSave_blocked (s := locked s) k l) (fun k => gbaReadSave_blocked (s := locked s) k l))
  | gbxWritesave => exact perform_underLock_error wf init c.1 (gbxWrite_blocked (s := locked s) c.2 l)
  | wireExpFrame3Wr ch r v =>
    exact (execWireExpFrame3Wr_eq ch r v).trans (by rw [wireOp, guarded_ok wf, needInit_ok init, h]; rfl)
  | wireExpFrame3Rd ch r =>
    exact (execWireExpFrame3Rd_eq ch r).trans (by rw [wireOp, guarded_ok wf, needInit_ok init, h]; rfl)
  | wireExpFrame4Wr ch r v w =>
    exact (execWireExpFrame4Wr_eq ch r v w).trans (by rw [wireOp, guarded_ok wf, needInit_ok init, h]; rfl)
  | wireExpFrame4Rd ch => exact (execWireExpFrame4Rd_eq ch).trans (by rw [wireOp, needInit_ok init, h]; rfl)
  | wireCrdHeader ch => exact (execWireCrdHeader_eq ch).trans (by rw [wireOp, needInit_ok init, h]; rfl)
  | wireEepRead4k r => exact (execWireEepRead4k_eq r).trans (by rw [wireOp, needInit_ok init, h]; rfl)
  | wireEepRead64k r => exact (execWireEepRead64k_eq r).trans (by rw [wireOp, needInit_ok init, h]; rfl)
  | wireEepWrite4k r d => exact (execWireEepWrite4k_eq r d).trans (by rw [wireOp, needInit_ok init, h]; rfl)
  | wireEepWrite64k r d => exact (execWireEepWrite64k_eq r d).trans (by rw [wireOp, needInit_ok init, h]; rfl)

end Sys2Proof.Machine
end

