-- ==== Sys2Proof/Laws/Decode.lean ====
section
/-! SUPPORT. The command word taken apart and put together: the fields of a word built from fields, the codes
of the selectors, and one equation for each row of the opcode map. -/

namespace Sys2Proof

/-- The fields of a word are those it was built from. -/
@[simp] theorem fieldsOf_wordOf (f : Fields) : fieldsOf (wordOf f) = f := by
  obtain ⟨o, s, i, a⟩ := f
  simp only [fieldsOf, wordOf, Fields.mk.injEq]
  refine ⟨?_, ?_, ?_, ?_⟩ <;>
    (apply BitVec.eq_of_getLsbD_eq; intro k hk
     simp only [BitVec.getLsbD_extractLsb', BitVec.getLsbD_append, hk, decide_true, Bool.true_and])
  · have h1 : ¬ 56 + k < 32 := by omega
    have h2 : ¬ 56 + k - 32 < 16 := by omega
    have h3 : ¬ 56 + k - 32 - 16 < 8 := by omega
    simp only [h1, h2, h3, if_false]; congr 1; omega
  · have h1 : ¬ 48 + k < 32 := by omega
    have h2 : ¬ 48 + k - 32 < 16 := by omega
    have h3 : 48 + k - 32 - 16 < 8 := by omega
    simp only [h1, h2, h3, if_false, if_true]; congr 1; omega
  · have h1 : ¬ 32 + k < 32 := by omega
    have h2 : 32 + k - 32 < 16 := by omega
    simp only [h1, h2, if_false, if_true]; congr 1; omega
  · have h1 : 0 + k < 32 := by omega
    simp only [h1, if_true]; congr 1; omega

/-- A word is the one built from its fields. -/
@[simp] theorem wordOf_fieldsOf (w : CmdWord) : wordOf (fieldsOf w) = w := by
  apply BitVec.eq_of_getLsbD_eq
  intro k hk
  simp only [fieldsOf, wordOf, BitVec.getLsbD_append, BitVec.getLsbD_extractLsb']
  split
  · rename_i h; simp [h]
  · split
    · rename_i h1 h2; simp only [h2, decide_true, Bool.true_and]; congr 1; omega
    · split
      · rename_i h1 h2 h3; simp only [h3, decide_true, Bool.true_and]; congr 1; omega
      · rename_i h1 h2 h3
        have : k - 32 - 16 - 8 < 8 := by omega
        simp only [this, decide_true, Bool.true_and]; congr 1; omega

/-- A value put into a wider field is read back. -/
theorem narrow_setWidth {m n : Nat} (v : BitVec n) (h : n ≤ m) : narrow (m := m) n (v.setWidth m) = .ok v := by
  have hv : (v.setWidth m).toNat = v.toNat := by
    simp [BitVec.toNat_setWidth]
    exact Nat.mod_eq_of_lt (Nat.lt_of_lt_of_le v.isLt (Nat.pow_le_pow_right (by decide) h))
  unfold narrow
  rw [hv, if_pos v.isLt]
  congr 1
  apply BitVec.eq_of_toNat_eq
  rw [BitVec.toNat_setWidth, hv, Nat.mod_eq_of_lt v.isLt]

/-- A value read from a field is the whole field. -/
theorem narrow_inv {m n : Nat} {v : BitVec m} {w : BitVec n} (h : narrow n v = .ok w) : w.setWidth m = v := by
  unfold narrow at h
  split at h
  · rename_i lt
    injection h with h
    subst h
    apply BitVec.eq_of_toNat_eq
    rw [BitVec.toNat_setWidth, BitVec.toNat_setWidth, Nat.mod_eq_of_lt lt, Nat.mod_eq_of_lt v.isLt]
  · cases h

@[simp] theorem pinOf_pinCode (p : Pin) : pinOf (pinCode p) = .ok p := by cases p <;> rfl
@[simp] theorem portOf_portCode (p : Port) : portOf (portCode p) = .ok p := by cases p <;> rfl
@[simp] theorem chipOf_chipCode (c : Chip) : chipOf (chipCode c) = .ok c := by cases c <;> rfl
@[simp] theorem mbcOf_mbcCode (m : Mbc) : mbcOf (mbcCode m) = .ok m := by cases m <;> rfl
@[simp] theorem framingOf_framingCode (f : Framing) : framingOf (framingCode f) = .ok f := by cases f <;> rfl
@[simp] theorem dirOf_dirCode (d : PinDir) : dirOf (dirCode d) = .ok d := by cases d <;> rfl
@[simp] theorem oneBit_bitCode8 (b : Bool) : oneBit (bitCode b : BitVec 8) = .ok b := by cases b <;> rfl
@[simp] theorem oneBit_bitCode16 (b : Bool) : oneBit (bitCode b : BitVec 16) = .ok b := by cases b <;> rfl
@[simp] theorem devOf_devOpcode (c : Chip) (rd : Bool) : devOf (devOpcode c rd) = some (c, rd) := by
  cases c <;> cases rd <;> rfl

/-! ## The opcode map, row by row (`30_encoding.md` R126) -/

variable (s : BitVec 8) (i : BitVec 16) (a : BitVec 32)

@[simp] theorem decodeFields_01 : decodeFields ⟨0x01#8, s, i, a⟩ =
    fmtA ⟨0x01#8, s, i, a⟩ (fun hz => .ok (.init hz)) := rfl
@[simp] theorem decodeFields_02 : decodeFields ⟨0x02#8, s, i, a⟩ =
    fmtI ⟨0x02#8, s, i, a⟩ (fun len => .ok (.xfer len)) := rfl
@[simp] theorem decodeFields_03 : decodeFields ⟨0x03#8, s, i, a⟩ =
    fmtSI ⟨0x03#8, s, i, a⟩ (fun s v => do .ok (.stbDir (← pinOf s) (← dirOf v))) := rfl
@[simp] theorem decodeFields_04 : decodeFields ⟨0x04#8, s, i, a⟩ =
    fmtSI ⟨0x04#8, s, i, a⟩ (fun s v => do .ok (.stbWr (← pinOf s) (← oneBit v))) := rfl
@[simp] theorem decodeFields_05 : decodeFields ⟨0x05#8, s, i, a⟩ =
    fmtS ⟨0x05#8, s, i, a⟩ (fun s => do .ok (.stbRd (← pinOf s))) := rfl
@[simp] theorem decodeFields_06 : decodeFields ⟨0x06#8, s, i, a⟩ =
    fmtSA ⟨0x06#8, s, i, a⟩ (fun s key => do .ok (.lock (← oneBit s) key)) := rfl
@[simp] theorem decodeFields_07 : decodeFields ⟨0x07#8, s, i, a⟩ =
    fmtA ⟨0x07#8, s, i, a⟩ (fun key => .ok (.unlock key)) := rfl
@[simp] theorem decodeFields_08 : decodeFields ⟨0x08#8, s, i, a⟩ =
    fmtA ⟨0x08#8, s, i, a⟩ (fun buf => .ok (.setbuf buf)) := rfl
@[simp] theorem decodeFields_10 : decodeFields ⟨0x10#8, s, i, a⟩ =
    fmtSI ⟨0x10#8, s, i, a⟩ (fun s v => do .ok (.expDir (← portOf s) (← narrow 8 v))) := rfl
@[simp] theorem decodeFields_11 : decodeFields ⟨0x11#8, s, i, a⟩ =
    fmtSI ⟨0x11#8, s, i, a⟩ (fun s v => do .ok (.expPull (← portOf s) (← narrow 8 v))) := rfl
@[simp] theorem decodeFields_12 : decodeFields ⟨0x12#8, s, i, a⟩ =
    fmtSI ⟨0x12#8, s, i, a⟩ (fun s v => do .ok (.expWr (← portOf s) (← narrow 8 v))) := rfl
@[simp] theorem decodeFields_13 : decodeFields ⟨0x13#8, s, i, a⟩ =
    fmtS ⟨0x13#8, s, i, a⟩ (fun s => do .ok (.expRd (← portOf s))) := rfl
@[simp] theorem decodeFields_14 : decodeFields ⟨0x14#8, s, i, a⟩ =
    fmtSI ⟨0x14#8, s, i, a⟩ (fun s v => do .ok (.expDir2 (← chipOf s) v)) := rfl
@[simp] theorem decodeFields_15 : decodeFields ⟨0x15#8, s, i, a⟩ =
    fmtSI ⟨0x15#8, s, i, a⟩ (fun s v => do .ok (.expPull2 (← chipOf s) v)) := rfl
@[simp] theorem decodeFields_16 : decodeFields ⟨0x16#8, s, i, a⟩ =
    fmtSI ⟨0x16#8, s, i, a⟩ (fun s v => do .ok (.expWr2 (← chipOf s) v)) := rfl
@[simp] theorem decodeFields_17 : decodeFields ⟨0x17#8, s, i, a⟩ =
    fmtS ⟨0x17#8, s, i, a⟩ (fun s => do .ok (.expRd2 (← chipOf s))) := rfl
@[simp] theorem decodeFields_18 : decodeFields ⟨0x18#8, s, i, a⟩ =
    fmtS ⟨0x18#8, s, i, a⟩ (fun s => do .ok (.crdStart (← chipOf s))) := rfl
@[simp] theorem decodeFields_19 : decodeFields ⟨0x19#8, s, i, a⟩ =
    fmtZ ⟨0x19#8, s, i, a⟩ .crdCont := rfl
@[simp] theorem decodeFields_1A : decodeFields ⟨0x1A#8, s, i, a⟩ =
    fmtZ ⟨0x1A#8, s, i, a⟩ .crdEnd := rfl
@[simp] theorem decodeFields_20 : decodeFields ⟨0x20#8, s, i, a⟩ =
    fmtZ ⟨0x20#8, s, i, a⟩ .gbPwrup := rfl
@[simp] theorem decodeFields_21 : decodeFields ⟨0x21#8, s, i, a⟩ =
    fmtZ ⟨0x21#8, s, i, a⟩ .gbPwrdn := rfl
@[simp] theorem decodeFields_22 : decodeFields ⟨0x22#8, s, i, a⟩ =
    fmtZ ⟨0x22#8, s, i, a⟩ .gbaPwrup := rfl
@[simp] theorem decodeFields_23 : decodeFields ⟨0x23#8, s, i, a⟩ =
    fmtZ ⟨0x23#8, s, i, a⟩ .gbaPwrdn := rfl
@[simp] theorem decodeFields_30 : decodeFields ⟨0x30#8, s, i, a⟩ =
    fmtA ⟨0x30#8, s, i, a⟩ (fun a => do .ok (.gbBusrd (← narrow 16 a))) := rfl
@[simp] theorem decodeFields_31 : decodeFields ⟨0x31#8, s, i, a⟩ =
    fmtAI ⟨0x31#8, s, i, a⟩ (fun a v => do .ok (.gbBuswr (← narrow 16 a) (← narrow 8 v))) := rfl
@[simp] theorem decodeFields_32 : decodeFields ⟨0x32#8, s, i, a⟩ =
    fmtSI ⟨0x32#8, s, i, a⟩ (fun s v => do .ok (.gbRombank (← mbcOf s) (← narrow 9 v))) := rfl
@[simp] theorem decodeFields_33 : decodeFields ⟨0x33#8, s, i, a⟩ =
    fmtS ⟨0x33#8, s, i, a⟩ (fun s => do .ok (.gbRamopen (← mbcOf s))) := rfl
@[simp] theorem decodeFields_34 : decodeFields ⟨0x34#8, s, i, a⟩ =
    fmtSI ⟨0x34#8, s, i, a⟩ (fun s v => do .ok (.gbRambank (← mbcOf s) (← narrow 4 v))) := rfl
@[simp] theorem decodeFields_35 : decodeFields ⟨0x35#8, s, i, a⟩ =
    fmtS ⟨0x35#8, s, i, a⟩ (fun s => do .ok (.gbRamclose (← mbcOf s))) := rfl
@[simp] theorem decodeFields_36 : decodeFields ⟨0x36#8, s, i, a⟩ =
    fmtZ ⟨0x36#8, s, i, a⟩ .gbLoadhdr := rfl
@[simp] theorem decodeFields_37 : decodeFields ⟨0x37#8, s, i, a⟩ =
    fmtZ ⟨0x37#8, s, i, a⟩ .gbIsloaded := rfl
@[simp] theorem decodeFields_38 : decodeFields ⟨0x38#8, s, i, a⟩ =
    fmtZ ⟨0x38#8, s, i, a⟩ .gbReadrom := rfl
@[simp] theorem decodeFields_39 : decodeFields ⟨0x39#8, s, i, a⟩ =
    fmtZ ⟨0x39#8, s, i, a⟩ .gbReadsave := rfl
@[simp] theorem decodeFields_3A : decodeFields ⟨0x3A#8, s, i, a⟩ =
    fmtZ ⟨0x3A#8, s, i, a⟩ .gbWritesave := rfl
@[simp] theorem decodeFields_3B : decodeFields ⟨0x3B#8, s, i, a⟩ =
    fmtZ ⟨0x3B#8, s, i, a⟩ .gbClear := rfl
@[simp] theorem decodeFields_40 : decodeFields ⟨0x40#8, s, i, a⟩ =
    fmtAI ⟨0x40#8, s, i, a⟩ (fun a v => do .ok (.gbaRomrd (← narrow 25 a) v)) := rfl
@[simp] theorem decodeFields_41 : decodeFields ⟨0x41#8, s, i, a⟩ =
    fmtZ ⟨0x41#8, s, i, a⟩ .gbaLoadhdr := rfl
@[simp] theorem decodeFields_42 : decodeFields ⟨0x42#8, s, i, a⟩ =
    fmtZ ⟨0x42#8, s, i, a⟩ .gbaIsloaded := rfl
@[simp] theorem decodeFields_43 : decodeFields ⟨0x43#8, s, i, a⟩ =
    fmtZ ⟨0x43#8, s, i, a⟩ .gbaReadrom := rfl
@[simp] theorem decodeFields_44 : decodeFields ⟨0x44#8, s, i, a⟩ =
    fmtZ ⟨0x44#8, s, i, a⟩ .gbaProbesize := rfl
@[simp] theorem decodeFields_45 : decodeFields ⟨0x45#8, s, i, a⟩ =
    fmtZ ⟨0x45#8, s, i, a⟩ .gbaClear := rfl
@[simp] theorem decodeFields_50 : decodeFields ⟨0x50#8, s, i, a⟩ =
    fmtZ ⟨0x50#8, s, i, a⟩ .gbaClassify := rfl
@[simp] theorem decodeFields_51 : decodeFields ⟨0x51#8, s, i, a⟩ =
    fmtSI ⟨0x51#8, s, i, a⟩ (fun s v => do .ok (.eepRdrow (← framingOf s) (← narrow 14 v))) := rfl
@[simp] theorem decodeFields_52 : decodeFields ⟨0x52#8, s, i, a⟩ =
    fmtSI ⟨0x52#8, s, i, a⟩ (fun s v => do .ok (.eepWrrow (← framingOf s) (← narrow 14 v))) := rfl
@[simp] theorem decodeFields_53 : decodeFields ⟨0x53#8, s, i, a⟩ =
    fmtA ⟨0x53#8, s, i, a⟩ (fun a => do .ok (.saveRd (← narrow 16 a))) := rfl
@[simp] theorem decodeFields_54 : decodeFields ⟨0x54#8, s, i, a⟩ =
    fmtAI ⟨0x54#8, s, i, a⟩ (fun a v => do .ok (.saveWr (← narrow 16 a) (← narrow 8 v))) := rfl
@[simp] theorem decodeFields_55 : decodeFields ⟨0x55#8, s, i, a⟩ =
    fmtZ ⟨0x55#8, s, i, a⟩ .flashId := rfl
@[simp] theorem decodeFields_56 : decodeFields ⟨0x56#8, s, i, a⟩ =
    fmtI ⟨0x56#8, s, i, a⟩ (fun v => do .ok (.flashBank (← oneBit v))) := rfl
@[simp] theorem decodeFields_57 : decodeFields ⟨0x57#8, s, i, a⟩ =
    fmtA ⟨0x57#8, s, i, a⟩ (fun a => do .ok (.flashErase (← narrow 16 a))) := rfl
@[simp] theorem decodeFields_58 : decodeFields ⟨0x58#8, s, i, a⟩ =
    fmtAI ⟨0x58#8, s, i, a⟩ (fun a v => do .ok (.flashProg (← narrow 16 a) (← narrow 8 v))) := rfl
@[simp] theorem decodeFields_59 : decodeFields ⟨0x59#8, s, i, a⟩ =
    fmtA ⟨0x59#8, s, i, a⟩ (fun a => do .ok (.flashProg128 (← narrow 16 a))) := rfl
@[simp] theorem decodeFields_5A : decodeFields ⟨0x5A#8, s, i, a⟩ =
    fmtZ ⟨0x5A#8, s, i, a⟩ .gbaReadsave := rfl
@[simp] theorem decodeFields_5B : decodeFields ⟨0x5B#8, s, i, a⟩ =
    fmtZ ⟨0x5B#8, s, i, a⟩ .gbaWritesave := rfl
@[simp] theorem decodeFields_60 : decodeFields ⟨0x60#8, s, i, a⟩ =
    fmtZ ⟨0x60#8, s, i, a⟩ .gbxLoadhdr := rfl
@[simp] theorem decodeFields_61 : decodeFields ⟨0x61#8, s, i, a⟩ =
    fmtZ ⟨0x61#8, s, i, a⟩ .gbxIsloaded := rfl
@[simp] theorem decodeFields_62 : decodeFields ⟨0x62#8, s, i, a⟩ =
    fmtZ ⟨0x62#8, s, i, a⟩ .gbxType := rfl
@[simp] theorem decodeFields_63 : decodeFields ⟨0x63#8, s, i, a⟩ =
    fmtZ ⟨0x63#8, s, i, a⟩ .gbxTitle := rfl
@[simp] theorem decodeFields_64 : decodeFields ⟨0x64#8, s, i, a⟩ =
    fmtZ ⟨0x64#8, s, i, a⟩ .gbxIdent := rfl
@[simp] theorem decodeFields_65 : decodeFields ⟨0x65#8, s, i, a⟩ =
    fmtZ ⟨0x65#8, s, i, a⟩ .gbxRomsize := rfl
@[simp] theorem decodeFields_66 : decodeFields ⟨0x66#8, s, i, a⟩ =
    fmtZ ⟨0x66#8, s, i, a⟩ .gbxSavesize := rfl
@[simp] theorem decodeFields_67 : decodeFields ⟨0x67#8, s, i, a⟩ =
    fmtZ ⟨0x67#8, s, i, a⟩ .gbxReadrom := rfl
@[simp] theorem decodeFields_68 : decodeFields ⟨0x68#8, s, i, a⟩ =
    fmtZ ⟨0x68#8, s, i, a⟩ .gbxReadsave := rfl
@[simp] theorem decodeFields_69 : decodeFields ⟨0x69#8, s, i, a⟩ =
    fmtZ ⟨0x69#8, s, i, a⟩ .gbxWritesave := rfl
@[simp] theorem decodeFields_6A : decodeFields ⟨0x6A#8, s, i, a⟩ =
    fmtZ ⟨0x6A#8, s, i, a⟩ .gbxTRom := rfl
@[simp] theorem decodeFields_6B : decodeFields ⟨0x6B#8, s, i, a⟩ =
    fmtZ ⟨0x6B#8, s, i, a⟩ .gbxTRdsave := rfl
@[simp] theorem decodeFields_6C : decodeFields ⟨0x6C#8, s, i, a⟩ =
    fmtZ ⟨0x6C#8, s, i, a⟩ .gbxTWrsave := rfl
@[simp] theorem decodeFields_6D : decodeFields ⟨0x6D#8, s, i, a⟩ =
    fmtZ ⟨0x6D#8, s, i, a⟩ .gbxClear := rfl

end Sys2Proof
end

