-- ==== Sys2Proof/Laws/Every.lean ====
section
/-! SUPPORT. What holds of every step of an operation, whatever the steps before it handed on: `Prog.Every`, its
rules for each way of putting steps together, and what it says of a run, of a part of one, and of the steps that are
left after some (`10_state.md` R24). -/

namespace Sys2Proof.Machine

variable {α β : Type} {P : Act → Prop} {Q : α → Prop} {R : β → Prop}

/-- `P` holds of every step and `Q` of every value the steps can end in. -/
def Prog.Every (P : Act → Prop) (Q : α → Prop) (p : Prog α) : Prop :=
  match p with
  | .ret v => Q v
  | .act a k => P a ∧ ∀ r, (k r).Every P Q

/-- No demand on the value. -/
def anyValue (_ : α) : Prop := True

/-! ## Putting steps together -/

theorem Prog.Every.ret {v : α} (h : Q v) : (Prog.ret v).Every P Q := h

theorem Prog.Every.act {a : Act} {k : Reply → Prog α} (h : P a) (g : ∀ r, (k r).Every P Q) :
    (Prog.act a k).Every P Q := ⟨h, g⟩

theorem Prog.Every.mono {P' : Act → Prop} {Q' : α → Prop} {p : Prog α} (h : p.Every P Q) (hP : ∀ a, P a → P' a)
    (hQ : ∀ v, Q v → Q' v) : p.Every P' Q' := by
  induction p with
  | ret v => exact hQ v h
  | act a k ih => exact ⟨hP a h.1, fun r => ih r (h.2 r)⟩

theorem Prog.Every.bind {p : Prog α} {f : α → Prog β} (h : p.Every P Q) (g : ∀ v, Q v → (f v).Every P R) :
    (p.bind f).Every P R := by
  induction p with
  | ret v => exact g v h
  | act a k ih => exact ⟨h.1, fun r => ih r (h.2 r)⟩

theorem Prog.Every.then {p : Prog α} {q : Prog β} (h : p.Every P Q) (g : q.Every P R) : (p.then q).Every P R :=
  h.bind fun _ _ => g

theorem Prog.Every.map {p : Prog α} {f : α → β} (h : p.Every P Q) (g : ∀ v, Q v → R (f v)) : (p.map f).Every P R :=
  h.bind g

theorem Prog.Every.steps {ps : List (Prog Unit)} (h : ∀ p ∈ ps, p.Every P anyValue) :
    (Prog.steps ps).Every P anyValue := by
  induction ps with
  | nil => trivial
  | cons p ps ih => exact (h p (.head _)).then (ih fun q m => h q (.tail _ m))

theorem Prog.Every.loop {f : Nat → Prog Unit} (h : ∀ i, (f i).Every P anyValue) (i n : Nat) :
    (Prog.loop f i n).Every P anyValue := by
  induction n generalizing i with
  | zero => trivial
  | succ n ih => exact (h i).then (ih (i + 1))

/-- A loop that collects values collects one for each round. -/
theorem Prog.Every.collect {f : Nat → Prog α} (h : ∀ i, (f i).Every P Q) (i n : Nat) :
    (Prog.collect f i n).Every P fun vs => vs.length = n ∧ ∀ v ∈ vs, Q v := by
  induction n generalizing i with
  | zero => exact ⟨rfl, fun _ m => nomatch m⟩
  | succ n ih =>
    refine (h i).bind fun v hv => (ih (i + 1)).map fun vs hvs => ⟨by simp [hvs.1], fun w m => ?_⟩
    rcases List.mem_cons.mp m with e | m
    · exact e ▸ hv
    · exact hvs.2 w m

/-- What holds of a step whether or not a session is open after it holds of the steps of a session. -/
theorem Prog.Every.within {p : Prog α} (h : p.Every P Q) (open_ : ∀ a, P a → P { a with within := true }) :
    p.within.Every P Q := by
  induction p with
  | ret v => exact h
  | act a k ih => exact ⟨open_ a h.1, fun r => ih r (h.2 r)⟩

theorem Prog.Every.ite {c : Prop} [Decidable c] {p q : Prog α} (h : c → p.Every P Q) (g : ¬c → q.Every P Q) :
    (if c then p else q).Every P Q := by
  split
  · exact h ‹_›
  · exact g ‹_›

/-! ## What it says of a run -/

/-- A step that happens leads from a state to one related to it. -/
def Moves (rel : State → State → Prop) (a : Act) : Prop := ∀ s r t, a.run s = .ok (r, t) → rel s t

theorem Moves.within {rel : State → State → Prop} {a : Act} (h : Moves rel a) : Moves rel { a with within := true } := h

/-- A single step with a value. -/
theorem Prog.Every.step {rel : State → State → Prop} {kind : StepKind} {check : State → Except Fault Unit}
    {c : Coding α} {f : State → α × State} (h : ∀ s, check s = .ok () → rel s (f s).2) (g : ∀ r, Q (c.dec r)) :
    (Prog.step kind check c f).Every (Moves rel) Q := by
  refine ⟨fun s r t e => ?_, g⟩
  simp only at e
  cases k : check s with
  | error x => simp [k] at e
  | ok u =>
    rw [k] at e
    cases e
    exact h s k

/-- A bus step. -/
theorem Prog.Every.busDo {rel : State → State → Prop} {kind : StepKind} {check : State → Except Fault Unit}
    {f : Bus → Bus} (h : ∀ s, check s = .ok () → rel s { s with bus := f s.bus }) :
    (busDo kind check f).Every (Moves rel) anyValue := .step h fun _ => trivial

/-- A bus step with a value read. -/
theorem Prog.Every.busRead {rel : State → State → Prop} {kind : StepKind} {check : State → Except Fault Unit}
    {c : Coding α} {f : Bus → α × Bus} (h : ∀ s, check s = .ok () → rel s { s with bus := (f s.bus).2 })
    (g : ∀ r, Q (c.dec r)) : (busRead kind check c f).Every (Moves rel) Q := .step h g

/-- A check, and a state read, of a reflexive relation. -/
theorem Prog.Every.ensure {rel : State → State → Prop} (refl : ∀ s, rel s s) (check : State → Except Fault Unit) :
    (ensure check).Every (Moves rel) anyValue := .step (fun s _ => refl s) fun _ => trivial

theorem Prog.Every.look {rel : State → State → Prop} (refl : ∀ s, rel s s) {c : Coding α} {f : State → α}
    (g : ∀ r, Q (c.dec r)) : (look c f).Every (Moves rel) Q := .step (fun s _ => refl s) g

theorem Prog.Every.update {rel : State → State → Prop} {f : State → State} (h : ∀ s, rel s (f s)) :
    (update f).Every (Moves rel) anyValue := .step (fun s _ => h s) fun _ => trivial

theorem Prog.Every.lockStep {rel : State → State → Prop} {force : Bool} {key : Word}
    (h : ∀ s, lockFree key s = true → rel s (takeLock force key s)) :
    (lockStep force key).Every (Moves rel) anyValue := by
  refine ⟨fun s r t e => ?_, fun _ => trivial⟩
  simp only at e
  split at e
  · cases e; exact h s ‹_›
  · cases e

/-- All steps of a run. -/
theorem Prog.Every.run {rel : State → State → Prop} (refl : ∀ s, rel s s)
    (trans : ∀ {s t u}, rel s t → rel t u → rel s u) {p : Prog α} (h : p.Every (Moves rel) Q) {s t : State} {v : α}
    (e : p.run s = .ok (v, t)) : rel s t ∧ Q v := by
  induction p generalizing s with
  | ret w => cases e; exact ⟨refl _, h⟩
  | act a k ih =>
    unfold Prog.run at e
    cases x : a.run s with
    | error y => simp [x] at e
    | ok y =>
      rw [x] at e
      have r := ih y.1 (h.2 y.1) e
      exact ⟨trans (h.1 s y.1 y.2 x) r.1, r.2⟩

/-- Some steps of a run, up to its end or to a place in front of one of them. -/
theorem Prog.Every.part {rel : State → State → Prop} (refl : ∀ s, rel s s)
    (trans : ∀ {s t u}, rel s t → rel t u → rel s u) {p : Prog α} (h : p.Every (Moves rel) Q) {n : Nat}
    {done : List Reply} {within : Bool} {s : State} {x : Part α} (e : p.part n done within s = .ok x) :
    match x with
    | .ended v t => rel s t ∧ Q v
    | .paused _ _ _ t => rel s t := by
  induction p generalizing n done within s with
  | ret w => unfold Prog.part at e; cases e; exact ⟨refl _, h⟩
  | act a k ih =>
    unfold Prog.part at e
    cases n with
    | zero => cases e; exact refl _
    | succ n =>
      simp only at e
      cases y : a.run s with
      | error z => simp [y] at e
      | ok z =>
        rw [y] at e
        have r := ih z.1 (h.2 z.1) e
        have m := h.1 s z.1 z.2 y
        cases x with
        | ended v t => exact ⟨trans m r.1, r.2⟩
        | paused _ _ _ t => exact trans m r

/-- The steps that are left after some. -/
theorem Prog.Every.after {p : Prog α} (h : p.Every P Q) (done : List Reply) : (p.after done).Every P Q := by
  induction done generalizing p with
  | nil => cases p <;> exact h
  | cons r rs ih =>
    cases p with
    | ret v => exact h
    | act a k => exact ih (h.2 r)

/-- The value of a part of a run is that of the run, and what a pause leaves to do is the rest of it. -/
theorem part_resume (p : Prog α) (n : Nat) (done : List Reply) (within : Bool) (s : State) :
    match p.part n done within s with
    | .ok (.ended v t) => p.run s = .ok (v, t)
    | .ok (.paused _ done' _ t) => ∃ more, done' = done ++ more ∧ p.run s = (p.after more).run t
    | .error e => p.run s = .error e := by
  induction p generalizing n done within s with
  | ret v => simp [Prog.part, Prog.run]
  | act a k ih =>
    cases n with
    | zero => exact ⟨[], by simp, rfl⟩
    | succ n =>
      simp only [Prog.part, Prog.run]
      cases x : a.run s with
      | error e => rfl
      | ok y =>
        have h := ih y.1 n (done ++ [y.1]) a.within y.2
        simp only
        cases z : (k y.1).part n (done ++ [y.1]) a.within y.2 with
        | error e => rw [z] at h; exact h
        | ok w =>
          rw [z] at h
          cases w with
          | ended v t => exact h
          | paused kd d wi t =>
            obtain ⟨more, e, r⟩ := h
            exact ⟨y.1 :: more, by rw [e, List.append_assoc]; rfl, r⟩

/-- Steps already taken, some more, and what is left then. -/
theorem after_append (p : Prog α) (xs ys : List Reply) : (p.after xs).after ys = p.after (xs ++ ys) := by
  induction xs generalizing p with
  | nil => cases p <;> rfl
  | cons x xs ih =>
    cases p with
    | ret v => cases ys <;> rfl
    | act a k => exact ih (k x)

end Sys2Proof.Machine
end

