-- ==== Sys2Proof/Laws/Sessions.lean ====
section
/-! SUPPORT. The sessions that a load can leave are whole (`10_state.md` R34 to R41). -/

namespace Sys2Proof.Machine

theorem gbxKey_ne_zero : Config.gbxKey ≠ 0 := by
  unfold Config.gbxKey
  split
  · decide
  · assumption

theorem gbSession_empty_ok : GbSessionOk .empty where
  empty := fun _ => rfl
  size := fun h => nomatch h
  save := by decide
  title := by decide
  sha1 := fun h => nomatch h

theorem gbaSession_empty_ok : GbaSessionOk .empty where
  empty := fun _ => rfl
  size := fun h => nomatch h
  save := rfl
  title := rfl
  code := rfl
  maker := rfl

@[simp] theorem sha1Hex_length (m : List Byte) : (sha1Hex m).length = 40 := by simp [sha1Hex, hexWord]

theorem normTitle_length (f : List Byte) : (normTitle f).length ≤ f.length := by
  have trim : ∀ t : List Byte, (trimUnderscores t).length ≤ t.length := fun t => by
    simpa [trimUnderscores] using (List.dropWhile_sublist (l := t.reverse) (· == (0x5F : Byte))).length_le
  unfold normTitle
  refine Nat.le_trans (trim _) ?_
  rw [List.length_map]
  refine Nat.le_trans (List.length_filter_le _ _) ?_
  split
  · exact List.length_take_le' _ _
  · exact Nat.le_refl _

theorem ramSizeTable_le (code : Byte) : (ramSizeTable code).toNat ≤ 131072 := by
  unfold ramSizeTable
  split <;> decide

theorem gbSaveSize_le (m : Mbc) (batt : Bool) (code : Byte) : (gbSaveSize m batt code).toNat ≤ 131072 := by
  unfold gbSaveSize
  split
  · decide
  · split
    · decide
    · exact ramSizeTable_le code

theorem romSizeTable_some {b : Byte} {rs : Word} (h : romSizeTable b = some rs) :
    ∃ n, n ≤ 8 ∧ rs.toNat = 32768 * 2 ^ n := by
  unfold romSizeTable at h
  split at h
  · rename_i le
    cases h
    refine ⟨b.toNat, le, ?_⟩
    have p : 2 ^ b.toNat ≤ 2 ^ 8 := Nat.pow_le_pow_right (by decide) le
    rw [BitVec.toNat_ofNat, Nat.shiftLeft_eq, Nat.mod_eq_of_lt (by omega)]
  · cases h

/-- The session of a header that verifies, whatever its bytes. -/
theorem gbSessionOf_ok {h sha : List Byte} {g : GbSession} (len : sha.length = 40) (e : gbSessionOf h sha = some g) :
    GbSessionOk g := by
  unfold gbSessionOf at e
  split at e
  · split at e
    · cases e
    · rename_i rs r
      cases e
      exact
        { empty := fun n => (nomatch n), size := fun _ => romSizeTable_some r, save := gbSaveSize_le _ _ _,
          title := Nat.le_trans (normTitle_length _) (by rw [slice_length]; omega), sha1 := fun _ => len }
  · cases e

/-- The sizes that a probe can find (`44_gba_rom.md` R325). -/
def ProbedSize (v : Word) : Prop := v = 0x400000 ∨ v = 0x800000 ∨ v = 0x1000000 ∨ v = 0x2000000

/-- The session of a 192-byte header and a probed size. -/
theorem gbaSessionOf_ok {h : List Byte} {v : Word} (c : Classified) (len : h.length = 192) (size : ProbedSize v) :
    GbaSessionOk (gbaSessionOf h v c) where
  empty := fun n => nomatch n
  size := fun _ => size
  save := rfl
  title := (slice_length _ _ _).trans (by omega)
  code := (slice_length _ _ _).trans (by omega)
  maker := (slice_length _ _ _).trans (by omega)

end Sys2Proof.Machine
end

