-- ==== Sys2Proof/Laws/Effects.lean ====
section
/-! SUPPORT. Everything a single step of an operation can do, said once: `Effect` lists it, and `program_lawful`
(`Laws/Lawful.lean`) says that every step of every well-formed operation does one of these things, whatever the
steps before it handed on, and that none of them reads the sequencer or the inputs still to come. -/

namespace Sys2Proof.Machine

/-- What a bus step that is no power step leaves: the power flags and owners, and a detector pin that is an input. -/
structure BusKept (b b' : Bus) : Prop extends SlotsKept b b' where
  det : b.pins.det.dir = .input → b'.pins.det.dir = .input

/-- What a single step of an operation can do to the state. -/
inductive Effect (op : Instr) : State → State → Prop where
  | none (s : State) : Effect op s s
  | bus (s : State) (b : Bus) (kept : BusKept s.bus b) : Effect op s { s with bus := b }
  | gbOn (s : State) (off : s.bus.pwrGba = false) : Effect op s { s with bus := gbFlagOn s.bus }
  | gbaOn (s : State) (off : s.bus.pwrGb = false) : Effect op s { s with bus := gbaFlagOn s.bus }
  | gbOff (s : State) (own : powersDownGb op = true) : Effect op s { s with bus := gbFlagOff s.bus }
  | gbaOff (s : State) (own : powersDownGba op = true) : Effect op s { s with bus := gbaFlagOff s.bus }
  | claimGb (s : State) (own : op = .gbPwrup) : Effect op s (gbClaim s)
  | claimGba (s : State) (own : op = .gbaPwrup) : Effect op s (gbaClaim s)
  | bytes (s : State) (a : Nat) (bs : List Byte) (fits : a + bs.length ≤ Config.hbufSize) :
      Effect op s { s with hbuf := s.hbuf.writeBlock a bs }
  | gb (s : State) (g : GbSession) (ok : GbSessionOk g)
      (src : (g = .empty ∧ emptiesGb op = true) ∨ op = .gbLoadhdr ∨ op = .gbxLoadhdr) :
      Effect op s { s with gb := g }
  | gba (s : State) (g : GbaSession) (ok : GbaSessionOk g)
      (src : (g = .empty ∧ emptiesGba op = true) ∨ op = .gbaLoadhdr ∨ op = .gbxLoadhdr) :
      Effect op s { s with gba := g }
  | take (s : State) (force : Bool) (key : Word) (nonzero : key ≠ 0)
      (src : dispatches op = true ∨ op = .lock force key) : Effect op s (takeLock force key s)
  | release (s : State) (key : Word) (src : dispatches op = true ∨ op = .unlock key) : Effect op s (releaseLock key s)
  | init (s : State) (hz : Word) (src : op = .init hz) : Effect op s (initialise hz s).2
  | setbuf (s : State) (buf : Word) (src : op = .setbuf buf) : Effect op s (setBuffer buf s)
  | rx (s : State) (bs : List Byte) : Effect op s { s with rx := bs }

/-- The state with another position of the current agent's sequencer, and other inputs still to come. -/
def retime (q : Seq) (ins : List Input) (s : State) : State := { s with me := { s.me with seq := q }, inputs := ins }

/-- A step does one of these things, and it reads neither the sequencer nor the inputs. -/
structure Lawful (op : Instr) (a : Act) : Prop where
  effect : Moves (Effect op) a
  blind : ∀ q ins s, a.run (retime q ins s) =
    match a.run s with
    | .ok (r, t) => .ok (r, retime q ins t)
    | .error e => .error e

variable {α β : Type} {op : Instr} {P : α → Prop} {R : β → Prop}

/-- A check that reads neither the sequencer nor the inputs. -/
def BlindCheck (check : State → Except Fault Unit) : Prop := ∀ q ins s, check (retime q ins s) = check s

/-! ## Single steps -/

theorem lawful_step {kind : StepKind} {check : State → Except Fault Unit} {c : Coding α} {f : State → α × State}
    (hc : BlindCheck check) (hf : ∀ q ins s, f (retime q ins s) = ((f s).1, retime q ins (f s).2))
    (h : ∀ s, check s = .ok () → Effect op s (f s).2) (hv : ∀ r, P (c.dec r)) :
    (Prog.step kind check c f).Every (Lawful op) P := by
  refine ⟨⟨(Prog.Every.step (kind := kind) (c := c) (Q := anyValue) h fun _ => trivial).1, fun q ins s => ?_⟩, hv⟩
  have e := hc q ins s
  simp only [e, hf q ins s]
  cases check s <;> rfl

theorem lawful_busRead {kind : StepKind} {check : State → Except Fault Unit} {c : Coding α} {f : Bus → α × Bus}
    (hc : BlindCheck check) (kept : ∀ b, BusKept b (f b).2) (hv : ∀ r, P (c.dec r)) :
    (busRead kind check c f).Every (Lawful op) P :=
  lawful_step hc (fun _ _ _ => rfl) (fun s _ => .bus s _ (kept _)) hv

theorem lawful_busDo {kind : StepKind} {check : State → Except Fault Unit} {f : Bus → Bus} (hc : BlindCheck check)
    (kept : ∀ b, BusKept b (f b)) : (busDo kind check f).Every (Lawful op) anyValue :=
  lawful_step hc (fun _ _ _ => rfl) (fun s _ => .bus s _ (kept _)) fun _ => trivial

theorem lawful_ensure {check : State → Except Fault Unit} (hc : BlindCheck check) :
    (ensure check).Every (Lawful op) anyValue :=
  lawful_step hc (fun _ _ _ => rfl) (fun s _ => .none s) fun _ => trivial

theorem lawful_look {c : Coding α} {f : State → α} (hf : ∀ q ins s, f (retime q ins s) = f s) (hv : ∀ r, P (c.dec r)) :
    (look c f).Every (Lawful op) P :=
  lawful_step (fun _ _ _ => rfl) (fun q ins s => by rw [hf q ins s]) (fun s _ => .none s) hv

theorem lawful_update {f : State → State} (hf : ∀ q ins s, f (retime q ins s) = retime q ins (f s))
    (h : ∀ s, Effect op s (f s)) : (update f).Every (Lawful op) anyValue :=
  lawful_step (fun _ _ _ => rfl) (fun q ins s => by rw [hf q ins s]) (fun s _ => h s) fun _ => trivial

theorem lawful_within {p : Prog α} (h : p.Every (Lawful op) P) : p.within.Every (Lawful op) P :=
  h.within fun _ l => ⟨l.effect, l.blind⟩

theorem raceFree_blind : BlindCheck raceFree := fun _ _ _ => rfl
theorem busReady_blind (i : Instr) : BlindCheck (busReady i) := fun _ _ _ => rfl
theorem streamReady_blind (i : Instr) : BlindCheck (streamReady i) := fun _ _ _ => rfl
theorem strobeReady_blind (i : Instr) : BlindCheck (strobeReady i) := fun _ _ _ => rfl
theorem needInit_blind (i : Instr) : BlindCheck (needInit i) := fun _ _ _ => rfl
theorem needBuf_blind (n : Nat) : BlindCheck (needBuf n) := fun _ _ _ => rfl

theorem lawful_lockStep {force : Bool} {key : Word} (nonzero : key ≠ 0)
    (src : dispatches op = true ∨ op = .lock force key) : (lockStep force key).Every (Lawful op) anyValue := by
  refine ⟨⟨(Prog.Every.lockStep fun s _ => .take s force key nonzero src).1, fun q ins s => ?_⟩, fun _ => trivial⟩
  have e : lockFree key (retime q ins s) = lockFree key s := rfl
  simp only [e]
  cases lockFree key s <;> rfl

theorem lawful_memWrite (k : Nat) (bytes : List Byte) : (memWrite k bytes).Every (Lawful op) anyValue := by
  refine lawful_step (fun _ _ _ => rfl) (fun _ _ _ => rfl) (fun s h => .bytes s _ _ ?_) fun _ => trivial
  unfold inHbuf at h
  split at h
  · assumption
  · cases h

theorem lawful_memRead (k n : Nat) : (memRead k n).Every (Lawful op) anyValue :=
  lawful_step (fun _ _ _ => rfl) (fun _ _ _ => rfl) (fun s _ => .none s) fun _ => trivial

theorem lawful_storeByte {k : Nat} {p : Prog Byte} (h : p.Every (Lawful op) anyValue) :
    (storeByte k p).Every (Lawful op) anyValue := h.bind fun _ _ => lawful_memWrite _ _

theorem lawful_releaseLock {key : Word} (src : dispatches op = true ∨ op = .unlock key) :
    (update (releaseLock key)).Every (Lawful op) anyValue :=
  lawful_update (fun q ins s => by
    by_cases h : s.lock = key
    · rw [releaseLock, releaseLock, if_pos h, if_pos (show (retime q ins s).lock = key from h)]; rfl
    · rw [releaseLock, releaseLock, if_neg h, if_neg (show (retime q ins s).lock ≠ key from h)]) fun s => .release s key src

theorem lawful_underLock {p : Prog α} (d : dispatches op = true) (h : p.Every (Lawful op) P) :
    (underLock p).Every (Lawful op) P :=
  (lawful_lockStep gbxKey_ne_zero (.inl d)).then <|
    h.bind fun _ hv => (lawful_releaseLock (.inl d)).then hv

theorem lawful_gbClear (own : emptiesGb op = true) : (update gbClear).Every (Lawful op) anyValue :=
  lawful_update (fun _ _ _ => rfl) fun s => .gb s _ gbSession_empty_ok (.inl ⟨rfl, own⟩)

theorem lawful_gbaClear (own : emptiesGba op = true) : (update gbaClear).Every (Lawful op) anyValue :=
  lawful_update (fun _ _ _ => rfl) fun s => .gba s _ gbaSession_empty_ok (.inl ⟨rfl, own⟩)

end Sys2Proof.Machine
end

