-- ==== Sys2Proof/Laws/Lawful.lean ====
section
/-! SUPPORT. Every step of every well-formed operation is lawful (`Laws/Effects.lean`), operation by operation:
`program_lawful`. -/

namespace Sys2Proof.Machine

variable {α β : Type} {op : Instr} {P : α → Prop}

/-! ## What the bus functions keep -/

theorem BusKept.refl (b : Bus) : BusKept b b := ⟨⟨rfl, rfl, rfl, rfl⟩, id⟩

theorem BusKept.trans {b c d : Bus} (h : BusKept b c) (k : BusKept c d) : BusKept b d :=
  ⟨h.toSlotsKept.trans k.toSlotsKept, fun i => k.det (h.det i)⟩

theorem GbCycles.kept {b c : Bus} (h : GbCycles b c) : BusKept b c := ⟨h.slots, fun i => by rw [h.det]; exact i⟩

theorem GbaCycles.kept {b c : Bus} (h : GbaCycles b c) : BusKept b c := ⟨h.slots, fun i => by rw [h.det]; exact i⟩

theorem SaveCycles.kept {b c : Bus} (h : SaveCycles b c) : BusKept b c := h.toGbaCycles.kept

/-- A bus function that changes neither pins nor the power flags and owners. -/
theorem busKept_of {b c : Bus} (pins : c.pins = b.pins) (slots : SlotsKept b c) : BusKept b c :=
  ⟨slots, fun i => by rw [pins]; exact i⟩

theorem pinWrite_kept (p : Pin) (v : Bool) (b : Bus) : BusKept b (pinWrite p v b) :=
  ⟨⟨rfl, rfl, rfl, rfl⟩, fun i => by cases p <;> simpa [setPin, getPin] using i⟩

theorem pinDirect_kept {p : Pin} {d : PinDir} (h : p ≠ .det ∨ d = .input) (b : Bus) : BusKept b (pinDirect p d b) :=
  ⟨⟨rfl, rfl, rfl, rfl⟩, fun i => by
    rcases h with h | h
    · cases p <;> first | exact absurd rfl h | simpa [setPin, getPin] using i
    · subst h; cases p <;> simp [setPin, getPin] <;> exact i⟩

theorem pinRead_kept (p : Pin) (b : Bus) : BusKept b (pinRead p b).2 := by
  unfold pinRead
  split
  · exact .refl b
  · exact ⟨⟨rfl, rfl, rfl, rfl⟩, id⟩

theorem portWrite_kept (k : RegKind) (p : Port) (v : Byte) (b : Bus) : BusKept b (portWrite k p v b) :=
  ⟨⟨rfl, rfl, rfl, rfl⟩, id⟩

theorem chipWrite_kept (k : RegKind) (c : Chip) (v w : Byte) (b : Bus) : BusKept b (chipWrite k c v w b) :=
  ⟨⟨rfl, rfl, rfl, rfl⟩, id⟩

theorem anyReply_kept (t : Byte) (b : Bus) : BusKept b (anyReply t b).2 := ⟨⟨rfl, rfl, rfl, rfl⟩, id⟩

theorem anyReplies_kept (tx : List Byte) (b : Bus) : BusKept b (anyReplies tx b).2 := by
  induction tx generalizing b with
  | nil => exact .refl b
  | cons t ts ih => exact (anyReply_kept t b).trans (ih _)

theorem frameWrites_kept (k : RegKind) (c : Chip) (second : Bool) (vs : List Byte) (b : Bus) :
    BusKept b (frameWrites k c second vs b).2 := by
  induction vs generalizing second b with
  | nil => exact .refl b
  | cons v vs ih =>
    have h : BusKept b (anyReply v (writeReg k (chipPort c second) v b)).2 := ⟨⟨rfl, rfl, rfl, rfl⟩, id⟩
    exact h.trans (ih (!second) _)

theorem frameReads_kept (k : RegKind) (c : Chip) (second : Bool) (vs : List Byte) (b : Bus) :
    BusKept b (frameReads k c second vs b).2 := by
  induction vs generalizing second b with
  | nil => exact .refl b
  | cons v vs ih =>
    refine BusKept.trans ?_ (ih _ _)
    cases k <;> exact ⟨⟨rfl, rfl, rfl, rfl⟩, id⟩

theorem expFrame_kept (bytes : List Byte) (b : Bus) : BusKept b (expFrame bytes b).2 := by
  unfold expFrame
  split
  · rename_i o r data
    have h := (anyReply_kept o b).trans (anyReply_kept r (anyReply o b).2)
    dsimp only
    split
    · split
      · exact h.trans (frameReads_kept _ _ _ _ _)
      · exact h.trans (frameWrites_kept _ _ _ _ _)
    · exact .refl b
  · exact .refl b

/-! ## Power sequences -/

theorem pinStep_lawful {f : Bus → Bus} (kept : ∀ b, BusKept b (f b)) : (pinStep op f).Every (Lawful op) anyValue :=
  lawful_busDo (strobeReady_blind op) kept

theorem frameStep_lawful {f : Bus → Bus} (kept : ∀ b, BusKept b (f b)) :
    (frameStep op f).Every (Lawful op) anyValue := lawful_busDo (busReady_blind op) kept

theorem drive_lawful {p : Pin} (v : Bool) (h : p ≠ .det) : (drive op p v).Every (Lawful op) anyValue :=
  (pinStep_lawful (pinWrite_kept p v)).then (pinStep_lawful (pinDirect_kept (.inl h)))

theorem drivePower_lawful {p : Pin} (v : Bool) (slot : Slot) (on : Bool) (h : p ≠ .det) :
    (drivePower op p v slot on).Every (Lawful op) anyValue :=
  (pinStep_lawful (pinWrite_kept p v)).then
    (pinStep_lawful fun b => (pinDirect_kept (.inl h) b).trans ⟨⟨rfl, rfl, rfl, rfl⟩, id⟩)

theorem delayStep_lawful (t : DelayName) : (delayStep t).Every (Lawful op) anyValue :=
  lawful_busDo (fun _ _ _ => rfl) fun _ => ⟨⟨rfl, rfl, rfl, rfl⟩, id⟩

/-- A list of steps, each lawful. -/
theorem steps_nil : (Prog.steps []).Every (Lawful op) anyValue := trivial

theorem steps_cons {p : Prog Unit} {ps : List (Prog Unit)} (h : p.Every (Lawful op) anyValue)
    (k : (Prog.steps ps).Every (Lawful op) anyValue) : (Prog.steps (p :: ps)).Every (Lawful op) anyValue := h.then k

theorem gbDefaults_lawful : (gbDefaultsSteps op).Every (Lawful op) anyValue :=
  steps_cons (drive_lawful _ (by decide)) <| steps_cons (drive_lawful _ (by decide)) <|
  steps_cons (drive_lawful _ (by decide)) <| steps_cons (frameStep_lawful (chipWrite_kept _ _ _ _)) <|
  steps_cons (frameStep_lawful (chipWrite_kept _ _ _ _)) <| steps_cons (frameStep_lawful (chipWrite_kept _ _ _ _)) <|
  steps_cons (frameStep_lawful (portWrite_kept _ _ _)) <| steps_cons (frameStep_lawful (portWrite_kept _ _ _)) steps_nil

theorem gbaDefaults_lawful : (gbaDefaultsSteps op).Every (Lawful op) anyValue :=
  steps_cons (drive_lawful _ (by decide)) <| steps_cons (drive_lawful _ (by decide)) <|
  steps_cons (drive_lawful _ (by decide)) <| steps_cons (drive_lawful _ (by decide)) <|
  steps_cons (frameStep_lawful (chipWrite_kept _ _ _ _)) <| steps_cons (frameStep_lawful (portWrite_kept _ _ _)) <|
  steps_cons (frameStep_lawful (chipWrite_kept _ _ _ _)) <| steps_cons (frameStep_lawful (portWrite_kept _ _ _)) <|
  steps_cons (frameStep_lawful (chipWrite_kept _ _ _ _)) <| steps_cons (frameStep_lawful (portWrite_kept _ _ _)) steps_nil

theorem gbFlagOn_lawful : (busDo .quiet gbaIsOff gbFlagOn).Every (Lawful op) anyValue :=
  lawful_step (fun _ _ _ => rfl) (fun _ _ _ => rfl) (fun s h => .gbOn s (by
    unfold gbaIsOff at h
    split at h
    · cases h
    · rename_i off; simpa using off)) fun _ => trivial

theorem gbaFlagOn_lawful : (busDo .quiet gbIsOff gbaFlagOn).Every (Lawful op) anyValue :=
  lawful_step (fun _ _ _ => rfl) (fun _ _ _ => rfl) (fun s h => .gbaOn s (by
    unfold gbIsOff at h
    split at h
    · cases h
    · rename_i off; simpa using off)) fun _ => trivial

theorem gbPowerUp_lawful : (gbPowerUpSteps op).Every (Lawful op) anyValue :=
  gbDefaults_lawful.then <| (lawful_look (P := anyValue) (fun _ _ _ => rfl) fun _ => trivial).bind fun _ _ =>
    .ite (fun _ => trivial) fun _ => steps_cons (drivePower_lawful _ _ _ (by decide)) <|
      steps_cons (delayStep_lawful _) <| steps_cons gbFlagOn_lawful steps_nil

theorem gbaPowerUp_lawful : (gbaPowerUpSteps op).Every (Lawful op) anyValue :=
  gbaDefaults_lawful.then <| (lawful_look (P := anyValue) (fun _ _ _ => rfl) fun _ => trivial).bind fun _ _ =>
    .ite (fun _ => trivial) fun _ => steps_cons (drivePower_lawful _ _ _ (by decide)) <|
      steps_cons (delayStep_lawful _) <| steps_cons gbaFlagOn_lawful steps_nil

theorem float_lawful : (floatSteps op).Every (Lawful op) anyValue :=
  steps_cons (frameStep_lawful (chipWrite_kept _ _ _ _)) <| steps_cons (frameStep_lawful (chipWrite_kept _ _ _ _)) <|
  steps_cons (frameStep_lawful (chipWrite_kept _ _ _ _)) <| steps_cons (frameStep_lawful (chipWrite_kept _ _ _ _)) steps_nil

theorem ground_lawful : (groundSteps op).Every (Lawful op) anyValue :=
  steps_cons (frameStep_lawful (chipWrite_kept _ _ _ _)) <| steps_cons (frameStep_lawful (chipWrite_kept _ _ _ _)) <|
  steps_cons (frameStep_lawful (chipWrite_kept _ _ _ _)) <| steps_cons (frameStep_lawful (chipWrite_kept _ _ _ _)) steps_nil

theorem gbPowerDown_lawful : (gbPowerDownSteps op).Every (Lawful op) anyValue :=
  steps_cons float_lawful <| steps_cons (pinStep_lawful (pinDirect_kept (.inr rfl))) <|
  steps_cons (pinStep_lawful (pinDirect_kept (.inr rfl))) <| steps_cons (pinStep_lawful (pinDirect_kept (.inr rfl))) <|
  steps_cons (drivePower_lawful _ _ _ (by decide)) <| steps_cons ground_lawful <|
  steps_cons (drive_lawful _ (by decide)) <| steps_cons (drive_lawful _ (by decide)) <|
  steps_cons (drive_lawful _ (by decide)) steps_nil

theorem gbaPowerDown_lawful : (gbaPowerDownSteps op).Every (Lawful op) anyValue :=
  steps_cons float_lawful <| steps_cons (pinStep_lawful (pinDirect_kept (.inr rfl))) <|
  steps_cons (pinStep_lawful (pinDirect_kept (.inr rfl))) <| steps_cons (pinStep_lawful (pinDirect_kept (.inr rfl))) <|
  steps_cons (pinStep_lawful (pinDirect_kept (.inr rfl))) <|
  steps_cons (drivePower_lawful _ _ _ (by decide)) <| steps_cons ground_lawful <|
  steps_cons (drive_lawful _ (by decide)) <| steps_cons (drive_lawful _ (by decide)) <|
  steps_cons (drive_lawful _ (by decide)) <| steps_cons (drive_lawful _ (by decide)) steps_nil

theorem gbFlagOff_lawful (own : powersDownGb op = true) : gbFlagOffStep.Every (Lawful op) anyValue :=
  show (busDo .quiet always gbFlagOff).Every (Lawful op) anyValue from
    lawful_step (fun _ _ _ => rfl) (fun _ _ _ => rfl) (fun s _ => .gbOff s own) fun _ => trivial

theorem gbaFlagOff_lawful (own : powersDownGba op = true) : gbaFlagOffStep.Every (Lawful op) anyValue :=
  show (busDo .quiet always gbaFlagOff).Every (Lawful op) anyValue from
    lawful_step (fun _ _ _ => rfl) (fun _ _ _ => rfl) (fun s _ => .gbaOff s own) fun _ => trivial

/-- A power session with a lawful body. -/
theorem withGbPower_lawful {body : Prog α} (own : powersDownGb op = true) (h : body.Every (Lawful op) P) :
    (withGbPower op body).Every (Lawful op) P :=
  (lawful_ensure fun _ _ _ => rfl).then <|
    (lawful_within (gbPowerUp_lawful.then (h.bind fun _ hv => gbPowerDown_lawful.then (.ret hv)))).bind fun _ hv =>
      (gbFlagOff_lawful own).then (.ret hv)

theorem withGbaPower_lawful {body : Prog α} (own : powersDownGba op = true) (h : body.Every (Lawful op) P) :
    (withGbaPower op body).Every (Lawful op) P :=
  (lawful_ensure fun _ _ _ => rfl).then <|
    (lawful_within (gbaPowerUp_lawful.then (h.bind fun _ hv => gbaPowerDown_lawful.then (.ret hv)))).bind fun _ hv =>
      (gbaFlagOff_lawful own).then (.ret hv)

/-! ## The GB/GBC engine -/

theorem gbRead_lawful (a : Half) : (gbReadStep op a).Every (Lawful op) anyValue :=
  lawful_busRead (busReady_blind op) (fun b => (gbRead_cycles a b).kept) fun _ => trivial

theorem gbWrite_lawful (a : Half) (d : Byte) : (gbWriteStep op a d).Every (Lawful op) anyValue :=
  lawful_busDo (busReady_blind op) fun b => (gbWrite_cycles a d b).kept

theorem gbReadMany_lawful (a n : Nat) : (gbReadMany op a n).Every (Lawful op) anyValue :=
  (Prog.Every.collect (fun _ => gbRead_lawful _) 0 n).mono (fun _ h => h) fun _ _ => trivial

theorem gbStore_lawful (off a n : Nat) : (gbStore op off a n).Every (Lawful op) anyValue :=
  Prog.Every.loop (fun _ => lawful_storeByte (gbRead_lawful _)) 0 n

theorem gbWriteSteps_lawful (ws : List (Half × Byte)) : (gbWriteSteps op ws).Every (Lawful op) anyValue :=
  Prog.Every.steps fun p m => by
    obtain ⟨w, _, rfl⟩ := List.mem_map.mp m
    exact gbWrite_lawful _ _

theorem mbcSteps_lawful (ws : List (Half × Byte)) (g : Mbcw → Mbcw) : (mbcSteps op ws g).Every (Lawful op) anyValue :=
  (gbWriteSteps_lawful ws).then (lawful_busDo (fun _ _ _ => rfl) fun _ => ⟨⟨rfl, rfl, rfl, rfl⟩, id⟩)

theorem gbLoad_lawful (src : op = .gbLoadhdr ∨ op = .gbxLoadhdr) : (gbLoadSteps op).Every (Lawful op) anyValue := by
  have own : powersDownGb op = true := by rcases src with rfl | rfl <;> rfl
  have empties : emptiesGb op = true := by rcases src with rfl | rfl <;> rfl
  have judge : ∀ h, (gbJudgeSteps h).Every (Lawful op) fun r => ∀ g, r = some g → GbSessionOk g := fun h => by
    unfold gbJudgeSteps
    cases e : gbSessionOf h (sha1Hex h) with
    | some g => exact fun g' k => by cases k; exact gbSessionOf_ok (sha1Hex_length h) e
    | none => exact (lawful_gbClear empties).then fun _ k => nomatch k
  refine (withGbPower_lawful own <| (gbReadMany_lawful 0 4).then <|
    (gbReadMany_lawful 0 1024).bind fun h _ => judge h).bind fun r ok => ?_
  cases r with
  | some g =>
    exact (lawful_update (fun _ _ _ => rfl) fun s => .gb s g (ok g rfl) (.inr src)).then trivial
  | none => trivial

theorem gbCheck_lawful (own : powersDownGb op = true) : (gbCheckSteps op).Every (Lawful op) anyValue := withGbPower_lawful own (gbReadMany_lawful _ _)

/-- A state read of anything but the sequencer and the inputs. -/
theorem look_lawful {c : Coding α} {f : State → α} (h : ∀ q ins s, f (retime q ins s) = f s) :
    (look c f).Every (Lawful op) anyValue := lawful_look h fun _ => trivial

theorem gbIsLoaded_lawful (own : powersDownGb op = true) (empties : emptiesGb op = true) : (gbIsLoadedSteps op).Every (Lawful op) anyValue :=
  (look_lawful fun _ _ _ => rfl).bind fun _ _ => .ite (fun _ => trivial) fun _ =>
    (gbCheck_lawful own).bind fun _ _ => (look_lawful fun _ _ _ => rfl).bind fun _ _ =>
      .ite (fun _ => trivial) fun _ => (lawful_gbClear empties).then trivial

theorem gbReadRom_lawful (own : powersDownGb op = true) : (gbReadRomSteps op).Every (Lawful op) anyValue :=
  (look_lawful fun _ _ _ => rfl).bind fun _ _ => .ite (fun _ => trivial) fun _ =>
    (lawful_ensure (needBuf_blind _)).then <|
    (withGbPower_lawful (P := anyValue) own <| (gbStore_lawful _ _ _).then <|
      .ite (fun _ => gbStore_lawful _ _ _) fun _ =>
        (Prog.Every.loop (fun _ => (mbcSteps_lawful _ _).then (gbStore_lawful _ _ _)) _ _).then
          (mbcSteps_lawful _ _)).then trivial

theorem gbReadSave_lawful (own : powersDownGb op = true) : (gbReadSaveSteps op).Every (Lawful op) anyValue :=
  (look_lawful fun _ _ _ => rfl).bind fun _ _ => .ite (fun _ => trivial) fun _ =>
    (lawful_ensure (needBuf_blind _)).then <|
    (withGbPower_lawful (P := anyValue) own <| (mbcSteps_lawful _ _).then <|
      (Prog.Every.loop (fun _ => (mbcSteps_lawful _ _).then (gbStore_lawful _ _ _)) _ _).then
        (mbcSteps_lawful _ _)).then trivial

theorem gbFetch_lawful (off a n : Nat) : (gbFetch op off a n).Every (Lawful op) anyValue :=
  Prog.Every.loop (fun _ => (lawful_memRead _ _).bind fun _ _ => gbWrite_lawful _ _) 0 n

theorem gbWriteSave_lawful (own : powersDownGb op = true) : (gbWriteSaveSteps op).Every (Lawful op) anyValue :=
  (look_lawful fun _ _ _ => rfl).bind fun _ _ => .ite (fun _ => trivial) fun _ =>
    (lawful_ensure (needBuf_blind _)).then <|
    (withGbPower_lawful (P := anyValue) own <| (mbcSteps_lawful _ _).then <|
      (Prog.Every.loop (fun _ => (mbcSteps_lawful _ _).then (gbFetch_lawful _ _ _)) _ _).then
        (mbcSteps_lawful _ _)).then trivial

/-! ## The GBA ROM engine -/

theorem gbaLatch_lawful (ha : BitVec 24) : (gbaLatchStep op ha).Every (Lawful op) anyValue :=
  lawful_within (lawful_busDo (busReady_blind op) fun b => (gbaLatch_cycles ha b).kept)

theorem gbaNext_lawful : (gbaNextStep op).Every (Lawful op) anyValue :=
  lawful_within (lawful_busRead (streamReady_blind op) (fun b => (gbaNext_cycles b).kept) fun _ => trivial)

theorem gbaEnd_lawful : (gbaEndStep op).Every (Lawful op) anyValue :=
  lawful_busDo (streamReady_blind op) fun b => (gbaEnd_cycles b).kept

theorem halfBytes_length (vs : List Half) : (halfBytes vs).length = 2 * vs.length := by
  induction vs with
  | nil => rfl
  | cons v vs ih => simp [halfBytes] at *; omega

/-- A burst hands on as many bytes as it reads. -/
theorem gbaRomRead_lawful (ba n : Nat) :
    (gbaRomReadSteps op ba n).Every (Lawful op) fun bytes => bytes.length = 2 * (n / 2) :=
  (gbaLatch_lawful _).then <|
    (Prog.Every.collect (fun _ => .ite
      (fun _ => gbaEnd_lawful.then ((gbaLatch_lawful _).then gbaNext_lawful)) fun _ => gbaNext_lawful) 0 (n / 2)).bind
    fun vs h => gbaEnd_lawful.then (by rw [← h.1]; exact halfBytes_length vs)

theorem gbaBytes_lawful (ba n : Nat) : (gbaRomReadSteps op ba n).Every (Lawful op) anyValue :=
  (gbaRomRead_lawful ba n).mono (fun _ h => h) fun _ _ => trivial

theorem gbaProbeSize_lawful (h : List Byte) : (gbaProbeSizeSteps op h).Every (Lawful op) ProbedSize :=
  (gbaBytes_lawful _ _).bind fun _ _ => .ite (fun _ => .inl rfl) fun _ =>
    (gbaBytes_lawful _ _).bind fun _ _ => .ite (fun _ => .inr (.inl rfl)) fun _ =>
      (gbaBytes_lawful _ _).map fun _ _ => by
        split
        · exact .inr (.inr (.inl rfl))
        · exact .inr (.inr (.inr rfl))

theorem gbaHeader_lawful : (gbaHeaderSteps op).Every (Lawful op) fun h => h.length = 192 := gbaRomRead_lawful 0 192

theorem gbaCheck_lawful (own : powersDownGba op = true) : (gbaCheckSteps op).Every (Lawful op) anyValue :=
  withGbaPower_lawful own (gbaBytes_lawful _ _)

theorem gbaIsLoaded_lawful (own : powersDownGba op = true) (empties : emptiesGba op = true) : (gbaIsLoadedSteps op).Every (Lawful op) anyValue :=
  (look_lawful fun _ _ _ => rfl).bind fun _ _ => .ite (fun _ => trivial) fun _ =>
    (gbaCheck_lawful own).bind fun _ _ => (look_lawful fun _ _ _ => rfl).bind fun _ _ =>
      .ite (fun _ => trivial) fun _ => (lawful_gbaClear empties).then trivial

theorem gbaReadRom_lawful (own : powersDownGba op = true) : (gbaReadRomSteps op).Every (Lawful op) anyValue :=
  (look_lawful fun _ _ _ => rfl).bind fun _ _ => .ite (fun _ => trivial) fun _ =>
    (lawful_ensure (needBuf_blind _)).then <|
    (withGbaPower_lawful (P := anyValue) own <| (gbaBytes_lawful _ _).bind fun _ _ => lawful_memWrite _ _).then trivial

/-! ## The GBA save engine -/

theorem saveRead_lawful (a : Half) : (saveReadStep op a).Every (Lawful op) anyValue :=
  lawful_busRead (busReady_blind op) (fun b => (saveRead_cycles a b).kept) fun _ => trivial

theorem saveWrite_lawful (a : Half) (d : Byte) : (saveWriteStep op a d).Every (Lawful op) anyValue :=
  lawful_busDo (busReady_blind op) fun b => (saveWrite_cycles a d b).kept

theorem saveReadMany_lawful (a n : Nat) : (saveReadMany op a n).Every (Lawful op) anyValue :=
  (Prog.Every.collect (fun _ => saveRead_lawful _) 0 n).mono (fun _ h => h) fun _ _ => trivial

theorem saveWriteSteps_lawful (ws : List (Half × Byte)) : (saveWriteSteps op ws).Every (Lawful op) anyValue :=
  Prog.Every.steps fun p m => by
    obtain ⟨w, _, rfl⟩ := List.mem_map.mp m
    exact saveWrite_lawful _ _

theorem eepOpen_lawful (request : List Bool) : (eepOpenSteps op request).Every (Lawful op) anyValue :=
  (lawful_busDo (busReady_blind op) fun b => (eepBegin_cycles b).kept).then <| Prog.Every.steps fun p m => by
    obtain ⟨v, _, rfl⟩ := List.mem_map.mp m
    exact lawful_busDo (busReady_blind op) fun b => (eepOut_cycles v b).kept

theorem eepIn_lawful : (eepInStep op).Every (Lawful op) anyValue :=
  lawful_busRead (busReady_blind op) (fun b => (eepIn_cycles b).kept) fun _ => trivial

theorem eepEnd_lawful : (busDo .transaction (busReady op) eepEnd).Every (Lawful op) anyValue :=
  lawful_busDo (busReady_blind op) fun b => (eepEnd_cycles b).kept

theorem eepReadRow_lawful (frm : Framing) (row : Nat) : (eepReadRowSteps op frm row).Every (Lawful op) anyValue :=
  (lawful_within <| (eepOpen_lawful _).then <|
    (lawful_busDo (busReady_blind op) fun b => (eepTurn_cycles b).kept).then <|
    (Prog.Every.collect (fun _ => eepIn_lawful) 0 4).then (Prog.Every.collect (fun _ => eepIn_lawful) 0 64)).bind
  fun _ _ => eepEnd_lawful.then trivial

theorem eepWriteRow_lawful (frm : Framing) (row : Nat) (data : List Byte) :
    (eepWriteRowSteps op frm row data).Every (Lawful op) anyValue :=
  (lawful_within ((eepOpen_lawful _).then eepEnd_lawful)).then (delayStep_lawful _)

theorem flashId_lawful : (flashIdSteps op).Every (Lawful op) anyValue :=
  (saveWriteSteps_lawful _).then <| (saveRead_lawful _).bind fun _ _ => (saveRead_lawful _).bind fun _ _ =>
    (saveWriteSteps_lawful _).then trivial

theorem flashBank_lawful (bank : Bool) : (flashBankSteps op bank).Every (Lawful op) anyValue := saveWriteSteps_lawful _

theorem flashErase_lawful (a : Half) : (flashEraseSteps op a).Every (Lawful op) anyValue :=
  (saveWriteSteps_lawful _).then (delayStep_lawful _)

theorem flashProg_lawful (a : Half) (d : Byte) : (flashProgSteps op a d).Every (Lawful op) anyValue :=
  (saveWriteSteps_lawful _).then (delayStep_lawful _)

theorem flashProg128_lawful (sector : Half) (data : List Byte) :
    (flashProg128Steps op sector data).Every (Lawful op) anyValue :=
  (saveWriteSteps_lawful _).then <| (Prog.Every.steps fun p m => by
    obtain ⟨k, _, rfl⟩ := List.mem_mapIdx.mp m
    exact saveWrite_lawful _ _).then (delayStep_lawful _)

theorem classifyFlash_lawful : (classifyFlashSteps op).Every (Lawful op) anyValue :=
  flashId_lawful.bind fun id _ => by
    unfold classifyFlashOf
    cases flashTable id.1 id.2 with
    | some t => trivial
    | none =>
      exact Prog.Every.map (Q := anyValue) ((saveReadMany_lawful _ _).bind fun _ _ => (flashBank_lawful _).then <|
        (saveReadMany_lawful _ _).bind fun _ _ => (flashBank_lawful _).then trivial) fun _ _ => trivial

theorem classifyParallel_lawful : (classifyParallelSteps op).Every (Lawful op) anyValue :=
  Prog.Every.bind (Q := anyValue) (Prog.Every.map (Q := anyValue) (Prog.Every.map
    (Prog.Every.collect (fun _ => saveReadMany_lawful _ _) _ _) fun _ _ => trivial) fun _ _ => trivial) fun _ _ =>
    .ite (fun _ => Prog.Every.bind (Q := anyValue)
      ((saveRead_lawful _).bind fun _ _ => (saveWrite_lawful _ _).then <| (saveRead_lawful _).bind fun _ _ =>
        (saveWrite_lawful _ _).then <| (saveRead_lawful _).map fun _ _ => trivial) fun _ _ =>
      .ite (fun _ => Prog.Every.map (Q := anyValue)
        ((saveReadMany_lawful _ _).bind fun _ _ => (saveReadMany_lawful _ _).map fun _ _ => trivial) fun _ _ => trivial)
        fun _ => classifyFlash_lawful) fun _ => trivial

theorem classify_lawful (own : powersDownGba op = true) : (classifySteps op).Every (Lawful op) anyValue :=
  withGbaPower_lawful own <| Prog.Every.bind (Q := anyValue)
    (Prog.Every.map (Prog.Every.collect (fun _ => eepReadRow_lawful _ _) _ _) fun _ _ => trivial) fun e _ => by
      cases e with
      | some t => trivial
      | none => exact classifyParallel_lawful

theorem gbaLoad_lawful (src : op = .gbaLoadhdr ∨ op = .gbxLoadhdr) : (gbaLoadSteps op).Every (Lawful op) anyValue := by
  have own : powersDownGba op = true := by rcases src with rfl | rfl <;> rfl
  have empties : emptiesGba op = true := by rcases src with rfl | rfl <;> rfl
  have judge : ∀ h : List Byte, h.length = 192 → (gbaJudgeSteps op h).Every (Lawful op)
      fun r => ∀ x, r = some x → x.1.length = 192 ∧ ProbedSize x.2 := fun h len =>
    .ite (fun _ => (gbaProbeSize_lawful h).map fun v size x k => by cases k; exact ⟨len, size⟩)
      fun _ => (lawful_gbaClear empties).then fun _ k => nomatch k
  refine (withGbaPower_lawful own <| gbaHeader_lawful.bind judge).bind fun r ok => ?_
  cases r with
  | some x =>
    exact (classify_lawful own).bind fun c _ => (lawful_update (fun _ _ _ => rfl) fun s =>
      .gba s _ (gbaSessionOf_ok c (ok x rfl).1 (ok x rfl).2) (.inr src)).then trivial
  | none => trivial

theorem flashTurn_lawful (a : Nat) : (flashTurnSteps op a).Every (Lawful op) anyValue :=
  .ite (fun _ => flashBank_lawful _) fun _ => trivial

theorem flashHome_lawful (sz : Nat) : (flashHomeSteps op sz).Every (Lawful op) anyValue :=
  .ite (fun _ => flashBank_lawful _) fun _ => trivial

theorem saveImageRead_lawful (t : SaveType) (sz : Nat) : (saveImageReadSteps op t sz).Every (Lawful op) anyValue := by
  have eep : (Prog.loop (fun row => (eepReadRowSteps op (framingFor t) row).bind fun bytes =>
      memWrite (8 * row) bytes) 0 (sz / 8)).Every (Lawful op) anyValue :=
    .loop (fun _ => (eepReadRow_lawful _ _).bind fun _ _ => lawful_memWrite _ _) _ _
  have sram : (Prog.loop (fun a => storeByte a (saveReadStep op (BitVec.ofNat 16 a))) 0 sz).Every (Lawful op) anyValue :=
    .loop (fun _ => lawful_storeByte (saveRead_lawful _)) _ _
  have flash : ((Prog.loop (fun a => (flashTurnSteps op a).then (storeByte a (saveReadStep op (BitVec.ofNat 16 a)))) 0
      sz).then (flashHomeSteps op sz)).Every (Lawful op) anyValue :=
    (Prog.Every.loop (fun _ => (flashTurn_lawful _).then (lawful_storeByte (saveRead_lawful _))) _ _).then
      (flashHome_lawful _)
  cases t with
  | eeprom4k => exact eep
  | eeprom64k => exact eep
  | sram256k => exact sram
  | sram512k => exact sram
  | flash512k => exact flash
  | flash1m => exact flash
  | unknown => trivial

theorem gbaReadSave_lawful (own : powersDownGba op = true) : (gbaReadSaveSteps op).Every (Lawful op) anyValue :=
  (look_lawful fun _ _ _ => rfl).bind fun _ _ => .ite (fun _ => trivial) fun _ =>
    (lawful_ensure (needBuf_blind _)).then <| (withGbaPower_lawful own (saveImageRead_lawful _ _)).then trivial

theorem flashImageWrite_lawful (sz : Nat) (mfr : Byte) : (flashImageWriteSteps op sz mfr).Every (Lawful op) anyValue :=
  Prog.Every.then (Q := anyValue) (.ite
    (fun _ => .loop (fun _ => (flashTurn_lawful _).then <|
      (lawful_memRead _ _).bind fun _ _ => flashProg128_lawful _ _) _ _)
    fun _ => .loop (fun _ => (flashTurn_lawful _).then <| Prog.Every.then (Q := anyValue)
      (.ite (fun _ => flashErase_lawful _) fun _ => Prog.Every.ret (v := ()) trivial) <|
      (lawful_memRead _ _).bind fun _ _ => flashProg_lawful _ _) _ _) (flashHome_lawful _)

theorem saveImageWrite_lawful (t : SaveType) (sz : Nat) :
    (saveImageWriteSteps op t sz).Every (Lawful op) anyValue := by
  have eep : (Prog.loop (fun row => (memRead (8 * row) 8).bind fun data =>
      eepWriteRowSteps op (framingFor t) row data) 0 (sz / 8)).Every (Lawful op) anyValue :=
    .loop (fun _ => (lawful_memRead _ _).bind fun _ _ => eepWriteRow_lawful _ _ _) _ _
  have sram : (Prog.loop (fun a => (memRead a 1).bind fun v => saveWriteStep op (BitVec.ofNat 16 a) (v.headD 0)) 0
      sz).Every (Lawful op) anyValue :=
    .loop (fun _ => (lawful_memRead _ _).bind fun _ _ => saveWrite_lawful _ _) _ _
  have flash : ((look asByte fun s => s.gba.flashMfr).bind (flashImageWriteSteps op sz)).Every (Lawful op) anyValue :=
    (look_lawful fun _ _ _ => rfl).bind fun _ _ => flashImageWrite_lawful _ _
  cases t with
  | eeprom4k => exact eep
  | eeprom64k => exact eep
  | sram256k => exact sram
  | sram512k => exact sram
  | flash512k => exact flash
  | flash1m => exact flash
  | unknown => trivial

theorem gbaWriteSave_lawful (own : powersDownGba op = true) : (gbaWriteSaveSteps op).Every (Lawful op) anyValue :=
  (look_lawful fun _ _ _ => rfl).bind fun _ _ => .ite (fun _ => trivial) fun _ =>
    (lawful_ensure (needBuf_blind _)).then <| (withGbaPower_lawful own (saveImageWrite_lawful _ _)).then trivial

/-! ## The dispatcher -/

theorem delegate_lawful {p q : Prog Word} (h : p.Every (Lawful op) anyValue) (k : q.Every (Lawful op) anyValue) :
    (delegateSteps p q).Every (Lawful op) anyValue :=
  (look_lawful fun _ _ _ => rfl).bind fun x _ => by
    cases x with
    | gb => exact h
    | gba => exact k
    | none => trivial

theorem gbxLoad_lawful (src : op = .gbxLoadhdr) : (gbxLoadSteps op).Every (Lawful op) anyValue :=
  Prog.Every.bind (Q := anyValue)
    (lawful_busRead (strobeReady_blind op) (pinRead_kept .det) fun _ => trivial) fun _ _ =>
    .ite (fun _ => (lawful_gbClear (by rw [src]; rfl)).then <| (gbaLoad_lawful (.inr src)).map fun _ _ => trivial)
      fun _ => (lawful_gbaClear (by rw [src]; rfl)).then <| (gbLoad_lawful (.inr src)).map fun _ _ => trivial

theorem writeAfter_lawful {v : Live} {clear : State → State} {w : Prog Word}
    (hc : (update clear).Every (Lawful op) anyValue) (hw : w.Every (Lawful op) anyValue) :
    (writeAfterSteps v clear w).Every (Lawful op) anyValue := by
  cases v with
  | absent => exact hc.then trivial
  | changed => exact hc.then trivial
  | same => exact hw

theorem gbxWrite_lawful (src : op = .gbxWritesave) : (gbxWriteSteps op).Every (Lawful op) anyValue :=
  (look_lawful fun _ _ _ => rfl).bind fun x _ => by
    subst src
    cases x with
    | none => trivial
    | gb =>
      exact (gbCheck_lawful rfl).bind fun _ _ => (look_lawful fun _ _ _ => rfl).bind fun _ _ =>
        writeAfter_lawful (lawful_gbClear rfl) (gbWriteSave_lawful rfl)
    | gba =>
      exact (gbaCheck_lawful rfl).bind fun _ _ => (look_lawful fun _ _ _ => rfl).bind fun _ _ =>
        writeAfter_lawful (lawful_gbaClear rfl) (gbaWriteSave_lawful rfl)

theorem text_lawful {f : State → Option (List Byte)} (h : ∀ q ins s, f (retime q ins s) = f s) :
    (textSteps f).Every (Lawful op) anyValue :=
  (look_lawful h).bind fun t _ => by
    cases t with
    | none => trivial
    | some t => exact (lawful_ensure (needBuf_blind _)).then <| (lawful_memWrite _ _).then trivial

/-! ## Every operation -/

/-- A check of `spi_ready` in front of lawful steps. -/
theorem init_lawful {p : Prog α} (i : Instr) (h : p.Every (Lawful op) P) :
    ((ensure (needInit i)).then p).Every (Lawful op) P := (lawful_ensure (needInit_blind i)).then h

theorem oneStep_lawful {kind : StepKind} {check : State → Except Fault Unit} {c : Coding α} {f : Bus → α × Bus}
    {v : α → Word} (hc : BlindCheck check) (kept : ∀ b, BusKept b (f b).2) :
    (oneStep op kind check c f v).Every (Lawful op) anyValue :=
  init_lawful _ (Prog.Every.map (Q := anyValue) (lawful_busRead hc kept fun _ => trivial) fun _ _ => trivial)

theorem oneWrite_lawful {kind : StepKind} {check : State → Except Fault Unit} {f : Bus → Bus} (hc : BlindCheck check)
    (kept : ∀ b, BusKept b (f b)) : (oneWrite op kind check f).Every (Lawful op) anyValue :=
  init_lawful _ ((lawful_busDo hc kept).then trivial)

theorem keepRx_lawful (rx : List Byte) : (keepRx rx).Every (Lawful op) anyValue :=
  lawful_update (fun _ _ _ => rfl) fun s => .rx s rx

theorem frameSteps_lawful (bytes : List Byte) : (frameSteps op bytes).Every (Lawful op) anyValue :=
  init_lawful _ (Prog.Every.bind (Q := anyValue)
    (lawful_busRead (busReady_blind op) (fun b => (BusKept.trans (c := trace (.frame bytes) b)
      ⟨⟨rfl, rfl, rfl, rfl⟩, id⟩ (expFrame_kept bytes _))) fun _ => trivial)
    fun _ _ => (keepRx_lawful _).then trivial)

theorem request_lawful (frm : Framing) (row : Nat) : (requestSteps op frm row).Every (Lawful op) anyValue :=
  init_lawful _ ((eepReadRow_lawful _ _).bind fun _ _ => (keepRx_lawful _).then trivial)

theorem storeRequest_lawful (frm : Framing) (row : Nat) (data : BitVec 64) :
    (storeRequestSteps op frm row data).Every (Lawful op) anyValue :=
  init_lawful _ ((eepWriteRow_lawful _ _ _).then <| (keepRx_lawful _).then trivial)

theorem getter_lawful {f : State → Word} (h : ∀ q ins s, f (retime q ins s) = f s) :
    (getterSteps f).Every (Lawful op) anyValue := look_lawful h

theorem strobe_kept (p : Pin) (v : Bool) (b : Bus) : BusKept b (strobe p v b) := by
  unfold strobe
  split
  · exact BusKept.trans (c := { b with env := rawGbWritePulse b }) ⟨⟨rfl, rfl, rfl, rfl⟩, id⟩ (pinWrite_kept p v _)
  · exact pinWrite_kept p v b

theorem xfer_lawful (len : Half) : (xferSteps len).Every (Lawful (.xfer len)) anyValue := by
  refine init_lawful _ <| (lawful_ensure (needBuf_blind _)).then <| (lawful_memRead _ _).bind fun tx _ =>
    Prog.Every.bind (Q := anyValue) (lawful_step (fun _ _ _ => rfl) (fun q ins s => ?_) (fun s _ => ?_)
      fun _ => trivial) fun _ _ => (lawful_memWrite _ _).then trivial
  · have e : (retime q ins s).csForceIdle = s.csForceIdle := rfl
    simp only [spi, e]
    cases s.csForceIdle <;> rfl
  · refine .bus s _ ?_
    cases s.csForceIdle
    · exact BusKept.trans (c := trace (.frame tx) s.bus) ⟨⟨rfl, rfl, rfl, rfl⟩, id⟩ (expFrame_kept tx _)
    · exact BusKept.trans (c := trace (.bare tx) s.bus) ⟨⟨rfl, rfl, rfl, rfl⟩, id⟩ (anyReplies_kept tx _)

/-- Every step of every well-formed operation is lawful. -/
theorem program_lawful (i : Instr) (wf : i.wellFormed = true) : (program i).Every (Lawful i) anyValue := by
  cases i with
  | init hz =>
    exact lawful_step (P := anyValue) (check := always) (c := asWord) (fun _ _ _ => rfl) (fun q ins s => by
      have e : (answer .hostMapOk (retime q ins s).bus) = answer .hostMapOk s.bus := rfl
      simp only [initialise, e]
      split <;> rfl) (fun s _ => .init s hz rfl) fun _ => trivial
  | xfer len => exact xfer_lawful len
  | stbDir pin dir =>
    refine init_lawful _ ((lawful_busDo (strobeReady_blind _) (pinDirect_kept ?_)).then trivial)
    cases dir <;> cases pin <;> first | exact .inr rfl | exact .inl (by decide) | exact absurd wf (by decide)
  | stbWr pin level => exact init_lawful _ ((lawful_busDo (strobeReady_blind _) (strobe_kept pin level)).then trivial)
  | stbRd pin =>
    exact init_lawful _ (Prog.Every.map (Q := anyValue)
      (lawful_busRead (strobeReady_blind _) (pinRead_kept pin) fun _ => trivial) fun _ _ => trivial)
  | lock force key => exact (lawful_lockStep (by simpa [Instr.wellFormed] using wf) (.inr rfl)).then trivial
  | unlock key => exact (lawful_releaseLock (.inr rfl)).then trivial
  | setbuf buf => exact (lawful_update (fun _ _ _ => rfl) fun s => .setbuf s buf rfl).then trivial
  | expDir port mask => exact oneWrite_lawful (busReady_blind _) (portWrite_kept _ _ _)
  | expPull port mask => exact oneWrite_lawful (busReady_blind _) (portWrite_kept _ _ _)
  | expWr port val => exact oneWrite_lawful (busReady_blind _) (portWrite_kept _ _ _)
  | expRd port => exact oneStep_lawful (busReady_blind _) fun _ => ⟨⟨rfl, rfl, rfl, rfl⟩, id⟩
  | expDir2 chip pair => exact oneWrite_lawful (busReady_blind _) (chipWrite_kept _ _ _ _)
  | expPull2 chip pair => exact oneWrite_lawful (busReady_blind _) (chipWrite_kept _ _ _ _)
  | expWr2 chip pair => exact oneWrite_lawful (busReady_blind _) (chipWrite_kept _ _ _ _)
  | expRd2 chip => exact oneStep_lawful (busReady_blind _) fun _ => ⟨⟨rfl, rfl, rfl, rfl⟩, id⟩
  | crdStart chip => exact oneWrite_lawful (busReady_blind _) fun _ => ⟨⟨rfl, rfl, rfl, rfl⟩, id⟩
  | crdCont => exact oneStep_lawful (streamReady_blind _) fun _ => ⟨⟨rfl, rfl, rfl, rfl⟩, id⟩
  | crdEnd => exact oneWrite_lawful (streamReady_blind _) fun _ => ⟨⟨rfl, rfl, rfl, rfl⟩, id⟩
  | gbPwrup =>
    exact init_lawful _ <| (lawful_ensure fun _ _ _ => rfl).then <| (lawful_within gbPowerUp_lawful).then <|
      (lawful_update (fun _ _ _ => rfl) fun s => .claimGb s rfl).then trivial
  | gbPwrdn => exact init_lawful _ <| gbPowerDown_lawful.then <| (gbFlagOff_lawful rfl).then trivial
  | gbaPwrup =>
    exact init_lawful _ <| (lawful_ensure fun _ _ _ => rfl).then <| (lawful_within gbaPowerUp_lawful).then <|
      (lawful_update (fun _ _ _ => rfl) fun s => .claimGba s rfl).then trivial
  | gbaPwrdn => exact init_lawful _ <| gbaPowerDown_lawful.then <| (gbaFlagOff_lawful rfl).then trivial
  | gbBusrd addr => exact init_lawful _ ((gbRead_lawful _).map fun _ _ => trivial)
  | gbBuswr addr data =>
    exact init_lawful _ <| (gbWrite_lawful _ _).then <| (lawful_update (fun _ _ _ => rfl) fun s =>
      .bus s { s.bus with mbcw := mbcwRaw s.gb addr data s.bus.mbcw } ⟨⟨rfl, rfl, rfl, rfl⟩, id⟩).then trivial
  | gbRombank mbc bank => exact init_lawful _ ((mbcSteps_lawful _ _).then trivial)
  | gbRamopen mbc => exact init_lawful _ ((mbcSteps_lawful _ _).then trivial)
  | gbRambank mbc bank => exact init_lawful _ ((mbcSteps_lawful _ _).then trivial)
  | gbRamclose mbc => exact init_lawful _ ((mbcSteps_lawful _ _).then trivial)
  | gbLoadhdr => exact init_lawful _ (gbLoad_lawful (.inl rfl))
  | gbIsloaded => exact init_lawful _ (gbIsLoaded_lawful rfl rfl)
  | gbReadrom => exact init_lawful _ (gbReadRom_lawful rfl)
  | gbReadsave => exact init_lawful _ (gbReadSave_lawful rfl)
  | gbWritesave => exact init_lawful _ (gbWriteSave_lawful rfl)
  | gbClear => exact (lawful_gbClear rfl).then trivial
  | gbaRomrd addr len =>
    exact init_lawful _ <| (lawful_ensure (needBuf_blind _)).then <| (gbaBytes_lawful _ _).bind fun _ _ =>
      (lawful_memWrite _ _).then trivial
  | gbaLoadhdr => exact init_lawful _ (gbaLoad_lawful (.inl rfl))
  | gbaIsloaded => exact init_lawful _ (gbaIsLoaded_lawful rfl rfl)
  | gbaReadrom => exact init_lawful _ (gbaReadRom_lawful rfl)
  | gbaProbesize =>
    exact init_lawful _ <| withGbaPower_lawful rfl <| gbaHeader_lawful.bind fun h _ =>
      (gbaProbeSize_lawful h).mono (fun _ h => h) fun _ _ => trivial
  | gbaClear => exact (lawful_gbaClear rfl).then trivial
  | gbaClassify => exact init_lawful _ ((classify_lawful rfl).map fun _ _ => trivial)
  | eepRdrow frm row =>
    exact init_lawful _ <| (lawful_ensure (needBuf_blind _)).then <| (eepReadRow_lawful _ _).bind fun _ _ =>
      (lawful_memWrite _ _).then trivial
  | eepWrrow frm row =>
    exact init_lawful _ <| (lawful_ensure (needBuf_blind _)).then <| (lawful_memRead _ _).bind fun _ _ =>
      (eepWriteRow_lawful _ _ _).then trivial
  | saveRd addr => exact init_lawful _ ((saveRead_lawful _).map fun _ _ => trivial)
  | saveWr addr data => exact init_lawful _ ((saveWrite_lawful _ _).then trivial)
  | flashId => exact init_lawful _ (flashId_lawful.map fun _ _ => trivial)
  | flashBank bank => exact init_lawful _ ((flashBank_lawful _).then trivial)
  | flashErase addr => exact init_lawful _ ((flashErase_lawful _).then trivial)
  | flashProg addr data => exact init_lawful _ ((flashProg_lawful _ _).then trivial)
  | flashProg128 addr =>
    exact init_lawful _ <| (lawful_ensure (needBuf_blind _)).then <| (lawful_memRead _ _).bind fun _ _ =>
      (flashProg128_lawful _ _).then trivial
  | gbaReadsave => exact init_lawful _ (gbaReadSave_lawful rfl)
  | gbaWritesave => exact init_lawful _ (gbaWriteSave_lawful rfl)
  | gbxLoadhdr => exact init_lawful _ (lawful_underLock rfl (gbxLoad_lawful rfl))
  | gbxIsloaded => exact init_lawful _ (lawful_underLock rfl (delegate_lawful (gbIsLoaded_lawful rfl rfl) (gbaIsLoaded_lawful rfl rfl)))
  | gbxType => exact getter_lawful fun _ _ _ => rfl
  | gbxTitle => exact text_lawful fun _ _ _ => rfl
  | gbxIdent => exact text_lawful fun _ _ _ => rfl
  | gbxRomsize => exact getter_lawful fun _ _ _ => rfl
  | gbxSavesize => exact getter_lawful fun _ _ _ => rfl
  | gbxReadrom => exact init_lawful _ (lawful_underLock rfl (delegate_lawful (gbReadRom_lawful rfl) (gbaReadRom_lawful rfl)))
  | gbxReadsave => exact init_lawful _ (lawful_underLock rfl (delegate_lawful (gbReadSave_lawful rfl) (gbaReadSave_lawful rfl)))
  | gbxWritesave => exact init_lawful _ (lawful_underLock rfl (gbxWrite_lawful rfl))
  | gbxTRom => exact getter_lawful fun _ _ _ => rfl
  | gbxTRdsave => exact getter_lawful fun _ _ _ => rfl
  | gbxTWrsave => exact getter_lawful fun _ _ _ => rfl
  | gbxClear => exact lawful_underLock rfl ((lawful_gbClear rfl).then <| (lawful_gbaClear rfl).then trivial)
  | wireExpFrame3Wr chip reg data => exact frameSteps_lawful _
  | wireExpFrame3Rd chip reg => exact frameSteps_lawful _
  | wireExpFrame4Wr chip reg first second => exact frameSteps_lawful _
  | wireExpFrame4Rd chip => exact frameSteps_lawful _
  | wireCrdHeader chip =>
    exact init_lawful _ <|
      (lawful_busDo (f := crdStart chip) (busReady_blind _) fun _ => ⟨⟨rfl, rfl, rfl, rfl⟩, id⟩).then <|
      (keepRx_lawful []).then (Prog.Every.ret (v := (0 : Word)) trivial)
  | wireEepRead4k row => exact request_lawful _ _
  | wireEepRead64k row => exact request_lawful _ _
  | wireEepWrite4k row data => exact storeRequest_lawful _ _ _
  | wireEepWrite64k row data => exact storeRequest_lawful _ _ _

end Sys2Proof.Machine
end

