-- ==== Sys2Proof/Laws/Wiring.lean ====
section
/-! SUPPORT. The pin-level steps (`20_memory.md` R96) of the primitives that the engines repeat, and of their
repetitions. -/

namespace Sys2Proof.Machine

/-- Traces of two runs, one after the other. -/
theorem Traces.append {b c d : Bus} {x y : List WireEvent} (h : Traces b c x) (k : Traces c d y) :
    Traces b d (x ++ y) := by
  simp only [Traces] at *
  rw [k, h, List.reverse_append, List.append_assoc]

/-- The RAM window's select line around a strobe (`43_gb_engine.md` R251). -/
theorem ramSelect_traces (a : Half) (v : Bool) (b : Bus) :
    Traces b (ramSelect a v b) (if inRamWindow a then levels [(.gbCs, v)] else []) := by
  unfold ramSelect
  split <;> simp [Traces, levels]

theorem eepOut_traces (v : Bool) (b : Bus) : Traces b (eepOut v b)
    (frames [[0x40, 0x12, if v then 0x01 else 0x00]] ++ levels [(.gbaWr, false)] ++ [.wait .eepBit] ++
      levels [(.gbaWr, true)] ++ [.wait .eepBit]) := by
  simp [Traces, eepOut, frames, levels, expWrite, ad0Byte, devOpcode, regAddr, portChip, isSecond]

theorem eepIn_traces (b : Bus) : Traces b (eepIn b).2
    (levels [(.gbaRd, false)] ++ [.wait .eepBit] ++ frames [[0x41, 0x12, 0x00]] ++
      levels [(.gbaRd, true)] ++ [.wait .eepBit]) := by
  simp [Traces, eepIn, frames, levels, expReadAs, devOpcode, regAddr, portChip, isSecond]

theorem eepBegin_traces (b : Bus) : Traces b (eepBegin b)
    (frames [[0x40, 0x12, 0x80, 0xFF], [0x42, 0x12, 0xFF]] ++ levels [(.gbaCs, false)]) := by
  simp [Traces, eepBegin, frames, levels, expWrite, expWrite2, devOpcode, regAddr, portChip, isSecond, haByte0,
    haByte1, haByte2, Config.eepBusHa]

theorem eepTurn_traces (b : Bus) : Traces b (eepTurn b) (frames [[0x40, 0x00, 0x01]]) := by
  simp [Traces, eepTurn, frames, expDir, devOpcode, regAddr, portChip, isSecond]

theorem eepEnd_traces (b : Bus) : Traces b (eepEnd b) (levels [(.gbaCs, true)] ++ frames [[0x40, 0x00, 0x00]]) := by
  simp [Traces, eepEnd, frames, levels, expDir, devOpcode, regAddr, portChip, isSecond]

/-- Bits clocked out, each as `w` says. -/
theorem eepSend_traces {w : Bool → List WireEvent} (step : ∀ v b, Traces b (eepOut v b) (w v)) (bits : List Bool)
    (b : Bus) : Traces b (eepSend bits b) (bits.map w).flatten := by
  induction bits generalizing b with
  | nil => simp [Traces, eepSend]
  | cons v vs ih => exact (step v b).append (ih _)

/-- A loop of steps that all have the same trace. -/
theorem gather_traces {α : Type} {w : List WireEvent} (f : Nat → Bus → α × Bus)
    (step : ∀ k b, Traces b (f k b).2 w) (n : Nat) (b : Bus) :
    Traces b (gather n f b).2 (List.replicate n w).flatten := by
  have key : ∀ n, Traces b (gatherRev n f b).2 (List.replicate n w).flatten := by
    intro n
    induction n with
    | zero => simp [Traces, gatherRev]
    | succ n ih =>
      rw [List.replicate_succ', List.flatten_append, List.flatten_cons, List.flatten_nil, List.append_nil]
      exact ih.append (step n _)
  exact key n

end Sys2Proof.Machine
end

