-- ==== Sys2Proof/Tests/Slice0.lean ====
section
/-! SUPPORT. Tests: ill-formed operands refused, a hand-written encoding of every row decoded, one step of
single operations against `spec/95_test_vectors.md`, and for every statement with hypotheses a state that
meets them. -/

namespace Sys2Proof.Tests

open Sys2Proof Sys2Proof.Machine

/-! ## Well-formedness: each check refuses (`95_test_vectors.md` V2) -/

theorem test_wf_xfer_zero : (Instr.xfer 0).wellFormed = false := rfl
theorem test_wf_det_output : (Instr.stbDir .det .output).wellFormed = false := rfl
theorem test_wf_det_write : (Instr.stbWr .det true).wellFormed = false := rfl
theorem test_wf_lock_zero : (Instr.lock false 0).wellFormed = false := rfl
theorem test_wf_unlock_zero : (Instr.unlock 0).wellFormed = false := rfl
theorem test_wf_romrd_odd_address : (Instr.gbaRomrd 1 4).wellFormed = false := rfl
theorem test_wf_romrd_odd_length : (Instr.gbaRomrd 0 3).wellFormed = false := rfl
theorem test_wf_romrd_zero_length : (Instr.gbaRomrd 0 0).wellFormed = false := rfl
theorem test_wf_rdrow_64 : (Instr.eepRdrow .k4 64).wellFormed = false := rfl
theorem test_wf_wrrow_1024 : (Instr.eepWrrow .k64 1024).wellFormed = false := rfl
theorem test_wf_prog128_unaligned : (Instr.flashProg128 0x0081).wellFormed = false := rfl
theorem test_wf_frame3_write_register : (Instr.wireExpFrame3Wr .ab 0x02 0).wellFormed = false := rfl
theorem test_wf_frame3_read_register : (Instr.wireExpFrame3Rd .ab 0x14).wellFormed = false := rfl
theorem test_wf_frame4_write_register : (Instr.wireExpFrame4Wr .cd 0x0B 0 0).wellFormed = false := rfl

/-! ## Decoding: a word of every row, written out from `30_encoding.md` R120 to R150 -/

/-- Transport and lock; the words of V1. -/
theorem test_decode_transport :
    decodeRequest (.word 0x0100_0000_007A1200) = .ok (.init 8000000) ∧
    decodeRequest (.word 0x0200_0003_00000000) = .ok (.xfer 3) ∧
    decodeRequest (.word 0x0303_0001_00000000) = .ok (.stbDir .gbWr .output) ∧
    decodeRequest (.word 0x0406_0000_00000000) = .ok (.stbWr .gbaCs2 false) ∧
    decodeRequest (.word 0x0509_0000_00000000) = .ok (.stbRd .det) ∧
    decodeRequest (.word 0x0601_0000_47425821) = .ok (.lock true 0x47425821) ∧
    decodeRequest (.word 0x0700_0000_47425821) = .ok (.unlock 0x47425821) ∧
    decodeRequest (.word 0x0800_0000_00100000) = .ok (.setbuf 0x00100000) :=
  ⟨rfl, rfl, rfl, rfl, rfl, rfl, rfl, rfl⟩

/-- Port expander; the words of V8. -/
theorem test_decode_expander :
    decodeRequest (.word 0x1001_00F0_00000000) = .ok (.expDir .b 0xF0) ∧
    decodeRequest (.word 0x1102_00FF_00000000) = .ok (.expPull .c 0xFF) ∧
    decodeRequest (.word 0x1203_0001_00000000) = .ok (.expWr .d 0x01) ∧
    decodeRequest (.word 0x1302_0000_00000000) = .ok (.expRd .c) ∧
    decodeRequest (.word 0x1400_FFFF_00000000) = .ok (.expDir2 .ab 0xFFFF) ∧
    decodeRequest (.word 0x1501_0000_00000000) = .ok (.expPull2 .cd 0) ∧
    decodeRequest (.word 0x1601_A55A_00000000) = .ok (.expWr2 .cd 0xA55A) ∧
    decodeRequest (.word 0x1700_0000_00000000) = .ok (.expRd2 .ab) ∧
    decodeRequest (.word 0x1801_0000_00000000) = .ok (.crdStart .cd) ∧
    decodeRequest (.word 0x1900_0000_00000000) = .ok .crdCont ∧
    decodeRequest (.word 0x1A00_0000_00000000) = .ok .crdEnd :=
  ⟨rfl, rfl, rfl, rfl, rfl, rfl, rfl, rfl, rfl, rfl, rfl⟩

/-- Power sequencer (V16 to V19). -/
theorem test_decode_power :
    decodeRequest (.word 0x2000_0000_00000000) = .ok .gbPwrup ∧
    decodeRequest (.word 0x2100_0000_00000000) = .ok .gbPwrdn ∧
    decodeRequest (.word 0x2200_0000_00000000) = .ok .gbaPwrup ∧
    decodeRequest (.word 0x2300_0000_00000000) = .ok .gbaPwrdn :=
  ⟨rfl, rfl, rfl, rfl⟩

/-- GB/GBC engine (V1, V20 to V22 and the opcode map). -/
theorem test_decode_gb :
    decodeRequest (.word 0x3000_0000_00000104) = .ok (.gbBusrd 0x0104) ∧
    decodeRequest (.word 0x3100_000A_00006000) = .ok (.gbBuswr 0x6000 0x0A) ∧
    decodeRequest (.word 0x3205_0101_00000000) = .ok (.gbRombank .mbc5 0x101) ∧
    decodeRequest (.word 0x3302_0000_00000000) = .ok (.gbRamopen .mbc2) ∧
    decodeRequest (.word 0x3405_0009_00000000) = .ok (.gbRambank .mbc5 9) ∧
    decodeRequest (.word 0x3503_0000_00000000) = .ok (.gbRamclose .mbc3) ∧
    decodeRequest (.word 0x3600_0000_00000000) = .ok .gbLoadhdr ∧
    decodeRequest (.word 0x3700_0000_00000000) = .ok .gbIsloaded ∧
    decodeRequest (.word 0x3800_0000_00000000) = .ok .gbReadrom ∧
    decodeRequest (.word 0x3900_0000_00000000) = .ok .gbReadsave ∧
    decodeRequest (.word 0x3A00_0000_00000000) = .ok .gbWritesave ∧
    decodeRequest (.word 0x3B00_0000_00000000) = .ok .gbClear :=
  ⟨rfl, rfl, rfl, rfl, rfl, rfl, rfl, rfl, rfl, rfl, rfl, rfl⟩

/-- GBA ROM engine (V1, V35 and the opcode map). -/
theorem test_decode_gba :
    decodeRequest (.word 0x4000_00C8_003FFFF8) = .ok (.gbaRomrd 0x3FFFF8 200) ∧
    decodeRequest (.word 0x4100_0000_00000000) = .ok .gbaLoadhdr ∧
    decodeRequest (.word 0x4200_0000_00000000) = .ok .gbaIsloaded ∧
    decodeRequest (.word 0x4300_0000_00000000) = .ok .gbaReadrom ∧
    decodeRequest (.word 0x4400_0000_00000000) = .ok .gbaProbesize ∧
    decodeRequest (.word 0x4500_0000_00000000) = .ok .gbaClear :=
  ⟨rfl, rfl, rfl, rfl, rfl, rfl⟩

/-- GBA save engine (V1, V61, V62 and the opcode map). -/
theorem test_decode_save :
    decodeRequest (.word 0x5000_0000_00000000) = .ok .gbaClassify ∧
    decodeRequest (.word 0x5100_0005_00000000) = .ok (.eepRdrow .k4 5) ∧
    decodeRequest (.word 0x5201_03FF_00000000) = .ok (.eepWrrow .k64 1023) ∧
    decodeRequest (.word 0x5300_0000_0000FFFF) = .ok (.saveRd 0xFFFF) ∧
    decodeRequest (.word 0x5400_00AA_00005555) = .ok (.saveWr 0x5555 0xAA) ∧
    decodeRequest (.word 0x5500_0000_00000000) = .ok .flashId ∧
    decodeRequest (.word 0x5600_0001_00000000) = .ok (.flashBank true) ∧
    decodeRequest (.word 0x5700_0000_00001234) = .ok (.flashErase 0x1234) ∧
    decodeRequest (.word 0x5800_0012_00000100) = .ok (.flashProg 0x0100 0x12) ∧
    decodeRequest (.word 0x5900_0000_00000080) = .ok (.flashProg128 0x0080) ∧
    decodeRequest (.word 0x5A00_0000_00000000) = .ok .gbaReadsave ∧
    decodeRequest (.word 0x5B00_0000_00000000) = .ok .gbaWritesave :=
  ⟨rfl, rfl, rfl, rfl, rfl, rfl, rfl, rfl, rfl, rfl, rfl, rfl⟩

/-- Dispatcher (the opcode map). -/
theorem test_decode_dispatcher :
    decodeRequest (.word 0x6000_0000_00000000) = .ok .gbxLoadhdr ∧
    decodeRequest (.word 0x6100_0000_00000000) = .ok .gbxIsloaded ∧
    decodeRequest (.word 0x6200_0000_00000000) = .ok .gbxType ∧
    decodeRequest (.word 0x6300_0000_00000000) = .ok .gbxTitle ∧
    decodeRequest (.word 0x6400_0000_00000000) = .ok .gbxIdent ∧
    decodeRequest (.word 0x6500_0000_00000000) = .ok .gbxRomsize ∧
    decodeRequest (.word 0x6600_0000_00000000) = .ok .gbxSavesize ∧
    decodeRequest (.word 0x6700_0000_00000000) = .ok .gbxReadrom ∧
    decodeRequest (.word 0x6800_0000_00000000) = .ok .gbxReadsave ∧
    decodeRequest (.word 0x6900_0000_00000000) = .ok .gbxWritesave ∧
    decodeRequest (.word 0x6A00_0000_00000000) = .ok .gbxTRom ∧
    decodeRequest (.word 0x6B00_0000_00000000) = .ok .gbxTRdsave ∧
    decodeRequest (.word 0x6C00_0000_00000000) = .ok .gbxTWrsave ∧
    decodeRequest (.word 0x6D00_0000_00000000) = .ok .gbxClear :=
  ⟨rfl, rfl, rfl, rfl, rfl, rfl, rfl, rfl, rfl, rfl, rfl, rfl, rfl, rfl⟩

/-- Expander frames (V8). -/
theorem test_decode_frames :
    decodeRequest (.frame [0x42, 0x0C, 0xFF]) = .ok (.wireExpFrame3Wr .cd 0x0C 0xFF) ∧
    decodeRequest (.frame [0x43, 0x12, 0x00]) = .ok (.wireExpFrame3Rd .cd 0x12) ∧
    decodeRequest (.frame [0x42, 0x12, 0x5A, 0xA5]) = .ok (.wireExpFrame4Wr .cd 0x12 0x5A 0xA5) ∧
    decodeRequest (.frame [0x41, 0x12, 0x00, 0x00]) = .ok (.wireExpFrame4Rd .ab) ∧
    decodeRequest (.frame [0x43, 0x12]) = .ok (.wireCrdHeader .cd) :=
  ⟨rfl, rfl, rfl, rfl, rfl⟩

/-- The 64 bits of `0x8000000000000003`, first bit first. -/
def wideBits : List Bool := true :: (List.replicate 61 false ++ [true, true])

/-- EEPROM requests (`30_encoding.md` R150, V62): `11` or `10`, the row, the data, the stop bit. -/
theorem test_decode_eeprom :
    decodeRequest (.eep [true, true, false, false, false, true, false, true, false]) = .ok (.wireEepRead4k 5) ∧
    decodeRequest (.eep [true, true, false, false, false, false, true, true, true, true, true, true, true, true, true, true, false]) = .ok (.wireEepRead64k 1023) ∧
    decodeRequest (.eep ([true, false, false, false, false, true, false, true] ++ wideBits ++ [false])) = .ok (.wireEepWrite4k 5 0x8000000000000003) ∧
    decodeRequest (.eep ([true, false] ++ List.replicate 13 false ++ [true] ++ wideBits ++ [false])) = .ok (.wireEepWrite64k 1 0x8000000000000003) :=
  ⟨rfl, rfl, rfl, rfl⟩

/-- Reserved words (V2), one for each reason. -/
theorem test_decode_refused :
    decodeRequest (.word 0x2400_0000_00000000) = .error .opcode ∧
    decodeRequest (.word 0x7000_0000_00000000) = .error .opcode ∧
    decodeRequest (.word 0xFFFF_FFFF_FFFFFFFF) = .error .opcode ∧
    decodeRequest (.word 0x2000_0000_00000001) = .error .mustBeZero ∧
    decodeRequest (.word 0x1901_0000_00000000) = .error .mustBeZero ∧
    decodeRequest (.word 0x0201_0003_00000000) = .error .mustBeZero ∧
    decodeRequest (.word 0x0403_0002_00000000) = .error .mustBeZero ∧
    decodeRequest (.word 0x1200_0100_00000000) = .error .mustBeZero ∧
    decodeRequest (.word 0x3000_0000_00010000) = .error .mustBeZero ∧
    decodeRequest (.word 0x4000_0002_02000000) = .error .mustBeZero ∧
    decodeRequest (.word 0x5600_0002_00000000) = .error .mustBeZero ∧
    decodeRequest (.word 0x030A_0001_00000000) = .error .selector ∧
    decodeRequest (.word 0x1204_0000_00000000) = .error .selector ∧
    decodeRequest (.word 0x1602_0000_00000000) = .error .selector ∧
    decodeRequest (.word 0x3204_0001_00000000) = .error .selector ∧
    decodeRequest (.word 0x0200_0000_00000000) = .error .operand ∧
    decodeRequest (.word 0x0309_0001_00000000) = .error .operand ∧
    decodeRequest (.word 0x0409_0000_00000000) = .error .operand ∧
    decodeRequest (.word 0x0600_0000_00000000) = .error .operand ∧
    decodeRequest (.word 0x4000_0003_00000000) = .error .operand ∧
    decodeRequest (.word 0x5100_0040_00000000) = .error .operand ∧
    decodeRequest (.word 0x5900_0000_00000081) = .error .operand ∧
    decodeRequest (.frame [0x44, 0x12, 0x00]) = .error .frame ∧
    decodeRequest (.frame [0x41, 0x12, 0x01]) = .error .frame :=
  ⟨rfl, rfl, rfl, rfl, rfl, rfl, rfl, rfl, rfl, rfl, rfl, rfl, rfl, rfl, rfl, rfl, rfl, rfl, rfl, rfl, rfl, rfl, rfl, rfl⟩

/-- The operand limits that are accepted (V2, the neighbours). -/
theorem test_decode_limits :
    decodeRequest (.word 0x0200_FFFF_00000000) = .ok (.xfer 65535) ∧
    decodeRequest (.word 0x0309_0000_00000000) = .ok (.stbDir .det .input) ∧
    decodeRequest (.word 0x3201_01FF_00000000) = .ok (.gbRombank .mbc1 0x1FF) ∧
    decodeRequest (.word 0x4000_FFFE_01FFFFFE) = .ok (.gbaRomrd 0x1FFFFFE 65534) :=
  ⟨rfl, rfl, rfl, rfl⟩

/-- The host's numbering: a command word, a frame with its first byte highest, a 9-bit request. -/
theorem test_table_word :
    decodeTableWord 64 0x0800000000100000 = some (.setbuf 0x00100000) ∧
    decodeTableWord 24 0x4212A5 = some (.wireExpFrame3Wr .cd 0x12 0xA5) ∧
    decodeTableWord 16 0x18A = some (.wireEepRead4k 5) ∧
    decodeTableWord 64 0x7000000000000000 = none :=
  ⟨rfl, rfl, rfl, rfl⟩

/-- Encoding gives the same words back. -/
theorem test_encode :
    encode (.gbaRomrd 0x3FFFF8 200) = .word 0x4000_00C8_003FFFF8 ∧
    encode (.eepWrrow .k64 1023) = .word 0x5201_03FF_00000000 ∧
    encode (.wireExpFrame4Wr .cd 0x12 0x5A 0xA5) = .frame [0x42, 0x12, 0x5A, 0xA5] :=
  ⟨rfl, rfl, rfl⟩

/-! ## States the tests and witnesses start from -/

/-- Initialised, nothing powered, no session, free lock. -/
def ready : State := { State.reset with spiReady := true }

/-- The agent's buffer set. -/
def buffered (buf : Word) (s : State) : State := { s with me := { s.me with bufp := buf, bufSet := true } }

/-- A GB/GBC session. -/
def gbSession (mbc : Mbc) (save : Word) : GbSession where
  loaded := true
  title := [0x41]
  cgb := .unsupported
  mbc := mbc
  romSize := 65536
  saveSize := save
  sha1 := List.replicate 40 0x30

/-- A GBA session. -/
def gbaSession (kind : SaveType) (mfr : Byte) : GbaSession where
  loaded := true
  title := List.replicate 12 0x41
  code := List.replicate 4 0x42
  maker := List.replicate 2 0x30
  romSize := 0x400000
  saveType := kind
  saveSize := saveTypeSize kind
  flashMfr := mfr
  flashDev := 0x3D

/-- A loaded GB/GBC session, the buffer at the last address at which a 64 KB image still fits. -/
def gbLoaded (mbc : Mbc) (save : Word) : State := buffered 0xFFFF0000 { ready with gb := gbSession mbc save }

/-- A loaded GBA session, the buffer at the last address at which a 4 MB image still fits. -/
def gbaLoaded (kind : SaveType) (mfr : Byte) : State :=
  buffered 0xFFC00000 { ready with gba := gbaSession kind mfr }

/-- A state with its bus side changed. -/
def onBusOf (f : Bus → Bus) (s : State) : State := { s with bus := f s.bus }

/-- The environment's GB/GBC slot filled. -/
def gbSlot (c : GbSlot) : State → State := onBusOf fun b => { b with env := { b.env with gb := c } }

/-- The environment's GBA slot filled. -/
def gbaSlot (c : GbaSlot) : State → State := onBusOf fun b => { b with env := { b.env with gba := c } }

/-- A slot's power flag set. -/
def gbOn : State → State := onBusOf fun b => { b with pwrGb := true, ownGb := some 0 }
def gbaOn : State → State := onBusOf fun b => { b with pwrGba := true, ownGba := some 0 }

/-- Port C an input, as a power-up of the GB slot leaves it. -/
def portCIn : State → State := onBusOf fun b => { b with exp := { b.exp with c := { b.exp.c with dir := 0xFF } } }

/-- A reference GB/GBC cartridge of 8 banks whose bytes are `fill` (V20). -/
def cart (m : Mbc) : GbCart where
  kind := m
  rom := { size := 0x20000, base := .fill, edits := [] }
  ram := { size := 0x8000, base := .sv, edits := [] }
  ramen := false
  romb := 1
  b2 := 0
  mode := false
  ramb := 0

/-- The machine after a step, if there is one. -/
def after (o : Host.Outcome State Fault Refusal) : Option State :=
  match o with
  | .next t => some t
  | _ => none

/-- The result an operation returned. -/
def result (i : Instr) (s : State) : Option Word := (after (exec i s)).map fun t => t.me.res

/-- The events an operation added, oldest first. -/
def events (i : Instr) (s : State) : Option (List BusEvent) := (after (exec i s)).map fun t => t.bus.hist.reverse

/-- A second operation after a first. -/
def andThen (i j : Instr) (s : State) : Option Word := (after (exec i s)).bind (result j)

/-- The sent SPI frames of an operation, oldest first. -/
def frames (i : Instr) (s : State) : Option (List (List Byte)) :=
  (after (exec i s)).map fun t => t.bus.wire.reverse.filterMap fun w =>
    match w with
    | .frame tx => some tx
    | _ => none

/-! ## One step, against the vectors -/

/-- V4: `INIT` when the host refuses to map the registers. -/
theorem test_init_fails :
    result (.init 8000000) { State.reset with bus := { Bus.reset with env := { Env.unconstrained with hostMap := some false } } }
      = some 0xFFFFFFFC := rfl

/-- V4: and when it does not. -/
theorem test_init_maps :
    (after (exec (.init 8000000)
      { State.reset with bus := { Bus.reset with env := { Env.unconstrained with hostMap := some true } } })).map
      (fun t => (t.me.res, t.spiReady)) = some (0, true) := rfl

/-- V3: before `INIT`. -/
theorem test_not_initialised : exec (.gbBusrd 0) State.reset = .fault (.notInitialised (.gbBusrd 0)) := rfl

/-- V3: the encoding is checked first. -/
theorem test_illegal_before_init :
    (after (step { State.reset with me := { State.reset.me with cmd := some (.word 0x3000_0000_00010000) } })).map
      (fun t => (t.me.res, t.me.cmd)) = some (0xFFFFFFFB, none) := rfl

/-- V5: a free lock is taken; V3: before `INIT` too. -/
theorem test_lock_takes :
    (after (exec (.lock true 7) State.reset)).map (fun t => (t.me.res, t.lock, t.csForceIdle)) = some (0, 7, true) := rfl

/-- V5: another key blocks. -/
theorem test_lock_blocks :
    (after (exec (.lock false 0x11111111) { ready with lock := 7 })).map (fun t => (t.me.resSet, t.me.seq, t.lock))
      = some (false, .held (.lock false 0x11111111), 7) := rfl

/-- V5: a non-matching key releases nothing. -/
theorem test_unlock_other_key :
    (after (exec (.unlock 8) { ready with lock := 7, csForceIdle := true })).map (fun t => (t.me.res, t.lock, t.csForceIdle))
      = some (0, 7, true) := rfl

/-- V5: the matching one releases both. -/
theorem test_unlock_matching_key :
    (after (exec (.unlock 7) { ready with lock := 7, csForceIdle := true })).map (fun t => (t.me.res, t.lock, t.csForceIdle))
      = some (0, 0, false) := rfl

/-- V6: `SETBUF` is the agent's own. -/
theorem test_setbuf : (after (exec (.setbuf 0x1000) State.reset)).map (fun t => (t.me.bufp, t.me.bufSet)) = some (0x1000, true) := rfl

/-- V3: `44 12 00` is no frame. -/
theorem test_xfer_unknown_frame :
    exec (.xfer 3) (buffered 0x1000 { ready with hbuf := { cells := [(0x1000, 0x44), (0x1001, 0x12)] } })
      = .fault (.unknownExpanderFrame [0x44, 0x12, 0x00]) := rfl

/-- V6: `40 12 A5` through `XFER` writes port A's latch. -/
theorem test_xfer_frame_writes :
    (after (exec (.xfer 3)
      (buffered 0x1000 { ready with hbuf := { cells := [(0x1000, 0x40), (0x1001, 0x12), (0x1002, 0xA5)] } }))).map
      (fun t => (t.me.res, t.bus.exp.a.out)) = some (3, 0xA5) := rfl

/-- V7: direction and level are apart, and an output reads back its level. -/
theorem test_strobe_direction : (after (exec (.stbDir .gbWr .output) ready)).map (fun t => (t.bus.pins.gbWr.dir, t.bus.pins.gbWr.out)) = some (.output, false) := rfl
theorem test_strobe_write : (after (exec (.stbWr .gbaCs2 true) ready)).map (fun t => (t.bus.pins.gbaCs2.dir, t.bus.pins.gbaCs2.out)) = some (.input, true) := rfl
theorem test_strobe_read :
    result (.stbRd .gbWr) (onBusOf (fun b => { b with pins := { b.pins with gbWr := { dir := .output, out := true } } }) ready)
      = some 1 := rfl

/-- V8: the frames and their effect. -/
theorem test_exp_dir : frames (.expDir .b 0xF0) ready = some [[0x40, 0x01, 0xF0]] := rfl
theorem test_exp_pull : frames (.expPull .c 0xFF) ready = some [[0x42, 0x0C, 0xFF]] := rfl
theorem test_exp_wr : frames (.expWr .d 0x01) ready = some [[0x42, 0x13, 0x01]] := rfl
theorem test_exp_rd : frames (.expRd .c) ready = some [[0x43, 0x12, 0x00]] := rfl
theorem test_exp_dir2 : frames (.expDir2 .ab 0x1234) ready = some [[0x40, 0x00, 0x34, 0x12]] := rfl
theorem test_exp_pull2 : frames (.expPull2 .cd 0) ready = some [[0x42, 0x0C, 0x00, 0x00]] := rfl
theorem test_exp_wr2 :
    (after (exec (.expWr2 .cd 0xA55A) ready)).map (fun t => (t.bus.exp.c.out, t.bus.exp.d.out, t.bus.wire))
      = some (0x5A, 0xA5, [.frame [0x42, 0x12, 0x5A, 0xA5]]) := rfl
theorem test_exp_rd2 : frames (.expRd2 .ab) ready = some [[0x41, 0x12, 0x00, 0x00]] := rfl
theorem test_crd_start :
    (after (exec (.crdStart .ab) ready)).map (fun t => (t.bus.crdActive, t.bus.wire)) = some (true, [.crdOpen [0x41, 0x12]]) := rfl
theorem test_crd_cont_inactive : exec .crdCont ready = .fault (.continuousReadInactive .crdCont) := rfl
theorem test_crd_end_inactive : exec .crdEnd ready = .fault (.continuousReadInactive .crdEnd) := rfl

/-- V16: the frames and events of a power-up of the GB slot. -/
theorem test_gb_powerup :
    frames .gbPwrup ready = some [[0x40, 0x12, 0, 0], [0x40, 0x0C, 0, 0], [0x40, 0, 0, 0], [0x42, 0x0C, 0xFF], [0x42, 0, 0xFF]] ∧
    events .gbPwrup ready = some [.power .gb true, .delay .settle] := ⟨rfl, rfl⟩
/-- V16: a second one applies no power. -/
theorem test_gb_powerup_again : events .gbPwrup (gbOn ready) = some [] := rfl
/-- V17: the GBA slot. -/
theorem test_gba_powerup :
    frames .gbaPwrup ready =
      some [[0x40, 0x12, 0, 0], [0x42, 0x12, 0], [0x40, 0x0C, 0xFF, 0xFF], [0x42, 0x0C, 0xFF], [0x40, 0, 0, 0], [0x42, 0, 0]] := rfl
/-- V18: power-down. -/
theorem test_gb_powerdown :
    frames .gbPwrdn ready =
      some [[0x40, 0x0C, 0, 0], [0x42, 0x0C, 0, 0], [0x40, 0, 0xFF, 0xFF], [0x42, 0, 0xFF, 0xFF],
        [0x40, 0x12, 0, 0], [0x42, 0x12, 0, 0], [0x40, 0, 0, 0], [0x42, 0, 0, 0]] ∧
    events .gbPwrdn ready = some [.power .gb false] := ⟨rfl, rfl⟩
theorem test_gba_powerdown : events .gbaPwrdn ready = some [.power .gba false] := rfl
/-- V19: never both. -/
theorem test_both_slots : exec .gbaPwrup (gbOn ready) = .fault .bothSlotsPowered := rfl

/-- V20: bank 5, then the restore, on the reference cartridges (`fill(0x14000) = 0x41`, `fill(0x4000) = 0x40`). -/
theorem test_bank_mbc1 : andThen (.gbRombank .mbc1 5) (.gbBusrd 0x4000) (gbOn (portCIn (gbSlot (.ref (cart .mbc1)) ready))) = some 0x41 := rfl
theorem test_bank_mbc2 : andThen (.gbRombank .mbc2 5) (.gbBusrd 0x4000) (gbOn (portCIn (gbSlot (.ref (cart .mbc2)) ready))) = some 0x41 := rfl
theorem test_bank_mbc3 : andThen (.gbRombank .mbc3 5) (.gbBusrd 0x4000) (gbOn (portCIn (gbSlot (.ref (cart .mbc3)) ready))) = some 0x41 := rfl
theorem test_bank_mbc5 : andThen (.gbRombank .mbc5 5) (.gbBusrd 0x7FFF) (gbOn (portCIn (gbSlot (.ref (cart .mbc5)) ready))) = some 0x81 := rfl

/-- V21, V22: the register writes. -/
theorem test_rombank_events :
    events (.gbRombank .mbc1 0x1FF) ready = some [.gbW 0x2000 0x1F, .gbW 0x4000 0x03, .gbW 0x6000 0x00] ∧
    events (.gbRombank .mbc5 0x101) ready = some [.gbW 0x2000 0x01, .gbW 0x3000 0x01] ∧
    events (.gbRombank .noMbc 3) ready = some [] := ⟨rfl, rfl, rfl⟩
theorem test_ram_events :
    events (.gbRamopen .mbc1) ready = some [.gbW 0x0000 0x0A, .gbW 0x6000 0x01] ∧
    events (.gbRambank .mbc3 9) ready = some [.gbW 0x4000 0x01] ∧
    events (.gbRambank .mbc2 1) ready = some [] ∧
    events (.gbRamclose .mbc1) ready = some [.gbW 0x4000 0x00, .gbW 0x6000 0x00, .gbW 0x0000 0x00] := ⟨rfl, rfl, rfl, rfl⟩
theorem test_gb_write_event : events (.gbBuswr 0xBFFF 0xFE) ready = some [.gbW 0xBFFF 0xFE] := rfl

/-- V15: normalised titles. -/
theorem test_title_flag_stripped :
    normTitle [0x5A, 0x45, 0x4C, 0x44, 0x41, 0, 0, 0x44, 0x58, 0, 0, 0, 0, 0, 0, 0x80] = [0x5A, 0x45, 0x4C, 0x44, 0x41, 0x44, 0x58] := rfl
theorem test_title_underscores :
    normTitle [0x41, 0x20, 0x20, 0x42, 0x20, 0, 0x20, 0, 0, 0, 0, 0, 0, 0, 0, 0] = [0x41, 0x5F, 0x5F, 0x42] := rfl
/-- V15: save sizes and controllers by type byte. -/
theorem test_type_table :
    typeTable 0x03 = (.mbc1, true) ∧ typeTable 0x06 = (.mbc2, true) ∧ typeTable 0x10 = (.mbc3, true) ∧
    typeTable 0x1B = (.mbc5, true) ∧ typeTable 0x22 = (.noMbc, false) ∧ gbSaveSize .mbc2 true 0 = 512 ∧
    gbSaveSize .mbc1 true 3 = 32768 ∧ gbSaveSize .mbc1 true 6 = 0 := ⟨rfl, rfl, rfl, rfl, rfl, rfl, rfl, rfl⟩

/-- V10: no session reads nothing. -/
theorem test_gb_no_session : events .gbReadrom ready = some [] ∧ result .gbReadsave ready = some 0 ∧ result .gbWritesave ready = some 0 := ⟨rfl, rfl, rfl⟩
/-- V3: a buffer that does not fit, one byte above the last place where it does. -/
theorem test_buffer_range :
    exec .gbReadrom (buffered 0xFFFF0001 { ready with gb := gbSession .mbc1 0 }) = .fault (.bufferRange 0xFFFF0001 65536) := rfl
/-- V3: and a buffer never set. -/
theorem test_buffer_unset : exec .gbReadrom { ready with gb := gbSession .mbc1 0 } = .fault .bufferUnset := rfl
theorem test_gb_isloaded_none : result .gbIsloaded ready = some 0 := rfl
theorem test_gb_clear : (after (exec .gbClear (gbLoaded .mbc1 0))).map (fun t => t.gb) = some .empty := rfl
theorem test_gba_clear : (after (exec .gbaClear (gbaLoaded .sram256k 0))).map (fun t => t.gba) = some .empty := rfl

/-- A GBA cartridge whose ROM bytes are `fill`, with a save device. -/
def gbaCart (save : SaveDev) : GbaCart where
  rom := { size := 0x400000, base := .fill, edits := [] }
  ctr := 0
  save := save

/-- The state in which the primitives of a GBA cartridge are tried. -/
def gbaBoot (save : SaveDev) : State := buffered 0x3000 (gbaOn (gbaSlot (.ref (gbaCart save)) ready))

/-- A reference flash (V44, V61). -/
def flash (mfr dev : Byte) : SaveDev :=
  .flash { mem := { size := 65536, base := .sv, edits := [] }, bank := false, mfr := mfr, dev := dev, st := .read }

/-- V35: a burst over the re-latch at the 128 KB line. -/
theorem test_romrd_relatch :
    events (.gbaRomrd 0x1FFFC 8) (gbaBoot .none) = some
      [.romLatch 0x00FFFE, .romNext 0x0302, .romNext 0x0100, .romEnd, .romLatch 0x010000, .romNext 0x0302,
        .romNext 0x0100, .romEnd] := by decide +kernel
theorem test_romrd_stores :
    (after (exec (.gbaRomrd 0 4) (gbaBoot .none))).map (fun t => (t.me.res, t.hbuf.readBlock 0x3000 4)) =
      some (4, [0x00, 0x01, 0x02, 0x03]) := by decide +kernel

/-- V33: the checksum over `0xA0..0xBB`. -/
theorem test_checksum :
    gbaChecksumOk (List.replicate 189 0 ++ [0xE7, 0, 0]) = true ∧ gbaChecksumOk (List.replicate 192 0) = false ∧
    gbaChecksumOk (List.replicate 192 0xFF) = false := by decide +kernel

/-- V61: what the flash operations write. -/
theorem test_flash_bank :
    events (.flashBank true) ready = some [.saveW 0x5555 0xAA, .saveW 0x2AAA 0x55, .saveW 0x5555 0xB0, .saveW 0 1] := rfl
theorem test_flash_erase :
    events (.flashErase 0x1234) ready = some
      [.saveW 0x5555 0xAA, .saveW 0x2AAA 0x55, .saveW 0x5555 0x80, .saveW 0x5555 0xAA, .saveW 0x2AAA 0x55,
        .saveW 0x1000 0x30, .delay .flashErase] := rfl
theorem test_flash_prog :
    events (.flashProg 0x0100 0x12) ready = some
      [.saveW 0x5555 0xAA, .saveW 0x2AAA 0x55, .saveW 0x5555 0xA0, .saveW 0x0100 0x12, .delay .flashProg] := rfl
theorem test_flash_prog128 :
    (events (.flashProg128 0x0080) (buffered 0x3000 ready)).map (fun es => (es.length, es[3]?, es[130]?)) =
      some (132, some (.saveW 0x0080 0x00), some (.saveW 0x00FF 0x00)) := by decide +kernel
theorem test_flash_prog128_unaligned : result (.flashProg128 0x0081) (buffered 0x3000 ready) = some 0xFFFFFFFB := rfl
/-- V60: the identifiers of the reference flash. -/
theorem test_flash_id : result .flashId (gbaBoot (flash 0xBF 0xD4)) = some 0x0000D4BF := by decide +kernel
/-- V61: on the reference flash, programming without erasing (`sv(0x100) = 0x14`). -/
theorem test_flash_programs : andThen (.flashProg 0x0100 0x12) (.saveRd 0x0100) (gbaBoot (flash 0xBF 0xD4)) = some 0x10 := by
  decide +kernel
/-- V42: SRAM takes a byte. -/
theorem test_save_write :
    andThen (.saveWr 0x8001 0xF8) (.saveRd 0x0001) (gbaBoot (.sram { size := 32768, base := .sv, edits := [] })) = some 0xF8 := by
  decide +kernel

/-- V62: the bits of a row read. -/
theorem test_eeprom_read_bits :
    (events (.eepRdrow .k4 5) (gbaBoot .none)).map (fun es => es.take 11) = some
      ([.eepOpen] ++ [true, true, false, false, false, true, false, true, false].map .eepOutBit ++ [.eepTurn]) := by
  decide +kernel
/-- V63: the shape of a row write. -/
theorem test_eeprom_write_shape :
    (events (.eepWrrow .k64 1023) (gbaBoot .none)).map (fun es => (es.length, es.getLast?)) =
      some (84, some (.delay .eepWrite)) := by decide +kernel

/-- The classification's table row (V44) and its misses (V45a). -/
theorem test_flash_table :
    flashTable 0xBF 0xD4 = some .flash512k ∧ flashTable 0xC2 0x09 = some .flash1m ∧ flashTable 0x01 0x02 = none := ⟨rfl, rfl, rfl⟩
theorem test_unknown_save_stops :
    events .gbaWritesave (gbaLoaded .unknown 0) = some [] ∧ events .gbaReadsave (gbaLoaded .unknown 0) = some [] := ⟨rfl, rfl⟩
theorem test_gba_no_session : events .gbaReadrom ready = some [] ∧ events .gbaIsloaded ready = some [] := ⟨rfl, rfl⟩

/-- V3: getters before `INIT`. -/
theorem test_getters_before_init :
    result .gbxType State.reset = some 0 ∧ result .gbxRomsize State.reset = some 0 ∧
    result .gbxSavesize State.reset = some 0 ∧ result .gbxTRom State.reset = some 0 := ⟨rfl, rfl, rfl, rfl⟩
theorem test_getters_loaded :
    result .gbxType (gbLoaded .mbc1 0) = some 1 ∧ result .gbxType (gbaLoaded .flash1m 0) = some 2 ∧
    result .gbxSavesize (gbaLoaded .flash1m 0) = some 131072 ∧ result .gbxRomsize (gbLoaded .mbc1 0) = some 65536 := ⟨rfl, rfl, rfl, rfl⟩
theorem test_title_getter :
    (after (exec .gbxTitle (buffered 0x10 (gbLoaded .mbc1 0)))).map (fun t => (t.me.res, t.hbuf.cells)) =
      some (1, [(0x10, 0x41)]) := rfl
theorem test_ident_getter : result .gbxIdent (buffered 0x10 (gbaLoaded .sram256k 0)) = some 4 := rfl

/-- Bytes sent as a wire frame leave their reply in `rx` and the expander written. -/
theorem test_wire_write : (after (exec (.wireExpFrame3Wr .cd 0x13 0x01) ready)).map (fun t => t.bus.exp.d.out) = some 0x01 := rfl
theorem test_wire_header : (after (exec (.wireCrdHeader .cd) ready)).map (fun t => (t.bus.crdActive, t.bus.crdChip)) = some (true, .cd) := rfl

/-- `withFetchWord` makes the next step run that word. -/
theorem test_with_fetch_word :
    (after (step (State.reset.withFetchWord 64 0x0800000000100000))).map (fun t => t.me.bufp) = some 0x00100000 := rfl

/-! ## Witnesses: a state that meets the hypotheses of each statement

The names are `witness_<statement>`; where a statement has several clauses, each clause has its own state. -/

theorem ready_calm : Calm ready := rfl
theorem ready_ready : Ready ready := ⟨rfl, ready_calm, rfl, rfl⟩

/-- The chips forced idle by an agent that holds the lock. -/
def forcedIdle : State := { ready with lock := 9, csForceIdle := true }

/-- A continuous read of chip 1 left open. -/
def streaming : State := onBusOf (fun b => { b with crdActive := true, crdChip := .cd }) ready

/-- The lock held by a key that is not the dispatcher's. -/
def lockedByOther : State := { ready with lock := if Config.gbxKey = 1 then 2 else 1 }

theorem lockedByOther_lock : lockedByOther.lock ≠ 0 ∧ lockedByOther.lock ≠ Config.gbxKey := by
  simp only [lockedByOther]
  split
  · rename_i h; rw [h]; decide
  · rename_i h; exact ⟨by decide, fun n => h n.symm⟩

/-- A GB/GBC session that a verified load could have left. -/
theorem gbSession_ok (mbc : Mbc) : GbSessionOk (gbSession mbc 32768) where
  empty := by intro h; cases h
  size := fun _ => ⟨1, by decide, rfl⟩
  save := show (32768 : Word).toNat ≤ 131072 by decide
  title := show 1 ≤ 16 by decide
  sha1 := fun _ => rfl

/-- A GBA session that a verified load could have left. -/
theorem gbaSession_ok (kind : SaveType) (mfr : Byte) : GbaSessionOk (gbaSession kind mfr) where
  empty := by intro h; cases h
  size := fun _ => .inl rfl
  save := rfl
  title := rfl
  code := rfl
  maker := rfl

/-- The invariant holds of the initialised machine with a session loaded. -/
theorem loaded_inv : Inv (gbLoaded .mbc1 32768) where
  hbuf := by decide
  slots := .inl rfl
  gb := gbSession_ok .mbc1
  gba :=
    { empty := fun _ => rfl, size := fun h => (by cases h), save := rfl, title := rfl, code := rfl, maker := rfl }
  fifo := rfl
  forced := by intro h; cases h
  detector := rfl

theorem witness_DecodeOfEncode : (Instr.eepRdrow .k64 1023).wellFormed = true ∧ (Instr.gbaRomrd 0x1FFFFFE 65534).wellFormed = true :=
  ⟨rfl, rfl⟩
theorem witness_EncodeOfDecode : decodeRequest (.word 0x5101_03FF_00000000) = .ok (.eepRdrow .k64 1023) := rfl

/-- A command pending. -/
def pending (r : Request) : State := { State.reset with me := { State.reset.me with cmd := some r } }

/-- An agent stopped after one step of `GB_ROMBANK` on an MBC1 (the check of `spi_ready`). -/
def midBank : State :=
  { ready with me := { ready.me with
      cmd := some (.word 0x3201_0005_00000000), seq := .running (.gbRombank .mbc1 5) [.none] false false } }

theorem witness_StepRunsDecoded :
    (pending (.word 0x3B00000000000000)).me.cmd = some (.word 0x3B00000000000000) ∧
    interposed (pending (.word 0x3B00000000000000)) = none ∧ pauseDue (pending (.word 0x3B00000000000000)) = none ∧
    underway (pending (.word 0x3B00000000000000)).me.seq = false ∧
    decodeRequest (.word 0x3B00000000000000) = .ok .gbClear ∧
    underway midBank.me.seq = true ∧ pauseDue midBank = none ∧ interposed midBank = none ∧
    pauseDue { midBank with inputs := [.pause 2 true] } = some (2, true, midBank) ∧
    interposed { midBank with inputs := [.pause 2 true] } = none :=
  ⟨rfl, rfl, rfl, rfl, rfl, rfl, rfl, rfl, rfl, rfl⟩
theorem witness_PausesChangeNothing :
    ∃ t, step { midBank with inputs := [.pause 2 true] } = .next t ∧ underway t.me.seq = true := ⟨_, rfl, rfl⟩
theorem witness_ReservedWordRefused :
    (pending (.word 0x7000000000000000)).me.cmd = some (.word 0x7000000000000000) ∧
    interposed (pending (.word 0x7000000000000000)) = none ∧ decodeRequest (.word 0x7000000000000000) = .error .opcode :=
  ⟨rfl, rfl, rfl⟩
/-- An agent one of whose operations has completed. -/
def answered : State := { ready with me := { ready.me with res := 7, resSet := true } }

theorem witness_TurnsKeepAgents :
    ({ ready with inputs := [.turn 1] } : State).inputs = [.turn 1] ∧ ready.others[1]? = some (.reset 2) ∧
    ready.inputs = [] ∧ ready.me.cmd = none ∧ ready.me.resSet = false ∧ answered.me.resSet = true ∧
    answered.me.cmd = none ∧ (0xFFFFFFFF : Nat) < 4294967296 ∧ (4294967296 : Nat) ≤ 4294967296 ∧
    underway midBank.me.seq = true := by decide
theorem witness_InvariantKept : Inv (gbLoaded .mbc1 32768) ∧ ∃ t, step (gbLoaded .mbc1 32768) = .next t :=
  ⟨loaded_inv, _, rfl⟩
theorem witness_HardwareNeedsInit :
    State.reset.spiReady = false ∧ Instr.gbPwrup.wellFormed = true ∧ initExempt .gbPwrup = false ∧
    (Instr.lock false 1).wellFormed = true ∧ initExempt (.lock false 1) = true := ⟨rfl, rfl, rfl, rfl, rfl⟩
theorem witness_AgentRegistersKept : (∃ t, exec .gbxType ready = .next t) ∧ ∀ b, Instr.gbxType ≠ .setbuf b :=
  ⟨⟨_, rfl⟩, by intro b h; cases h⟩

/-- Each flag's clause: an operation that runs and is not the flag's owner, and one that is. -/
theorem witness_FlagsHaveOwners :
    (∃ t, exec .gbxType ready = .next t) ∧ (∀ hz, Instr.gbxType ≠ .init hz) ∧ dispatches .gbxType = false ∧
    (∃ t, exec .gbPwrup ready = .next t ∧ t.bus.pwrGb = true) ∧
    (∃ t, exec .gbaPwrup ready = .next t ∧ t.bus.pwrGba = true) ∧
    (∃ t, exec .gbPwrdn (gbOn ready) = .next t ∧ t.bus.pwrGb = false ∧ (gbOn ready).bus.pwrGb = true) ∧
    (∃ t, exec .gbaPwrdn (gbaOn ready) = .next t ∧ t.bus.pwrGba = false ∧ (gbaOn ready).bus.pwrGba = true) ∧
    (∃ t, exec .gbClear (gbLoaded .mbc1 0) = .next t ∧ t.gb = .empty) ∧
    ∃ t, exec .gbaClear (gbaLoaded .unknown 0) = .next t ∧ t.gba = .empty :=
  ⟨⟨_, rfl⟩, fun h n => (by cases n), rfl, ⟨_, rfl, rfl⟩, ⟨_, rfl, rfl⟩, ⟨_, rfl, rfl, rfl⟩, ⟨_, rfl, rfl, rfl⟩,
    ⟨_, rfl, rfl⟩, _, rfl, rfl⟩

/-- The initialised, loaded machine whose host now refuses the mapping. -/
def refusing : State :=
  onBusOf (fun b => { b with env := { b.env with hostMap := some false } }) (gbLoaded .mbc1 32768)

theorem witness_NegativeResultsOnlyFromTwo :
    Inv refusing ∧ (Instr.init 0).wellFormed = true ∧
    ∃ t, exec (.init 0) refusing = .next t ∧ t.me.seq = .idle ∧ t.me.res.msb = true :=
  ⟨{ loaded_inv with }, rfl, _, rfl, rfl, rfl⟩
theorem witness_InitMapsRegisters :
    (answerValue .hostMapOk refusing.bus).getLsbD 0 = false ∧
    (answerValue .hostMapOk
      (onBusOf (fun b => { b with env := { b.env with hostMap := some true } }) ready).bus).getLsbD 0 = true := ⟨rfl, rfl⟩
theorem witness_LockTakesOrHolds :
    (7 : Word) ≠ 0 ∧ ready.lock = 0 ∧ forcedIdle.lock ≠ 0 ∧ forcedIdle.lock ≠ 7 := by decide
theorem witness_UnlockReleasesOnMatch : (9 : Word) ≠ 0 ∧ forcedIdle.lock = 9 ∧ ready.lock ≠ 9 := by decide

/-- An agent whose buffer holds the frame `40 12 A5`. -/
def holdsFrame (s : State) : State :=
  buffered 0x1000 { s with hbuf := { cells := [(0x1000, 0x40), (0x1001, 0x12), (0x1002, 0xA5)] } }

theorem witness_XferExchangesInPlace :
    (3 : Half) ≠ 0 ∧ (holdsFrame ready).spiReady = true ∧ Calm (holdsFrame ready) ∧
    (holdsFrame ready).bus.crdActive = false ∧ BufferFits 3 (holdsFrame ready) ∧ (holdsFrame ready).csForceIdle = false ∧
    isFrame ((holdsFrame ready).hbuf.readBlock 0x1000 3) = true ∧
    (holdsFrame ready).hbuf.readBlock 0x1000 3 = [devOpcode .ab false, regAddr .io false, 0xA5] ∧
    isFrame ((buffered 0x1000 ready).hbuf.readBlock 0x1000 3) = false ∧
    (holdsFrame forcedIdle).csForceIdle = true :=
  ⟨by decide, rfl, ready_calm, rfl, ⟨rfl, by decide⟩, rfl, by decide, by decide, by decide, rfl⟩
/-- The read and the write clause of `XFER` with more than two data bytes, at the end of the buffer space, and the
two-byte header. -/
theorem witness_XferExchangesInPlace_long :
    isFrame [devOpcode .cd true, regAddr .pull true, 0x00, 0x00, 0x00] = true ∧
    isFrame [devOpcode .cd false, regAddr .dir true, 0x01, 0x02, 0x03] = true ∧
    slotBytes true [0x01, 0x02, 0x03] = [0x01, 0x03] ∧ slotBytes false [0x01, 0x02, 0x03] = [0x02] ∧
    slotPort .cd true 1 = .c ∧ BufferFits 5 (buffered 0xFFFFFFFB ready) ∧
    isFrame [devOpcode .ab true, regAddr .io false] = true :=
  ⟨by decide, by decide, rfl, rfl, rfl, ⟨rfl, by decide⟩, by decide⟩
theorem witness_StrobesMoveOnePin :
    ready.spiReady = true ∧ Calm ready ∧ Pin.gbWr ≠ .det ∧ PinDir.input = .input ∧
    (getPin .gbWr (onBusOf (pinDirect .gbWr .output) ready).bus.pins).dir = .output :=
  ⟨rfl, ready_calm, by decide, rfl, rfl⟩
theorem witness_PortWrites : Ready ready := ready_ready
theorem witness_PortReads : Ready ready := ready_ready
theorem witness_ContinuousRead :
    Ready ready ∧ streaming.spiReady = true ∧ Calm streaming ∧ streaming.bus.crdActive = true ∧
    streaming.csForceIdle = false := ⟨ready_ready, rfl, rfl, rfl, rfl⟩
/-- A continuous read open when the lock holder forces the chips idle. -/
def streamingIdle : State := { streaming with lock := 9, csForceIdle := true }

/-- An operation of every shape comes to a frame in some state with a continuous read open: frames, cartridge cycles at
the end of the buffer space, power-ups, the engines with a session, the dispatcher, the wire rows. -/
theorem streaming_comes :
    ComesToBus .crdCont streaming ∧ ComesToBus (.gbBusrd 0xFFFF) streaming ∧ ComesToBus (.crdStart .cd) streaming ∧
    ComesToBus (.xfer 3) (buffered 0xFFFFFFFD streaming) ∧
    ComesToBus (.gbaRomrd 0x1FFFFFE 65534) (buffered 0xFFFF0002 streaming) ∧
    ComesToBus (.eepWrrow .k64 1023) (buffered 0xFFFFFFF8 streaming) ∧
    ComesToBus (.flashProg128 0xFF80) (buffered 0xFFFFFF80 streaming) ∧ ComesToBus .gbaPwrup streaming ∧
    ComesToBus (.wireExpFrame3Rd .cd 0x13) streaming ∧ ComesToBus (.wireEepRead64k 1023) streaming :=
  ⟨⟨rfl, trivial⟩, ⟨rfl, trivial⟩, ⟨rfl, trivial⟩, ⟨rfl, rfl, by decide⟩, ⟨rfl, rfl, by decide⟩, ⟨rfl, rfl, by decide⟩,
    ⟨rfl, rfl, by decide⟩, ⟨rfl, rfl⟩, ⟨rfl, trivial⟩, ⟨rfl, trivial⟩⟩
/-- The engines and the dispatcher come to the bus with a session loaded and a buffer that fits. -/
theorem loaded_comes :
    ComesToBus .gbReadrom (gbLoaded .mbc1 32768) ∧ ComesToBus .gbWritesave (gbLoaded .mbc1 32768) ∧
    ComesToBus .gbaReadrom (gbaLoaded .flash1m 0) ∧ ComesToBus .gbaWritesave (gbaLoaded .flash1m 0) ∧
    ComesToBus .gbxReadrom (gbLoaded .mbc1 32768) ∧ ComesToBus .gbxReadsave (gbaLoaded .flash1m 0) ∧
    ComesToBus .gbxIsloaded (gbLoaded .mbc1 32768) ∧ ComesToBus .gbxWritesave (gbaLoaded .flash1m 0) ∧
    ComesToBus .gbxLoadhdr ready :=
  have gbRom : GbReadsRom (gbLoaded .mbc1 32768) := ⟨rfl, rfl, rfl, by decide⟩
  have gbaSave : GbaMovesSave (gbaLoaded .flash1m 0) := ⟨rfl, rfl, by decide, rfl, by decide⟩
  have onGb : (gbLoaded .mbc1 32768).gb.romSize ≠ 0 := by decide
  have onGba : (gbaLoaded .flash1m 0).gba.romSize ≠ 0 := by decide
  ⟨⟨rfl, gbRom⟩, ⟨rfl, rfl, rfl, by decide, rfl, by decide⟩, ⟨rfl, rfl, rfl, rfl, by decide⟩, ⟨rfl, gbaSave⟩,
    ⟨rfl, .inl rfl, fun _ => gbRom, fun n => absurd n onGb⟩,
    ⟨rfl, .inl rfl, fun n => absurd rfl n, fun _ => ⟨onGba, gbaSave⟩⟩,
    ⟨rfl, .inl rfl, fun _ => ⟨rfl, rfl⟩, fun n => absurd n onGb⟩,
    ⟨rfl, .inl rfl, fun n => absurd rfl n, fun _ => ⟨onGba, rfl⟩⟩, ⟨rfl, .inl rfl, rfl, rfl⟩⟩
/-- Each clause: inside a continuous read, outside one, and with the chips forced idle in either. -/
theorem witness_StreamGuards :
    streaming.spiReady = true ∧ Calm streaming ∧ streaming.bus.crdActive = true ∧ streaming.csForceIdle = false ∧
    ComesToBus (.gbBusrd 0xFFFF) streaming ∧ strobes (.gbBusrd 0xFFFF) = false ∧ continues (.gbBusrd 0xFFFF) = false ∧
    Calm ready ∧ ready.bus.crdActive = false ∧ ready.csForceIdle = false ∧ ComesToBus .crdCont ready ∧
    continues .crdCont = true ∧ strobes .crdCont = false ∧
    Calm forcedIdle ∧ forcedIdle.csForceIdle = true ∧ forcedIdle.bus.crdActive = continues (.gbBusrd 0xFFFF) ∧
    ComesToBus (.gbBusrd 0xFFFF) forcedIdle ∧ (∀ len, Instr.gbBusrd 0xFFFF ≠ .xfer len) ∧
    Calm streamingIdle ∧ streamingIdle.csForceIdle = true ∧ streamingIdle.bus.crdActive = continues .crdEnd ∧
    ComesToBus .crdEnd streamingIdle :=
  ⟨rfl, rfl, rfl, rfl, ⟨rfl, trivial⟩, rfl, rfl, rfl, rfl, rfl, ⟨rfl, trivial⟩, rfl, rfl, rfl, rfl, rfl, ⟨rfl, trivial⟩,
    (by intro _ h; cases h), rfl, rfl, rfl, rfl, trivial⟩

/-- Agent 1 has the GB slot powered; agent 1 has the GBA slot powered. -/
def gbOwned : State := onBusOf (fun b => { b with pwrGb := true, ownGb := some 1 }) ready
def gbaOwned : State := onBusOf (fun b => { b with pwrGba := true, ownGba := some 1 }) ready

/-- Agent 1 stopped inside a step of `GB_BUSRD`. -/
def inTransaction : State :=
  { ready with others := [{ Agent.reset 1 with seq := .running (.gbBusrd 0) [.none] true true }, .reset 2] }

/-- The current agent stopped inside the frame of an `EXP_RD`. -/
def insideFrame : State :=
  { ready with me := { ready.me with
      cmd := some (.word 0x1302_0000_00000000), seq := .running (.expRd .c) [.none] false true } }

theorem witness_RacesFault :
    gbOwned.spiReady = true ∧ gbOwned.bus.ownGb = some 1 ∧ 1 ≠ gbOwned.me.id ∧ gbOwned.bus.pwrGba = false ∧
    gbaOwned.bus.ownGb = none ∧ gbaOwned.bus.ownGba = some 1 ∧ gbaOwned.bus.pwrGb = false ∧
    inTransaction.others = [] ++ { Agent.reset 1 with seq := .running (.gbBusrd 0) [.none] true true } :: [.reset 2] ∧
    MidTransaction { Agent.reset 1 with seq := .running (.gbBusrd 0) [.none] true true } ∧
    MidSelect { Agent.reset 1 with seq := .running (.gbBusrd 0) [.none] true true } ∧
    inTransaction.bus.ownGb = none ∧ inTransaction.bus.ownGba = none ∧ inTransaction.me.cmd = none ∧
    ComesToBus (.stbWr .gbWr true) gbOwned ∧ ComesToBus .gbaPwrdn gbaOwned ∧
    ComesToBus (.gbBusrd 0xFFFF) inTransaction ∧ inTransaction.csForceIdle = false ∧
    inTransaction.bus.crdActive = continues (.gbBusrd 0xFFFF) ∧
    ComesToBus (.xfer 3) (holdsFrame gbOwned) ∧ (holdsFrame gbOwned).bus.ownGb = some 1 ∧
    isFrame ((holdsFrame gbOwned).hbuf.readBlock (holdsFrame gbOwned).me.bufp.toNat 3) = true ∧
    underway insideFrame.me.seq = true ∧ MidSelect insideFrame.me ∧ underway midBank.me.seq = true :=
  ⟨rfl, rfl, by decide, rfl, rfl, rfl, rfl, rfl, ⟨_, _, _, rfl⟩, ⟨_, _, _, rfl⟩, rfl, rfl, rfl, ⟨rfl, trivial⟩,
    ⟨rfl, trivial⟩, ⟨rfl, trivial⟩, rfl, rfl, ⟨rfl, rfl, by decide⟩, rfl, by decide, rfl, ⟨_, _, _, rfl⟩, rfl⟩

/-- P5 (b): a bus step of agent 0 between agent 1's `GB_PWRUP` and `GB_PWRDN`; the owner is named first. -/
theorem test_race_session : exec (.gbBusrd 0) gbOwned = .fault (.busRace (.agent 1) (.agent 0)) := rfl
theorem test_race_transaction : exec (.saveRd 0) inTransaction = .fault (.busRace (.agent 1) (.agent 0)) := rfl
/-- R469: the radio's transfer while a continuous read holds `SPI_CS0`, while a step of the current agent does, and while nothing
does. -/
theorem test_radio :
    step { streaming with inputs := [.radio] } = .fault (.busRace .gbxc .radio) ∧
    step { insideFrame with inputs := [.radio] } = .fault (.busRace .gbxc .radio) ∧
    step { ready with inputs := [.radio] } = .next ready := ⟨rfl, rfl, rfl⟩

/-- The state after `n` steps. -/
def steps : Nat → State → Option State
  | 0, s => some s
  | n + 1, s => (after (step s)).bind (steps n)

/-- R24, R92: between the register writes of an unlocked `GB_ROMBANK` another agent's bus read falls. -/
theorem test_interleaved :
    (steps 4 { midBank with inputs := [.pause 1 false, .turn 0, .issue (.word 0x3000_0000_00004000)] }).map
        (fun t => t.bus.hist.map fun e => match e with | .gbR a _ => (a, false) | .gbW a _ => (a, true) | _ => (0, true)) =
      some [(0x4000, false), (0x2000, true)] := by decide +kernel

/-- A request stopped after `n` of its steps; another agent then gets its turn, issues a request of its own and reads
its `BUFP` once that is done; then the first agent's turn comes again. -/
def stoppedAt (n : Nat) (word other : BitVec 64) (s : State) : State :=
  { s with
    me := { s.me with cmd := some (.word word) }
    inputs := [.pause n false, .turn 0, .issue (.word other), .readBufp, .turn 1] }

/-- R379: from the end of a row's bits to that of its programming delay the write is one transaction still: another
agent's `GB_BUSRD` before the delay does not run, and does after it. -/
theorem test_race_delay :
    (steps 3 (stoppedAt 78 0x5200_0005_00000000 0x3000_0000_00004000 (buffered 0x3000 ready))).isSome = true ∧
    steps 4 (stoppedAt 78 0x5200_0005_00000000 0x3000_0000_00004000 (buffered 0x3000 ready)) = none ∧
    (steps 4 (stoppedAt 79 0x5200_0005_00000000 0x3000_0000_00004000 (buffered 0x3000 ready))).isSome = true := by
  decide +kernel

/-- R428: a `GBX_TITLE` stopped once it has read the title; another agent's `GB_CLEAR` does not change what it writes. -/
theorem test_title_interleaved :
    (steps 7 (stoppedAt 1 0x6300_0000_00000000 0x3B00_0000_00000000 (gbLoaded .mbc1 0))).map
        (fun t => (t.me.res, t.gb.loaded, t.hbuf.readBlock 0xFFFF0000 1)) =
      some (1, false, [0x41]) := by decide +kernel

/-- Where a buffer check is made (R471 (5)): a raw operation at a limit, engine operations with a session. -/
theorem witness_BufferChecks :
    (Instr.gbaRomrd 0x1FFFFFE 2).wellFormed = true ∧ (1023 : BitVec 14).toNat < Framing.k64.rowLimit ∧
    (0x0080 : Half).toNat % 128 = 0 ∧ (gbLoaded .mbc1 32768).gb.loaded = true ∧
    (gbLoaded .mbc1 32768).gb.romSize ≠ 0 ∧ (gbLoaded .mbc1 32768).lock = 0 ∧ (gbLoaded .mbc1 32768).gb.saveSize ≠ 0 ∧
    (gbaLoaded .flash1m 0).gba.loaded = true ∧ (gbaLoaded .flash1m 0).gba.saveType ≠ .unknown ∧ ready.me.bufSet = false ∧
    (buffered 0xFFFFFFF9 ready).me.bufSet = true ∧ 4294967296 < (buffered 0xFFFFFFF9 ready).me.bufp.toNat + 8 ∧
    (gbaLoaded .flash1m 0).gb.romSize = 0 ∧ (gbaLoaded .flash1m 0).gba.romSize ≠ 0 ∧ LockFree (gbaLoaded .flash1m 0) ∧
    LockFree (gbLoaded .mbc1 32768) :=
  ⟨by decide, by decide, by decide, rfl, by decide, rfl, by decide, rfl, by decide, rfl, rfl, by decide, rfl, by decide,
    .inl rfl, .inl rfl⟩
theorem ready_gb : ReadyGb ready := ⟨ready_ready, rfl⟩
theorem ready_gba : ReadyGba ready := ⟨ready_ready, rfl⟩
theorem witness_PowerUpsDriveDefaults :
    ReadyGb ready ∧ ReadyGb (gbOn ready) ∧ ReadyGba ready ∧ ReadyGba (gbaOn ready) :=
  ⟨ready_gb, ⟨⟨rfl, rfl, rfl, rfl⟩, rfl⟩, ready_gba, ⟨⟨rfl, rfl, rfl, rfl⟩, rfl⟩⟩
theorem witness_PowerDownGrounds : Ready (gbOn ready) := ⟨rfl, rfl, rfl, rfl⟩
theorem witness_SlotsNeverBothPowered :
    Ready (gbaOn (gbLoaded .mbc1 32768)) ∧ (gbaOn (gbLoaded .mbc1 32768)).bus.pwrGba = true ∧
    (gbaOn (gbLoaded .mbc1 32768)).gb.loaded = true ∧ (gbaOn (gbLoaded .mbc1 32768)).gb.saveSize ≠ 0 ∧
    BufferFits 65536 (gbaOn (gbLoaded .mbc1 32768)) ∧
    Ready (gbOn (gbaLoaded .sram256k 0)) ∧ (gbOn (gbaLoaded .sram256k 0)).bus.pwrGb = true ∧
    (gbOn (gbaLoaded .sram256k 0)).gba.loaded = true ∧ (gbOn (gbaLoaded .sram256k 0)).gba.saveType ≠ .unknown ∧
    BufferFits 0x400000 (gbOn (gbaLoaded .sram256k 0)) :=
  ⟨⟨rfl, rfl, rfl, rfl⟩, rfl, rfl, by decide, ⟨rfl, by decide⟩, ⟨rfl, rfl, rfl, rfl⟩, rfl, rfl, by decide, rfl, by decide⟩
theorem witness_PinTraceOrder :
    ReadyGb ready ∧ ReadyGb (gbOn ready) ∧ ReadyGba ready ∧ ReadyGba (gbaOn ready) ∧ Ready (gbOn ready) ∧
    (0x1FFFFFE : BitVec 25).toNat % 2 = 0 ∧ BufferFits 2 (buffered 0xFFFFFFFE ready) ∧
    inRamWindow 0xA000 = true ∧ inRamWindow 0x9FFF = false ∧ (1023 : BitVec 14).toNat < Framing.k64.rowLimit ∧
    BufferFits 8 (buffered 0xFFFFFFF8 ready) :=
  ⟨ready_gb, ⟨⟨rfl, rfl, rfl, rfl⟩, rfl⟩, ready_gba, ⟨⟨rfl, rfl, rfl, rfl⟩, rfl⟩, ⟨rfl, rfl, rfl, rfl⟩, by decide,
    ⟨rfl, by decide⟩, by decide, by decide, by decide, ⟨rfl, by decide⟩⟩
/-- R251: the strobe pulse of a read in the RAM window, `GB_CS` around `GB_RD`. -/
theorem test_wire_gb_read :
    (after (exec (.gbBusrd 0xA001) ready)).map (fun t => t.bus.wire.reverse) = some
      [.frame [0x40, 0x12, 0x01, 0xA0], .pinLevel .gbCs false, .pinLevel .gbRd false, .frame [0x43, 0x12, 0x00],
        .pinLevel .gbRd true, .pinLevel .gbCs true] := rfl
theorem witness_GbBusCycles : Ready (gbOn ready) ∧ inRamWindow 0xA000 = true ∧ inRamWindow 0xC000 = false :=
  ⟨⟨rfl, rfl, rfl, rfl⟩, by decide⟩
theorem witness_BankRegisterWrites : Ready (gbOn ready) := ⟨rfl, rfl, rfl, rfl⟩
/-- R281: closing the RAM of an MBC2 records bank 0 and mode 0 as well. R254: a raw write to an MBC1 register. -/
theorem test_mbcw :
    (after (exec (.gbRamclose .mbc2) (gbOn ready))).map (fun t => t.bus.mbcw) =
      some { romBank := none, mode := some false, ramBank := some 0, ramEn := some false } ∧
    (after (exec (.gbBuswr 0x1FFF 0x0A) (gbOn (gbLoaded .mbc1 0)))).map (fun t => t.bus.mbcw.ramEn) = some (some true) :=
  ⟨rfl, rfl⟩

/-- A header that verifies: the logo, ROM-size code 8. -/
def goodHeader : List Byte := List.replicate 0x104 0 ++ logo ++ List.replicate 20 0 ++ [0x08] ++ List.replicate 695 0

theorem witness_GbLoadHeaderVerifies :
    ReadyGb ready ∧ goodHeader.length = 1024 ∧ GbHeaderOk goodHeader ∧ ¬ GbHeaderOk (List.replicate 1024 0xFF) :=
  ⟨ready_gb, by decide +kernel, ⟨by decide +kernel, by decide +kernel⟩, fun h => absurd h.1 (by decide +kernel)⟩
theorem gbLoaded_ready (mbc : Mbc) (save : Word) : ReadyGb (gbLoaded mbc save) := ⟨⟨rfl, rfl, rfl, rfl⟩, rfl⟩
theorem gbaLoaded_ready (kind : SaveType) (mfr : Byte) : ReadyGba (gbaLoaded kind mfr) :=
  ⟨⟨rfl, rfl, rfl, rfl⟩, rfl⟩
theorem witness_GbIsLoadedRechecks :
    ReadyGb (gbLoaded .mbc1 0) ∧ (gbLoaded .mbc1 0).gb.loaded = true ∧ ready.gb.loaded = false ∧
    GbStill (logo ++ [0x41] ++ List.replicate 15 0) (gbLoaded .mbc1 0).gb ∧
    ¬ GbStill (List.replicate 64 0) (gbLoaded .mbc1 0).gb :=
  ⟨gbLoaded_ready .mbc1 0, rfl, rfl, ⟨by decide +kernel, by decide +kernel⟩, fun h => absurd h.1 (by decide +kernel)⟩
theorem witness_GbReadRomDumps :
    ReadyGb (gbLoaded .mbc5 32768) ∧ (gbLoaded .mbc5 32768).gb.loaded = true ∧ GbSessionOk (gbLoaded .mbc5 32768).gb ∧
    BufferFits 65536 (gbLoaded .mbc5 32768) ∧ BufferFits 0x8000 (gbLoaded .noMbc 32768) ∧
    (gbLoaded .noMbc 32768).gb.mbc = .noMbc ∧ ready.gb.loaded = false :=
  ⟨gbLoaded_ready _ _, rfl, gbSession_ok _, ⟨rfl, by decide⟩, ⟨rfl, by decide⟩, rfl, rfl⟩
theorem witness_GbReadSaveDumps :
    ReadyGb (gbLoaded .mbc1 32768) ∧ (gbLoaded .mbc1 32768).gb.loaded = true ∧ (gbLoaded .mbc1 32768).gb.saveSize ≠ 0 ∧
    BufferFits 32768 (gbLoaded .mbc1 32768) ∧ (gbLoaded .mbc1 0).gb.saveSize = 0 :=
  ⟨gbLoaded_ready _ _, rfl, by decide, ⟨rfl, by decide⟩, rfl⟩
theorem witness_GbWriteSaveWritesBuffer :
    ReadyGb (gbLoaded .mbc2 512) ∧ (gbLoaded .mbc2 512).gb.loaded = true ∧ (gbLoaded .mbc2 512).gb.saveSize ≠ 0 ∧
    BufferFits 512 (gbLoaded .mbc2 512) ∧ ready.gb.loaded = false := ⟨gbLoaded_ready _ _, rfl, by decide, ⟨rfl, by decide⟩, rfl⟩
theorem witness_NormalTitleShape :
    (List.replicate 16 (0x41 : Byte)).length = 16 ∧ ((List.replicate 16 (0x41 : Byte)).getD 15 0).getLsbD 7 = false ∧
    ((List.replicate 16 (0xC0 : Byte)).getD 15 0).getLsbD 7 = true := ⟨rfl, rfl, rfl⟩

/-- A powered GB slot with a reference cartridge. -/
def gbPlugged (m : Mbc) : State := gbOn (portCIn (gbSlot (.ref (cart m)) ready))

theorem witness_RestoreSelectsBankOne :
    Mbc.mbc1 ≠ .noMbc ∧ (cart .mbc1).kind = .mbc1 ∧ 2 ≤ (cart .mbc1).rom.size / 0x4000 ∧ 0x3FFF < 0x4000 ∧
    (gbPlugged .mbc1).bus.env.gb = .ref (cart .mbc1) ∧ (gbPlugged .mbc1).bus.pwrGb = true ∧
    (gbPlugged .mbc1).bus.exp.c.dir = 0xFF ∧
    ∃ t1 t2 t3, exec (.gbRombank .mbc1 7) (gbPlugged .mbc1) = .next t1 ∧ exec (.gbRombank .mbc1 1) t1 = .next t2 ∧
      exec (.gbBusrd (BitVec.ofNat 16 (0x4000 + 0x3FFF))) t2 = .next t3 :=
  ⟨by decide, rfl, by decide, by decide, rfl, rfl, rfl, _, _, _, rfl, rfl, rfl⟩
theorem witness_GbaBurstRead :
    (Instr.gbaRomrd 0x1FFFFFE 65534).wellFormed = true ∧ Ready (gbaBoot .none) ∧
    BufferFits 65534 (buffered 0xFFFF0002 (gbaBoot .none)) := ⟨rfl, ⟨rfl, rfl, rfl, rfl⟩, rfl, by decide⟩

/-- A GBA header that verifies: zeros with checksum `0xE7` (V33). -/
def zeroHeader : List Byte := List.replicate 0xBD 0 ++ [0xE7, 0, 0]

theorem witness_GbaLoadHeaderVerifies :
    ReadyGba ready ∧ zeroHeader.length = 192 ∧ gbaChecksumOk zeroHeader = true ∧
    gbaChecksumOk (List.replicate 192 0xFF) = false :=
  ⟨ready_gba, by decide +kernel, by decide +kernel, by decide +kernel⟩
theorem witness_GbaIsLoadedRechecks :
    ReadyGba (gbaLoaded .unknown 0) ∧ (gbaLoaded .unknown 0).gba.loaded = true ∧ ready.gba.loaded = false ∧
    GbaStill zeroHeader { gbaSession .unknown 0 with title := List.replicate 12 0, code := List.replicate 4 0, maker := [0, 0] } ∧
    ¬ GbaStill (List.replicate 192 0xFF) (gbaLoaded .unknown 0).gba :=
  ⟨gbaLoaded_ready _ _, rfl, rfl, ⟨by decide +kernel, by decide +kernel, by decide +kernel, by decide +kernel⟩,
    fun h => absurd h.1 (by decide +kernel)⟩
theorem witness_GbaReadRomDumps :
    ReadyGba (gbaLoaded .sram256k 0) ∧ (gbaLoaded .sram256k 0).gba.loaded = true ∧ GbaSessionOk (gbaLoaded .sram256k 0).gba ∧
    BufferFits 0x400000 (gbaLoaded .sram256k 0) ∧ ready.gba.loaded = false :=
  ⟨gbaLoaded_ready _ _, rfl, gbaSession_ok _ _, ⟨rfl, by decide⟩, rfl⟩
theorem witness_GbaProbeSizeWraps : ReadyGba ready := ready_gba
theorem witness_SaveBusCycles : Ready (gbaOn ready) := ⟨rfl, rfl, rfl, rfl⟩
theorem witness_ClassificationFollowsProbes : ReadyGba ready := ready_gba
theorem witness_EepromRows :
    (63 : BitVec 14).toNat < Framing.k4.rowLimit ∧ (1023 : BitVec 14).toNat < Framing.k64.rowLimit ∧
    Ready (gbaBoot .none) ∧ BufferFits 8 (buffered 0xFFFFFFF8 (gbaBoot .none)) :=
  ⟨by decide, by decide, ⟨rfl, rfl, rfl, rfl⟩, rfl, by decide⟩
theorem witness_FlashCommandWrites :
    Ready (gbaBoot .none) ∧ (0xFF80 : Half).toNat % 128 = 0 ∧ BufferFits 128 (buffered 0xFFFFFF80 (gbaBoot .none)) :=
  ⟨⟨rfl, rfl, rfl, rfl⟩, by decide, rfl, by decide⟩

/-- The hypotheses of the two bulk save operations, for a save type. -/
theorem gbaSave_meets (kind : SaveType) (mfr : Byte) :
    ReadyGba (gbaLoaded kind mfr) ∧ (gbaLoaded kind mfr).gba.loaded = true ∧
    (gbaLoaded kind mfr).gba.saveSize = saveTypeSize (gbaLoaded kind mfr).gba.saveType ∧
    BufferFits (gbaLoaded kind mfr).gba.saveSize.toNat (gbaLoaded kind mfr) :=
  ⟨gbaLoaded_ready kind mfr, rfl, rfl, rfl,
    show (0xFFC00000 : Word).toNat + (saveTypeSize kind).toNat ≤ Config.hbufSize by cases kind <;> decide⟩

/-- Every save type the clauses name, and the type that stops. -/
theorem witness_GbaReadSaveByType :
    (gbaLoaded .eeprom4k 0).gba.saveType = .eeprom4k ∧ (gbaLoaded .eeprom64k 0).gba.saveType = .eeprom64k ∧
    (gbaLoaded .sram512k 0).gba.saveType = .sram512k ∧ (gbaLoaded .flash512k 0x1F).gba.saveType = .flash512k ∧
    (gbaLoaded .flash1m 0xC2).gba.saveType = .flash1m ∧ (gbaLoaded .unknown 0).gba.saveType = .unknown ∧
    ReadyGba (gbaLoaded .flash1m 0xC2) ∧ BufferFits 131072 (gbaLoaded .flash1m 0xC2) :=
  ⟨rfl, rfl, rfl, rfl, rfl, rfl, gbaLoaded_ready _ _, rfl, by decide⟩
theorem witness_GbaWriteSaveByType :
    ReadyGba (gbaLoaded .flash512k 0x1F) ∧ (gbaLoaded .flash512k 0x1F).gba.flashMfr = 0x1F ∧
    (gbaLoaded .flash1m 0xC2).gba.flashMfr ≠ 0x1F ∧ BufferFits 131072 (gbaLoaded .flash1m 0xC2) ∧
    (gbaLoaded .unknown 0).gba.saveType = .unknown :=
  ⟨gbaLoaded_ready _ _, rfl, by decide, ⟨rfl, by decide⟩, rfl⟩
theorem witness_DispatcherWaitsForLock :
    dispatches .gbxWritesave = true ∧ lockedByOther.spiReady = true ∧ lockedByOther.lock ≠ 0 ∧
    lockedByOther.lock ≠ Config.gbxKey := ⟨rfl, rfl, lockedByOther_lock.1, lockedByOther_lock.2⟩

/-- The detector at a level. -/
def detAt (v : Bool) : State → State := onBusOf fun b => { b with env := { b.env with det := some v } }

theorem detAt_level (s : State) (h : s.bus.pins.det.dir = .input) (v : Bool) : (pinRead .det (detAt v s).bus).1 = v := by
  cases v <;> simp [pinRead, detAt, onBusOf, getPin, h, answer, answerValue, envAnswer, levelHalf]

/-- Either slot may be the selected one, and already powered. -/
theorem witness_DispatcherLoadsOneSession :
    ready.spiReady = true ∧ ready.lock = 0 ∧ Calm (locked (detAt Config.detGbaLevel ready)) ∧ Calm (locked (detAt (!Config.detGbaLevel) (gbOn ready))) ∧
    (pinRead .det (detAt Config.detGbaLevel ready).bus).1 = Config.detGbaLevel ∧ (detAt Config.detGbaLevel ready).bus.pwrGb = false ∧
    (pinRead .det (detAt (!Config.detGbaLevel) (gbOn ready)).bus).1 ≠ Config.detGbaLevel ∧ (detAt (!Config.detGbaLevel) (gbOn ready)).bus.pwrGba = false :=
  ⟨rfl, rfl, rfl, rfl, detAt_level _ rfl _, rfl, by rw [detAt_level _ rfl _]; cases Config.detGbaLevel <;> decide, rfl⟩
/-- Each engine's clause and the clause of no session. -/
theorem witness_DispatcherDelegates :
    (gbLoaded .mbc1 0).spiReady = true ∧ (gbLoaded .mbc1 0).gb.romSize ≠ 0 ∧ (gbaLoaded .flash1m 0).gb.romSize = 0 ∧
    (gbaLoaded .flash1m 0).gba.romSize ≠ 0 ∧ ready.gb.romSize = 0 ∧ ready.gba.romSize = 0 ∧ ready.lock = 0 ∧
    (∃ t, exec .gbReadsave (locked (gbLoaded .mbc1 0)) = .next t) ∧
    ∃ t, exec .gbaReadsave (locked (gbaLoaded .unknown 0)) = .next t :=
  ⟨rfl, by decide, rfl, by decide, rfl, rfl, rfl, ⟨_, rfl⟩, _, rfl⟩
/-- Its second part: the reads that complete. -/
theorem witness_DispatcherDelegates_complete :
    Calm (locked (gbLoaded .mbc1 32768)) ∧ GbSessionOk (gbLoaded .mbc1 32768).gb ∧ GbaSessionOk (gbLoaded .mbc1 32768).gba ∧
    BufferFits (max (gbDumpTotal (gbLoaded .mbc1 32768).gb) (max (gbLoaded .mbc1 32768).gb.saveSize.toNat
      (max (gbLoaded .mbc1 32768).gba.romSize.toNat (gbLoaded .mbc1 32768).gba.saveSize.toNat))) (gbLoaded .mbc1 32768) :=
  ⟨rfl, gbSession_ok .mbc1, loaded_inv.gba, rfl, by decide⟩
/-- The bytes of a block as the edits of an image. -/
def cellsAt (a : Nat) (bs : List Byte) : List Host.Cell := bs.zipIdx.map fun p => (a + p.2, p.1)

/-- A reference GB/GBC cartridge whose header holds the logo and a title of one letter. -/
def titled (letter : Byte) : State → State :=
  gbSlot (.ref { cart .mbc1 with
    rom := { size := 0x20000, base := .fill, edits := cellsAt 0x104 (logo ++ [letter] ++ List.replicate 15 0) } })

/-- The title, code and maker that `gbaSession` caches, as a header's `0xA0..0xBF`, with a checksum byte. -/
def headerTail (check : Byte) : List Byte :=
  List.replicate 12 0x41 ++ List.replicate 4 0x42 ++ List.replicate 2 0x30 ++ List.replicate 11 0 ++ [check, 0, 0]

/-- A reference GBA cartridge with that header. -/
def headed (check : Byte) : State → State :=
  gbaSlot (.ref { gbaCart .none with
    rom := { size := 0x400000, base := .fill, edits := cellsAt 0xA0 (headerTail check) } })

/-- An agent that never issued `SETBUF`. -/
def unbuffered (s : State) : State := { s with me := { s.me with bufSet := false } }

/-- The clause of no session and the hypotheses of each engine's part. -/
theorem witness_WriteSaveVerifiesFirst :
    ready.spiReady = true ∧ LockFree ready ∧ ready.gb.romSize = 0 ∧ ready.gba.romSize = 0 ∧
    LockFree (titled 0x41 (gbLoaded .mbc1 32768)) ∧ Calm (locked (titled 0x41 (gbLoaded .mbc1 32768))) ∧
    (titled 0x41 (gbLoaded .mbc1 32768)).gb.romSize ≠ 0 ∧ (titled 0x41 (gbLoaded .mbc1 32768)).bus.pwrGba = false ∧
    BufferFits 32768 (titled 0x41 (gbLoaded .mbc1 32768)) ∧
    Calm (locked (headed 0x73 (gbaLoaded .flash1m 0xC2))) ∧ (gbaLoaded .flash1m 0xC2).gb.romSize = 0 ∧
    (gbaLoaded .flash1m 0xC2).gba.romSize ≠ 0 ∧ BufferFits 131072 (gbaLoaded .flash1m 0xC2) ∧
    (unbuffered (gbLoaded .mbc1 32768)).me.bufSet = false ∧
    4294967296 < (buffered 0xFFFF8001 (gbLoaded .mbc1 32768)).me.bufp.toNat + 32768 :=
  ⟨rfl, .inl rfl, rfl, rfl, .inl rfl, rfl, by decide, rfl, ⟨rfl, by decide⟩, rfl, rfl, by decide, ⟨rfl, by decide⟩, rfl,
    by decide⟩
/-- What its check reads of a slot with no cartridge, of another cartridge, and of the one loaded, the buffer unset and
too high as well. -/
theorem witness_WriteSaveVerifiesFirst_gb :
    (gbLiveCheck (gbSlot (.absent 0xFF) (gbLoaded .mbc1 32768))).1.take 48 ≠ logo ∧
    (gbLiveCheck (titled 0x42 (gbLoaded .mbc1 32768))).1.take 48 = logo ∧
    normTitle ((gbLiveCheck (titled 0x42 (gbLoaded .mbc1 32768))).1.drop 48) ≠ (gbLoaded .mbc1 32768).gb.title ∧
    GbStill (gbLiveCheck (titled 0x41 (gbLoaded .mbc1 32768))).1 (gbLoaded .mbc1 32768).gb ∧
    GbStill (gbLiveCheck (titled 0x41 (unbuffered (gbLoaded .mbc1 32768)))).1 (gbLoaded .mbc1 32768).gb ∧
    GbStill (gbLiveCheck (titled 0x41 (buffered 0xFFFF8001 (gbLoaded .mbc1 32768)))).1 (gbLoaded .mbc1 32768).gb :=
  ⟨by decide +kernel, by decide +kernel, by decide +kernel, ⟨by decide +kernel, by decide +kernel⟩,
    ⟨by decide +kernel, by decide +kernel⟩, by decide +kernel, by decide +kernel⟩
theorem witness_WriteSaveVerifiesFirst_gba :
    gbaChecksumOk (gbaLiveCheck (headed 0 (gbaLoaded .flash1m 0xC2))).1 = false ∧
    gbaChecksumOk (gbaLiveCheck (headed 0x73 (gbaLoaded .flash1m 0xC2))).1 = true ∧
    ¬ GbaStill (gbaLiveCheck (headed 0x73 (gbaLoaded .flash1m 0xC2))).1
      { gbaSession .flash1m 0xC2 with title := List.replicate 12 0x43 } ∧
    GbaStill (gbaLiveCheck (headed 0x73 (unbuffered (gbaLoaded .flash1m 0xC2)))).1 (gbaLoaded .flash1m 0xC2).gba :=
  ⟨by decide +kernel, by decide +kernel, fun h => absurd h.2.1 (by decide +kernel), by decide +kernel, by decide +kernel,
    by decide +kernel, by decide +kernel⟩
theorem witness_DispatcherClears :
    ready.lock = 0 ∧ lockedByOther.lock ≠ 0 ∧ lockedByOther.lock ≠ Config.gbxKey :=
  ⟨rfl, lockedByOther_lock.1, lockedByOther_lock.2⟩
theorem witness_TextGetters :
    (gbLoaded .mbc1 0).gb.romSize ≠ 0 ∧ BufferFits 40 (gbLoaded .mbc1 0) ∧ (gbaLoaded .unknown 0).gb.romSize = 0 ∧
    (gbaLoaded .unknown 0).gba.romSize ≠ 0 ∧ BufferFits 12 (gbaLoaded .unknown 0) ∧ ready.gb.romSize = 0 ∧
    ready.gba.romSize = 0 := ⟨by decide, ⟨rfl, by decide⟩, rfl, by decide, ⟨rfl, by decide⟩, rfl, rfl⟩
theorem witness_EstimatorsAreLinear :
    (gbLoaded .mbc1 0).gb.romSize ≠ 0 ∧ (gbaLoaded .unknown 0).gb.romSize = 0 ∧ (gbaLoaded .unknown 0).gba.romSize ≠ 0 ∧
    ready.gb.romSize = 0 ∧ ready.gba.romSize = 0 := ⟨by decide, rfl, by decide, rfl, rfl⟩
theorem witness_WireRowsRun : Ready ready ∧ Ready (gbaBoot .none) := ⟨ready_ready, rfl, rfl, rfl, rfl⟩

end Sys2Proof.Tests
end

section
/-! PROOFS. `40_transport_lock.md`: `SETBUF` (R172) and `UNLOCK` (R185), each from its command word to its effect. -/

namespace Sys2Proof.Machine

/-! ## Command words given by their fields -/

/-- A word whose fields name an operation is that operation, its operand ranges checked (`30_encoding.md` R127). -/
theorem decodeRequest_wordOf {f : Fields} {i : Instr} (named : decodeFields f = .ok i) :
    decodeRequest (.word (wordOf f)) = inRange i := by
  simp [decodeRequest, decodeWord, named, bind, Except.bind]

/-- Format `A` with its unused fields 0 decodes its argument alone (`30_encoding.md` R121). -/
theorem fmtA_arg (opc : BitVec 8) (arg : Word) (k : Word → Except DecodeError Instr) :
    fmtA ⟨opc, 0, 0, arg⟩ k = k arg := by simp [fmtA]

/-- A format `A` word written out is the one built from its fields (`30_encoding.md` R120, R121). -/
theorem append_eq_wordOf (opc : BitVec 8) (arg : Word) : opc ++ 0#8 ++ 0#16 ++ arg = wordOf ⟨opc, 0, 0, arg⟩ := rfl

theorem decodeFields_setbuf (buf : Word) : decodeFields ⟨0x08#8, 0, 0, buf⟩ = .ok (.setbuf buf) := by
  rw [decodeFields_08, fmtA_arg]

theorem decodeFields_unlock (key : Word) : decodeFields ⟨0x07#8, 0, 0, key⟩ = .ok (.unlock key) := by
  rw [decodeFields_07, fmtA_arg]

/-- `UNLOCK` has one operand range: its key is not 0 (`40_transport_lock.md` R185). -/
theorem wellFormed_unlock_iff (key : Word) : (Instr.unlock key).wellFormed = true ↔ key ≠ 0 := by
  simp [Instr.wellFormed]

/-! ## What the two operations do -/

theorem exec_setbuf (buf : Word) (s : State) :
    exec (.setbuf buf) s = .next (finish 0 (setBuffer buf s)) := execSetbuf_eq buf

theorem exec_unlock {key : Word} (s : State) (nonzero : key ≠ 0) :
    exec (.unlock key) s = .next (finish 0 (releaseLock key s)) :=
  (execUnlock_eq key).trans (guarded_ok ((wellFormed_unlock_iff key).2 nonzero))

/-- Releasing with a key that does not hold the lock does nothing (`40_transport_lock.md` R185). -/
theorem releaseLock_other {key : Word} {s : State} (h : s.lock ≠ key) : releaseLock key s = s := if_neg h

/-- `return v` changes nothing but the agent's own result, relative to the state it is reached in (`00_scope.md` R16). -/
theorem done_finish_self (v : Word) (s : State) : Done v s (finish v s) := done_finish v (.refl s)

/-- The release on a match and the no-op otherwise (`40_transport_lock.md` R185). -/
theorem done_releaseLock (v key : Word) (s : State) :
    if s.lock = key then Done v { s with lock := 0, csForceIdle := false } (finish v (releaseLock key s))
    else Done v s (finish v (releaseLock key s)) := by
  split
  case isTrue own => rw [releaseLock_own (h := own)]; exact done_finish_self v _
  case isFalse other => rw [releaseLock_other other]; exact done_finish_self v s

/-- `UNLOCK` touches nothing on the bus side. -/
theorem quiet_releaseLock (v key : Word) (s : State) : QuietBus s.bus (finish v (releaseLock key s)).bus := by
  simpa only [releaseLock_bus] using quiet_finish v (releaseLock key s)

/-! ## The statements -/

/-- Settles O16: the word is the format `A` word of `SETBUF`, and its one step sets the issuing agent's pointer. -/
theorem setbufSetsPointer : Obligations.SetbufSetsPointer := by
  intro buf s
  refine ⟨?_, _, exec_setbuf buf s, quiet_finish 0 (setBuffer buf s), done_finish_self 0 (setBuffer buf s)⟩
  rw [append_eq_wordOf]
  exact (decodeRequest_wordOf (decodeFields_setbuf buf)).trans (if_pos rfl)

/-- Settles O18: a key of 0 is out of the operand's range; with any other the one step is `releaseLock`, split on
whether the key holds the lock. -/
theorem unlockReleasesOnMatch : Obligations.UnlockReleasesOnMatch := by
  intro key s
  rw [append_eq_wordOf, decodeRequest_wordOf (decodeFields_unlock key)]
  refine ⟨fun zero => ?_, fun nonzero => ⟨?_, ?_⟩⟩
  · exact if_neg fun inside => (wellFormed_unlock_iff key).1 inside zero
  · exact if_pos ((wellFormed_unlock_iff key).2 nonzero)
  · exact ⟨_, exec_unlock s nonzero, quiet_releaseLock 0 key s, done_releaseLock 0 key s⟩

end Sys2Proof.Machine
end

section
/-! PROOFS. `43_gb_engine.md`: `GB_CLEAR` (R294), with `GBA_CLEAR` (`44_gba_rom.md` R333), each from its command word
to the session it leaves empty. -/

namespace Sys2Proof.Machine

/-! ## Command words of nothing but an operation code -/

/-- With no field set, format `Z` gives its operation (`30_encoding.md` R121). -/
theorem fmtZ_bare (opc : BitVec 8) (i : Instr) : fmtZ (bare opc) i = .ok i := if_pos ⟨rfl, rfl, rfl⟩

/-- The bare word of a format `Z` row is that row's operation, where the operation has no operand range to check
(`30_encoding.md` R121, R127). -/
theorem decodeRequest_bare {opc : BitVec 8} {i : Instr} (row : decodeFields (bare opc) = fmtZ (bare opc) i)
    (wf : i.wellFormed = true) : decodeRequest (.word (wordOf (bare opc))) = .ok i :=
  (decodeRequest_wordOf (row.trans (fmtZ_bare opc i))).trans (if_pos wf)

theorem decodeRequest_gbClear : decodeRequest (.word 0x3B00000000000000) = .ok .gbClear := by
  have word : (0x3B00000000000000 : CmdWord) = wordOf (bare 0x3B) := rfl
  rw [word]
  exact decodeRequest_bare (decodeFields_3B 0 0 0) rfl

theorem decodeRequest_gbaClear : decodeRequest (.word 0x4500000000000000) = .ok .gbaClear := by
  have word : (0x4500000000000000 : CmdWord) = wordOf (bare 0x45) := rfl
  rw [word]
  exact decodeRequest_bare (decodeFields_45 0 0 0) rfl

/-! ## What the two operations do -/

theorem exec_gbClear (s : State) : exec .gbClear s = .next (finish 0 (gbClear s)) := execGbClear_eq

theorem exec_gbaClear (s : State) : exec .gbaClear s = .next (finish 0 (gbaClear s)) := execGbaClear_eq

/-- Emptying the GB/GBC session touches nothing on the bus side. -/
theorem quiet_gbClear (v : Word) (s : State) : QuietBus s.bus (finish v (gbClear s)).bus := by
  simpa only [gbClear_bus] using quiet_finish v (gbClear s)

/-- Emptying the GBA session touches nothing on the bus side. -/
theorem quiet_gbaClear (v : Word) (s : State) : QuietBus s.bus (finish v (gbaClear s)).bus := by
  simpa only [gbaClear_bus] using quiet_finish v (gbaClear s)

/-- The session emptied and nothing else (`10_state.md` R35, `43_gb_engine.md` R294). -/
theorem done_gbClear (v : Word) (s : State) : Done v { s with gb := .empty } (finish v (gbClear s)) :=
  done_finish_self v (gbClear s)

/-- The session emptied and nothing else (`10_state.md` R38, `44_gba_rom.md` R333). -/
theorem done_gbaClear (v : Word) (s : State) : Done v { s with gba := .empty } (finish v (gbaClear s)) :=
  done_finish_self v (gbaClear s)

/-! ## The statement -/

/-- Settles O38: each word is its row's code alone, and from any state, initialised or not, the one step is the
session's clear followed by the result 0. -/
theorem clearsEmptySessions : Obligations.ClearsEmptySessions := by
  refine ⟨decodeRequest_gbClear, decodeRequest_gbaClear, fun s => ⟨?gb, ?gba⟩⟩
  case gb => exact ⟨_, exec_gbClear s, quiet_gbClear 0 s, done_gbClear 0 s⟩
  case gba => exact ⟨_, exec_gbaClear s, quiet_gbaClear 0 s, done_gbaClear 0 s⟩

end Sys2Proof.Machine
end

section
/-! PROOFS. `46_dispatcher.md`: `GBX_TYPE` (R427), `GBX_ROMSIZE` (R430) and `GBX_SAVESIZE` (R431), each from its command
word to the value it reads from the active session (R424). -/

namespace Sys2Proof.Machine

/-! ## What the active session gives -/

/-- The three answers of `Active()`, each with what decides it (`46_dispatcher.md` R424). -/
theorem active_cases (s : State) :
    (s.gb.romSize ≠ 0 ∧ active s = .gb) ∨
    (s.gb.romSize = 0 ∧ s.gba.romSize ≠ 0 ∧ active s = .gba) ∨
    (s.gb.romSize = 0 ∧ s.gba.romSize = 0 ∧ active s = .none) := by
  by_cases noGb : s.gb.romSize = 0
  · by_cases noGba : s.gba.romSize = 0
    · exact .inr (.inr ⟨noGb, noGba, active_none noGb noGba⟩)
    · exact .inr (.inl ⟨noGb, noGba, active_gba noGb noGba⟩)
  · exact .inl ⟨noGb, active_gb noGb⟩

/-- A reading that has one value for each answer of `Active()`, with the choice written out on the two sessions
(`46_dispatcher.md` R424). -/
theorem byActive_eq {α : Type} {s : State} {v gb gba none : α} (onGb : active s = .gb → v = gb)
    (onGba : active s = .gba → v = gba) (onNone : active s = .none → v = none) :
    v = if s.gb.romSize ≠ 0 then gb else if s.gba.romSize ≠ 0 then gba else none := by
  obtain ⟨hasGb, p⟩ | ⟨noGb, hasGba, p⟩ | ⟨noGb, noGba, p⟩ := active_cases s
  · rw [if_pos hasGb, onGb p]
  · rw [if_neg (not_not_intro noGb), if_pos hasGba, onGba p]
  · rw [if_neg (not_not_intro noGb), if_neg (not_not_intro noGba), onNone p]

/-- The active platform's code (`46_dispatcher.md` R427). -/
theorem platformCode_active_eq (s : State) : platformCode (active s) =
    if s.gb.romSize ≠ 0 then 1 else if s.gba.romSize ≠ 0 then 2 else 0 := by
  apply byActive_eq <;> intro p <;> rw [p] <;> rfl

/-- The active session's ROM size (`46_dispatcher.md` R430). -/
theorem activeRomSize_eq (s : State) : activeRomSize s =
    if s.gb.romSize ≠ 0 then s.gb.romSize else if s.gba.romSize ≠ 0 then s.gba.romSize else 0 := by
  apply byActive_eq <;> intro p <;> simp only [activeRomSize, p]

/-- The active session's save size (`46_dispatcher.md` R431). -/
theorem activeSaveSize_eq (s : State) : activeSaveSize s =
    if s.gb.romSize ≠ 0 then s.gb.saveSize else if s.gba.romSize ≠ 0 then s.gba.saveSize else 0 := by
  apply byActive_eq <;> intro p <;> simp only [activeSaveSize, p]

/-! ## The command words -/

theorem decodeRequest_gbxType : decodeRequest (.word 0x6200000000000000) = .ok .gbxType := by
  have word : (0x6200000000000000 : CmdWord) = wordOf (bare 0x62) := rfl
  rw [word]
  exact decodeRequest_bare (decodeFields_62 0 0 0) rfl

theorem decodeRequest_gbxRomsize : decodeRequest (.word 0x6500000000000000) = .ok .gbxRomsize := by
  have word : (0x6500000000000000 : CmdWord) = wordOf (bare 0x65) := rfl
  rw [word]
  exact decodeRequest_bare (decodeFields_65 0 0 0) rfl

theorem decodeRequest_gbxSavesize : decodeRequest (.word 0x6600000000000000) = .ok .gbxSavesize := by
  have word : (0x6600000000000000 : CmdWord) = wordOf (bare 0x66) := rfl
  rw [word]
  exact decodeRequest_bare (decodeFields_66 0 0 0) rfl

/-! ## What the three operations do -/

theorem exec_gbxType (s : State) : exec .gbxType s = .next (finish (platformCode (active s)) s) := execGbxType_eq

theorem exec_gbxRomsize (s : State) : exec .gbxRomsize s = .next (finish (activeRomSize s) s) := execGbxRomsize_eq

theorem exec_gbxSavesize (s : State) : exec .gbxSavesize s = .next (finish (activeSaveSize s) s) :=
  execGbxSavesize_eq

/-- An operation that only returns a value has no lock and no bus activity, and changes nothing else
(`46_dispatcher.md` R426). -/
theorem returns_of_exec_finish {i : Instr} {v w : Word} {s : State} (run : exec i s = .next (finish v s))
    (value : v = w) : ∃ t, exec i s = .next t ∧ QuietBus s.bus t.bus ∧ Done w s t :=
  ⟨_, run, quiet_finish v s, value ▸ done_finish_self v s⟩

/-! ## The statement -/

/-- Settles O57: each word is its row's code alone, and from any state, initialised or not, the one step returns the
active session's value, which the two ROM sizes choose. -/
theorem sessionGetters : Obligations.SessionGetters := by
  refine ⟨decodeRequest_gbxType, decodeRequest_gbxRomsize, decodeRequest_gbxSavesize, fun s => ⟨?type, ?rom, ?save⟩⟩
  case type => exact returns_of_exec_finish (exec_gbxType s) (platformCode_active_eq s)
  case rom => exact returns_of_exec_finish (exec_gbxRomsize s) (activeRomSize_eq s)
  case save => exact returns_of_exec_finish (exec_gbxSavesize s) (activeSaveSize_eq s)

end Sys2Proof.Machine
end

section
/-! PROOFS. `30_encoding.md` R120 to R150: decoding and encoding are inverse to each other, first on the fields of a
command word, format by format, then on expander frames and EEPROM bit strings, then on every request. -/

namespace Sys2Proof

/-! ## Command words: an encoding's fields are decoded -/

/-- The fields that an encoding puts into a command word name the operation, operand ranges aside
(`30_encoding.md` R126). -/
theorem decodeFields_of_encode {i : Instr} {w : CmdWord} (h : encode i = .word w) :
    decodeFields (fieldsOf w) = .ok i := by
  cases i
  case wireExpFrame3Wr | wireExpFrame3Rd | wireExpFrame4Wr | wireExpFrame4Rd | wireCrdHeader | wireEepRead4k
    | wireEepRead64k | wireEepWrite4k | wireEepWrite64k => cases h
  all_goals
    obtain rfl := Request.word.inj h
    simp [bare, fmtZ, fmtS, fmtI, fmtSI, fmtA, fmtAI, fmtSA, narrow_setWidth, bind, Except.bind]

/-! ## Command words: decoded fields are an encoding's -/

/-- A value that a decoder of a field accepts has that field as its code. -/
def Reads {α β : Type} (dec : β → Except DecodeError α) (code : α → β) : Prop := ∀ v x, dec v = .ok x → code x = v

theorem reads_field {β : Type} : Reads (fun v : β => .ok v) id := fun _ _ h => (Except.ok.inj h).symm

theorem reads_narrow {m n : Nat} : Reads (narrow (m := m) n) (·.setWidth m) := fun _ _ h => narrow_inv h

/-- No code is accepted. -/
theorem reads_error {α β : Type} (e : DecodeError) (code : α → β) : Reads (fun _ => .error e) code :=
  fun _ _ h => nomatch h

/-- One more code is accepted, for the value that has it. -/
theorem Reads.orElse {α β : Type} [DecidableEq β] {code : α → β} {rest : β → Except DecodeError α} (h : Reads rest code)
    (a : α) : Reads (fun v => if v = code a then .ok a else rest v) code := by
  intro v x e
  dsimp only at e
  split at e
  case isTrue eq => cases e; exact eq.symm
  case isFalse => exact h v x e

theorem reads_oneBit {m : Nat} : Reads (oneBit (m := m)) bitCode := by
  have chain := ((reads_error .mustBeZero (bitCode (m := m))).orElse true).orElse false
  exact chain

theorem reads_pinOf : Reads pinOf pinCode := by
  have chain := (((((((((reads_error .selector pinCode).orElse .det).orElse .gbaWr).orElse .gbaRd).orElse
    .gbaCs2).orElse .gbaCs).orElse .gbaPwr).orElse .gbWr).orElse .gbRd).orElse .gbCs
  exact chain.orElse .gbPwr

theorem reads_portOf : Reads portOf portCode := by
  have chain := (((reads_error .selector portCode).orElse .d).orElse .c).orElse .b
  exact chain.orElse .a

theorem reads_chipOf : Reads chipOf chipCode := by
  have chain := (reads_error .selector chipCode).orElse .cd
  exact chain.orElse .ab

theorem reads_mbcOf : Reads mbcOf mbcCode := by
  have chain := ((((reads_error .selector mbcCode).orElse .mbc5).orElse .mbc3).orElse .mbc2).orElse .mbc1
  exact chain.orElse .noMbc

theorem reads_framingOf : Reads framingOf framingCode := by
  have chain := (reads_error .mustBeZero framingCode).orElse .k64
  exact chain.orElse .k4

theorem reads_dirOf : Reads dirOf dirCode := by
  have chain := (reads_error .mustBeZero dirCode).orElse .output
  exact chain.orElse .input

/-- Fields whose decoding gave an operation are those the operation's encoding puts together. -/
def Encodes (f : Fields) (r : Except DecodeError Instr) : Prop := ∀ i, r = .ok i → encode i = .word (wordOf f)

/-- A field that no operand uses must be 0 (`30_encoding.md` R121). -/
theorem encodes_if {f : Fields} {c : Prop} [Decidable c] {r : Except DecodeError Instr} {e : DecodeError}
    (h : c → Encodes f r) : Encodes f (if c then r else .error e) := by
  intro i k
  split at k
  case isTrue z => exact h z i k
  case isFalse => cases k

/-- An operand read from a field is encoded by that field. -/
theorem encodes_bind {α β : Type} {f : Fields} {v : β} {dec : β → Except DecodeError α} {code : α → β}
    {k : α → Except DecodeError Instr} (hd : Reads dec code) (h : ∀ x, code x = v → Encodes f (k x)) :
    Encodes f (dec v >>= k) := by
  intro i e
  cases d : dec v with
  | error x => rw [d] at e; cases e
  | ok x => rw [d] at e; exact h x (hd v x d) i e

theorem encodes_ok {f : Fields} {i : Instr} (h : encode i = .word (wordOf f)) : Encodes f (.ok i) := fun _ e =>
  Except.ok.inj e ▸ h

section formats
variable {α β : Type} {o s : BitVec 8} {m : BitVec 16} {a : BitVec 32} {decS : BitVec 8 → Except DecodeError α}
  {codeS : α → BitVec 8} {decI : BitVec 16 → Except DecodeError β} {codeI : β → BitVec 16}
  {decA : BitVec 32 → Except DecodeError α} {codeA : α → BitVec 32}

theorem encodes_fmtZ {i : Instr} (h : encode i = .word (wordOf (bare o))) :
    Encodes ⟨o, s, m, a⟩ (fmtZ ⟨o, s, m, a⟩ i) := encodes_if fun z => by
  obtain ⟨rfl, rfl, rfl⟩ := z; exact encodes_ok h

theorem encodes_fmtS {g : α → Instr} (hs : Reads decS codeS)
    (h : ∀ x, encode (g x) = .word (wordOf { bare o with sel := codeS x })) :
    Encodes ⟨o, s, m, a⟩ (fmtS ⟨o, s, m, a⟩ fun v => do .ok (g (← decS v))) := encodes_if fun z => by
  obtain ⟨rfl, rfl⟩ := z
  exact encodes_bind hs fun x e => encodes_ok (by subst e; exact h x)

theorem encodes_fmtI {g : β → Instr} (hi : Reads decI codeI)
    (h : ∀ y, encode (g y) = .word (wordOf { bare o with imm := codeI y })) :
    Encodes ⟨o, s, m, a⟩ (fmtI ⟨o, s, m, a⟩ fun v => do .ok (g (← decI v))) := encodes_if fun z => by
  obtain ⟨rfl, rfl⟩ := z
  exact encodes_bind hi fun y e => encodes_ok (by subst e; exact h y)

theorem encodes_fmtA {g : α → Instr} (ha : Reads decA codeA)
    (h : ∀ x, encode (g x) = .word (wordOf { bare o with arg := codeA x })) :
    Encodes ⟨o, s, m, a⟩ (fmtA ⟨o, s, m, a⟩ fun v => do .ok (g (← decA v))) := encodes_if fun z => by
  obtain ⟨rfl, rfl⟩ := z
  exact encodes_bind ha fun x e => encodes_ok (by subst e; exact h x)

theorem encodes_fmtSI {g : α → β → Instr} (hs : Reads decS codeS) (hi : Reads decI codeI)
    (h : ∀ x y, encode (g x y) = .word (wordOf { bare o with sel := codeS x, imm := codeI y })) :
    Encodes ⟨o, s, m, a⟩ (fmtSI ⟨o, s, m, a⟩ fun v w => do .ok (g (← decS v) (← decI w))) := encodes_if fun z => by
  obtain rfl := z
  exact encodes_bind hs fun x e => encodes_bind hi fun y k => encodes_ok (by subst e k; exact h x y)

theorem encodes_fmtAI {g : α → β → Instr} (ha : Reads decA codeA) (hi : Reads decI codeI)
    (h : ∀ x y, encode (g x y) = .word (wordOf { bare o with arg := codeA x, imm := codeI y })) :
    Encodes ⟨o, s, m, a⟩ (fmtAI ⟨o, s, m, a⟩ fun v w => do .ok (g (← decA v) (← decI w))) := encodes_if fun z => by
  obtain rfl := z
  exact encodes_bind ha fun x e => encodes_bind hi fun y k => encodes_ok (by subst e k; exact h x y)

/-- Format `SA` has one row (`30_encoding.md` R126), whose argument is the whole field. -/
theorem encodes_fmtSA {g : α → BitVec 32 → Instr} (hs : Reads decS codeS)
    (h : ∀ x y, encode (g x y) = .word (wordOf { bare o with sel := codeS x, arg := y })) :
    Encodes ⟨o, s, m, a⟩ (fmtSA ⟨o, s, m, a⟩ fun v w => do .ok (g (← decS v) w)) := encodes_if fun z => by
  obtain rfl := z
  exact encodes_bind hs fun x e => encodes_ok (by subst e; exact h x a)

end formats

/-- An operation code by its number. -/
theorem opc_eq {o : BitVec 8} {n : Nat} (h : o.toNat = n) : o = BitVec.ofNat 8 n := by
  rw [← h, BitVec.ofNat_toNat, BitVec.setWidth_eq]

/-- Fields that name an operation are those its encoding puts together (`30_encoding.md` R126, R128). -/
theorem encode_of_decodeFields {f : Fields} {i : Instr} (h : decodeFields f = .ok i) :
    encode i = .word (wordOf f) := by
  obtain ⟨o, s, m, a⟩ := f
  suffices key : Encodes ⟨o, s, m, a⟩ (decodeFields ⟨o, s, m, a⟩) from key i h
  unfold decodeFields
  split
  pick_goal -1
  · exact fun _ e => nomatch e
  all_goals rename_i code; obtain rfl := opc_eq (o := o) code
  -- transport and lock
  next => exact encodes_fmtA (decA := .ok) (g := .init) reads_field fun _ => rfl
  next => exact encodes_fmtI (decI := .ok) (g := .xfer) reads_field fun _ => rfl
  next => exact encodes_fmtSI reads_pinOf reads_dirOf fun _ _ => rfl
  next => exact encodes_fmtSI reads_pinOf reads_oneBit fun _ _ => rfl
  next => exact encodes_fmtS reads_pinOf fun _ => rfl
  next => exact encodes_fmtSA reads_oneBit fun _ _ => rfl
  next => exact encodes_fmtA (decA := .ok) (g := .unlock) reads_field fun _ => rfl
  next => exact encodes_fmtA (decA := .ok) (g := .setbuf) reads_field fun _ => rfl
  -- port expander
  iterate 3 next => exact encodes_fmtSI reads_portOf reads_narrow fun _ _ => rfl
  next => exact encodes_fmtS reads_portOf fun _ => rfl
  next => exact encodes_fmtSI (decI := .ok) (g := .expDir2) reads_chipOf reads_field fun _ _ => rfl
  next => exact encodes_fmtSI (decI := .ok) (g := .expPull2) reads_chipOf reads_field fun _ _ => rfl
  next => exact encodes_fmtSI (decI := .ok) (g := .expWr2) reads_chipOf reads_field fun _ _ => rfl
  iterate 2 next => exact encodes_fmtS reads_chipOf fun _ => rfl
  iterate 2 next => exact encodes_fmtZ rfl
  -- power sequencer
  iterate 4 next => exact encodes_fmtZ rfl
  -- GB/GBC engine
  next => exact encodes_fmtA reads_narrow fun _ => rfl
  next => exact encodes_fmtAI reads_narrow reads_narrow fun _ _ => rfl
  next => exact encodes_fmtSI reads_mbcOf reads_narrow fun _ _ => rfl
  next => exact encodes_fmtS reads_mbcOf fun _ => rfl
  next => exact encodes_fmtSI reads_mbcOf reads_narrow fun _ _ => rfl
  next => exact encodes_fmtS reads_mbcOf fun _ => rfl
  iterate 6 next => exact encodes_fmtZ rfl
  -- GBA ROM engine
  next => exact encodes_fmtAI (decI := .ok) (g := .gbaRomrd) reads_narrow reads_field fun _ _ => rfl
  iterate 5 next => exact encodes_fmtZ rfl
  -- GBA save engine
  next => exact encodes_fmtZ rfl
  iterate 2 next => exact encodes_fmtSI reads_framingOf reads_narrow fun _ _ => rfl
  next => exact encodes_fmtA reads_narrow fun _ => rfl
  next => exact encodes_fmtAI reads_narrow reads_narrow fun _ _ => rfl
  next => exact encodes_fmtZ rfl
  next => exact encodes_fmtI reads_oneBit fun _ => rfl
  next => exact encodes_fmtA reads_narrow fun _ => rfl
  next => exact encodes_fmtAI reads_narrow reads_narrow fun _ _ => rfl
  next => exact encodes_fmtA reads_narrow fun _ => rfl
  iterate 2 next => exact encodes_fmtZ rfl
  -- GBx dispatcher
  iterate 14 next => exact encodes_fmtZ rfl

/-! ## Frames -/

theorem devOf_inv {v : Byte} {c : Chip} {rd : Bool} (h : devOf v = some (c, rd)) : v = devOpcode c rd := by
  unfold devOf at h
  iterate 4
    split at h
    · cases h; assumption
  cases h

/-- The bytes of a wire row are those its operation encodes (`30_encoding.md` R134 to R136). -/
theorem encode_of_decodeFrame {bytes : List Byte} {i : Instr} (h : decodeFrame bytes = .ok i) :
    encode i = .frame bytes := by
  unfold decodeFrame at h
  split at h
  case h_1 op reg =>
    split at h
    case h_1 c dev =>
      split at h
      case isTrue r => cases h; rw [devOf_inv dev, r]; rfl
      case isFalse => cases h
    case h_2 => cases h
  case h_2 op reg d =>
    split at h
    case h_1 c dev => cases h; rw [devOf_inv dev]; rfl
    case h_2 c dev =>
      split at h
      case isTrue z => cases h; rw [devOf_inv dev, z]; rfl
      case isFalse => cases h
    case h_3 => cases h
  case h_3 op reg d e =>
    split at h
    case h_1 c dev => cases h; rw [devOf_inv dev]; rfl
    case h_2 c dev =>
      split at h
      case isTrue z => obtain ⟨rfl, rfl, rfl⟩ := z; cases h; rw [devOf_inv dev]; rfl
      case isFalse => cases h
    case h_3 => cases h
  case h_4 => cases h

/-- The bytes that an operation encodes are its wire row's. -/
theorem decodeFrame_of_encode {i : Instr} {bytes : List Byte} (h : encode i = .frame bytes) :
    decodeFrame bytes = .ok i := by
  cases i
  case wireExpFrame3Wr | wireExpFrame3Rd | wireExpFrame4Wr | wireExpFrame4Rd | wireCrdHeader =>
    obtain rfl := Request.frame.inj h
    simp [decodeFrame]
  all_goals cases h

/-! ## EEPROM bit strings -/

theorem numberOf_concat (bits : List Bool) (b : Bool) : numberOf (bits ++ [b]) = 2 * numberOf bits + b.toNat := by
  simp [numberOf]

theorem bitsOf_succ (n v : Nat) : bitsOf (n + 1) v = bitsOf n (v / 2) ++ [v.testBit 0] := by
  unfold bitsOf
  rw [List.range_succ, List.map_append, List.map_singleton]
  congr 1
  · refine List.map_congr_left fun i m => ?_
    have lt : i < n := List.mem_range.mp m
    rw [Nat.testBit_div_two]
    congr 1
    omega
  · simp

@[simp] theorem bitsOf_length (n v : Nat) : (bitsOf n v).length = n := by simp [bitsOf]

/-- A number's bits spell the number (`30_encoding.md` R150). -/
theorem numberOf_bitsOf (n v : Nat) : numberOf (bitsOf n v) = v % 2 ^ n := by
  induction n generalizing v with
  | zero => simp [bitsOf, numberOf, Nat.mod_one]
  | succ n ih =>
    rw [bitsOf_succ, numberOf_concat, ih, Nat.toNat_testBit, Nat.pow_zero, Nat.div_one, Nat.pow_succ, Nat.mul_comm,
      Nat.mul_comm (2 ^ n), Nat.mod_mul]
    omega

/-- Bits are those of the number they spell. -/
theorem bitsOf_numberOf (bits : List Bool) : bitsOf bits.length (numberOf bits) = bits := by
  induction bits using List.reverseRecOn with
  | nil => rfl
  | append_singleton bits b ih =>
    rw [List.length_append, List.length_singleton, bitsOf_succ, numberOf_concat]
    have half : (2 * numberOf bits + b.toNat) / 2 = numberOf bits := by cases b <;> simp; omega
    rw [half, ih]
    cases b <;> simp [Nat.testBit_zero]

theorem numberOf_lt (bits : List Bool) : numberOf bits < 2 ^ bits.length := by
  induction bits using List.reverseRecOn with
  | nil => simp [numberOf]
  | append_singleton bits b ih =>
    rw [numberOf_concat, List.length_append, List.length_singleton, Nat.pow_succ]
    have := b.toNat_lt
    omega

/-- The bits of a row or a data value, read back. -/
theorem ofNat_numberOf_bitsOf {n : Nat} (v : BitVec n) : BitVec.ofNat n (numberOf (bitsOf n v.toNat)) = v := by
  rw [numberOf_bitsOf, Nat.mod_eq_of_lt v.isLt, BitVec.ofNat_toNat, BitVec.setWidth_eq]

/-- The value that bits spell has them as its bits. -/
theorem bitsOf_ofNat_numberOf {n : Nat} {bits : List Bool} (h : bits.length = n) :
    bitsOf n (BitVec.ofNat n (numberOf bits)).toNat = bits := by
  subst h
  rw [BitVec.toNat_ofNat, Nat.mod_eq_of_lt (numberOf_lt bits), bitsOf_numberOf]

/-- A request of R150: its two command bits, the rest, its stop bit. -/
theorem decodeEep_cons (kind : Bool) (body : List Bool) : decodeEep (true :: kind :: (body ++ [false])) =
    if body.length = 6 ∧ kind = true then .ok (.wireEepRead4k (BitVec.ofNat 6 (numberOf body)))
    else if body.length = 14 ∧ kind = true then .ok (.wireEepRead64k (BitVec.ofNat 14 (numberOf body)))
    else if body.length = 70 ∧ kind = false then
      .ok (.wireEepWrite4k (BitVec.ofNat 6 (numberOf (body.take 6))) (BitVec.ofNat 64 (numberOf (body.drop 6))))
    else if body.length = 78 ∧ kind = false then
      .ok (.wireEepWrite64k (BitVec.ofNat 14 (numberOf (body.take 14))) (BitVec.ofNat 64 (numberOf (body.drop 14))))
    else .error .frame := by
  have last : (true :: kind :: (body ++ [false])).getLast? = some false := by
    rw [← List.cons_append, ← List.cons_append, List.getLast?_concat]
  simp [decodeEep, last]

/-- A bit string with a first, a second and a last bit is those and what stands between. -/
theorem eep_shape {bits : List Bool} {x y z : Bool} (long : 3 ≤ bits.length) (first : bits.head? = some x)
    (second : bits[1]? = some y) (last : bits.getLast? = some z) : ∃ body, bits = x :: y :: (body ++ [z]) := by
  match bits with
  | b0 :: b1 :: b2 :: bs =>
    simp at first second
    subst first second
    obtain ⟨body, v, e⟩ := List.eq_nil_or_concat' (b2 :: bs) |>.resolve_left (List.cons_ne_nil _ _)
    rw [e, ← List.cons_append, ← List.cons_append, List.getLast?_concat] at last
    cases last
    exact ⟨body, by rw [e]⟩

/-- The bits of a wire row are those its operation encodes (`30_encoding.md` R150). -/
theorem encode_of_decodeEep {bits : List Bool} {i : Instr} (h : decodeEep bits = .ok i) : encode i = .eep bits := by
  have shape : ∃ kind body, bits = true :: kind :: (body ++ [false]) := by
    unfold decodeEep at h
    dsimp only at h
    split at h
    case isTrue c =>
      obtain ⟨len, second, first, last⟩ := c
      exact ⟨true, eep_shape (by omega) first second last⟩
    split at h
    case isTrue c =>
      obtain ⟨len, second, first, last⟩ := c
      exact ⟨true, eep_shape (by omega) first second last⟩
    split at h
    case isTrue c =>
      obtain ⟨len, second, first, last⟩ := c
      exact ⟨false, eep_shape (by omega) first second last⟩
    split at h
    case isTrue c =>
      obtain ⟨len, second, first, last⟩ := c
      exact ⟨false, eep_shape (by omega) first second last⟩
    cases h
  obtain ⟨kind, body, rfl⟩ := shape
  rw [decodeEep_cons] at h
  split at h
  case isTrue c =>
    obtain ⟨len, rfl⟩ := c
    cases h
    simp only [encode, eepReadBits, bitsOf_ofNat_numberOf len]
    rfl
  split at h
  case isTrue c =>
    obtain ⟨len, rfl⟩ := c
    cases h
    simp only [encode, eepReadBits, bitsOf_ofNat_numberOf len]
    rfl
  split at h
  case isTrue c =>
    obtain ⟨len, rfl⟩ := c
    cases h
    have row : (body.take 6).length = 6 := by simp [len]
    have data : (body.drop 6).length = 64 := by simp [len]
    simp only [encode, eepWriteBits, bitsOf_ofNat_numberOf row, bitsOf_ofNat_numberOf data]
    simp
  split at h
  case isTrue c =>
    obtain ⟨len, rfl⟩ := c
    cases h
    have row : (body.take 14).length = 14 := by simp [len]
    have data : (body.drop 14).length = 64 := by simp [len]
    simp only [encode, eepWriteBits, bitsOf_ofNat_numberOf row, bitsOf_ofNat_numberOf data]
    simp
  cases h

/-- A read request is its two command bits, the row and the stop bit. -/
theorem eepReadBits_eq {n : Nat} (row : BitVec n) :
    eepReadBits row = true :: true :: (bitsOf n row.toNat ++ [false]) := rfl

/-- A write request is its two command bits, row and data, and the stop bit. -/
theorem eepWriteBits_eq {n : Nat} (row : BitVec n) (data : BitVec 64) :
    eepWriteBits row data = true :: false :: ((bitsOf n row.toNat ++ bitsOf 64 data.toNat) ++ [false]) := by
  simp [eepWriteBits]

/-- The bits that an operation encodes are its wire row's. -/
theorem decodeEep_of_encode {i : Instr} {bits : List Bool} (h : encode i = .eep bits) : decodeEep bits = .ok i := by
  cases i
  case wireEepRead4k | wireEepRead64k =>
    obtain rfl := Request.eep.inj h
    rw [eepReadBits_eq, decodeEep_cons]
    simp [ofNat_numberOf_bitsOf]
  case wireEepWrite4k | wireEepWrite64k =>
    obtain rfl := Request.eep.inj h
    rw [eepWriteBits_eq, decodeEep_cons]
    simp [ofNat_numberOf_bitsOf]
  all_goals cases h

/-! ## Every request -/

theorem inRange_inv {i j : Instr} (h : inRange i = .ok j) : j = i ∧ i.wellFormed = true := by
  unfold inRange at h
  split at h
  case isTrue wf => cases h; exact ⟨rfl, wf⟩
  case isFalse => cases h

/-- Decoding with the operand ranges checked after it (`30_encoding.md` R127). -/
theorem bind_inRange_inv {r : Except DecodeError Instr} {i : Instr} (h : (r >>= inRange) = .ok i) :
    r = .ok i ∧ i.wellFormed = true := by
  cases r with
  | error e => cases h
  | ok j => obtain ⟨rfl, wf⟩ := inRange_inv h; exact ⟨rfl, wf⟩

/-- The wire rows read from bits have no operand range (log entry 8). -/
theorem wellFormed_of_decodeEep {bits : List Bool} {i : Instr} (h : decodeEep bits = .ok i) : i.wellFormed = true := by
  have e := encode_of_decodeEep h
  cases i
  case wireEepRead4k | wireEepRead64k | wireEepWrite4k | wireEepWrite64k => rfl
  all_goals cases e

/-- Settles O2: of a command word by its fields, of a frame by its bytes, of an EEPROM request by its bits. -/
theorem encodeOfDecode : Obligations.EncodeOfDecode := by
  intro r i h
  match r with
  | .word w =>
    obtain ⟨named, wf⟩ := bind_inRange_inv h
    exact ⟨(encode_of_decodeFields named).trans (congrArg Request.word (wordOf_fieldsOf w)), wf⟩
  | .frame bytes =>
    obtain ⟨named, wf⟩ := bind_inRange_inv h
    exact ⟨encode_of_decodeFrame named, wf⟩
  | .eep bits => exact ⟨encode_of_decodeEep h, wellFormed_of_decodeEep h⟩

/-- Settles O1: what the encoding puts together is taken apart again, and the operand ranges hold by assumption. -/
theorem decodeOfEncode : Obligations.DecodeOfEncode := by
  intro i wf
  have ranges : inRange i = .ok i := if_pos wf
  cases e : encode i with
  | word w => simp only [decodeRequest, decodeWord, decodeFields_of_encode e]; exact ranges
  | frame bytes => simp only [decodeRequest, decodeFrame_of_encode e]; exact ranges
  | eep bits => exact decodeEep_of_encode e

end Sys2Proof
end

section
/-! PROOFS. `10_state.md` R21, R24, `60_exceptions.md` R480: what a step is when an operation is pending, when its
request is reserved, when it is another agent's turn, and when the outside world comes first. -/

namespace Sys2Proof.Machine

/-! ## A pending request -/

/-- Each operation's meaning is its steps run with nothing in between (`10_state.md` R24). -/
theorem exec_eq_perform (i : Instr) (s : State) : exec i s = perform i (program i) s := by cases i <;> rfl

/-- With no input that comes first, the pending request is carried out (`10_state.md` R21). -/
theorem step_of_decoded {s : State} {r : Request} {i : Instr} (pending : s.me.cmd = some r)
    (first : interposed s = none) (named : decodeRequest r = .ok i) : step s = operate i s := by
  simp [step, first, pending, named]

theorem step_of_reserved {s : State} {r : Request} {e : DecodeError} (pending : s.me.cmd = some r)
    (first : interposed s = none) (reserved : decodeRequest r = .error e) : step s = reject r s := by
  simp [step, first, pending, reserved]

theorem operate_fresh {i : Instr} {s : State} (due : pauseDue s = none) (fresh : underway s.me.seq = false) :
    operate i s = exec i s := by simp [operate, due, fresh]

theorem operate_begun {i : Instr} {s : State} (due : pauseDue s = none) (begun : underway s.me.seq = true) :
    operate i s = resume i s := by simp [operate, due, begun]

theorem operate_paused {i : Instr} {s u : State} {n : Nat} {mid : Bool} (due : pauseDue s = some (n, mid, u)) :
    operate i s = advance i n mid u := by simp [operate, due]

/-- Settles O4: the pending operation is run whole, taken to its end, or taken as far as a pause allows. -/
theorem stepRunsDecoded : Obligations.StepRunsDecoded := by
  intro s r i pending first named
  rw [step_of_decoded pending first named]
  exact ⟨operate_fresh, operate_begun, fun _ _ _ => operate_paused⟩

/-- Settles O6: a reserved word is refused, which is a result and nothing else. -/
theorem reservedWordRefused : Obligations.ReservedWordRefused := by
  intro s w e pending first reserved
  exact ⟨refuse s, step_of_reserved pending first reserved, done_finish_self errIllegal s, quiet_finish errIllegal s⟩

/-- Settles O3: each sample is decoded by evaluation. -/
theorem sampleWordsDecode : Obligations.SampleWordsDecode :=
  ⟨rfl, rfl, rfl, rfl, rfl, rfl, rfl, rfl, rfl, rfl, rfl⟩

/-! ## The outside world -/

/-- An input that comes before the current agent's next step is taken (`60_exceptions.md` R480). -/
theorem step_of_first {s : State} {input : Input} {rest : List Input} (next : s.inputs = input :: rest)
    (first : comesFirst input s.me.seq = true) : step s = applyInput input { s with inputs := rest } := by
  simp [step, interposed, next, first]

/-- With no command pending the next input is taken, whether or not it would come first. -/
theorem step_of_idle {s : State} {input : Input} {rest : List Input} (idle : s.me.cmd = none)
    (next : s.inputs = input :: rest) : step s = applyInput input { s with inputs := rest } := by
  by_cases first : comesFirst input s.me.seq = true
  · exact step_of_first next first
  · simp [step, interposed, next, first, idle, idleStep]

/-- What the outside world does to buffer, cartridge and SPI lines comes first where an operation is underway. -/
theorem step_of_idle_or_underway {s : State} {input : Input} {rest : List Input}
    (free : s.me.cmd = none ∨ underway s.me.seq = true) (first : comesFirst input s.me.seq = underway s.me.seq)
    (next : s.inputs = input :: rest) : step s = applyInput input { s with inputs := rest } := by
  rcases free with idle | begun
  · exact step_of_idle idle next
  · exact step_of_first next (first.trans begun)

theorem step_of_nothing {s : State} (nothing : s.inputs = []) (idle : s.me.cmd = none) : step s = .next s := by
  simp [step, interposed, nothing, idle, idleStep]

theorem takeTurn_of_get {s : State} {k : Nat} {a : Agent} (h : s.others[k]? = some a) :
    takeTurn k s = { s with me := a, others := s.others.eraseIdx k ++ [s.me] } := by simp [takeTurn, h]

/-- A turn exchanges agents and loses none (`60_exceptions.md` R480). -/
theorem turn_perm {me a : Agent} {others : List Agent} {k : Nat} (h : others[k]? = some a) :
    (a :: (others.eraseIdx k ++ [me])).Perm (me :: others) := by
  obtain ⟨lt, rfl⟩ := List.getElem?_eq_some_iff.mp h
  have back : (others[k] :: others.eraseIdx k).Perm others := List.getElem_cons_eraseIdx_perm lt
  exact (back.append_right [me]).trans (List.perm_append_singleton me others)

/-- Settles O7: each input by what `applyInput` does with it, where it comes first or no command is pending. -/
theorem turnsKeepAgents : Obligations.TurnsKeepAgents := by
  refine ⟨?turn, ?readRes, ?readBufp, ?poke, ?issue, ?setEnv, fun s nothing idle => step_of_nothing nothing idle⟩
  case turn =>
    intro s k rest a next h
    have taken := takeTurn_of_get (s := { s with inputs := rest }) h
    have next := (step_of_first next rfl).trans (congrArg Host.Outcome.next taken)
    exact ⟨_, next, rfl, turn_perm h, rfl, rfl, rfl, rfl, rfl, rfl⟩
  case readRes =>
    intro s rest idle next
    rw [step_of_idle idle next]
    exact ⟨fun set => if_pos set, fun unset => if_neg (by simp [unset])⟩
  case readBufp => exact fun s rest idle next => step_of_idle idle next
  case poke =>
    intro s rest a v idle next
    rw [step_of_idle idle next]
    refine ⟨fun inside => ⟨_, if_pos inside, rfl, writeBlock_stores s.hbuf a [v]⟩, fun outside => if_neg ?_⟩
    exact Nat.not_lt.mpr outside
  case issue => exact fun s rest r idle next => step_of_idle idle next
  case setEnv => exact fun s rest e free next => step_of_idle_or_underway free rfl next

/-! ## Reset -/

/-- Settles O8: the reset state, field by field. -/
theorem resetKnownValues : Obligations.ResetKnownValues := by
  refine ⟨rfl, rfl, rfl, rfl, rfl, rfl, rfl, rfl, fun a m => ?_⟩
  simp only [State.reset, List.mem_cons, List.not_mem_nil, or_false] at m
  rcases m with rfl | rfl | rfl <;> exact ⟨rfl, rfl, rfl, rfl⟩

/-- Settles O9: an empty buffer, no slot powered, empty sessions, and every pin an input. -/
theorem invariantAtReset : Obligations.InvariantAtReset where
  hbuf := reset_hbuf_wf
  slots := .inl rfl
  gb := gbSession_empty_ok
  gba := gbaSession_empty_ok
  fifo := rfl
  forced := fun forced => nomatch forced
  detector := rfl

end Sys2Proof.Machine
end

section
/-! PROOFS. What every step of an operation keeps, from what a single step can do (`Laws/Effects.lean`): the invariant
(`10_state.md` R25 to R41) and the registers of the agents (`10_state.md` R22, R23). -/

namespace Sys2Proof.Machine

variable {op i : Instr} {s t u : State}

/-! ## How an operation's run ends -/

/-- The three ends that give a state: the steps taken to the last, held at the lock, or operands out of range. -/
theorem perform_inv {p : Prog Word} (h : perform op p s = .next t) :
    (op.wellFormed = true ∧
      ((∃ v u, p.run s = .ok (v, u) ∧ t = finish v u) ∨ (p.run s = .error .blocked ∧ t = hold op s))) ∨
    (op.wellFormed = false ∧ t = refuse s) := by
  rcases guarded_inv h with ⟨wf, h⟩ | refused
  · refine .inl ⟨wf, ?_⟩
    cases e : p.run s with
    | ok r => rw [e] at h; cases h; exact .inl ⟨_, _, rfl, rfl⟩
    | error x =>
      rw [e] at h
      cases x with
      | blocked => cases h; exact .inr ⟨rfl, rfl⟩
      | fault f => cases h
  · exact .inr refused

theorem exec_inv (h : exec i s = .next t) :
    (i.wellFormed = true ∧
      ((∃ v u, (program i).run s = .ok (v, u) ∧ t = finish v u) ∨
        ((program i).run s = .error .blocked ∧ t = hold i s))) ∨
    (i.wellFormed = false ∧ t = refuse s) := perform_inv ((exec_eq_perform i s).symm.trans h)

/-- A part of an operation that gives a state: its end, a stop, held at the lock, or operands out of range. -/
theorem advance_inv {n : Nat} {mid : Bool} (h : advance i n mid s = .next t) :
    (i.wellFormed = true ∧
      ((∃ v u, (rest i s).part n (stepsDone s.me.seq) (busyAgent s.me) s = .ok (.ended v u) ∧ t = finish v u) ∨
        (∃ next done within u, (rest i s).part n (stepsDone s.me.seq) (busyAgent s.me) s =
          .ok (.paused next done within u) ∧ t = suspend i next done within mid u) ∨
        t = hold i s)) ∨
    (i.wellFormed = false ∧ t = refuse s) := by
  rcases guarded_inv h with ⟨wf, h⟩ | refused
  · refine .inl ⟨wf, ?_⟩
    unfold settlePart at h
    split at h
    case h_1 v u e => cases h; exact .inl ⟨v, u, e, rfl⟩
    case h_2 next done within u e =>
      split at h
      · cases h; exact .inr (.inl ⟨next, done, within, u, e, rfl⟩)
      · cases h
    case h_3 => cases h; exact .inr (.inr rfl)
    case h_4 => cases h
  · exact .inr refused

theorem after_nil {α : Type} (p : Prog α) : p.after [] = p := by cases p <;> rfl

/-! ## Relations that all steps of an operation keep -/

/-- What an operation's single steps can do, as what each step that happens does. -/
theorem program_effects (wf : i.wellFormed = true) : (program i).Every (Moves (Effect i)) anyValue :=
  (program_lawful i wf).mono (fun _ l => l.effect) fun _ k => k

theorem Moves.mono {R S : State → State → Prop} {a : Act} (h : ∀ s t, R s t → S s t) (m : Moves R a) : Moves S a :=
  fun s r t e => h s t (m s r t e)

/-- What every effect keeps, the steps that are left of an operation keep. -/
theorem rest_run_keeps {R : State → State → Prop} (refl : ∀ s, R s s) (trans : ∀ {s t u}, R s t → R t u → R s u)
    (effect : ∀ {i s t}, Effect i s t → R s t) (wf : i.wellFormed = true) {v : Word} {done : List Reply}
    (h : ((program i).after done).run s = .ok (v, u)) : R s u :=
  ((((program_effects wf).after done).mono (fun _ m => m.mono fun _ _ => effect) fun _ k => k).run refl trans h).1

/-! ## The invariant -/

theorem Inv.initialise (h : Inv s) (hz : Word) : Inv (initialise hz s).2 := by
  unfold Machine.initialise
  dsimp only
  split
  · exact { h with fifo := rfl }
  · exact { h with }

theorem Inv.releaseLock (h : Inv s) (key : Word) : Inv (releaseLock key s) := by
  unfold Machine.releaseLock
  split
  · exact { h with forced := fun forced => nomatch forced }
  · exact h

/-- Every single step of an operation keeps the invariant. -/
theorem Effect.inv (e : Effect op s t) (h : Inv s) : Inv t := by
  cases e with
  | none => exact h
  | bus b kept =>
    exact { h with slots := by rw [kept.pwrGb, kept.pwrGba]; exact h.slots, detector := kept.det h.detector }
  | gbOn off => exact { h with slots := .inr off }
  | gbaOn off => exact { h with slots := .inl off }
  | gbOff own => exact { h with slots := .inl rfl }
  | gbaOff own => exact { h with slots := .inr rfl }
  | claimGb => exact { h with }
  | claimGba => exact { h with }
  | bytes a bs fits => exact { h with hbuf := writeBlock_wf s.hbuf a bs h.hbuf fits }
  | gb g ok => exact { h with gb := ok }
  | gba g ok => exact { h with gba := ok }
  | take force key nonzero => exact { h with forced := fun _ => nonzero }
  | release key => exact h.releaseLock key
  | init hz => exact h.initialise hz
  | setbuf => exact { h with }
  | rx => exact { h with }

theorem Inv.finish (h : Inv s) (v : Word) : Inv (finish v s) := { h with }
theorem Inv.hold (h : Inv s) : Inv (hold op s) := { h with }
theorem Inv.suspend (h : Inv s) (next : StepKind) (done : List Reply) (within mid : Bool) :
    Inv (suspend op next done within mid s) := { h with }

/-- An operation run from any place to its end keeps the invariant. -/
theorem inv_perform {done : List Reply} (h : Inv s) (e : perform i ((program i).after done) s = .next t) : Inv t := by
  rcases perform_inv e with ⟨wf, ⟨v, u, run, rfl⟩ | ⟨-, rfl⟩⟩ | ⟨-, rfl⟩
  · have keeps : Inv s → Inv u :=
      rest_run_keeps (R := fun s t => Inv s → Inv t) (fun _ h => h) (fun f g h => g (f h)) Effect.inv wf run
    exact (keeps h).finish v
  · exact h.hold
  · exact h.finish errIllegal

theorem inv_advance {n : Nat} {mid : Bool} (h : Inv s) (e : advance i n mid s = .next t) : Inv t := by
  have part (wf : i.wellFormed = true) := ((program_effects wf).after (stepsDone s.me.seq)).mono
    (fun _ m => m.mono (S := fun s t => Inv s → Inv t) fun _ _ => Effect.inv) fun _ k => k
  rcases advance_inv e with ⟨wf, ⟨v, u, run, rfl⟩ | ⟨next, done, within, u, run, rfl⟩ | rfl⟩ | ⟨-, rfl⟩
  · exact (((part wf).part (fun _ h => h) (fun f g h => g (f h)) run).1 h).finish v
  · exact (((part wf).part (fun _ h => h) (fun f g h => g (f h)) run) h).suspend next done within mid
  · exact h.hold
  · exact h.finish errIllegal

/-- An input of the outside world keeps the invariant: the host writes inside its buffer only. -/
theorem inv_applyInput {input : Input} (h : Inv s) (e : applyInput input s = .next t) : Inv t := by
  cases input with
  | turn k =>
    cases e
    unfold takeTurn
    split
    · exact { h with }
    · exact h
  | issue r => cases e; exact { h with }
  | readRes =>
    simp only [applyInput] at e
    split at e
    · cases e; exact { h with }
    · cases e
  | readBufp => cases e; exact { h with }
  | poke a v =>
    simp only [applyInput] at e
    split at e
    case isTrue inside => cases e; exact { h with hbuf := writeBlock_wf s.hbuf a [v] h.hbuf inside }
    case isFalse => cases e
  | setEnv env => cases e; exact { h with }
  | pause n mid => cases e; exact h
  | radio =>
    simp only [applyInput, radioTransfer] at e
    split at e
    · cases e
    · cases e; exact h

theorem inv_operate (h : Inv s) (e : operate i s = .next t) : Inv t := by
  unfold operate at e
  split at e
  case h_1 n mid u due =>
    refine inv_advance (s := u) ?_ e
    unfold pauseDue at due
    split at due
    · cases due; exact { h with }
    · cases due
  case h_2 =>
    split at e
    · exact inv_perform h e
    · exact inv_perform (done := []) h (by rw [after_nil, ← exec_eq_perform]; exact e)

/-- Settles O10: an input, a part of the pending operation, the rest of it, all of it, or a refusal. -/
theorem invariantKept : Obligations.InvariantKept := by
  intro s t h e
  unfold step at e
  split at e
  case h_1 input u first =>
    refine inv_applyInput (s := u) ?_ e
    unfold interposed at first
    split at first
    · cases first
    · split at first
      · cases first; exact { h with }
      · cases first
  case h_2 =>
    split at e
    case h_1 =>
      unfold idleStep at e
      split at e
      case h_1 => cases e; exact h
      case h_2 input more _ => exact inv_applyInput (s := { s with inputs := more }) { h with } e
    case h_2 r _ =>
      split at e
      · exact inv_operate h e
      · cases r with
        | word w => cases e; exact h.finish errIllegal
        | frame => cases e
        | eep => cases e

/-! ## The agents -/

/-- What an operation leaves of the agents and the inputs (`10_state.md` R22, R23, `60_exceptions.md` R482). -/
structure AgentsKept (op : Instr) (s t : State) : Prop where
  others : t.others = s.others
  inputs : t.inputs = s.inputs
  id : t.me.id = s.me.id
  seen : t.me.seen = s.me.seen
  cmd : t.me.cmd = s.me.cmd
  buffer : (∀ b, op ≠ .setbuf b) → t.me.bufp = s.me.bufp ∧ t.me.bufSet = s.me.bufSet

theorem AgentsKept.refl (s : State) : AgentsKept op s s := ⟨rfl, rfl, rfl, rfl, rfl, fun _ => ⟨rfl, rfl⟩⟩

theorem AgentsKept.trans (h : AgentsKept op s t) (k : AgentsKept op t u) : AgentsKept op s u where
  others := k.others.trans h.others
  inputs := k.inputs.trans h.inputs
  id := k.id.trans h.id
  seen := k.seen.trans h.seen
  cmd := k.cmd.trans h.cmd
  buffer n := ⟨(k.buffer n).1.trans (h.buffer n).1, (k.buffer n).2.trans (h.buffer n).2⟩

/-- A step that leaves agents and inputs as they are. -/
theorem AgentsKept.of_same (me : t.me = s.me) (others : t.others = s.others) (inputs : t.inputs = s.inputs) :
    AgentsKept op s t := by
  constructor <;> simp [me, others, inputs]

theorem Effect.agents (e : Effect op s t) : AgentsKept op s t := by
  cases e with
  | setbuf buf src => exact ⟨rfl, rfl, rfl, rfl, rfl, fun n => absurd src (n buf)⟩
  | init hz =>
    unfold initialise
    dsimp only
    split <;> exact .of_same rfl rfl rfl
  | release key =>
    unfold releaseLock
    split <;> exact .of_same rfl rfl rfl
  | none | bus | gbOn | gbaOn | gbOff | gbaOff | claimGb | claimGba | bytes | gb | gba | take | rx =>
    exact .of_same rfl rfl rfl

/-- Every step of an operation leaves agents and inputs so. -/
theorem program_agents (wf : i.wellFormed = true) : (program i).Every (Moves (AgentsKept i)) anyValue :=
  (program_effects wf).mono (fun _ m => m.mono fun _ _ => Effect.agents) fun _ k => k

/-- Settles O12: no single step touches another agent or the inputs, and the end of an operation writes its own
agent's result only. -/
theorem agentRegistersKept : Obligations.AgentRegistersKept := by
  intro i s t h
  rcases exec_inv h with ⟨wf, ⟨v, u, run, rfl⟩ | ⟨-, rfl⟩⟩ | ⟨-, rfl⟩
  · obtain ⟨others, inputs, id, seen, -, buffer⟩ := ((program_agents wf).run AgentsKept.refl AgentsKept.trans run).1
    exact ⟨others, inputs, id, seen, buffer⟩
  · exact ⟨rfl, rfl, rfl, rfl, fun _ => ⟨rfl, rfl⟩⟩
  · exact ⟨rfl, rfl, rfl, rfl, fun _ => ⟨rfl, rfl⟩⟩

end Sys2Proof.Machine
end

section
/-! PROOFS. `40_transport_lock.md`: `INIT` (R173, R177), `LOCK` (R183, R184, R187, R188) and the strobe operations
(R179 to R181), each from its one step. -/

namespace Sys2Proof.Machine

variable {s : State}

/-! ## The lock -/

theorem lockFree_iff {key : Word} : lockFree key s = true ↔ s.lock = 0 ∨ s.lock = key := by simp [lockFree]

theorem exec_lock {key : Word} (force : Bool) (nonzero : key ≠ 0) : exec (.lock force key) s =
    if lockFree key s then .next (finish 0 (takeLock force key s)) else .next (hold (.lock force key) s) :=
  (execLock_eq force key).trans (guarded_ok (by simpa [Instr.wellFormed] using nonzero))

/-- An operation that must wait has its place noted, and nothing else happens (`40_transport_lock.md` R184). -/
theorem held_of_exec {i : Instr} (held : exec i s = .next (hold i s)) :
    ∃ t, exec i s = .next t ∧ OnlyBus s t ∧ QuietBus s.bus t.bus ∧ t.me = { s.me with seq := .held i } :=
  ⟨_, held, onlyBus_hold s i, quiet_hold s, hold_me s i⟩

/-- Settles O17: split on whether the key may have the lock. -/
theorem lockTakesOrHolds : Obligations.LockTakesOrHolds := by
  intro force key s nonzero
  constructor
  · intro mayHave
    have free : lockFree key s = true := lockFree_iff.2 mayHave
    refine ⟨_, (exec_lock force nonzero).trans (if_pos free), quiet_finish 0 (takeLock force key s), ?_⟩
    exact done_finish_self 0 (takeLock force key s)
  · intro taken other
    have notFree : ¬ lockFree key s = true := fun free => (lockFree_iff.1 free).elim taken other
    obtain ⟨t, run, only, quiet, me⟩ := held_of_exec ((exec_lock force nonzero).trans (if_neg notFree))
    exact ⟨t, run, quiet, only, me⟩

/-! ## `INIT` -/

theorem exec_init (hz : Word) (s : State) :
    exec (.init hz) s = .next (finish (initialise hz s).1 (initialise hz s).2) := execInit_eq hz

theorem initialise_mapped {hz : Word} (mapped : (answerValue .hostMapOk s.bus).getLsbD 0 = true) :
    initialise hz s = (0, { s with
      bus := (answer .hostMapOk s.bus).2, spiReady := true, spiDiv := Config.clockDivider hz, fifo := [] }) :=
  if_pos mapped

theorem initialise_unmapped {hz : Word} (unmapped : ¬ (answerValue .hostMapOk s.bus).getLsbD 0 = true) :
    initialise hz s = (errHwinit, { s with bus := (answer .hostMapOk s.bus).2 }) := if_neg unmapped

/-- Settles O15: split on the host's answer. -/
theorem initMapsRegisters : Obligations.InitMapsRegisters := by
  intro hz s
  refine ⟨_, exec_init hz s, ?_⟩
  by_cases mapped : (answerValue .hostMapOk s.bus).getLsbD 0 = true
  · rw [initialise_mapped mapped, if_pos mapped]
    exact ⟨rfl, done_bus 0 { s with spiReady := true, spiDiv := Config.clockDivider hz, fifo := [] } _⟩
  · rw [initialise_unmapped mapped, if_neg mapped]
    exact ⟨rfl, done_bus _ s _⟩

/-! ## Strobes -/

theorem exec_stbDir (p : Pin) (d : PinDir) (wf : p ≠ .det ∨ d = .input) (init : s.spiReady = true) (calm : Calm s) :
    exec (.stbDir p d) s = .next (finish 0 { s with bus := pinDirect p d s.bus }) := by
  refine (execStbDir_eq p d).trans ?_
  have wf : (Instr.stbDir p d).wellFormed = true := by
    cases d with
    | input => simp [Instr.wellFormed]
    | output => simpa [Instr.wellFormed] using wf
  rw [guarded_ok wf, needInit_ok init, strobeReady_ok calm]
  rfl

theorem exec_stbWr (p : Pin) (v : Bool) (wf : p ≠ .det) (init : s.spiReady = true) (calm : Calm s) :
    exec (.stbWr p v) s = .next (finish 0 { s with bus := strobe p v s.bus }) := by
  refine (execStbWr_eq p v).trans ?_
  rw [guarded_ok (by simpa [Instr.wellFormed] using wf), needInit_ok init, strobeReady_ok calm]
  rfl

theorem exec_stbRd (p : Pin) (init : s.spiReady = true) (calm : Calm s) : exec (.stbRd p) s =
    .next (finish (boolWord (pinRead p s.bus).1) { s with bus := (pinRead p s.bus).2 }) := by
  refine (execStbRd_eq p).trans ?_
  rw [needInit_ok init, strobeReady_ok calm]
  rfl

/-- A strobe's level is written as a pin's is; only what a cartridge makes of it may differ. -/
theorem strobe_eq (p : Pin) (v : Bool) (b : Bus) : ∃ env, strobe p v b = pinWrite p v { b with env := env } := by
  unfold strobe
  split
  · exact ⟨_, rfl⟩
  · exact ⟨b.env, rfl⟩

/-- A pin read changes nothing but the free-value counter (`40_transport_lock.md` R181). -/
theorem pinRead_quiet (p : Pin) (b : Bus) : QuietBus b (pinRead p b).2 := by
  unfold pinRead
  split <;> rfl

theorem pinRead_output {p : Pin} {b : Bus} (out : (getPin p b.pins).dir = .output) :
    (pinRead p b).1 = (getPin p b.pins).out := by rw [pinRead, if_pos out]

theorem QuietBus.tick {b c : Bus} (h : QuietBus b c) (n : Nat) : QuietBus b { c with tick := n } := by
  unfold QuietBus at h ⊢
  rw [h]

/-- Settles O20: each strobe operation is its one step, which writes one field of one pin or none. -/
theorem strobesMoveOnePin : Obligations.StrobesMoveOnePin := by
  intro p s init calm
  refine ⟨fun d wf => ?dir, fun v wf => ?write, ?read⟩
  case dir =>
    refine ⟨_, exec_stbDir p d wf init calm, done_bus 0 s _, ?_⟩
    constructor
    · constructor <;> simp
    · simp
  case write =>
    obtain ⟨env, eq⟩ := strobe_eq p v s.bus
    refine ⟨_, exec_stbWr p v wf init calm, done_bus 0 s _, ?_⟩
    rw [eq]
    constructor
    · constructor <;> simp
    · simp
  case read =>
    exact ⟨_, _, exec_stbRd p init calm, done_bus _ s _, (pinRead_quiet p s.bus).tick _, pinRead_output⟩

end Sys2Proof.Machine
end

section
/-! PROOFS. `41_expander.md`: port writes (R202 to R209), port reads (R201, R205, R210) and continuous reads
(R212 to R214), each from its one frame. -/

namespace Sys2Proof.Machine

variable {s : State} {b c : Bus}

/-! ## One frame and the port registers -/

/-- An expander operation whose frame leaves everything but the registers alone is done (`41_expander.md` R216). -/
theorem exec_of_expanderOp {α : Type} {i : Instr} {f : Bus → α × Bus} {v : α → Word} (ready : Ready s)
    (eq : exec i s = expanderOp i s f v) : exec i s = .next (finish (v (f s.bus).1) { s with bus := (f s.bus).2 }) :=
  eq.trans (expanderOp_next ready)

theorem portWrite_onlyPorts (k : RegKind) (p : Port) (v : Byte) (b : Bus) : OnlyPorts b (portWrite k p v b) := by
  constructor
  · constructor <;> simp
  all_goals simp

theorem chipWrite_onlyPorts (k : RegKind) (c : Chip) (v w : Byte) (b : Bus) : OnlyPorts b (chipWrite k c v w b) := by
  constructor
  · constructor <;> simp
  all_goals simp

/-- A batched write stores its first byte in the chip's first port and its second in the second (`41_expander.md`
R206 to R209). -/
theorem chipWrite_getPort (k : RegKind) (c : Chip) (v w : Byte) (b : Bus) (p : Port) :
    getPort p (chipWrite k c v w b).exp =
      if portChip p = c then setReg k (if isSecond p then w else v) (getPort p b.exp) else getPort p b.exp := by
  cases c <;> cases p <;> rfl

/-- A single-port write of a kind of register, done. -/
theorem portWrite_done {i : Instr} {k : RegKind} {p : Port} {v : Byte} (ready : Ready s)
    (eq : exec i s = expanderOp i s (silently (portWrite k p v)) id) :
    ∃ t, exec i s = .next t ∧ Done 0 s t ∧ OnlyPorts s.bus t.bus ∧
      t.bus.exp = setPort p (setReg k v (getPort p s.bus.exp)) s.bus.exp ∧
      t.bus.wire = .frame [devOpcode (portChip p) false, regAddr k (isSecond p), v] :: s.bus.wire :=
  ⟨_, exec_of_expanderOp ready eq, done_bus 0 s _, (portWrite_onlyPorts k p v s.bus).tick _,
    portWrite_exp s.bus k p v, portWrite_wire s.bus k p v⟩

/-- A batched write of a kind of register, done. -/
theorem chipWrite_done {i : Instr} {k : RegKind} {c : Chip} {v w : Byte} (ready : Ready s)
    (eq : exec i s = expanderOp i s (silently (chipWrite k c v w)) id) :
    ∃ t, exec i s = .next t ∧ Done 0 s t ∧ OnlyPorts s.bus t.bus ∧
      (∀ p, getPort p t.bus.exp = if portChip p = c then setReg k (if isSecond p then w else v) (getPort p s.bus.exp)
        else getPort p s.bus.exp) ∧
      t.bus.wire = .frame [devOpcode c false, regAddr k false, v, w] :: s.bus.wire :=
  ⟨_, exec_of_expanderOp ready eq, done_bus 0 s _, (chipWrite_onlyPorts k c v w s.bus).tick _,
    chipWrite_getPort k c v w s.bus, chipWrite_wire s.bus k c v w⟩

theorem regAddr_of_isSecond (k : RegKind) (p : Port) :
    regAddr k (isSecond p) = if isSecond p then regAddr k true else regAddr k false := by cases isSecond p <;> rfl

/-- Settles O21: the three kinds of register, one port at a time and two. -/
theorem portWrites : Obligations.PortWrites := by
  constructor
  · intro p v s ready
    refine ⟨?dir, ?pull, ?io⟩
    case dir =>
      have done := portWrite_done (i := .expDir p v) (k := .dir) ready (execExpDir_eq p v)
      rwa [regAddr_of_isSecond] at done
    case pull =>
      have done := portWrite_done (i := .expPull p v) (k := .pull) ready (execExpPull_eq p v)
      rwa [regAddr_of_isSecond] at done
    case io =>
      have done := portWrite_done (i := .expWr p v) (k := .io) ready (execExpWr_eq p v)
      rwa [regAddr_of_isSecond] at done
  · intro c pair s ready
    exact ⟨chipWrite_done (i := .expDir2 c pair) (k := .dir) ready (execExpDir2_eq c pair),
      chipWrite_done (i := .expPull2 c pair) (k := .pull) ready (execExpPull2_eq c pair),
      chipWrite_done (i := .expWr2 c pair) (k := .io) ready (execExpWr2_eq c pair)⟩

/-! ## Reads -/

/-- At an output bit a port's pins show its latch (`41_expander.md` R201). -/
theorem portMix_outputs (r : PortReg) (v : Byte) : portMix r v &&& ~~~r.dir = r.out &&& ~~~r.dir := by
  simp only [portMix]
  ext j
  simp
  cases r.dir[j] <;> simp

theorem OnlyPorts.of_sample (q : Query) (p : Port) (b : Bus) : OnlyPorts b (samplePort q p b).2 := by
  constructor
  · constructor <;> simp
  all_goals simp

theorem expReadAs_onlyPorts (q : Query) (p : Port) (b : Bus) : OnlyPorts b (expReadAs q p b).2 := by
  constructor
  · constructor <;> simp
  all_goals simp

theorem expRead2_onlyPorts (c : Chip) (b : Bus) : OnlyPorts b (expRead2 c b).2 := by
  constructor
  · constructor <;> simp
  all_goals simp

theorem crdCont_onlyPorts (b : Bus) : OnlyPorts b (crdCont b).2 := by
  constructor
  · constructor <;> simp
  all_goals simp

/-- What a read of both ports of a chip gives: the first port's pins in the low byte (`41_expander.md` R210, R213). -/
def PairOfPorts (c : Chip) (x : Ports) (v w : Byte) : Prop :=
  (∃ pins, v = portMix (getPort (chipPort c false) x) pins) ∧ ∃ pins, w = portMix (getPort (chipPort c true) x) pins

theorem expRead2_pair (c : Chip) (b : Bus) :
    ∃ v w, (expRead2 c b).1 = w ++ v ∧ PairOfPorts c b.exp v w := ⟨_, _, rfl, ⟨_, rfl⟩, _, rfl⟩

theorem crdCont_pair (b : Bus) :
    ∃ v w, (crdCont b).1 = w ++ v ∧ PairOfPorts b.crdChip b.exp v w := ⟨_, _, rfl, ⟨_, rfl⟩, _, rfl⟩

theorem PairOfPorts.first {x : Ports} {v w : Byte} {ch : Chip} (h : PairOfPorts ch x v w) :
    ∀ r, r = getPort (chipPort ch false) x → v &&& ~~~r.dir = r.out &&& ~~~r.dir := by
  obtain ⟨⟨pins, rfl⟩, -⟩ := h
  rintro r rfl
  exact portMix_outputs _ pins

theorem PairOfPorts.second {x : Ports} {v w : Byte} {ch : Chip} (h : PairOfPorts ch x v w) :
    ∀ r, r = getPort (chipPort ch true) x → w &&& ~~~r.dir = r.out &&& ~~~r.dir := by
  obtain ⟨-, pins, rfl⟩ := h
  rintro r rfl
  exact portMix_outputs _ pins

/-- Settles O22: a read's frame changes no register, and the value is the latches mixed with the pins. -/
theorem portReads : Obligations.PortReads := by
  intro p c s ready
  constructor
  · exact ⟨_, _, exec_of_expanderOp (i := .expRd p) ready (execExpRd_eq p), done_bus _ s _,
      (expReadAs_onlyPorts (.portPins p) p s.bus).tick _, expReadAs_exp s.bus (.portPins p) p, portMix_outputs _ _⟩
  · obtain ⟨v, w, value, ports⟩ := expRead2_pair c s.bus
    refine ⟨_, v, w, exec_of_expanderOp (i := .expRd2 c) ready (execExpRd2_eq c), ?_, (expRead2_onlyPorts c s.bus).tick _,
      expRead2_exp s.bus c, ports.first, ports.second⟩
    rw [value]
    exact done_bus _ s _

/-! ## Continuous reads -/

/-- Settles O23: the header opens the read, a sample is a read of both ports, and the end closes it. -/
theorem continuousRead : Obligations.ContinuousRead := by
  constructor
  · intro c s ready
    refine ⟨_, exec_of_expanderOp (i := .crdStart c) ready (execCrdStart_eq c), done_bus 0 s _, crdStart_exp s.bus c, ?_,
      crdStart_wire s.bus c⟩
    constructor
    · constructor <;> rfl
    all_goals rfl
  · intro s init calm opened selected
    constructor
    · obtain ⟨v, w, value, ports⟩ := crdCont_pair s.bus
      refine ⟨_, v, w, execCrdCont_eq.trans (streamOp_next init calm opened selected), ?_,
        (crdCont_onlyPorts s.bus).tick _, crdCont_exp s.bus, ports.first, ports.second⟩
      rw [value]
      exact done_bus _ s _
    · refine ⟨_, execCrdEnd_eq.trans (streamOp_next init calm opened selected), done_bus 0 s _, rfl, ?_⟩
      constructor
      · constructor <;> rfl
      all_goals rfl

end Sys2Proof.Machine
end

section
/-! PROOFS. `46_dispatcher.md`: operations that wait for the lock (R420), `GBX_CLEAR` (R444), the text getters
(R428, R429) and the estimators (R440 to R442). -/

namespace Sys2Proof.Machine

variable {op : Instr} {s : State}

/-! ## Waiting for the lock -/

theorem not_lockFree (taken : s.lock ≠ 0) (other : s.lock ≠ Config.gbxKey) : lockFree Config.gbxKey s = false :=
  Bool.eq_false_iff.2 fun free => (lockFree_iff.1 free).elim taken other

/-- Steps under the lock stop at its first one while another key has it (`46_dispatcher.md` R420). -/
theorem underLock_waits (p : Prog Word) (taken : s.lock ≠ 0) (other : s.lock ≠ Config.gbxKey) :
    (underLock p).run s = .error .blocked := by
  rw [underLock, run_then_error (by rw [run_lockStep, not_lockFree taken other]; rfl)]

theorem perform_waits {p : Prog Word} (wf : op.wellFormed = true) (waits : p.run s = .error .blocked) :
    perform op p s = .next (hold op s) := by rw [perform, guarded_ok wf, waits]; rfl

theorem init_waits {p : Prog Word} (init : s.spiReady = true) (waits : p.run s = .error .blocked) :
    ((ensure (needInit op)).then p).run s = .error .blocked :=
  (run_then_ok (v := ()) (t := s) (by rw [run_ensure, needInit_ok init])).trans waits

/-- Settles O52: of the six operations all but the clear check for `INIT` first, and all stop at the lock. -/
theorem dispatcherWaitsForLock : Obligations.DispatcherWaitsForLock := by
  intro i s dispatched init taken other
  refine held_of_exec ?_
  rw [exec_eq_perform]
  have waits (p : Prog Word) : (underLock p).run s = .error .blocked := underLock_waits p taken other
  cases i with
  | gbxClear => exact perform_waits rfl (waits _)
  | gbxLoadhdr | gbxIsloaded | gbxReadrom | gbxReadsave | gbxWritesave =>
    have init : s.spiReady = true := init.elim id nofun
    exact perform_waits rfl (init_waits init (waits _))
  | _ => cases dispatched

/-! ## Under the lock -/

/-- What a dispatcher operation leaves of the lock (`46_dispatcher.md` R420). -/
theorem releaseLock_locked (u : State) (own : u.lock = Config.gbxKey) :
    releaseLock Config.gbxKey u = { u with lock := 0, csForceIdle := false } := releaseLock_own (h := own)

theorem decodeRequest_gbxClear : decodeRequest (.word 0x6D00000000000000) = .ok .gbxClear := by
  have word : (0x6D00000000000000 : CmdWord) = wordOf (bare 0x6D) := rfl
  rw [word]
  exact decodeRequest_bare (decodeFields_6D 0 0 0) rfl

theorem exec_gbxClear (s : State) :
    exec .gbxClear s = lockHeld .gbxClear s fun t => .ok (0, gbaClear (gbClear t)) := execGbxClear_eq

/-- Settles O56: held at the lock, or both clears between taking it and freeing it. -/
theorem dispatcherClears : Obligations.DispatcherClears := by
  refine ⟨decodeRequest_gbxClear, fun s => ⟨fun taken other => ?_, fun free => ?_⟩⟩
  · exact held_of_exec ((exec_gbxClear s).trans (lockHeld_held _ taken other))
  · have run := (exec_gbxClear s).trans (lockHeld_free _ free)
    simp only [bind, Except.bind, conclude, releaseLock_locked (gbaClear (gbClear (locked s))) rfl] at run
    exact ⟨_, run, rfl, done_finish_self 0 { s with lock := 0, csForceIdle := false, gb := .empty, gba := .empty }⟩

/-! ## Text -/

theorem exec_gbxTitle (s : State) : exec .gbxTitle s = textOf (activeTitle s) s := execGbxTitle_eq

theorem exec_gbxIdent (s : State) : exec .gbxIdent s = textOf (activeIdent s) s := execGbxIdent_eq

theorem textOf_none (s : State) : textOf none s = .next (finish 0 s) := rfl

theorem textOf_some {text : List Byte} (fits : BufferFits text.length s) : textOf (some text) s =
    .next (finish (countWord text.length) { s with hbuf := s.hbuf.writeBlock s.me.bufp.toNat text }) := by
  rw [textOf, bytesGetter, needBuf_ok fits]
  rfl

/-- Text that fits goes to the buffer. -/
theorem text_written {i : Instr} {text : List Byte} (fits : BufferFits text.length s)
    (eq : exec i s = textOf (some text) s) : ∃ t, exec i s = .next t ∧ QuietBus s.bus t.bus ∧
      Done (BitVec.ofNat 32 text.length) { s with hbuf := t.hbuf } t ∧
      Stores s.hbuf t.hbuf s.me.bufp.toNat text :=
  ⟨_, eq.trans (textOf_some fits), rfl, done_finish_self _ { s with hbuf := s.hbuf.writeBlock s.me.bufp.toNat text },
    writeBlock_stores s.hbuf s.me.bufp.toNat text⟩

theorem activeTitle_eq (s : State) : activeTitle s =
    if s.gb.romSize ≠ 0 then some s.gb.title else if s.gba.romSize ≠ 0 then some s.gba.title else none := by
  apply byActive_eq <;> intro p <;> simp only [activeTitle, p]

theorem activeIdent_eq (s : State) : activeIdent s =
    if s.gb.romSize ≠ 0 then some s.gb.sha1 else if s.gba.romSize ≠ 0 then some s.gba.code else none := by
  apply byActive_eq <;> intro p <;> simp only [activeIdent, p]

/-- The pairs of getter and text that a choice by active session leaves are the getters' own. -/
theorem exec_text {i : Instr} {text : List Byte}
    (m : (i, text) ∈ (if s.gb.romSize ≠ 0 then [(Instr.gbxTitle, s.gb.title), (.gbxIdent, s.gb.sha1)]
      else if s.gba.romSize ≠ 0 then [(.gbxTitle, s.gba.title), (.gbxIdent, s.gba.code)] else [])) :
    exec i s = textOf (some text) s := by
  have title := (exec_gbxTitle s).trans (congrArg (textOf · s) (activeTitle_eq s))
  have ident := (exec_gbxIdent s).trans (congrArg (textOf · s) (activeIdent_eq s))
  split at m
  case isTrue onGb =>
    simp only [if_pos onGb] at title ident
    simp only [List.mem_cons, Prod.mk.injEq, List.not_mem_nil, or_false] at m
    rcases m with ⟨rfl, rfl⟩ | ⟨rfl, rfl⟩ <;> assumption
  case isFalse noGb =>
    split at m
    case isTrue onGba =>
      simp only [if_neg noGb, if_pos onGba] at title ident
      simp only [List.mem_cons, Prod.mk.injEq, List.not_mem_nil, or_false] at m
      rcases m with ⟨rfl, rfl⟩ | ⟨rfl, rfl⟩ <;> assumption
    case isFalse => cases m

/-- Settles O58: the active session's text is stored where it fits, and with no session nothing happens. -/
theorem textGetters : Obligations.TextGetters := by
  refine fun s => ⟨fun i text m fits => text_written fits (exec_text m), fun noGb noGba i m => ?_⟩
  have none := active_none noGb noGba
  have title : activeTitle s = .none := by simp only [activeTitle, none]
  have ident : activeIdent s = .none := by simp only [activeIdent, none]
  simp only [List.mem_cons, List.not_mem_nil, or_false] at m
  rcases m with rfl | rfl
  · exact returns_of_exec_finish ((exec_gbxTitle s).trans (by rw [title, textOf_none])) rfl
  · exact returns_of_exec_finish ((exec_gbxIdent s).trans (by rw [ident, textOf_none])) rfl

/-! ## Estimators -/

theorem exec_gbxTRom (s : State) : exec .gbxTRom s = .next (finish (romTime s) s) := execGbxTRom_eq

theorem exec_gbxTRdsave (s : State) : exec .gbxTRdsave s = .next (finish (saveTime .rdSave s) s) := execGbxTRdsave_eq

theorem exec_gbxTWrsave (s : State) : exec .gbxTWrsave s = .next (finish (saveTime .wrSave s) s) := execGbxTWrsave_eq

/-- The kind that an estimate of a save is for, by the active session (`46_dispatcher.md` R441, R442). -/
theorem saveKind_cases (e : EstOp) (s : State) :
    (s.gb.romSize ≠ 0 → saveKind e s = .gb) ∧
    (s.gb.romSize = 0 → s.gba.romSize ≠ 0 → ∃ atmelPart, saveKind e s = .save s.gba.saveType atmelPart) := by
  refine ⟨fun onGb => if_pos (active_gb onGb), fun noGb onGba => ⟨_, if_neg ?_⟩⟩
  simp [active_gba noGb onGba]

/-- The kind that a ROM estimate is for (`46_dispatcher.md` R440). -/
def romKind (s : State) : EstKind := if s.gb.romSize ≠ 0 then .gb else .gba

theorem romTime_eq (s : State) : romTime s = if s.gb.romSize = 0 ∧ s.gba.romSize = 0 then 0 else
    estimate .rom (romKind s) (if s.gb.romSize ≠ 0 then s.gb.romSize else s.gba.romSize) := by
  obtain ⟨hasGb, p⟩ | ⟨noGb, hasGba, p⟩ | ⟨noGb, noGba, p⟩ := active_cases s
  · simp only [romTime, romKind, p, hasGb, false_and, ne_eq, not_false_eq_true, if_true, if_false]
  · simp only [romTime, romKind, p, noGb, hasGba, and_false, ne_eq, not_true_eq_false, if_false]
  · simp only [romTime, p, noGb, noGba, and_self, if_true]

theorem saveTime_eq (e : EstOp) (s : State) : saveTime e s = if s.gb.romSize = 0 ∧ s.gba.romSize = 0 then 0 else
    estimate e (saveKind e s) (if s.gb.romSize ≠ 0 then s.gb.saveSize else s.gba.saveSize) := by
  rw [saveTime, activeSaveSize_eq]
  obtain ⟨hasGb, p⟩ | ⟨noGb, hasGba, p⟩ | ⟨noGb, noGba, p⟩ := active_cases s
  · rw [p, if_neg nofun, if_pos hasGb, if_neg fun none => hasGb none.1, if_pos hasGb]
  · rw [p, if_neg nofun, if_neg (not_not_intro noGb), if_pos hasGba, if_neg fun none => hasGba none.2,
      if_neg (not_not_intro noGb)]
  · rw [p, if_pos rfl, if_pos ⟨noGb, noGba⟩]

/-- Settles O59: the ROM estimate is for the active platform, the two of a save for the active session's save. -/
theorem estimatorsAreLinear : Obligations.EstimatorsAreLinear := by
  intro s p m
  simp only [List.mem_cons, List.not_mem_nil, or_false] at m
  rcases m with rfl | rfl | rfl
  · refine ⟨_, romKind s, exec_gbxTRom s, quiet_finish _ s, ?_, fun onGb => if_pos onGb,
      fun noGb _ _ => if_neg (not_not_intro noGb), fun _ _ n => absurd rfl n⟩
    rw [romTime_eq]
    exact done_finish_self _ s
  · refine ⟨_, saveKind .rdSave s, exec_gbxTRdsave s, quiet_finish _ s, ?_, (saveKind_cases .rdSave s).1,
      fun _ _ (n : Instr.gbxTRdsave = .gbxTRom) => Instr.noConfusion n, fun noGb onGba _ => (saveKind_cases .rdSave s).2 noGb onGba⟩
    rw [saveTime_eq]
    exact done_finish_self _ s
  · refine ⟨_, saveKind .wrSave s, exec_gbxTWrsave s, quiet_finish _ s, ?_, (saveKind_cases .wrSave s).1,
      fun _ _ (n : Instr.gbxTWrsave = .gbxTRom) => Instr.noConfusion n, fun noGb onGba _ => (saveKind_cases .wrSave s).2 noGb onGba⟩
    rw [saveTime_eq]
    exact done_finish_self _ s

end Sys2Proof.Machine
end

section
/-! PROOFS. `41_expander.md` R216: expander frames of any length, as `XFER` sends them (`40_transport_lock.md` R174,
R175), and the rows of the table run by themselves (`30_encoding.md` R134 to R136, R150). -/

namespace Sys2Proof.Machine

variable {s : State}

/-! ## Replies with no register -/

theorem OnlyPorts.of_answer (q : Query) (b : Bus) : OnlyPorts b (answer q b).2 := by
  constructor
  · constructor <;> simp
  all_goals simp

theorem anyReply_onlyPorts (tx : Byte) (b : Bus) : OnlyPorts b (anyReply tx b).2 := OnlyPorts.of_answer (.spiByte tx) b

@[simp] theorem anyReply_exp (tx : Byte) (b : Bus) : (anyReply tx b).2.exp = b.exp := rfl

@[simp] theorem anyReply_wire (tx : Byte) (b : Bus) : (anyReply tx b).2.wire = b.wire := rfl

/-- With the chips forced idle bytes go out and anything comes back (`40_transport_lock.md` R174). -/
theorem anyReplies_spec (tx : List Byte) (b : Bus) : OnlyPorts b (anyReplies tx b).2 ∧
    (anyReplies tx b).2.exp = b.exp ∧ (anyReplies tx b).2.wire = b.wire := by
  induction tx generalizing b with
  | nil => exact ⟨.refl b, rfl, rfl⟩
  | cons t ts ih =>
    obtain ⟨ports, exp, wire⟩ := ih (anyReply t b).2
    exact ⟨(anyReply_onlyPorts t b).trans ports, exp, wire⟩

theorem OnlyPorts.of_trace (w : WireEvent) (b : Bus) : OnlyPorts b (trace w b) := by
  constructor
  · constructor <;> rfl
  all_goals rfl

theorem OnlyPorts.of_writeReg (k : RegKind) (p : Port) (v : Byte) (b : Bus) : OnlyPorts b (writeReg k p v b) := by
  constructor
  · constructor <;> simp
  all_goals simp

/-! ## Data slots -/

/-- The two places of a chip. -/
theorem chipPort_inj {c : Chip} {q q' : Bool} : chipPort c q = chipPort c q' ↔ q = q' := by
  cases c <;> cases q <;> cases q' <;> simp [chipPort]

theorem portChip_chipPort (c : Chip) (q : Bool) : portChip (chipPort c q) = c := by cases c <;> cases q <;> rfl

theorem setReg_setReg (k : RegKind) (v w : Byte) (r : PortReg) : setReg k w (setReg k v r) = setReg k w r := by
  cases k <;> rfl

theorem frameWrites_spec (k : RegKind) (c : Chip) (next : Bool) (vs : List Byte) (b : Bus) :
    OnlyPorts b (frameWrites k c next vs b).2 ∧ (frameWrites k c next vs b).2.wire = b.wire := by
  induction vs generalizing next b with
  | nil => exact ⟨.refl b, rfl⟩
  | cons v vs ih =>
    obtain ⟨ports, wire⟩ := ih (!next) (anyReply v (writeReg k (chipPort c next) v b)).2
    exact ⟨((OnlyPorts.of_writeReg k (chipPort c next) v b).trans (anyReply_onlyPorts v _)).trans ports,
      wire.trans (writeReg_wire b k (chipPort c next) v)⟩

/-- What a place of a chip keeps of the bytes written to it: the last one. -/
def lastStored (k : RegKind) (bytes : List Byte) (r : PortReg) : PortReg :=
  bytes.getLast?.elim r fun v => setReg k v r

theorem lastStored_cons (k : RegKind) (v : Byte) (bytes : List Byte) (r : PortReg) :
    lastStored k (v :: bytes) r = lastStored k bytes (setReg k v r) := by
  unfold lastStored
  rw [List.getLast?_cons]
  cases bytes.getLast? with
  | none => rfl
  | some w => exact (setReg_setReg k v w r).symm

/-- The slots of a write frame alternate between the two places of its chip (`41_expander.md` R216). -/
theorem frameWrites_getPort (k : RegKind) (c : Chip) (next q : Bool) (vs : List Byte) (b : Bus) :
    getPort (chipPort c q) (frameWrites k c next vs b).2.exp =
      lastStored k (slotBytes (next == q) vs) (getPort (chipPort c q) b.exp) := by
  induction vs generalizing next b with
  | nil => rfl
  | cons v vs ih =>
    refine (ih (!next) _).trans ?_
    rw [anyReply_exp, writeReg_exp, getPort_setPort]
    by_cases same : next = q
    · subst same
      rw [if_pos rfl, beq_self_eq_true, slotBytes, if_pos rfl, lastStored_cons]
      simp
    · have other : (!next) = q := Bool.not_eq.2 same
      rw [if_neg fun e => same (chipPort_inj.1 e).symm, beq_eq_false_iff_ne.2 same, other, slotBytes]
      simp

theorem frameWrites_getPort_other (k : RegKind) (c : Chip) (next : Bool) (vs : List Byte) (b : Bus) {p : Port}
    (other : portChip p ≠ c) : getPort p (frameWrites k c next vs b).2.exp = getPort p b.exp := by
  induction vs generalizing next b with
  | nil => rfl
  | cons v vs ih =>
    refine (ih (!next) _).trans ?_
    rw [anyReply_exp, writeReg_exp, getPort_setPort, if_neg]
    rintro rfl
    exact other (portChip_chipPort c next)

theorem slotReply_spec (k : RegKind) (p : Port) (b : Bus) : OnlyPorts b (slotReply k p b).2 ∧
    (slotReply k p b).2.exp = b.exp ∧ (slotReply k p b).2.wire = b.wire ∧
    SlotAnswer k (getPort p b.exp) (slotReply k p b).1 := by
  cases k with
  | dir => exact ⟨.refl b, rfl, rfl, rfl⟩
  | pull => exact ⟨.refl b, rfl, rfl, rfl⟩
  | io => exact ⟨.of_sample _ p b, rfl, rfl, _, rfl⟩

theorem frameReads_spec (k : RegKind) (c : Chip) (next : Bool) (vs : List Byte) (b : Bus) :
    OnlyPorts b (frameReads k c next vs b).2 ∧ (frameReads k c next vs b).2.exp = b.exp ∧
    (frameReads k c next vs b).2.wire = b.wire := by
  induction vs generalizing next b with
  | nil => exact ⟨.refl b, rfl, rfl⟩
  | cons v vs ih =>
    obtain ⟨ports, exp, wire, -⟩ := slotReply_spec k (chipPort c next) b
    obtain ⟨ports', exp', wire'⟩ := ih (!next) (slotReply k (chipPort c next) b).2
    exact ⟨ports.trans ports', exp'.trans exp, wire'.trans wire⟩

theorem slotPort_zero (c : Chip) (next : Bool) : slotPort c next 0 = chipPort c next := by cases next <;> rfl

theorem slotPort_succ (c : Chip) (next : Bool) (j : Nat) : slotPort c next (j + 1) = slotPort c (!next) j := by
  unfold slotPort
  rcases Nat.mod_two_eq_zero_or_one j with e | e <;> cases next <;> simp [Nat.add_mod, e]

/-- Every slot of a read frame answers for its place (`41_expander.md` R216). -/
theorem frameReads_get (k : RegKind) (c : Chip) (next : Bool) (vs : List Byte) (b : Bus) {j : Nat}
    (inside : j < vs.length) : ∃ v, (frameReads k c next vs b).1[j]? = some v ∧
      SlotAnswer k (getPort (slotPort c next j) b.exp) v := by
  induction vs generalizing next b j with
  | nil => cases inside
  | cons w vs ih =>
    obtain ⟨-, exp, -, answers⟩ := slotReply_spec k (chipPort c next) b
    cases j with
    | zero => exact ⟨_, rfl, by rw [slotPort_zero]; exact answers⟩
    | succ j =>
      obtain ⟨v, at_j, answers⟩ := ih (!next) (slotReply k (chipPort c next) b).2 (Nat.lt_of_succ_lt_succ inside)
      exact ⟨v, at_j, by rwa [slotPort_succ, ← exp]⟩

/-! ## Frames -/

theorem frameHead_eq (c : Chip) (read : Bool) (k : RegKind) (second : Bool) :
    frameHead (devOpcode c read) (regAddr k second) = some (c, read, k, second) := by
  cases c <;> cases read <;> cases k <;> cases second <;> rfl

/-- The bus after the two bytes that head a frame. -/
def headed (op reg : Byte) (b : Bus) : Bus := (anyReply reg (anyReply op b).2).2

theorem headed_onlyPorts (op reg : Byte) (b : Bus) : OnlyPorts b (headed op reg b) :=
  (anyReply_onlyPorts op b).trans (anyReply_onlyPorts reg _)

theorem expFrame_write (c : Chip) (k : RegKind) (second : Bool) (data : List Byte) (b : Bus) :
    ∃ r0 r1, expFrame (devOpcode c false :: regAddr k second :: data) b =
      (r0 :: r1 :: (frameWrites k c second data (headed (devOpcode c false) (regAddr k second) b)).1,
        (frameWrites k c second data (headed (devOpcode c false) (regAddr k second) b)).2) := by
  simp only [expFrame, frameHead_eq]
  exact ⟨_, _, rfl⟩

theorem expFrame_read (c : Chip) (k : RegKind) (second : Bool) (data : List Byte) (b : Bus) :
    ∃ r0 r1, expFrame (devOpcode c true :: regAddr k second :: data) b =
      (r0 :: r1 :: (frameReads k c second data (headed (devOpcode c true) (regAddr k second) b)).1,
        (frameReads k c second data (headed (devOpcode c true) (regAddr k second) b)).2) := by
  simp only [expFrame, frameHead_eq]
  exact ⟨_, _, rfl⟩

/-- A frame changes registers only, and adds nothing to the trace that sending it did not. -/
theorem expFrame_spec (bytes : List Byte) (b : Bus) :
    OnlyPorts b (expFrame bytes b).2 ∧ (expFrame bytes b).2.wire = b.wire := by
  unfold expFrame
  split
  case h_1 op reg data =>
    dsimp only
    split
    case h_1 c read k second head =>
      have heads := headed_onlyPorts op reg b
      cases read with
      | true =>
        obtain ⟨ports, -, wire⟩ := frameReads_spec k c second data (headed op reg b)
        exact ⟨heads.trans ports, wire⟩
      | false =>
        obtain ⟨ports, wire⟩ := frameWrites_spec k c second data (headed op reg b)
        exact ⟨heads.trans ports, wire⟩
    case h_2 => exact ⟨.refl b, rfl⟩
  case h_2 => exact ⟨.refl b, rfl⟩

theorem sendFrame_spec (bytes : List Byte) (b : Bus) :
    OnlyPorts b (sendFrame bytes b).2 ∧ (sendFrame bytes b).2.wire = .frame bytes :: b.wire := by
  obtain ⟨ports, wire⟩ := expFrame_spec bytes (trace (.frame bytes) b)
  exact ⟨(OnlyPorts.of_trace _ b).trans ports, wire⟩

theorem sendFrame_write_getPort (c : Chip) (k : RegKind) (second : Bool) (data : List Byte) (b : Bus) (q : Bool) :
    getPort (chipPort c q) (sendFrame (devOpcode c false :: regAddr k second :: data) b).2.exp =
      lastStored k (slotBytes (second == q) data) (getPort (chipPort c q) b.exp) := by
  obtain ⟨r0, r1, eq⟩ := expFrame_write c k second data (trace (.frame (devOpcode c false :: regAddr k second :: data)) b)
  rw [sendFrame, eq]
  exact frameWrites_getPort k c second q data _

theorem sendFrame_write_other (c : Chip) (k : RegKind) (second : Bool) (data : List Byte) (b : Bus) {p : Port}
    (other : portChip p ≠ c) :
    getPort p (sendFrame (devOpcode c false :: regAddr k second :: data) b).2.exp = getPort p b.exp := by
  obtain ⟨r0, r1, eq⟩ := expFrame_write c k second data (trace (.frame (devOpcode c false :: regAddr k second :: data)) b)
  rw [sendFrame, eq]
  exact frameWrites_getPort_other k c second data _ other

theorem sendFrame_read_spec (c : Chip) (k : RegKind) (second : Bool) (data : List Byte) (b : Bus) :
    (sendFrame (devOpcode c true :: regAddr k second :: data) b).2.exp = b.exp ∧
    ∀ j, j < data.length → ∃ v, (sendFrame (devOpcode c true :: regAddr k second :: data) b).1[2 + j]? = some v ∧
      SlotAnswer k (getPort (slotPort c second j) b.exp) v := by
  obtain ⟨r0, r1, eq⟩ := expFrame_read c k second data (trace (.frame (devOpcode c true :: regAddr k second :: data)) b)
  rw [sendFrame, eq]
  refine ⟨(frameReads_spec k c second data _).2.1, fun j inside => ?_⟩
  rw [Nat.add_comm]
  exact frameReads_get k c second data _ inside

/-! ## `XFER` -/

theorem xferReady_ok {op : Instr} (calm : Calm s) (closed : s.bus.crdActive = false) : xferReady op s = .ok () := by
  simp [xferReady, raceFree_ok calm, closed, bind, Except.bind]

/-- Where bytes may go out, they are exchanged in place. -/
theorem exec_xfer {len : Half} (nonzero : len ≠ 0) (init : s.spiReady = true) (fits : BufferFits len.toNat s)
    (sendable : spiReady (.xfer len) (s.hbuf.readBlock s.me.bufp.toNat len.toNat) s = .ok ()) :
    exec (.xfer len) s = .next (finish (countWord len.toNat) { s with
      bus := (spi (s.hbuf.readBlock s.me.bufp.toNat len.toNat) s).2.bus
      hbuf := s.hbuf.writeBlock s.me.bufp.toNat (spi (s.hbuf.readBlock s.me.bufp.toNat len.toNat) s).1 }) := by
  refine (execXfer_eq len).trans ?_
  rw [guarded_ok (by simpa [Instr.wellFormed] using nonzero), needInit_ok init, needBuf_ok fits]
  simp only [bind, Except.bind, sendable, intoBuffer, conclude]

/-- Where they may not, the fault is all (`60_exceptions.md` R467). -/
theorem exec_xfer_fault {len : Half} {e : Fault} (nonzero : len ≠ 0) (init : s.spiReady = true)
    (fits : BufferFits len.toNat s)
    (stopped : spiReady (.xfer len) (s.hbuf.readBlock s.me.bufp.toNat len.toNat) s = .error e) :
    exec (.xfer len) s = .fault e := by
  refine (execXfer_eq len).trans ?_
  rw [guarded_ok (by simpa [Instr.wellFormed] using nonzero), needInit_ok init, needBuf_ok fits]
  simp only [bind, Except.bind, stopped, conclude]

theorem spi_idle {tx : List Byte} (forced : s.csForceIdle = true) :
    spi tx s = ((anyReplies tx (trace (.bare tx) s.bus)).1,
      { s with bus := (anyReplies tx (trace (.bare tx) s.bus)).2 }) := by
  simp only [spi, forced, if_true]

theorem spi_selected {tx : List Byte} (selected : s.csForceIdle = false) :
    spi tx s = ((sendFrame tx s.bus).1, { s with bus := (sendFrame tx s.bus).2 }) := by
  simp only [spi, selected, sendFrame, Bool.false_eq_true, if_false]

theorem spiReady_eq {op : Instr} {tx : List Byte} (calm : Calm s) (closed : s.bus.crdActive = false) :
    spiReady op tx s =
      if s.csForceIdle = false ∧ isFrame tx = false then .error (.unknownExpanderFrame tx) else .ok () := by
  rw [spiReady, xferReady_ok calm closed]
  rfl

/-- Settles O19: bytes with the chips forced idle, and one frame or none with them selected. -/
theorem xferExchangesInPlace : Obligations.XferExchangesInPlace := by
  intro len s nonzero init calm closed fits
  dsimp only
  have long : (s.hbuf.readBlock s.me.bufp.toNat len.toNat).length = len.toNat := readBlock_length _ _ _
  have eq := spiReady_eq (op := .xfer len) (tx := s.hbuf.readBlock s.me.bufp.toNat len.toNat) calm closed
  have run := exec_xfer nonzero init fits
  have fault := fun e => exec_xfer_fault (e := e) nonzero init fits
  have stores := writeBlock_stores s.hbuf s.me.bufp.toNat
  generalize s.hbuf.readBlock s.me.bufp.toNat len.toNat = tx at long eq run fault ⊢
  refine ⟨fun forced => ?idle, fun selected bad => ?fault, fun selected good => ?frame⟩
  case idle =>
    have ready := eq.trans (if_neg (by simp [forced]))
    have replies := (spi_length ready).trans long
    specialize run ready
    rw [spi_idle forced] at run replies
    obtain ⟨ports, exp, wire⟩ := anyReplies_spec tx (trace (.bare tx) s.bus)
    exact ⟨_, _, run, replies, done_finish _ (.bus _ _), stores _, ((OnlyPorts.of_trace _ s.bus).trans ports).tick _,
      exp, wire⟩
  case fault => exact fault _ (eq.trans (if_pos ⟨selected, bad⟩))
  case frame =>
    have ready := eq.trans (if_neg (by simp [good]))
    have replies := (spi_length ready).trans long
    specialize run ready
    rw [spi_selected selected] at run replies
    obtain ⟨ports, wire⟩ := sendFrame_spec tx s.bus
    refine ⟨_, _, run, replies, done_finish _ (.bus _ _), stores _, ports.tick _, wire, fun c k second data => ?_⟩
    constructor
    · rintro rfl
      refine ⟨fun q => (sendFrame_write_getPort c k second data s.bus q).trans ?_,
        fun p other => sendFrame_write_other c k second data s.bus other⟩
      rw [lastStored]
      cases (slotBytes (second == q) data).getLast? <;> rfl
    · rintro rfl
      exact sendFrame_read_spec c k second data s.bus

end Sys2Proof.Machine
end

section
/-! PROOFS. `30_encoding.md` R134 to R136, R150: the rows of the table run by themselves, with the EEPROM rows of
`45_gba_save.md` R376, R378, R379. -/

namespace Sys2Proof.Machine

variable {s : State}

/-! ## Frames -/

/-- A frame run by itself leaves what was received in `rx` (`30_encoding.md` R134). -/
theorem exec_of_wireOp {i : Instr} {f : Bus → List Byte × Bus} (wf : i.wellFormed = true) (ready : Ready s)
    (eq : exec i s = wireOp i s f) :
    exec i s = .next (finish 0 { s with bus := (f s.bus).2, rx := (f s.bus).1 }) := eq.trans (wireOp_next wf ready)

/-- What is received is all that changes outside the bus. -/
theorem done_wire (v : Word) (s : State) (rx : List Byte) (b : Bus) :
    Done v { s with rx := rx } (finish v { s with bus := b, rx := rx }) := done_bus v { s with rx := rx } b

theorem knownExpReg_regAddr (k : RegKind) (second : Bool) : knownExpReg (regAddr k second) = true := by
  cases k <;> cases second <;> rfl

/-- A three-byte write changes one register of one port. -/
theorem sendFrame_one (c : Chip) (k : RegKind) (second : Bool) (v : Byte) (b : Bus) :
    (sendFrame [devOpcode c false, regAddr k second, v] b).2.exp =
      setPort (chipPort c second) (setReg k v (getPort (chipPort c second) b.exp)) b.exp := by
  obtain ⟨r0, r1, eq⟩ := expFrame_write c k second [v] (trace (.frame [devOpcode c false, regAddr k second, v]) b)
  rw [sendFrame, eq]
  exact writeReg_exp _ k (chipPort c second) v

/-- A three-byte read gives one register or the pins. -/
theorem sendFrame_readOne (c : Chip) (k : RegKind) (second : Bool) (b : Bus) :
    ∃ r0 r1 r2, (sendFrame [devOpcode c true, regAddr k second, 0x00] b).1 = [r0, r1, r2] ∧
      SlotAnswer k (getPort (chipPort c second) b.exp) r2 := by
  obtain ⟨r0, r1, eq⟩ := expFrame_read c k second [0x00] (trace (.frame [devOpcode c true, regAddr k second, 0x00]) b)
  rw [sendFrame, eq]
  exact ⟨r0, r1, _, rfl, (slotReply_spec k (chipPort c second) _).2.2.2⟩

/-- A four-byte read gives the pins of both ports of its chip. -/
theorem sendFrame_readTwo (c : Chip) (b : Bus) :
    ∃ r0 r1 p0 p1, (sendFrame [devOpcode c true, 0x12, 0x00, 0x00] b).1 =
      [r0, r1, portMix (getPort (chipPort c false) b.exp) p0, portMix (getPort (chipPort c true) b.exp) p1] := by
  obtain ⟨r0, r1, eq⟩ :=
    expFrame_read c .io false [0x00, 0x00] (trace (.frame [devOpcode c true, regAddr .io false, 0x00, 0x00]) b)
  have register : (0x12 : Byte) = regAddr .io false := rfl
  rw [register, sendFrame, eq]
  exact ⟨r0, r1, _, _, rfl⟩

/-- The expander frames run by themselves. -/
theorem wireFrames_run (c : Chip) (k : RegKind) (second : Bool) (v w : Byte) (s : State) (ready : Ready s) :
    (∃ t, exec (.wireExpFrame3Wr c (regAddr k second) v) s = .next t ∧ Done 0 { s with rx := t.rx } t ∧
      OnlyPorts s.bus t.bus ∧
      t.bus.exp = setPort (chipPort c second) (setReg k v (getPort (chipPort c second) s.bus.exp)) s.bus.exp) ∧
    (∃ t r0 r1 r2, exec (.wireExpFrame3Rd c (regAddr k second)) s = .next t ∧ Done 0 { s with rx := t.rx } t ∧
      OnlyPorts s.bus t.bus ∧ t.bus.exp = s.bus.exp ∧ t.rx = [r0, r1, r2] ∧
      SlotAnswer k (getPort (chipPort c second) s.bus.exp) r2) ∧
    (∃ t, exec (.wireExpFrame4Wr c (regAddr k second) v w) s = .next t ∧ Done 0 { s with rx := t.rx } t ∧
      OnlyPorts s.bus t.bus ∧
      getPort (chipPort c second) t.bus.exp = setReg k v (getPort (chipPort c second) s.bus.exp) ∧
      getPort (chipPort c (!second)) t.bus.exp = setReg k w (getPort (chipPort c (!second)) s.bus.exp) ∧
      ∀ p, portChip p ≠ c → getPort p t.bus.exp = getPort p s.bus.exp) ∧
    ∃ t r0 r1 p0 p1, exec (.wireExpFrame4Rd c) s = .next t ∧ Done 0 { s with rx := t.rx } t ∧
      OnlyPorts s.bus t.bus ∧ t.bus.exp = s.bus.exp ∧
      t.rx = [r0, r1, portMix (getPort (chipPort c false) s.bus.exp) p0,
        portMix (getPort (chipPort c true) s.bus.exp) p1] := by
  have known : knownExpReg (regAddr k second) = true := knownExpReg_regAddr k second
  have only (bytes : List Byte) (n : Nat) : OnlyPorts s.bus { (sendFrame bytes s.bus).2 with tick := n } :=
    (sendFrame_spec bytes s.bus).1.tick n
  refine ⟨?write, ?read, ?write2, ?read2⟩
  case write =>
    exact ⟨_, exec_of_wireOp (i := .wireExpFrame3Wr c (regAddr k second) v) known ready (execWireExpFrame3Wr_eq _ _ _),
      done_wire 0 s _ _, only _ _, sendFrame_one c k second v s.bus⟩
  case read =>
    obtain ⟨r0, r1, r2, rx, answers⟩ := sendFrame_readOne c k second s.bus
    exact ⟨_, r0, r1, r2,
      exec_of_wireOp (i := .wireExpFrame3Rd c (regAddr k second)) known ready (execWireExpFrame3Rd_eq _ _),
      done_wire 0 s _ _, only _ _, (sendFrame_read_spec c k second [0x00] s.bus).1, rx, answers⟩
  case write2 =>
    refine ⟨_, exec_of_wireOp (i := .wireExpFrame4Wr c (regAddr k second) v w) known ready
        (execWireExpFrame4Wr_eq _ _ _ _), done_wire 0 s _ _, only _ _,
      (sendFrame_write_getPort c k second [v, w] s.bus second).trans ?_,
      (sendFrame_write_getPort c k second [v, w] s.bus (!second)).trans ?_,
      fun p other => sendFrame_write_other c k second [v, w] s.bus other⟩
    · rw [beq_self_eq_true]; rfl
    · rw [Bool.beq_not_self]; rfl
  case read2 =>
    obtain ⟨r0, r1, p0, p1, rx⟩ := sendFrame_readTwo c s.bus
    exact ⟨_, r0, r1, p0, p1, exec_of_wireOp (i := .wireExpFrame4Rd c) rfl ready (execWireExpFrame4Rd_eq c),
      done_wire 0 s _ _, only _ _, (sendFrame_read_spec c .io false [0x00, 0x00] s.bus).1, rx⟩

/-! ## EEPROM requests -/

/-- The eight bytes of a row spell its 64 bits, most significant first (`30_encoding.md` R150). -/
theorem rowBytesOf_bits (data : BitVec 64) : ((rowBytesOf data).map byteBits).flatten = bitsOf 64 data.toNat := by
  simp [rowBytesOf, byteBits, bitsOf, List.range_succ, BitVec.getLsbD_extractLsb', BitVec.testBit_toNat]

theorem eepReadRequest_k4 (r : BitVec 6) : eepReadRequest .k4 r.toNat = eepReadBits r := rfl

theorem eepReadRequest_k64 (r : BitVec 14) : eepReadRequest .k64 r.toNat = eepReadBits r := rfl

theorem eepWriteRequest_k4 (r : BitVec 6) (data : BitVec 64) :
    eepWriteRequest .k4 r.toNat (rowBytesOf data) = eepWriteBits r data := by
  rw [eepWriteRequest, rowBytesOf_bits]; rfl

theorem eepWriteRequest_k64 (r : BitVec 14) (data : BitVec 64) :
    eepWriteRequest .k64 r.toNat (rowBytesOf data) = eepWriteBits r data := by
  rw [eepWriteRequest, rowBytesOf_bits]; rfl

/-- A row read, in the order of its bits on the line (`45_gba_save.md` R376). -/
theorem eepReadRow_bits (frm : Framing) (row : Nat) (b : Bus) : ∃ q, RowBits q ∧ SaveCycles b (eepReadRow frm row b).2 ∧
    (eepReadRow frm row b).1 = bytesOfBits 8 q.2 ∧ Adds b (eepReadRow frm row b).2 ([BusEvent.eepOpen] ++
      (eepReadRequest frm row).map BusEvent.eepOutBit ++ [BusEvent.eepTurn] ++ (q.1 ++ q.2).map BusEvent.eepInBit ++
      [BusEvent.eepClose]) := by
  obtain ⟨cycles, nibble, bits, four, long, bytes, adds⟩ := eepReadRow_spec frm row b
  refine ⟨(nibble, bits), ⟨four, long⟩, cycles, bytes, ?_⟩
  rw [List.map_append, ← List.append_assoc _ (nibble.map BusEvent.eepInBit)]
  exact adds

/-- An EEPROM read run by itself. -/
theorem wireRead_run {i : Instr} {frm : Framing} {row : Nat} {bits : List Bool} (wf : i.wellFormed = true)
    (ready : Ready s) (eq : exec i s = wireOp i s (eepReadRow frm row)) (request : eepReadRequest frm row = bits) :
    ∃ t q, exec i s = .next t ∧ RowBits q ∧ Done 0 { s with rx := t.rx } t ∧ t.rx = bytesOfBits 8 q.2 ∧
      SaveCycles s.bus t.bus ∧ Adds s.bus t.bus ([BusEvent.eepOpen] ++ bits.map BusEvent.eepOutBit ++
        [BusEvent.eepTurn] ++ (q.1 ++ q.2).map BusEvent.eepInBit ++ [BusEvent.eepClose]) := by
  obtain ⟨q, row, cycles, bytes, adds⟩ := eepReadRow_bits frm row s.bus
  rw [request] at adds
  exact ⟨_, q, exec_of_wireOp wf ready eq, row, done_wire 0 s _ _, bytes, cycles.tick _, adds.tick _⟩

/-- An EEPROM write run by itself. -/
theorem wireWrite_run {i : Instr} {frm : Framing} {row : Nat} {data : List Byte} {bits : List Bool}
    (wf : i.wellFormed = true) (ready : Ready s)
    (eq : exec i s = wireOp i s fun b => ([], eepWriteRow frm row data b))
    (request : eepWriteRequest frm row data = bits) :
    ∃ t, exec i s = .next t ∧ Done 0 { s with rx := [] } t ∧ SaveCycles s.bus t.bus ∧ Adds s.bus t.bus
      ([BusEvent.eepOpen] ++ bits.map BusEvent.eepOutBit ++ [BusEvent.eepClose, .delay .eepWrite]) := by
  obtain ⟨cycles, adds⟩ := eepWriteRow_spec frm row data s.bus
  rw [rowWrite, request] at adds
  exact ⟨_, exec_of_wireOp wf ready eq, done_wire 0 s _ _, cycles.tick _, adds.tick _⟩

theorem wireCrdHeader_run (c : Chip) (ready : Ready s) :
    ∃ t, exec (.wireCrdHeader c) s = .next t ∧ Done 0 { s with rx := [] } t ∧ t.bus.exp = s.bus.exp ∧
      OnlyPorts { s.bus with crdActive := true, crdChip := c } t.bus := by
  refine ⟨_, exec_of_wireOp (i := .wireCrdHeader c) rfl ready (execWireCrdHeader_eq c), done_wire 0 s _ _,
    crdStart_exp s.bus c, ?_⟩
  constructor
  · constructor <;> rfl
  all_goals rfl

/-- Settles O60: every row of the table, from the frame or the bits it sends. -/
theorem wireRowsRun : Obligations.WireRowsRun := by
  constructor
  · intro c k second v w s ready
    obtain ⟨write, ⟨t, r0, r1, r2, run, done, ports, exp, rx, answer⟩, write2, read2⟩ :=
      wireFrames_run c k second v w s ready
    refine ⟨write, ⟨t, r0, r1, r2, run, done, ports, exp, rx, ?_, ?_, ?_⟩, write2, read2, wireCrdHeader_run c ready⟩
    · rintro rfl; exact answer
    · rintro rfl; exact answer
    · rintro rfl; exact answer
  · intro r4 r64 data s ready
    constructor
    · intro p m
      simp only [List.mem_cons, List.not_mem_nil, or_false] at m
      rcases m with rfl | rfl
      · exact wireRead_run rfl ready (execWireEepRead4k_eq r4) (eepReadRequest_k4 r4)
      · exact wireRead_run rfl ready (execWireEepRead64k_eq r64) (eepReadRequest_k64 r64)
    · intro p m
      simp only [List.mem_cons, List.not_mem_nil, or_false] at m
      rcases m with rfl | rfl
      · exact wireWrite_run rfl ready (execWireEepWrite4k_eq r4 data) (eepWriteRequest_k4 r4 data)
      · exact wireWrite_run rfl ready (execWireEepWrite64k_eq r64 data) (eepWriteRequest_k64 r64 data)

/-! ## Rows of the buffer -/

theorem done_intoBuffer (v : Word) (s : State) (b : Bus) (m : Memory) :
    Done v { s with hbuf := m } (finish v { s with bus := b, hbuf := m }) := done_bus v { s with hbuf := m } b

theorem exec_eepRdrow {frm : Framing} {row : BitVec 14} (inside : row.toNat < frm.rowLimit) (ready : Ready s)
    (fits : BufferFits 8 s) : exec (.eepRdrow frm row) s =
      .next (finish (countWord 8) { s with
        bus := (eepReadRow frm row.toNat s.bus).2
        hbuf := s.hbuf.writeBlock s.me.bufp.toNat (eepReadRow frm row.toNat s.bus).1 }) := by
  refine (execEepRdrow_eq frm row).trans ?_
  rw [guarded_ok (by simpa [Instr.wellFormed] using inside), needInit_ok ready.init, needBuf_ok fits, busReady_ok ready]
  rfl

theorem exec_eepWrrow {frm : Framing} {row : BitVec 14} (inside : row.toNat < frm.rowLimit) (ready : Ready s)
    (fits : BufferFits 8 s) : exec (.eepWrrow frm row) s =
      .next (finish 8 { s with
        bus := eepWriteRow frm row.toNat (s.hbuf.readBlock s.me.bufp.toNat 8) s.bus }) := by
  refine (execEepWrrow_eq frm row).trans ?_
  rw [guarded_ok (by simpa [Instr.wellFormed] using inside), needInit_ok ready.init, needBuf_ok fits, busReady_ok ready]
  rfl

/-- Settles O48: the bits of the two requests written out. -/
theorem eepromRows : Obligations.EepromRows := by
  intro frm row s inside ready fits
  constructor
  · obtain ⟨q, bits, cycles, bytes, adds⟩ := eepReadRow_bits frm row.toNat s.bus
    refine ⟨_, q, exec_eepRdrow inside ready fits, bits, done_intoBuffer _ s _ _, ?_, cycles.tick _, ?_⟩
    · rw [bytes]; exact writeBlock_stores s.hbuf s.me.bufp.toNat _
    · simpa [eepReadRequest] using adds.tick _
  · obtain ⟨cycles, adds⟩ := eepWriteRow_spec frm row.toNat (s.hbuf.readBlock s.me.bufp.toNat 8) s.bus
    refine ⟨_, exec_eepWrrow inside ready fits, done_bus 8 s _, cycles.tick _, ?_⟩
    simpa [rowWrite, eepWriteRequest] using adds.tick _

end Sys2Proof.Machine
end

section
/-! PROOFS. `42_power.md` R231 to R240: power-ups and power-downs as operations, and the fault of two powered slots. -/

namespace Sys2Proof.Machine

variable {s : State}

/-! ## Power-ups -/

theorem exec_gbPwrup (ready : ReadyGb s) :
    exec .gbPwrup s = .next (finish 0 (gbClaim { s with bus := gbPowerUp s.bus })) := by
  refine execGbPwrup_eq.trans ?_
  rw [needInit_ok ready.ready.init, gbPowerReady_ok ready]
  rfl

theorem exec_gbaPwrup (ready : ReadyGba s) :
    exec .gbaPwrup s = .next (finish 0 (gbaClaim { s with bus := gbaPowerUp s.bus })) := by
  refine execGbaPwrup_eq.trans ?_
  rw [needInit_ok ready.ready.init, gbaPowerReady_ok ready]
  rfl

/-- Settles O27: the sequence's pins, events and record, with the slot claimed after it. -/
theorem powerUpsDriveDefaults : Obligations.PowerUpsDriveDefaults := by
  constructor
  · intro s ready
    obtain ⟨pins, side, flag, -, events, record, power⟩ := gbPowerUp_spec s.bus
    exact ⟨_, exec_gbPwrup ready, done_bus 0 s _, { pins with }, { side with }, flag, rfl, events, record, power⟩
  · intro s ready
    obtain ⟨pins, side, flag, -, events, stream, chip, power⟩ := gbaPowerUp_spec s.bus
    exact ⟨_, exec_gbaPwrup ready, done_bus 0 s _, { pins with }, { side with }, flag, rfl,
      stream.trans ready.ready.closed, chip, events, power⟩

/-! ## Power-downs -/

theorem exec_gbPwrdn (ready : Ready s) : exec .gbPwrdn s = .next (finish 0 { s with bus := gbPowerDown s.bus }) := by
  refine execGbPwrdn_eq.trans ?_
  rw [needInit_ok ready.init, busReady_ok ready]
  rfl

theorem exec_gbaPwrdn (ready : Ready s) : exec .gbaPwrdn s = .next (finish 0 { s with bus := gbaPowerDown s.bus }) := by
  refine execGbaPwrdn_eq.trans ?_
  rw [needInit_ok ready.init, busReady_ok ready]
  rfl

/-- Settles O28: the two sequences, whatever the flag says. -/
theorem powerDownGrounds : Obligations.PowerDownGrounds := by
  intro s ready
  constructor
  · obtain ⟨grounded, side, events, record⟩ := gbPowerDown_spec s.bus
    exact ⟨_, exec_gbPwrdn ready, done_bus 0 s _, grounded.tick _, side.tick _, record, events.tick _⟩
  · obtain ⟨grounded, side, events, stream, chip⟩ := gbaPowerDown_spec s.bus
    exact ⟨_, exec_gbaPwrdn ready, done_bus 0 s _, grounded.tick _, side.tick _, stream.trans ready.closed, chip,
      events.tick _⟩

/-! ## Two powered slots -/

section blocked
variable {op : Instr} {e : Fault}

/-- What keeps the engine's first power-up from happening is where each of its operations ends, once its session and
its buffer are there. -/
theorem gbReadRom_unpowered (loaded : s.gb.loaded = true) (fits : BufferFits (gbDumpTotal s.gb) s)
    (h : gbPowerReady op s = .error e) : (gbReadRomSteps op).run s = .error (.fault e) := by
  rw [gbReadRomSteps, run_bind_ok (run_look asGb_faithful _ _), if_neg (by simp [loaded])]
  exact needBuf_then fits (run_bind_error (withGbPower_blocked h))

theorem gbaReadRom_unpowered (loaded : s.gba.loaded = true) (fits : BufferFits s.gba.romSize.toNat s)
    (h : gbaPowerReady op s = .error e) : (gbaReadRomSteps op).run s = .error (.fault e) := by
  rw [gbaReadRomSteps, run_bind_ok (run_look asGba_faithful _ _), if_neg (by simp [loaded])]
  exact needBuf_then fits (run_bind_error (withGbaPower_blocked h))

theorem gbaReadSave_unpowered (loaded : s.gba.loaded = true) (known : s.gba.saveType ≠ .unknown)
    (fits : BufferFits s.gba.saveSize.toNat s) (h : gbaPowerReady op s = .error e) :
    (gbaReadSaveSteps op).run s = .error (.fault e) := by
  rw [gbaReadSaveSteps, run_bind_ok (run_look asGba_faithful _ _), if_neg (by simp [loaded, known])]
  exact needBuf_then fits (run_bind_error (withGbaPower_blocked h))

end blocked

theorem gbPowerReady_both {op : Instr} (other : s.bus.pwrGba = true) :
    gbPowerReady op s = .error .bothSlotsPowered := if_pos other

theorem gbaPowerReady_both {op : Instr} (other : s.bus.pwrGb = true) :
    gbaPowerReady op s = .error .bothSlotsPowered := if_pos other

/-- The operations of the GB/GBC engine that begin with a power-up, while the GBA slot is powered. -/
theorem gb_bothPowered (init : s.spiReady = true) (other : s.bus.pwrGba = true) :
    exec .gbPwrup s = .fault .bothSlotsPowered ∧ exec .gbLoadhdr s = .fault .bothSlotsPowered ∧
      (s.gb.loaded = true → exec .gbIsloaded s = .fault .bothSlotsPowered ∧
        (BufferFits (gbDumpTotal s.gb) s → exec .gbReadrom s = .fault .bothSlotsPowered) ∧
        (s.gb.saveSize ≠ 0 → BufferFits s.gb.saveSize.toNat s →
          exec .gbReadsave s = .fault .bothSlotsPowered ∧ exec .gbWritesave s = .fault .bothSlotsPowered)) := by
  refine ⟨execGbPwrup_eq.trans ?_, execGbLoadhdr_eq.trans ?_, fun loaded => ⟨execGbIsloaded_eq.trans ?_,
    fun fits => perform_init_error (op := .gbReadrom) rfl init
      (gbReadRom_unpowered loaded fits (gbPowerReady_both other)),
    fun save fits => ⟨execGbReadsave_eq.trans ?_, execGbWritesave_eq.trans ?_⟩⟩⟩
  · rw [needInit_ok init, gbPowerReady_both other]; rfl
  · rw [needInit_ok init, gbPowerReady_both other]; rfl
  · rw [needInit_ok init, gbIsLoaded, if_neg (by simp [loaded]), gbPowerReady_both other]; rfl
  · rw [needInit_ok init, gbReadSave, if_neg (by simpa [loaded] using save), needBuf_ok fits,
      gbPowerReady_both other]; rfl
  · rw [needInit_ok init, gbWriteSave, if_neg (by simpa [loaded] using save), needBuf_ok fits,
      gbPowerReady_both other]; rfl

/-- The operations of the GBA engines that begin with a power-up, while the GB slot is powered. -/
theorem gba_bothPowered (init : s.spiReady = true) (other : s.bus.pwrGb = true) :
    exec .gbaPwrup s = .fault .bothSlotsPowered ∧ exec .gbaLoadhdr s = .fault .bothSlotsPowered ∧
      exec .gbaProbesize s = .fault .bothSlotsPowered ∧ exec .gbaClassify s = .fault .bothSlotsPowered ∧
      (s.gba.loaded = true → exec .gbaIsloaded s = .fault .bothSlotsPowered ∧
        (BufferFits s.gba.romSize.toNat s → exec .gbaReadrom s = .fault .bothSlotsPowered) ∧
        (s.gba.saveType ≠ .unknown → BufferFits s.gba.saveSize.toNat s →
          exec .gbaReadsave s = .fault .bothSlotsPowered ∧ exec .gbaWritesave s = .fault .bothSlotsPowered)) := by
  refine ⟨execGbaPwrup_eq.trans ?_, execGbaLoadhdr_eq.trans ?_, execGbaProbesize_eq.trans ?_,
    execGbaClassify_eq.trans ?_, fun loaded => ⟨execGbaIsloaded_eq.trans ?_,
    fun fits => perform_init_error (op := .gbaReadrom) rfl init
      (gbaReadRom_unpowered loaded fits (gbaPowerReady_both other)),
    fun known fits => ⟨perform_init_error (op := .gbaReadsave) rfl init
        (gbaReadSave_unpowered loaded known fits (gbaPowerReady_both other)),
      execGbaWritesave_eq.trans ?_⟩⟩⟩
  · rw [needInit_ok init, gbaPowerReady_both other]; rfl
  · rw [needInit_ok init, gbaPowerReady_both other]; rfl
  · rw [needInit_ok init, gbaPowerReady_both other]; rfl
  · rw [needInit_ok init, gbaPowerReady_both other]; rfl
  · rw [needInit_ok init, gbaIsLoaded, if_neg (by simp [loaded]), gbaPowerReady_both other]; rfl
  · rw [needInit_ok init, gbaWriteSave, if_neg (by simp [loaded, known]), needBuf_ok fits,
      gbaPowerReady_both other]; rfl

/-- Settles O29: each engine with the other's slot powered. -/
theorem slotsNeverBothPowered : Obligations.SlotsNeverBothPowered :=
  fun _ ready => ⟨gb_bothPowered ready.init, gba_bothPowered ready.init⟩

end Sys2Proof.Machine
end

section
/-! PROOFS. `43_gb_engine.md` R251 to R281: one cycle on the GB/GBC bus, and what the bank operations write to each
controller's registers. -/

namespace Sys2Proof.Machine

variable {s : State}

/-! ## Cycles -/

theorem exec_gbBusrd (a : Half) (ready : Ready s) : exec (.gbBusrd a) s =
    .next (finish ((gbRead a s.bus).1.setWidth 32) { s with bus := (gbRead a s.bus).2 }) :=
  (execGbBusrd_eq a).trans (cartridgeOp_next ready)

theorem exec_gbBuswr (a : Half) (d : Byte) (ready : Ready s) : exec (.gbBuswr a d) s = .next (finish 0 { s with
    bus := { gbWrite a d s.bus with mbcw := mbcwRaw s.gb a d (gbWrite a d s.bus).mbcw } }) := by
  refine (execGbBuswr_eq a d).trans ?_
  rw [needInit_ok ready.init, busReady_ok ready]
  rfl

/-- The chip select pulses in the RAM window only, and ends high there (`43_gb_engine.md` R251, R252). -/
theorem ramSelect_gbCsOut (a : Half) (v : Bool) (b : Bus) :
    (ramSelect a v b).pins.gbCs.out = if inRamWindow a then v else b.pins.gbCs.out := by
  unfold ramSelect
  split <;> simp [setPin, getPin]

/-- The pins and ports that a read leaves. -/
theorem gbRead_leaves (a : Half) (b : Bus) :
    (gbRead a b).2.pins.gbRd.out = true ∧ (gbRead a b).2.pins.gbWr = b.pins.gbWr ∧
      (gbRead a b).2.pins.gbCs.out = (inRamWindow a || b.pins.gbCs.out) ∧
      (gbRead a b).2.exp = { b.exp with
        a := { b.exp.a with out := a.extractLsb' 0 8 }, b := { b.exp.b with out := a.extractLsb' 8 8 } } := by
  refine ⟨?rd, ?wr, ?cs, ?exp⟩
  case rd => simp [gbRead, setPin]
  case wr => simp [gbRead, setPin]
  case cs => cases w : inRamWindow a <;> simp [gbRead, setPin, ramSelect_gbCsOut, w]
  case exp => simp [gbRead, loByte, hiByte]

/-- The pins and ports that a write leaves. -/
theorem gbWrite_leaves (a : Half) (d : Byte) (b : Bus) :
    (gbWrite a d b).pins.gbWr.out = true ∧ (gbWrite a d b).pins.gbRd = b.pins.gbRd ∧
      (gbWrite a d b).pins.gbCs.out = (inRamWindow a || b.pins.gbCs.out) ∧
      (gbWrite a d b).exp = { b.exp with
        a := { b.exp.a with out := a.extractLsb' 0 8 }, b := { b.exp.b with out := a.extractLsb' 8 8 },
        c := { b.exp.c with out := d, dir := 0xFF } } := by
  refine ⟨?wr, ?rd, ?cs, ?exp⟩
  case wr => simp [gbWrite, setPin]
  case rd => simp [gbWrite, setPin]
  case cs => cases w : inRamWindow a <;> simp [gbWrite, setPin, ramSelect_gbCsOut, w]
  case exp => simp [gbWrite, loByte, hiByte]

/-- Settles O31: the one cycle of each operation. -/
theorem gbBusCycles : Obligations.GbBusCycles := by
  intro a d s ready
  constructor
  · exact ⟨_, _, exec_gbBusrd a ready, done_bus _ s _, (gbRead_cycles a s.bus).tick _, gbRead_mbcw a s.bus,
      (gbRead_adds a s.bus).tick _, gbRead_leaves a s.bus⟩
  · exact ⟨_, exec_gbBuswr a d ready, done_bus 0 s _, { gbWrite_cycles a d s.bus with },
      congrArg (mbcwRaw s.gb a d) (gbWrite_mbcw a d s.bus), gbWrite_adds a d s.bus, gbWrite_leaves a d s.bus⟩

/-! ## Registers of a controller -/

/-- A bank operation that writes registers. -/
theorem bank_written {i : Instr} {ws : List (Half × Byte)} {g : Mbcw → Mbcw} (ready : Ready s) (some : ws ≠ [])
    (eq : exec i s = mbcOp i s ws (mbcStep ws g)) :
    ∃ t, exec i s = .next t ∧ Done 0 s t ∧ GbCycles s.bus t.bus ∧ Adds s.bus t.bus (gbWriteEvents ws) ∧
      t.bus.mbcw = g s.bus.mbcw :=
  ⟨_, eq.trans (mbcOp_next ready some), done_bus 0 s _, (mbcStep_cycles ws g s.bus).tick _,
    (mbcStep_adds ws g s.bus).tick _, mbcStep_mbcw ws g s.bus⟩

/-- A bank operation of a controller without the register. -/
theorem bank_unwritten {i : Instr} {f : Bus → Bus} (ready : Ready s) (eq : exec i s = mbcOp i s [] f) :
    ∃ t, exec i s = .next t ∧ Done 0 s t ∧ QuietBus s.bus t.bus :=
  ⟨_, eq.trans (mbcOp_none ready.init), done_finish_self 0 s, quiet_finish 0 s⟩

theorem exec_gbRombank (m : Mbc) (i : BitVec 9) (s : State) : exec (.gbRombank m i) s =
    mbcOp (.gbRombank m i) s (romBankWrites m i) (gbRomBank m i) := (execGbRombank_eq m i).trans (guarded_ok rfl)

theorem exec_gbRamopen (m : Mbc) (s : State) : exec (.gbRamopen m) s =
    mbcOp (.gbRamopen m) s (ramOpenWrites m) (gbRamOpen m) := (execGbRamopen_eq m).trans (guarded_ok rfl)

theorem exec_gbRambank (m : Mbc) (j : BitVec 4) (s : State) : exec (.gbRambank m j) s =
    mbcOp (.gbRambank m j) s (ramBankWrites m j) (gbRamBank m j) := (execGbRambank_eq m j).trans (guarded_ok rfl)

theorem exec_gbRamclose (m : Mbc) (s : State) : exec (.gbRamclose m) s =
    mbcOp (.gbRamclose m) s (ramCloseWrites m) (gbRamClose m) := (execGbRamclose_eq m).trans (guarded_ok rfl)

theorem romBankWrites_ne_nil {m : Mbc} (i : BitVec 9) (h : m ≠ .noMbc) : romBankWrites m i ≠ [] := by
  cases m <;> simp [romBankWrites] at h ⊢

theorem rombank_written (m : Mbc) (i : BitVec 9) (ready : Ready s) (some : romBankWrites m i ≠ []) :
    ∃ t, exec (.gbRombank m i) s = .next t ∧ Done 0 s t ∧ GbCycles s.bus t.bus ∧
      Adds s.bus t.bus (gbWriteEvents (romBankWrites m i)) ∧ t.bus.mbcw = mbcwRomBank m i s.bus.mbcw :=
  bank_written ready some (exec_gbRombank m i s)

theorem ramopen_written (m : Mbc) (ready : Ready s) (some : ramOpenWrites m ≠ []) :
    ∃ t, exec (.gbRamopen m) s = .next t ∧ Done 0 s t ∧ GbCycles s.bus t.bus ∧
      Adds s.bus t.bus (gbWriteEvents (ramOpenWrites m)) ∧ t.bus.mbcw = mbcwRamOpen m s.bus.mbcw :=
  bank_written ready some (exec_gbRamopen m s)

theorem rambank_written (m : Mbc) (j : BitVec 4) (ready : Ready s) (some : ramBankWrites m j ≠ []) :
    ∃ t, exec (.gbRambank m j) s = .next t ∧ Done 0 s t ∧ GbCycles s.bus t.bus ∧
      Adds s.bus t.bus (gbWriteEvents (ramBankWrites m j)) ∧ t.bus.mbcw = mbcwRamBank m j s.bus.mbcw :=
  bank_written ready some (exec_gbRambank m j s)

theorem ramclose_written (m : Mbc) (ready : Ready s) (some : ramCloseWrites m ≠ []) :
    ∃ t, exec (.gbRamclose m) s = .next t ∧ Done 0 s t ∧ GbCycles s.bus t.bus ∧
      Adds s.bus t.bus (gbWriteEvents (ramCloseWrites m)) ∧ t.bus.mbcw = mbcwRamClose m s.bus.mbcw :=
  bank_written ready some (exec_gbRamclose m s)

/-- A bank of the two bits of an MBC1 or MBC3 register, as the record keeps it. -/
theorem ramBank_recorded (j : BitVec 4) :
    BitVec.setWidth 4 (BitVec.setWidth 8 (j.extractLsb' 0 2)) = BitVec.setWidth 4 (j.extractLsb' 0 2) := by
  ext k h
  simp

theorem ramBank_recorded_mbc5 (j : BitVec 4) : BitVec.setWidth 4 (BitVec.setWidth 8 j) = j := by
  ext k h
  simp

/-- Settles O32: the registers of each controller. -/
theorem bankRegisterWrites : Obligations.BankRegisterWrites := by
  constructor
  · intro i s ready
    refine ⟨fun p m => ?_, bank_unwritten ready (exec_gbRombank .noMbc i s)⟩
    simp only [List.mem_cons, List.not_mem_nil, or_false] at m
    rcases m with rfl | rfl | rfl | rfl <;> exact rombank_written _ i ready (List.cons_ne_nil _ _)
  · intro j s ready
    refine ⟨fun p m => ?opened, fun p m => ?bank, fun p m => ?closed, fun i m => ?none⟩
    case opened =>
      simp only [List.mem_cons, List.not_mem_nil, or_false] at m
      rcases m with rfl | rfl | rfl | rfl <;> exact ramopen_written _ ready (List.cons_ne_nil _ _)
    case bank =>
      simp only [List.mem_cons, List.not_mem_nil, or_false] at m
      rcases m with rfl | rfl | rfl
      · rw [ramBank_recorded]; exact rambank_written .mbc1 j ready (List.cons_ne_nil _ _)
      · rw [ramBank_recorded]; exact rambank_written .mbc3 j ready (List.cons_ne_nil _ _)
      · rw [ramBank_recorded_mbc5]; exact rambank_written .mbc5 j ready (List.cons_ne_nil _ _)
    case closed =>
      simp only [List.mem_cons, List.not_mem_nil, or_false] at m
      rcases m with rfl | rfl | rfl | rfl <;> exact ramclose_written _ ready (List.cons_ne_nil _ _)
    case none =>
      simp only [List.mem_cons, List.not_mem_nil, or_false] at m
      rcases m with rfl | rfl | rfl | rfl
      · exact bank_unwritten ready (exec_gbRamopen .noMbc s)
      · exact bank_unwritten ready (exec_gbRambank .noMbc j s)
      · exact bank_unwritten ready (exec_gbRambank .mbc2 j s)
      · exact bank_unwritten ready (exec_gbRamclose .noMbc s)

end Sys2Proof.Machine
end

section
/-! PROOFS. `43_gb_engine.md` R258 to R291: the GB/GBC engine's header load, re-check, ROM dump and save transfers, each
from its run on the powered slot (`Laws/GbEngine.lean`). -/

namespace Sys2Proof.Machine

variable {s : State}

/-! ## Sessions from headers -/

theorem romSizeTable_known {code : Byte} (known : code.toNat ≤ 8) :
    ∃ size, romSizeTable code = some size ∧ size.toNat = 32768 * 2 ^ code.toNat := by
  have small : 2 ^ code.toNat ≤ 2 ^ 8 := Nat.pow_le_pow_right (by decide) known
  refine ⟨_, if_pos known, ?_⟩
  rw [BitVec.toNat_ofNat, Nat.shiftLeft_eq, Nat.mod_eq_of_lt (by omega)]

/-- A header that verifies gives a session of its fields (`43_gb_engine.md` R258). -/
theorem gbSessionOf_verified {h sha : List Byte} (ok : GbHeaderOk h) : ∃ g, gbSessionOf h sha = some g ∧
    g.loaded = true ∧ g.title = normTitle (slice 0x134 16 h) ∧ g.cgb = cgbFlag (h.getD 0x143 0) ∧
    g.mbc = (typeTable (h.getD 0x147 0)).1 ∧ g.romSize.toNat = 32768 * 2 ^ (h.getD 0x148 0).toNat ∧
    g.saveSize = gbSaveSize g.mbc (typeTable (h.getD 0x147 0)).2 (h.getD 0x149 0) ∧ g.sha1 = sha := by
  obtain ⟨isLogo, known⟩ := ok
  obtain ⟨size, some, pow⟩ := romSizeTable_known known
  simp only [gbSessionOf, isLogo, some, if_true]
  exact ⟨_, rfl, rfl, rfl, rfl, rfl, pow, rfl, rfl⟩

/-- Any other header gives none (`43_gb_engine.md` R264, R265). -/
theorem gbSessionOf_unverified {h sha : List Byte} (bad : ¬ GbHeaderOk h) : gbSessionOf h sha = none := by
  by_cases isLogo : slice 0x104 48 h = logo
  · have none : romSizeTable (h.getD 0x148 0) = none := if_neg fun known => bad ⟨isLogo, known⟩
    simp only [gbSessionOf, isLogo, none, if_true]
  · exact if_neg isLogo

theorem gbLoadHeader_some {g : GbSession} (h : gbSessionOf (gbHeaderRead s.bus).1 (sha1Hex (gbHeaderRead s.bus).1) = some g) :
    gbLoadHeader s = (1, { s with bus := (gbHeaderRead s.bus).2, gb := g }) := by
  unfold gbLoadHeader
  generalize gbHeaderRead s.bus = r at h ⊢
  simp only [h]

theorem gbLoadHeader_none (h : gbSessionOf (gbHeaderRead s.bus).1 (sha1Hex (gbHeaderRead s.bus).1) = none) :
    gbLoadHeader s = (0, { s with bus := (gbHeaderRead s.bus).2, gb := .empty }) := by
  unfold gbLoadHeader
  generalize gbHeaderRead s.bus = r at h ⊢
  simp only [h]
  rfl

theorem exec_gbLoadhdr (ready : ReadyGb s) :
    exec .gbLoadhdr s = .next (finish (gbLoadHeader s).1 (gbLoadHeader s).2) := by
  refine execGbLoadhdr_eq.trans ?_
  rw [needInit_ok ready.ready.init, gbPowerReady_ok ready]
  generalize gbLoadHeader s = r
  rfl

/-- Either way a header load leaves the bus that its reads left. -/
theorem gbLoadHeader_bus (s : State) : (gbLoadHeader s).2.bus = (gbHeaderRead s.bus).2 := by
  unfold gbLoadHeader
  generalize gbHeaderRead s.bus = r
  dsimp only
  split <;> rfl

/-- Settles O33: 1028 reads, and the session of the header read or none. -/
theorem gbLoadHeaderVerifies : Obligations.GbLoadHeaderVerifies := by
  intro s ready
  obtain ⟨wake, four, long, run⟩ := gbHeaderRead_run s.bus
  have run := run.tick ((gbHeaderRead s.bus).2.tick + 1)
  have bus : (finish (gbLoadHeader s).1 (gbLoadHeader s).2).bus =
      { (gbHeaderRead s.bus).2 with tick := (gbHeaderRead s.bus).2.tick + 1 } := by rw [finish_bus, gbLoadHeader_bus]
  rw [← bus] at run
  refine ⟨_, wake, (gbHeaderRead s.bus).1, exec_gbLoadhdr ready, four, long, ?_, run.grounded, run.side, run.record,
    fun ok => ?verified, fun bad => ?unverified⟩
  case verified =>
    obtain ⟨g, session, fields⟩ := gbSessionOf_verified (sha := sha1Hex (gbHeaderRead s.bus).1) ok
    rw [gbLoadHeader_some session]
    exact ⟨done_bus 1 { s with gb := g } _, fields⟩
  case unverified =>
    rw [gbLoadHeader_none (gbSessionOf_unverified bad)]
    exact done_bus 0 { s with gb := .empty } _
  · simpa only [List.append_assoc] using run.events

/-! ## Re-checks -/

theorem gbLive_same_iff (g title : List Byte) :
    gbLive g title = .same ↔ g.take 48 = logo ∧ normTitle (g.drop 48) = title := by
  unfold gbLive
  by_cases isLogo : g.take 48 = logo
  · by_cases same : normTitle (g.drop 48) = title <;> simp [isLogo, same]
  · simp [isLogo]

theorem gbRecheck_still (still : GbStill (gbCheckRead s.bus).1 s.gb) :
    gbRecheck s = (1, { s with bus := (gbCheckRead s.bus).2 }) := if_pos ((gbLive_same_iff _ _).2 still)

theorem gbRecheck_gone (gone : ¬ GbStill (gbCheckRead s.bus).1 s.gb) :
    gbRecheck s = (0, { s with bus := (gbCheckRead s.bus).2, gb := .empty }) :=
  if_neg fun same => gone ((gbLive_same_iff _ _).1 same)

theorem exec_gbIsloaded (ready : ReadyGb s) (loaded : s.gb.loaded = true) :
    exec .gbIsloaded s = .next (finish (gbRecheck s).1 (gbRecheck s).2) := by
  refine execGbIsloaded_eq.trans ?_
  rw [needInit_ok ready.ready.init, gbIsLoaded, if_neg (by simp [loaded]), gbPowerReady_ok ready]
  rfl

/-- An engine's operation that finds nothing to do returns 0 and touches nothing (`43_gb_engine.md` R266, R284). -/
theorem done_nothing {i : Instr} (eq : exec i s = .next (finish 0 s)) :
    ∃ t, exec i s = .next t ∧ Done 0 s t ∧ QuietBus s.bus t.bus :=
  ⟨_, eq, done_finish_self 0 s, quiet_finish 0 s⟩

theorem exec_gbIsloaded_empty (init : s.spiReady = true) (empty : s.gb.loaded = false) :
    exec .gbIsloaded s = .next (finish 0 s) := by
  refine execGbIsloaded_eq.trans ?_
  rw [needInit_ok init, gbIsLoaded, if_pos empty]
  rfl

/-- Settles O34: the check's reads, and the session kept or cleared by what they show. -/
theorem gbIsLoadedRechecks : Obligations.GbIsLoadedRechecks := by
  refine ⟨fun s ready loaded => ?_, fun s init empty => done_nothing (exec_gbIsloaded_empty init empty)⟩
  obtain ⟨long, run⟩ := gbCheckRead_run s.bus
  have run := run.tick ((gbCheckRead s.bus).2.tick + 1)
  by_cases still : GbStill (gbCheckRead s.bus).1 s.gb
  · have eq := exec_gbIsloaded ready loaded
    rw [gbRecheck_still still] at eq
    exact ⟨_, _, eq, long, run.events, run.grounded, run.side, run.record, fun _ => done_bus 1 s _,
      fun gone => absurd still gone⟩
  · have eq := exec_gbIsloaded ready loaded
    rw [gbRecheck_gone still] at eq
    exact ⟨_, _, eq, long, run.events, run.grounded, run.side, run.record, fun yes => absurd yes still,
      fun _ => done_bus 0 { s with gb := .empty } _⟩

/-! ## Dumps -/

/-- A size that fits a buffer of `2^32` bytes is what its word says. -/
theorem countWord_toNat (w : Word) : countWord w.toNat = w := by simp [countWord]

theorem exec_gbReadrom (ready : ReadyGb s) (loaded : s.gb.loaded = true) (ok : GbSessionOk s.gb)
    (fits : BufferFits (gbDumpTotal s.gb) s) : exec .gbReadrom s =
      .next (finish (countWord (gbDumpTotal s.gb)) { s with
        bus := (gbDump s.gb s.bus).2
        hbuf := s.hbuf.writeBlock s.me.bufp.toNat (gbDump s.gb s.bus).1 }) := by
  refine (execGbReadrom_eq ok).trans ?_
  rw [needInit_ok ready.ready.init, gbReadRom, if_neg (by simp [loaded]), needBuf_ok fits, gbPowerReady_ok ready]
  rfl

theorem exec_gbReadrom_empty (init : s.spiReady = true) (empty : s.gb.loaded = false) :
    exec .gbReadrom s = .next (finish 0 s) := by
  have none : (gbReadRomSteps .gbReadrom).run s = .ok (0, s) := by
    rw [gbReadRomSteps, run_bind_ok (run_look asGb_faithful _ _), if_pos empty, run_ret]
  refine (perform_ok (op := .gbReadrom) (run_then_ok (v := ()) (t := s) ?_ |>.trans none)).trans (guarded_ok rfl)
  rw [run_ensure, needInit_ok init]

/-- The size of a loaded session's ROM (`30_encoding.md` R143). -/
theorem GbSessionOk.romSize (ok : GbSessionOk s.gb) (loaded : s.gb.loaded = true) :
    32768 ≤ s.gb.romSize.toNat ∧ s.gb.romSize.toNat % 0x4000 = 0 := by
  obtain ⟨n, -, size⟩ := ok.size loaded
  have pos : 0 < 2 ^ n := Nat.two_pow_pos n
  rw [size]
  omega

/-- What a dump leaves on the bus, with a controller or without (`43_gb_engine.md` R284, R285). -/
theorem gbDump_runs (ok : GbSessionOk s.gb) (loaded : s.gb.loaded = true) :
    (gbDump s.gb s.bus).1.length = gbDumpTotal s.gb ∧
    GbRun s.bus (gbDump s.gb s.bus).2 (mbcwRomBank s.gb.mbc 1 (mbcwPowered s.bus))
      (gbReads 0 ((gbDump s.gb s.bus).1.take 0x4000) ++
        if s.gb.mbc = .noMbc then gbReads 0x4000 ((gbDump s.gb s.bus).1.drop 0x4000)
        else ((List.range (s.gb.romSize.toNat / 0x4000 - 1)).map fun i =>
            gbWriteEvents (romBankWrites s.gb.mbc (BitVec.ofNat 9 (i + 1))) ++
              gbReads 0x4000 (slice ((i + 1) * 0x4000) 0x4000 (gbDump s.gb s.bus).1)).flatten ++
            gbWriteEvents (romBankWrites s.gb.mbc 1)) := by
  obtain ⟨big, whole⟩ := ok.romSize loaded
  by_cases m : s.gb.mbc = .noMbc
  · rw [if_pos m]
    have record : mbcwRomBank s.gb.mbc 1 (mbcwPowered s.bus) = mbcwPowered s.bus := by rw [m]; rfl
    rw [record]
    exact gbDump_noMbc_run s.gb s.bus m (by rw [gbDumpTotal, if_pos m]; omega)
  · rw [if_neg m]
    exact gbDump_mbc_run s.gb s.bus m (by omega) whole

/-- Settles O35: the dump's reads, stored at the buffer. -/
theorem gbReadRomDumps : Obligations.GbReadRomDumps := by
  refine ⟨fun s ready loaded ok fits => ?_, fun s init empty => done_nothing (exec_gbReadrom_empty init empty)⟩
  obtain ⟨long, run⟩ := gbDump_runs ok loaded
  have run := run.tick ((gbDump s.gb s.bus).2.tick + 1)
  refine ⟨_, _, exec_gbReadrom ready loaded ok fits, long, ?_, writeBlock_stores _ _ _, run.grounded, run.side, ?_,
    run.record⟩
  · rw [long]
    exact done_intoBuffer _ s _ _
  · have events := run.events
    simp only [List.append_assoc] at events ⊢
    exact events

/-! ## Saves -/

theorem exec_gbReadsave (ready : ReadyGb s) (loaded : s.gb.loaded = true) (save : s.gb.saveSize ≠ 0)
    (fits : BufferFits s.gb.saveSize.toNat s) : exec .gbReadsave s =
      .next (finish (countWord s.gb.saveSize.toNat) { s with
        bus := (gbSaveDump s.gb.mbc s.gb.saveSize.toNat s.bus).2
        hbuf := s.hbuf.writeBlock s.me.bufp.toNat (gbSaveDump s.gb.mbc s.gb.saveSize.toNat s.bus).1 }) := by
  refine execGbReadsave_eq.trans ?_
  rw [needInit_ok ready.ready.init, gbReadSave, if_neg (by simpa [loaded] using save), needBuf_ok fits,
    gbPowerReady_ok ready]
  rfl

theorem exec_gbReadsave_empty (init : s.spiReady = true) (empty : s.gb.loaded = false ∨ s.gb.saveSize = 0) :
    exec .gbReadsave s = .next (finish 0 s) := by
  refine execGbReadsave_eq.trans ?_
  rw [needInit_ok init, gbReadSave, if_pos empty]
  rfl

/-- Settles O36: the read's banks, stored at the buffer. -/
theorem gbReadSaveDumps : Obligations.GbReadSaveDumps := by
  refine ⟨fun s ready loaded save fits => ?_, fun s init empty => done_nothing (exec_gbReadsave_empty init empty)⟩
  obtain ⟨long, run⟩ := gbSaveDump_run s.gb.mbc s.gb.saveSize.toNat s.bus
  have run := run.tick ((gbSaveDump s.gb.mbc s.gb.saveSize.toNat s.bus).2.tick + 1)
  have eq := exec_gbReadsave ready loaded save fits
  rw [countWord_toNat] at eq
  refine ⟨_, _, eq, long, done_intoBuffer _ s _ _, writeBlock_stores _ _ _, run.grounded, run.side, ?_, run.record⟩
  have events := run.events
  simp only [List.append_assoc] at events ⊢
  exact events

theorem exec_gbWritesave (ready : ReadyGb s) (loaded : s.gb.loaded = true) (save : s.gb.saveSize ≠ 0)
    (fits : BufferFits s.gb.saveSize.toNat s) : exec .gbWritesave s =
      .next (finish (countWord s.gb.saveSize.toNat) { s with
        bus := gbSaveStore s.gb.mbc (s.hbuf.readBlock s.me.bufp.toNat s.gb.saveSize.toNat) s.bus }) := by
  refine execGbWritesave_eq.trans ?_
  rw [needInit_ok ready.ready.init, gbWriteSave, if_neg (by simpa [loaded] using save), needBuf_ok fits,
    gbPowerReady_ok ready]
  rfl

theorem exec_gbWritesave_empty (init : s.spiReady = true) (empty : s.gb.loaded = false ∨ s.gb.saveSize = 0) :
    exec .gbWritesave s = .next (finish 0 s) := by
  refine execGbWritesave_eq.trans ?_
  rw [needInit_ok init, gbWriteSave, if_pos empty]
  rfl

/-- The bytes of the buffer that go to one bank of a save (`43_gb_engine.md` R291). -/
theorem saveBank_bytes (m : Memory) (a n j : Nat) :
    ((slice (j * 0x2000) (saveBankLen n j) (m.readBlock a n)).mapIdx fun o v =>
      BusEvent.gbW (BitVec.ofNat 16 (0xA000 + o)) v) =
    (List.range (min 0x2000 (n - j * 0x2000))).map fun o =>
      .gbW (BitVec.ofNat 16 (0xA000 + o)) (m.read (a + j * 0x2000 + o)) := by
  rw [slice_readBlock_mapIdx, saveBankLen, Nat.min_assoc, Nat.min_self]

/-- Settles O37: the buffer's bytes, bank by bank. -/
theorem gbWriteSaveWritesBuffer : Obligations.GbWriteSaveWritesBuffer := by
  refine ⟨fun s ready loaded save fits => ?_, fun s init empty => done_nothing (exec_gbWritesave_empty init empty)⟩
  have run := gbSaveStore_run s.gb.mbc (s.hbuf.readBlock s.me.bufp.toNat s.gb.saveSize.toNat) s.bus
  have run := run.tick ((gbSaveStore s.gb.mbc (s.hbuf.readBlock s.me.bufp.toNat s.gb.saveSize.toNat) s.bus).tick + 1)
  have eq := exec_gbWritesave ready loaded save fits
  rw [countWord_toNat] at eq
  refine ⟨_, eq, done_bus _ s _, run.grounded, run.side, ?_, run.record⟩
  have events := run.events
  simp only [readBlock_length, saveBank_bytes, List.append_assoc] at events ⊢
  exact events

end Sys2Proof.Machine
end

section
/-! PROOFS. `44_gba_rom.md` R314 to R331 and `45_gba_save.md` R355 to R366: the GBA ROM engine and the classification of
a save, each from its run on the powered slot (`Laws/GbaEngine.lean`). -/

namespace Sys2Proof.Machine

variable {s : State} {b : Bus}

/-! ## Bursts -/

/-- The operand ranges of a burst (`44_gba_rom.md` R316): an even address and an even length that is not 0. -/
theorem wellFormed_gbaRomrd {a : BitVec 25} {len : Half} (wf : (Instr.gbaRomrd a len).wellFormed = true) :
    len.toNat % 2 = 0 := by
  simp only [Instr.wellFormed, Bool.and_eq_true, Bool.not_eq_true'] at wf
  obtain ⟨⟨-, even⟩, -⟩ := wf
  rw [BitVec.getLsbD, Nat.testBit_zero, decide_eq_false_iff_not] at even
  omega

theorem exec_gbaRomrd {a : BitVec 25} {len : Half} (wf : (Instr.gbaRomrd a len).wellFormed = true) (ready : Ready s)
    (fits : BufferFits len.toNat s) : exec (.gbaRomrd a len) s =
      .next (finish (countWord len.toNat) { s with
        bus := (gbaRomRead a.toNat len.toNat s.bus).2
        hbuf := s.hbuf.writeBlock s.me.bufp.toNat (gbaRomRead a.toNat len.toNat s.bus).1 }) := by
  refine (execGbaRomrd_eq a len (wellFormed_gbaRomrd wf)).trans ?_
  rw [guarded_ok wf, needInit_ok ready.init, needBuf_ok fits, busReady_ok ready]
  rfl

/-- Settles O41: the burst, stored at the buffer. -/
theorem gbaBurstRead : Obligations.GbaBurstRead := by
  intro a len s wf ready fits
  obtain ⟨cycles, vs, long, bytes, adds⟩ := gbaRomRead_spec a.toNat len.toNat s.bus
  refine ⟨_, vs, exec_gbaRomrd wf ready fits, long, done_intoBuffer _ s _ _, ?_, adds, cycles.tick _,
    gbaRomRead_crdActive a.toNat len.toNat s.bus, gbaRomRead_crdChip a.toNat len.toNat s.bus⟩
  rw [← bytes]
  exact writeBlock_stores _ _ _

/-! ## Re-checks and dumps -/

theorem gbaLive_same_iff (h : List Byte) (g : GbaSession) : gbaLive h g = .same ↔ GbaStill h g := by
  unfold gbaLive GbaStill
  by_cases ok : gbaChecksumOk h = true
  · by_cases same : gbaTitle h = g.title ∧ gbaCode h = g.code ∧ gbaMaker h = g.maker
    · simp [ok, same]
    · have changed : gbaTitle h ≠ g.title ∨ gbaCode h ≠ g.code ∨ gbaMaker h ≠ g.maker := by
        simpa only [not_and_or] using same
      simp [ok, same, changed]
  · simp [ok]

theorem gbaRecheck_still (still : GbaStill (gbaCheckRead s.bus).1 s.gba) :
    gbaRecheck s = (1, { s with bus := (gbaCheckRead s.bus).2 }) := by
  unfold gbaRecheck
  generalize gbaCheckRead s.bus = r at still ⊢
  exact if_pos ((gbaLive_same_iff _ _).2 still)

theorem gbaRecheck_gone (gone : ¬ GbaStill (gbaCheckRead s.bus).1 s.gba) :
    gbaRecheck s = (0, { s with bus := (gbaCheckRead s.bus).2, gba := .empty }) := by
  unfold gbaRecheck
  generalize gbaCheckRead s.bus = r at gone ⊢
  exact if_neg fun same => gone ((gbaLive_same_iff _ _).1 same)

theorem exec_gbaIsloaded (ready : ReadyGba s) (loaded : s.gba.loaded = true) :
    exec .gbaIsloaded s = .next (finish (gbaRecheck s).1 (gbaRecheck s).2) := by
  refine execGbaIsloaded_eq.trans ?_
  rw [needInit_ok ready.ready.init, gbaIsLoaded, if_neg (by simp [loaded]), gbaPowerReady_ok ready]
  generalize gbaRecheck s = r
  rfl

theorem exec_gbaIsloaded_empty (init : s.spiReady = true) (empty : s.gba.loaded = false) :
    exec .gbaIsloaded s = .next (finish 0 s) := by
  refine execGbaIsloaded_eq.trans ?_
  rw [needInit_ok init, gbaIsLoaded, if_pos empty]
  rfl

/-- Settles O43: the header read again, and the session kept or cleared by what it shows. -/
theorem gbaIsLoadedRechecks : Obligations.GbaIsLoadedRechecks := by
  refine ⟨fun s ready loaded => ?_, fun s init empty => done_nothing (exec_gbaIsloaded_empty init empty)⟩
  obtain ⟨vs, long, bytes, run⟩ := gbaCheckRead_run s.bus
  have eq := exec_gbaIsloaded ready loaded
  have still := gbaRecheck_still (s := s)
  have gone := gbaRecheck_gone (s := s)
  rw [bytes] at still gone
  generalize gbaCheckRead s.bus = r at run still gone
  have run := run.tick (r.2.tick + 1)
  by_cases same : GbaStill (burstBytes vs) s.gba
  · rw [still same] at eq
    exact ⟨_, vs, eq, long, run.events, run.grounded, run.side, run.crdActive, run.crdChip, fun _ => done_bus 1 s _,
      fun changed => absurd same changed⟩
  · rw [gone same] at eq
    exact ⟨_, vs, eq, long, run.events, run.grounded, run.side, run.crdActive, run.crdChip,
      fun yes => absurd yes same, fun _ => done_bus 0 { s with gba := .empty } _⟩

theorem exec_gbaReadrom (ready : ReadyGba s) (loaded : s.gba.loaded = true) (ok : GbaSessionOk s.gba)
    (fits : BufferFits s.gba.romSize.toNat s) : exec .gbaReadrom s =
      .next (finish (countWord s.gba.romSize.toNat) { s with
        bus := (gbaDump s.gba.romSize.toNat s.bus).2
        hbuf := s.hbuf.writeBlock s.me.bufp.toNat (gbaDump s.gba.romSize.toNat s.bus).1 }) := by
  refine (execGbaReadrom_eq ok).trans ?_
  rw [needInit_ok ready.ready.init, gbaReadRom, if_neg (by simp [loaded]), needBuf_ok fits, gbaPowerReady_ok ready]
  rfl

theorem exec_gbaReadrom_empty (init : s.spiReady = true) (empty : s.gba.loaded = false) :
    exec .gbaReadrom s = .next (finish 0 s) := by
  have none : (gbaReadRomSteps .gbaReadrom).run s = .ok (0, s) := by
    rw [gbaReadRomSteps, run_bind_ok (run_look asGba_faithful _ _), if_pos empty, run_ret]
  refine (perform_ok (op := .gbaReadrom) (run_then_ok (v := ()) (t := s) ?_ |>.trans none)).trans (guarded_ok rfl)
  rw [run_ensure, needInit_ok init]

/-- Settles O44: one burst, stored at the buffer. -/
theorem gbaReadRomDumps : Obligations.GbaReadRomDumps := by
  refine ⟨fun s ready loaded ok fits => ?_, fun s init empty => done_nothing (exec_gbaReadrom_empty init empty)⟩
  obtain ⟨vs, long, bytes, run⟩ := gbaDump_run s.gba.romSize.toNat s.bus
  have run := run.tick ((gbaDump s.gba.romSize.toNat s.bus).2.tick + 1)
  have eq := exec_gbaReadrom ready loaded ok fits
  rw [countWord_toNat] at eq
  refine ⟨_, vs, eq, long, done_intoBuffer _ s _ _, ?_, run.grounded, run.side, run.crdActive, run.crdChip, run.events⟩
  rw [← bytes]
  exact writeBlock_stores _ _ _

/-! ## The size probe -/

/-- The probe of a header, by the first boundary that repeats it (`44_gba_rom.md` R325, R326). -/
theorem gbaProbeSize_probed (h : List Byte) (b : Bus) : ∃ probes, SizeProbed h (gbaProbeSize h b).1 probes ∧
    GbaCycles b (gbaProbeSize h b).2 ∧ (gbaProbeSize h b).2.crdActive = false ∧ (gbaProbeSize h b).2.crdChip = .ab ∧
    Adds b (gbaProbeSize h b).2 probes := by
  obtain ⟨cycles, closed, chip, w4, w8, w16, long, at4, at8, at16⟩ := gbaProbeSize_spec h b
  have long (w : List Half) (m : w ∈ [w4, w8, w16]) := long w m
  have found (size : Word) (es : List BusEvent) (adds : Adds b (gbaProbeSize h b).2 es)
      (q : if (burstBytes w4).drop 8 = h then size = 0x400000 ∧ es = burst 0x1FFFFC w4
        else if (burstBytes w8).drop 8 = h then size = 0x800000 ∧ es = burst 0x1FFFFC w4 ++ burst 0x3FFFFC w8
        else size = (if (burstBytes w16).drop 8 = h then 0x1000000 else 0x2000000) ∧
          es = burst 0x1FFFFC w4 ++ burst 0x3FFFFC w8 ++ burst 0x7FFFFC w16) (e : (gbaProbeSize h b).1 = size) :
      ∃ probes, SizeProbed h (gbaProbeSize h b).1 probes ∧ GbaCycles b (gbaProbeSize h b).2 ∧
        (gbaProbeSize h b).2.crdActive = false ∧ (gbaProbeSize h b).2.crdChip = .ab ∧
        Adds b (gbaProbeSize h b).2 probes :=
    ⟨es, ⟨w4, w8, w16, long w4 (by simp), long w8 (by simp), long w16 (by simp), e ▸ q⟩, cycles, closed, chip, adds⟩
  by_cases r4 : (burstBytes w4).drop 8 = h
  · obtain ⟨size, adds⟩ := at4 r4
    exact found _ _ adds (by rw [if_pos r4]; exact ⟨rfl, rfl⟩) size
  · by_cases r8 : (burstBytes w8).drop 8 = h
    · obtain ⟨size, adds⟩ := at8 r4 r8
      exact found _ _ adds (by rw [if_neg r4, if_pos r8]; exact ⟨rfl, rfl⟩) size
    · obtain ⟨size, adds⟩ := at16 r4 r8
      exact found _ _ adds (by rw [if_neg r4, if_neg r8]; exact ⟨rfl, rfl⟩) size

/-- The header and the probe in one power session (`44_gba_rom.md` R322, R325). -/
theorem gbaProbe_run (b : Bus) : ∃ vs probes, vs.length = 96 ∧ (gbaHeaderRead b).1 = burstBytes vs ∧
    SizeProbed (burstBytes vs) (gbaProbe b).1 probes ∧ GbaRun b (gbaProbe b).2 false .ab (burst 0 vs ++ probes) := by
  obtain ⟨cycles, -, -, vs, long, bytes, adds⟩ := gbaHeaderRead_spec b
  unfold gbaProbe
  generalize gbaHeaderRead b = r at cycles bytes adds ⊢
  obtain ⟨probes, probed, cycles', closed, chip, adds'⟩ := gbaProbeSize_probed r.1 r.2
  exact ⟨vs, probes, long, bytes, bytes ▸ probed, .of (cycles.trans cycles') closed chip (adds.append adds')⟩

theorem exec_gbaProbesize (ready : ReadyGba s) : exec .gbaProbesize s =
    .next (finish (gbaProbe s.bus).1 { s with bus := (gbaProbe s.bus).2 }) := by
  refine execGbaProbesize_eq.trans ?_
  rw [needInit_ok ready.ready.init, gbaPowerReady_ok ready]
  generalize gbaProbe s.bus = r
  rfl

/-- Settles O45: the header, then the boundaries. -/
theorem gbaProbeSizeWraps : Obligations.GbaProbeSizeWraps := by
  intro s ready
  obtain ⟨vs, probes, long, -, probed, run⟩ := gbaProbe_run s.bus
  have eq := exec_gbaProbesize ready
  generalize gbaProbe s.bus = r at probed run eq
  refine ⟨_, vs, _, probes, eq, long, done_bus _ s _, probed, ?_, run.grounded.tick _, run.side.tick _,
    run.crdActive, run.crdChip⟩
  have events := run.events
  simp only [List.append_assoc] at events ⊢
  exact events

/-! ## Classification -/

theorem outsideBand_iff (len ones tot : Nat) :
    outsideBand len ones tot = true ↔ ones * 100 > len * tot ∨ ones * 100 < (100 - len) * tot := by simp [outsideBand]

/-- The flash branch (`45_gba_save.md` R355, R365). -/
theorem classifyFlash_classified {es : List BusEvent} (adds : Adds b (classifyFlash b).2 es) :
    FlashClassified (classifyFlash b).1 es := by
  obtain ⟨-, mfr, dev, hs, adds', rfl, rfl, table, fallback⟩ := classifyFlash_spec b
  exact ⟨hs, adds.unique adds', table, fallback⟩

/-- The branches after the EEPROM probe (`45_gba_save.md` R355, R358 to R360). -/
theorem classifyParallel_classified {es : List BusEvent} (adds : Adds b (classifyParallel b).2 es) :
    ParallelClassified (classifyParallel b).1 es := by
  obtain ⟨-, wins, fs, count, long, adds', found⟩ := classifyParallel_spec b
  refine ⟨fs, wins, count, long, adds.unique adds', ?_⟩
  by_cases nothing : outsideBand 95 (popcount wins.flatten) 65536 = true
  · rw [if_pos nothing] at found
    rw [if_pos ((outsideBand_iff _ _ _).1 nothing)]
    exact found
  · rw [if_neg nothing] at found
    rw [if_neg fun outside => nothing ((outsideBand_iff _ _ _).2 outside)]
    obtain ⟨o, r1, r2, c, gs, events, written⟩ := found
    refine ⟨o, r1, r2, gs, events, ?_⟩
    by_cases sram : r1 ≠ o ∧ r2 = o
    · rw [if_pos sram] at written ⊢
      exact written
    · rw [if_neg sram] at written ⊢
      obtain ⟨adds, eq⟩ := written
      rw [eq]
      exact classifyFlash_classified adds

/-- The whole classification in its power session (`45_gba_save.md` R355 to R357, R366). -/
theorem gbaClassify_classified (b : Bus) :
    ∃ es, SaveClassified (gbaClassify b).1 es ∧ GbaRun b (gbaClassify b).2 b.crdActive b.crdChip es := by
  obtain ⟨qs, es, count, rows, run, eeprom, others⟩ := gbaClassify_run b
  refine ⟨rowsRead .k64 qs ++ es, ⟨qs, es, count, rows, rfl, ?_⟩, run⟩
  by_cases nothing : outsideBand Config.lenEeprom (popcount (rowsBytes qs)) (8 * (8 * Config.eepProbeRows)) = true
  · obtain ⟨c, adds, eq⟩ := others (if_pos nothing)
    have outside : popcount (rowsBytes qs) * 100 > 97 * 4160 ∨ popcount (rowsBytes qs) * 100 < 3 * 4160 :=
      (outsideBand_iff _ _ _).1 nothing
    rw [if_pos outside, eq]
    exact classifyParallel_classified adds
  · have inside : ¬ (popcount (rowsBytes qs) * 100 > 97 * 4160 ∨ popcount (rowsBytes qs) * 100 < 3 * 4160) :=
      fun outside => nothing ((outsideBand_iff _ _ _).2 outside)
    rw [if_neg inside]
    exact eeprom _ (if_neg nothing)

theorem exec_gbaClassify (ready : ReadyGba s) : exec .gbaClassify s =
    .next (finish (saveTypeCode (gbaClassify s.bus).1.kind) { s with bus := (gbaClassify s.bus).2 }) := by
  refine execGbaClassify_eq.trans ?_
  rw [needInit_ok ready.ready.init, gbaPowerReady_ok ready]
  generalize gbaClassify s.bus = r
  rfl

/-- Settles O47: the probes and what they find. -/
theorem classificationFollowsProbes : Obligations.ClassificationFollowsProbes := by
  intro s ready
  obtain ⟨es, found, run⟩ := gbaClassify_classified s.bus
  have eq := exec_gbaClassify ready
  generalize gbaClassify s.bus = r at found run eq
  exact ⟨_, _, es, eq, done_bus _ s _, found, run.events, run.grounded.tick _, run.side.tick _,
    run.crdActive.trans ready.ready.closed, run.crdChip⟩

/-! ## Header loads -/

theorem exec_gbaLoadhdr (ready : ReadyGba s) :
    exec .gbaLoadhdr s = .next (finish (gbaLoadHeader s).1 (gbaLoadHeader s).2) := by
  refine execGbaLoadhdr_eq.trans ?_
  rw [needInit_ok ready.ready.init, gbaPowerReady_ok ready]
  generalize gbaLoadHeader s = r
  rfl

theorem gbaLoadHeader_verified (ok : gbaChecksumOk (gbaHeaderRead s.bus).1 = true) : gbaLoadHeader s =
    (1, { s with
      bus := (gbaClassify (gbaProbe s.bus).2).2
      gba := gbaSessionOf (gbaHeaderRead s.bus).1 (gbaProbe s.bus).1 (gbaClassify (gbaProbe s.bus).2).1 }) := by
  unfold gbaLoadHeader gbaProbe
  generalize gbaHeaderRead s.bus = r at ok ⊢
  generalize gbaProbeSize r.1 r.2 = p
  generalize gbaClassify (gbaPowerDown p.2) = c
  exact if_pos ok

theorem gbaLoadHeader_unverified (bad : gbaChecksumOk (gbaHeaderRead s.bus).1 = false) : gbaLoadHeader s =
    (0, { s with bus := gbaPowerDown (gbaHeaderRead s.bus).2, gba := .empty }) := by
  unfold gbaLoadHeader
  generalize gbaHeaderRead s.bus = r at bad ⊢
  exact if_neg (by simp [bad])

/-- The two power sessions of a header that verifies, one after the other (`44_gba_rom.md` R322, R323). -/
theorem load_sessions (b : Bus) : ∃ vs probes rest, vs.length = 96 ∧ (gbaHeaderRead b).1 = burstBytes vs ∧
    SizeProbed (burstBytes vs) (gbaProbe b).1 probes ∧ SaveClassified (gbaClassify (gbaProbe b).2).1 rest ∧
    GbaRun b (gbaClassify (gbaProbe b).2).2 false .ab (burst 0 vs ++
      (probes ++ [BusEvent.power .gba false] ++ [BusEvent.power .gba true, .delay .settle] ++ rest)) := by
  obtain ⟨vs, probes, long, bytes, probed, first⟩ := gbaProbe_run b
  obtain ⟨rest, classified, second⟩ := gbaClassify_classified (gbaProbe b).2
  refine ⟨vs, probes, rest, long, bytes, probed, classified, second.grounded, first.side.trans second.side,
    second.crdActive.trans first.crdActive, second.crdChip.trans first.crdChip, ?_⟩
  have events := first.events.append second.events
  rw [first.grounded.flag] at events
  simp only [powerOn, List.append_assoc, List.cons_append, List.nil_append, if_false, Bool.false_eq_true] at events ⊢
  exact events

/-- A header whose checksum fails, and nothing else, in one power session (`44_gba_rom.md` R320). -/
theorem header_session (b : Bus) : ∃ vs, vs.length = 96 ∧ (gbaHeaderRead b).1 = burstBytes vs ∧
    GbaRun b (gbaPowerDown (gbaHeaderRead b).2) false .ab (burst 0 vs) := by
  obtain ⟨cycles, closed, chip, vs, long, bytes, adds⟩ := gbaHeaderRead_spec b
  exact ⟨vs, long, bytes, .of cycles closed chip adds⟩

/-- The clauses of a header load whose checksum fails, from what its one session gives. -/
theorem unverified_load {t : State} {c : Bus} {vs : List Half} (eq : exec .gbaLoadhdr s = .next t)
    (ended : t = finish 0 { s with bus := c, gba := .empty }) (long : vs.length = 96)
    (run : GbaRun s.bus c false .ab (burst 0 vs)) (bad : gbaChecksumOk (burstBytes vs) = false) :
    ∃ t vs es, exec .gbaLoadhdr s = .next t ∧ vs.length = 96 ∧
      Adds s.bus t.bus (powerOn .gba s.bus.pwrGba ++ burst 0 vs ++ es ++ [BusEvent.power .gba false]) ∧
      GbaGrounded t.bus ∧ GbSideKept s.bus t.bus ∧ t.bus.crdActive = false ∧ t.bus.crdChip = .ab ∧
      gbaChecksumOk (burstBytes vs) = false ∧ es = [] ∧ Done 0 { s with gba := .empty } t := by
  subst ended
  refine ⟨_, vs, [], eq, long, ?_, run.grounded.tick _, run.side.tick _, run.crdActive, run.crdChip, bad, rfl,
    done_bus 0 { s with gba := .empty } _⟩
  rw [List.append_nil]
  exact run.events

/-- Settles O42: the header alone, or the header, the probe and the classification. -/
theorem gbaLoadHeaderVerifies : Obligations.GbaLoadHeaderVerifies := by
  intro s ready
  have eq := exec_gbaLoadhdr ready
  cases ok : gbaChecksumOk (gbaHeaderRead s.bus).1 with
  | true =>
    obtain ⟨vs, probes, rest, long, bytes, probed, classified, run⟩ := load_sessions s.bus
    rw [gbaLoadHeader_verified ok, bytes] at eq
    rw [bytes] at ok
    generalize gbaClassify (gbaProbe s.bus).2 = c at classified run eq
    generalize (gbaProbe s.bus).1 = size at probed eq
    refine ⟨_, vs, _, eq, long, ?_, run.grounded.tick _, run.side.tick _, run.crdActive, run.crdChip,
      fun bad => Bool.noConfusion (ok.symm.trans bad), fun _ => ⟨size, probes, c.1, rest, rfl, probed, classified, ?_⟩⟩
    · have events := run.events
      simp only [List.append_assoc] at events ⊢
      exact events
    · exact done_bus 1 { s with gba := gbaSessionOf (burstBytes vs) size c.1 } _
  | false =>
    obtain ⟨vs, long, bytes, run⟩ := header_session s.bus
    have bad : gbaChecksumOk (burstBytes vs) = false := bytes ▸ ok
    obtain ⟨t, vs, es, eq, long, adds, grounded, side, active, chip, bad, none, done⟩ :=
      unverified_load eq (by rw [gbaLoadHeader_unverified ok]) long run bad
    exact ⟨t, vs, es, eq, long, adds, grounded, side, active, chip, fun _ => ⟨none, done⟩,
      fun yes => Bool.noConfusion (bad.symm.trans yes)⟩

end Sys2Proof.Machine
end

section
/-! PROOFS. `45_gba_save.md` R351 to R354, R384 to R392: one cycle on the save bus, and the command writes of every flash
operation. -/

namespace Sys2Proof.Machine

variable {s : State}

/-! ## Cycles -/

theorem exec_saveRd (a : Half) (ready : Ready s) : exec (.saveRd a) s =
    .next (finish ((saveRead a s.bus).1.setWidth 32) { s with bus := (saveRead a s.bus).2 }) :=
  (execSaveRd_eq a).trans (cartridgeOp_next ready)

/-- A raw operation of transactions with no value, done. -/
theorem silent_done {i : Instr} {f : Bus → Bus} {es : List BusEvent} (ready : Ready s)
    (eq : exec i s = cartridgeOp i s (silent f) fun _ => 0) (cycles : SaveCycles s.bus (f s.bus))
    (adds : Adds s.bus (f s.bus) es) :
    ∃ t, exec i s = .next t ∧ Done 0 s t ∧ SaveCycles s.bus t.bus ∧ Adds s.bus t.bus es :=
  ⟨_, eq.trans (cartridgeOp_next ready), done_bus 0 s _, cycles.tick _, adds⟩

theorem exec_saveWr (a : Half) (d : Byte) (ready : Ready s) : exec (.saveWr a d) s =
    .next (finish 0 { s with bus := saveWrite a d s.bus }) := (execSaveWr_eq a d).trans (cartridgeOp_next ready)

/-- The pins and ports that a read leaves (`45_gba_save.md` R351). -/
theorem saveRead_leaves (a : Half) (b : Bus) :
    (saveRead a b).2.pins = { b.pins with
      gbaRd := { b.pins.gbaRd with out := true }, gbaCs2 := { b.pins.gbaCs2 with out := true } } ∧
    (saveRead a b).2.exp = { b.exp with
      a := { b.exp.a with out := a.extractLsb' 0 8 }, b := { b.exp.b with out := a.extractLsb' 8 8 },
      c := { b.exp.c with dir := 0x00 } } := by
  constructor
  · simp [saveRead, setPin, getPin]
  · simp [saveRead, loByte, hiByte]

/-- The pins and ports that a write leaves (`45_gba_save.md` R352). -/
theorem saveWrite_leaves (a : Half) (d : Byte) (b : Bus) :
    (saveWrite a d b).pins = { b.pins with
      gbaWr := { b.pins.gbaWr with out := true }, gbaCs2 := { b.pins.gbaCs2 with out := true } } ∧
    (saveWrite a d b).exp = { b.exp with
      a := { b.exp.a with out := a.extractLsb' 0 8 }, b := { b.exp.b with out := a.extractLsb' 8 8 },
      c := { b.exp.c with out := d } } := by
  constructor
  · simp [saveWrite, setPin, getPin]
  · simp [saveWrite, loByte, hiByte]

/-- Settles O46: the one cycle of each operation. -/
theorem saveBusCycles : Obligations.SaveBusCycles := by
  intro a d s ready
  constructor
  · exact ⟨_, _, exec_saveRd a ready, done_bus _ s _, (saveRead_cycles a s.bus).tick _, saveRead_adds a s.bus,
      saveRead_leaves a s.bus⟩
  · exact ⟨_, exec_saveWr a d ready, done_bus 0 s _, (saveWrite_cycles a d s.bus).tick _, saveWrite_adds a d s.bus,
      saveWrite_leaves a d s.bus⟩

/-! ## Flash commands -/

/-- A sector's address is the top four bits of any address in it (`45_gba_save.md` R388). -/
theorem eraseSector_eq (a : Half) : eraseSector a = a &&& 0xF000 := by
  refine BitVec.eq_of_getLsbD_eq fun k inside => ?_
  rw [eraseSector, BitVec.getLsbD_append, BitVec.getLsbD_extractLsb', BitVec.getLsbD_and]
  interval_cases k <;> simp

theorem flashErase_adds (a : Half) (b : Bus) : Adds b (flashErase a b) [.saveW 0x5555 0xAA, .saveW 0x2AAA 0x55,
    .saveW 0x5555 0x80, .saveW 0x5555 0xAA, .saveW 0x2AAA 0x55, .saveW (a &&& 0xF000) 0x30, .delay .flashErase] := by
  rw [← eraseSector_eq]
  exact (saveWrites_delay_spec _ _ b).2

theorem flashProg128_spec (a : Half) (data : List Byte) (b : Bus) : SaveCycles b (flashProg128 a data b) ∧
    Adds b (flashProg128 a data b) ([.saveW 0x5555 0xAA, .saveW 0x2AAA 0x55, .saveW 0x5555 0xA0] ++
      (data.mapIdx fun k v => .saveW (a + BitVec.ofNat 16 k) v) ++ [.delay .flashAtmel]) := by
  obtain ⟨cycles, adds⟩ := forSaveWrites_spec (fun k => a + BitVec.ofNat 16 k) data
    (saveWrites (flashUnlock ++ [(0x5555, 0xA0)]) b)
  exact ⟨((saveWrites_cycles _ b).trans cycles).trans (delay_cycles _ _),
    ((saveWrites_adds _ b).append adds).append (delay_adds _ _)⟩

theorem exec_flashProg128 {a : Half} (aligned : a.toNat % 128 = 0) (ready : Ready s) (fits : BufferFits 128 s) :
    exec (.flashProg128 a) s = .next (finish 128 { s with
      bus := flashProg128 a (s.hbuf.readBlock s.me.bufp.toNat 128) s.bus }) := by
  refine (execFlashProg128_eq a).trans ?_
  rw [guarded_ok (by simpa [Instr.wellFormed] using aligned), needInit_ok ready.init, needBuf_ok fits,
    busReady_ok ready]
  rfl

theorem exec_flashId (ready : Ready s) : exec .flashId s =
    .next (finish ((pairOf (flashId s.bus).1.1 (flashId s.bus).1.2).setWidth 32) { s with bus := (flashId s.bus).2 }) :=
  execFlashId_eq.trans (by rw [cartridgeOp_next ready])

/-- Settles O49: each operation's writes, in the order of its steps. -/
theorem flashCommandWrites : Obligations.FlashCommandWrites := by
  intro a d bank s ready
  refine ⟨?ident, ?bank, ?erase, ?prog, fun aligned fits => ?sector⟩
  case ident =>
    obtain ⟨cycles, adds⟩ := flashId_spec s.bus
    have eq := exec_flashId ready
    generalize flashId s.bus = r at cycles adds eq
    exact ⟨_, r.1.1, r.1.2, eq, done_bus _ s _, cycles.tick _, adds⟩
  case bank =>
    exact silent_done (i := .flashBank bank) ready (execFlashBank_eq bank) (saveWrites_cycles _ s.bus)
      (saveWrites_adds _ s.bus)
  case erase =>
    exact silent_done (i := .flashErase a) ready (execFlashErase_eq a) (saveWrites_delay_spec _ _ s.bus).1
      (flashErase_adds a s.bus)
  case prog =>
    exact silent_done (i := .flashProg a d) ready (execFlashProg_eq a d) (saveWrites_delay_spec _ _ s.bus).1
      (saveWrites_delay_spec _ _ s.bus).2
  case sector =>
    obtain ⟨cycles, adds⟩ := flashProg128_spec a (s.hbuf.readBlock s.me.bufp.toNat 128) s.bus
    rw [readBlock_mapIdx] at adds
    have eq := exec_flashProg128 aligned ready fits
    generalize flashProg128 a (s.hbuf.readBlock s.me.bufp.toNat 128) s.bus = b at cycles adds eq
    exact ⟨_, eq, done_bus 128 s b, cycles.tick _, adds⟩

end Sys2Proof.Machine
end

section
/-! PROOFS. `45_gba_save.md` R396 to R403: a save read and written, by its type. -/

namespace Sys2Proof.Machine

variable {s : State} {b : Bus}

/-! ## Lists of steps -/

theorem mapIdx_congr {α β : Type} {E F : Nat → α → β} {vs : List α} (same : ∀ k, k < vs.length → ∀ v, E k v = F k v) :
    vs.mapIdx E = vs.mapIdx F := by
  refine List.ext_getElem? fun k => ?_
  rw [List.getElem?_mapIdx, List.getElem?_mapIdx]
  by_cases inside : k < vs.length
  · rw [List.getElem?_eq_getElem inside]
    exact congrArg some (same k inside _)
  · rw [List.getElem?_eq_none (Nat.le_of_not_lt inside)]
    rfl

theorem range_map_congr {β : Type} {E F : Nat → β} {n : Nat} (same : ∀ k, k < n → E k = F k) :
    (List.range n).map E = (List.range n).map F :=
  List.map_congr_left fun k m => same k (List.mem_range.1 m)

/-! ## Reading -/

/-- The events of reading byte `k` of a flash save: bank 1 is selected before byte `0x10000` (`45_gba_save.md` R396). -/
def flashReadEvents (k : Nat) (v : Byte) : List BusEvent :=
  (if k = 0x10000 then bankEvents 1 else []) ++ [.saveR (BitVec.ofNat 16 k) v]

theorem flashReadEvents_low {vs : List Byte} (short : vs.length ≤ 0x10000) :
    (vs.mapIdx flashReadEvents).flatten = saveReads 0 vs := by
  have plain : vs.mapIdx flashReadEvents = vs.mapIdx fun k v => [BusEvent.saveR (BitVec.ofNat 16 (0 + k)) v] :=
    mapIdx_congr fun k inside v => by rw [flashReadEvents, if_neg (by omega), Nat.zero_add]; rfl
  rw [plain, flatten_mapIdx_one]
  rfl

/-- Addresses of the second bank are those of the first again. -/
theorem ofNat_second_bank (k : Nat) : BitVec.ofNat 16 (k + 0x10000) = BitVec.ofNat 16 k := by
  apply BitVec.eq_of_toNat_eq
  simp

theorem flashReadEvents_high {vs : List Byte} (some : vs ≠ []) :
    (vs.mapIdx fun k v => flashReadEvents (k + 0x10000) v).flatten = bankEvents 1 ++ saveReads 0 vs := by
  cases vs with
  | nil => exact absurd rfl some
  | cons v vs =>
    have plain : (vs.mapIdx fun k v => flashReadEvents (k + 1 + 0x10000) v) =
        vs.mapIdx fun k v => [BusEvent.saveR (BitVec.ofNat 16 (0 + (k + 1))) v] :=
      mapIdx_congr fun k _ v => by rw [flashReadEvents, if_neg (by omega), ofNat_second_bank, Nat.zero_add]; rfl
    rw [List.mapIdx_cons, plain, List.flatten_cons, flatten_mapIdx_one, flashReadEvents, if_pos rfl, saveReads,
      List.mapIdx_cons, List.append_assoc]
    rfl

/-- A flash save of two banks, read (`45_gba_save.md` R396). -/
theorem flashReadEvents_both {vs : List Byte} (long : 0x10000 < vs.length) : (vs.mapIdx flashReadEvents).flatten =
    saveReads 0 (vs.take 0x10000) ++ bankEvents 1 ++ saveReads 0 (vs.drop 0x10000) := by
  have first : (vs.take 0x10000).length = 0x10000 := by rw [List.length_take]; omega
  have second : vs.drop 0x10000 ≠ [] := fun none => by
    have := congrArg List.length none
    rw [List.length_drop] at this
    simp at this
    omega
  rw [List.append_assoc, ← flashReadEvents_low (Nat.le_of_eq first), ← flashReadEvents_high second,
    ← List.flatten_append]
  conv_lhs => rw [← List.take_append_drop 0x10000 vs, List.mapIdx_append]
  rw [first]

theorem flashImageRead_spec (sz : Nat) (b : Bus) :
    Adds b (flashHome sz (gather sz flashReadAt b).2)
      (((gather sz flashReadAt b).1.mapIdx flashReadEvents).flatten ++ if 0x10000 < sz then bankEvents 0 else []) :=
  (gather_adds flashReadAt flashReadEvents (fun k b => (flashReadAt_spec k b).2) sz b).append (flashHome_spec sz _).2

/-- What reading a save of a type gives and does (`45_gba_save.md` R396). -/
def SaveRead (type : SaveType) (bytes : List Byte) (es : List BusEvent) : Prop :=
  (∀ p ∈ [(SaveType.eeprom4k, Framing.k4), (.eeprom64k, .k64)], type = p.1 →
    ∃ qs, (∀ q ∈ qs, RowBits q) ∧ bytes = rowsBytes qs ∧ es = rowsRead p.2 qs) ∧
  (type = .sram256k ∨ type = .sram512k ∨ type = .flash512k → es = saveReads 0 bytes) ∧
  (type = .flash1m → es = saveReads 0 (bytes.take 0x10000) ++ bankEvents 1 ++ saveReads 0 (bytes.drop 0x10000) ++
    bankEvents 0)

/-- The rows of an EEPROM. -/
theorem eepromRead_adds (frm : Framing) (n : Nat) (b : Bus) : ∃ qs, (∀ q ∈ qs, RowBits q) ∧
    (gather n (fun row => eepReadRow frm row) b).1.flatten = rowsBytes qs ∧
    Adds b (gather n (fun row => eepReadRow frm row) b).2 (rowsRead frm qs) := by
  obtain ⟨-, qs, -, rows, bytes, adds⟩ := eepRows_spec frm n b
  exact ⟨qs, rows, bytes, adds⟩

section image
variable {sz : Nat} (b : Bus)

theorem saveImageRead_eeprom4k : saveImageRead .eeprom4k sz b =
    ((gather (sz / 8) (fun row => eepReadRow .k4 row) b).1.flatten,
      (gather (sz / 8) (fun row => eepReadRow .k4 row) b).2) := rfl

theorem saveImageRead_eeprom64k : saveImageRead .eeprom64k sz b =
    ((gather (sz / 8) (fun row => eepReadRow .k64 row) b).1.flatten,
      (gather (sz / 8) (fun row => eepReadRow .k64 row) b).2) := rfl

theorem saveImageRead_flash {type : SaveType} (flash : type = .flash512k ∨ type = .flash1m) :
    saveImageRead type sz b = ((gather sz flashReadAt b).1, flashHome sz (gather sz flashReadAt b).2) := by
  rcases flash with rfl | rfl <;> rfl

theorem saveImageRead_sram {type : SaveType} (sram : type = .sram256k ∨ type = .sram512k) :
    saveImageRead type sz b = saveReadRange 0 sz b := by rcases sram with rfl | rfl <;> rfl

/-- Reading an image, type by type. -/
theorem saveImageRead_events {type : SaveType} (known : type ≠ .unknown) (size : sz = (saveTypeSize type).toNat) :
    ∃ es, Adds b (saveImageRead type sz b).2 es ∧ SaveRead type (saveImageRead type sz b).1 es := by
  cases type with
  | unknown => exact absurd rfl known
  | eeprom4k =>
    obtain ⟨qs, rows, bytes, adds⟩ := eepromRead_adds .k4 (sz / 8) b
    rw [saveImageRead_eeprom4k]
    refine ⟨_, adds, fun p m e => ?_, by simp, by simp⟩
    simp only [List.mem_cons, List.not_mem_nil, or_false] at m
    rcases m with rfl | rfl
    · exact ⟨qs, rows, bytes, rfl⟩
    · cases e
  | eeprom64k =>
    obtain ⟨qs, rows, bytes, adds⟩ := eepromRead_adds .k64 (sz / 8) b
    rw [saveImageRead_eeprom64k]
    refine ⟨_, adds, fun p m e => ?_, by simp, by simp⟩
    simp only [List.mem_cons, List.not_mem_nil, or_false] at m
    rcases m with rfl | rfl
    · cases e
    · exact ⟨qs, rows, bytes, rfl⟩
  | sram256k =>
    rw [saveImageRead_sram b (.inl rfl)]
    exact ⟨_, saveReadRange_adds 0 sz b, by simp, fun _ => rfl, by simp⟩
  | sram512k =>
    rw [saveImageRead_sram b (.inr rfl)]
    exact ⟨_, saveReadRange_adds 0 sz b, by simp, fun _ => rfl, by simp⟩
  | flash512k =>
    have one : sz ≤ 0x10000 := by rw [size]; decide
    have adds := flashImageRead_spec sz b
    rw [flashReadEvents_low (by rw [gather_length]; exact one), if_neg (Nat.not_lt.2 one), List.append_nil] at adds
    rw [saveImageRead_flash b (.inl rfl)]
    exact ⟨_, adds, by simp, fun _ => rfl, by simp⟩
  | flash1m =>
    have two : 0x10000 < sz := by rw [size]; decide
    have adds := flashImageRead_spec sz b
    rw [flashReadEvents_both (by rw [gather_length]; exact two), if_pos two] at adds
    rw [saveImageRead_flash b (.inr rfl)]
    exact ⟨_, adds, by simp, by simp, fun _ => rfl⟩

/-- A save read in its power session. -/
theorem gbaSaveDump_run {type : SaveType} (known : type ≠ .unknown) (size : sz = (saveTypeSize type).toNat) :
    ∃ es, (gbaSaveDump type sz b).1.length = sz ∧ SaveRead type (gbaSaveDump type sz b).1 es ∧
      GbaRun b (gbaSaveDump type sz b).2 b.crdActive b.crdChip es := by
  obtain ⟨es, adds, read⟩ := saveImageRead_events (gbaPowerUp b) known size
  have rows : sz % 8 = 0 := by rw [size]; cases type <;> decide
  have long := saveImageRead_length type sz (gbaPowerUp b) known rows
  have cycles := saveImageRead_cycles type sz (gbaPowerUp b)
  unfold gbaSaveDump
  generalize saveImageRead type sz (gbaPowerUp b) = r at adds read long cycles ⊢
  exact ⟨es, long, read, .save cycles adds⟩

end image

/-- A known save has bytes. -/
theorem saveTypeSize_pos {type : SaveType} (known : type ≠ .unknown) : 0 < (saveTypeSize type).toNat := by
  cases type with
  | unknown => exact absurd rfl known
  | eeprom4k | eeprom64k | sram256k | sram512k | flash512k | flash1m => decide

/-- The save read of a session whose save size is its type's. -/
theorem gbaReadSave_run_of_size {op : Instr} (loaded : s.gba.loaded = true) (known : s.gba.saveType ≠ .unknown)
    (size : s.gba.saveSize = saveTypeSize s.gba.saveType) (fits : BufferFits s.gba.saveSize.toNat s)
    (ready : ReadyGba s) : (gbaReadSaveSteps op).run s =
      .ok (intoBuffer s.gba.saveSize.toNat (gbaSaveDump s.gba.saveType s.gba.saveSize.toNat s.bus) s) := by
  have b : needBuf s.gba.saveSize.toNat s = .ok () := needBuf_ok fits
  have c : gbaPowerReady op s = .ok () := gbaPowerReady_ok ready
  obtain ⟨es, long, -⟩ := gbaSaveDump_run s.bus known (congrArg BitVec.toNat size)
  have some : (gbaSaveDump s.gba.saveType s.gba.saveSize.toNat s.bus).1 ≠ [] := fun none => by
    have pos := saveTypeSize_pos known
    rw [← size, ← long, none] at pos
    exact absurd pos (Nat.lt_irrefl 0)
  rw [gbaReadSaveSteps, run_bind_ok (run_look asGba_faithful _ _), if_neg (by simp [loaded, known]),
    run_then_ok (v := ()) (t := s) (by rw [run_ensure, b]),
    run_then_ok ((gbaSaveDump_fills (op := op) s.gba.saveType s.gba.saveSize.toNat (Nat.le_refl _)).run
      (gbaPowerReady_going c (needBuf_room b))), run_ret, store_count _ _ some]

theorem exec_gbaReadsave (loaded : s.gba.loaded = true) (known : s.gba.saveType ≠ .unknown)
    (size : s.gba.saveSize = saveTypeSize s.gba.saveType) (fits : BufferFits s.gba.saveSize.toNat s)
    (ready : ReadyGba s) : exec .gbaReadsave s = .next (finish (countWord s.gba.saveSize.toNat) { s with
      bus := (gbaSaveDump s.gba.saveType s.gba.saveSize.toNat s.bus).2
      hbuf := s.hbuf.writeBlock s.me.bufp.toNat (gbaSaveDump s.gba.saveType s.gba.saveSize.toNat s.bus).1 }) := by
  refine (perform_ok (op := .gbaReadsave) (run_then_ok (v := ()) (t := s) ?_ |>.trans
    (gbaReadSave_run_of_size loaded known size fits ready))).trans (guarded_ok rfl)
  rw [run_ensure, needInit_ok ready.ready.init]

theorem exec_gbaReadsave_empty (init : s.spiReady = true) (empty : s.gba.loaded = false ∨ s.gba.saveType = .unknown) :
    exec .gbaReadsave s = .next (finish 0 s) := by
  have none : (gbaReadSaveSteps .gbaReadsave).run s = .ok (0, s) := by
    rw [gbaReadSaveSteps, run_bind_ok (run_look asGba_faithful _ _), if_pos empty, run_ret]
  refine (perform_ok (op := .gbaReadsave) (run_then_ok (v := ()) (t := s) ?_ |>.trans none)).trans (guarded_ok rfl)
  rw [run_ensure, needInit_ok init]

/-- Settles O50: the image read by its type, stored at the buffer. -/
theorem gbaReadSaveByType : Obligations.GbaReadSaveByType := by
  refine ⟨fun s ready loaded known size fits => ?_, fun s init empty => done_nothing (exec_gbaReadsave_empty init empty)⟩
  obtain ⟨es, long, ⟨eeprom, plain, banked⟩, run⟩ := gbaSaveDump_run s.bus known (congrArg BitVec.toNat size)
  have eq := exec_gbaReadsave loaded known size fits ready
  rw [countWord_toNat] at eq
  generalize gbaSaveDump s.gba.saveType s.gba.saveSize.toNat s.bus = r at long eeprom plain banked run eq
  exact ⟨_, r.1, es, eq, long, done_intoBuffer _ s _ _, writeBlock_stores _ _ _, run.grounded.tick _, run.side.tick _,
    run.crdActive.trans ready.ready.closed, run.crdChip, run.events, eeprom, plain, banked⟩

/-! ## Writing -/

theorem readBlock_eq_map (m : Memory) (a n : Nat) : m.readBlock a n = (List.range n).map fun j => m.read (a + j) := by
  have each := readBlock_mapIdx m a n fun _ v => v
  rwa [mapIdx_ignore, List.map_id'] at each

/-- A row of the buffer (`45_gba_save.md` R400). -/
theorem row_of_buffer (m : Memory) (a N lo n : Nat) (inside : lo + n ≤ N) :
    slice lo n (m.readBlock a N) = (List.range n).map fun j => m.read (a + (lo + j)) := by
  rw [slice_readBlock m a N lo n inside, readBlock_eq_map]
  exact range_map_congr fun k _ => by rw [Nat.add_assoc]

/-- The writes of one Atmel sector (`45_gba_save.md` R400). -/
def atmelEvents (byte : Nat → Byte) (i : Nat) : List BusEvent :=
  (if 128 * i = 0x10000 then bankEvents 1 else []) ++ saveWriteEvents [(0x5555, 0xAA), (0x2AAA, 0x55), (0x5555, 0xA0)] ++
    ((List.range 128).map fun k => .saveW (BitVec.ofNat 16 (128 * i + k)) (byte (128 * i + k))) ++
    [BusEvent.delay .flashAtmel]

/-- The writes of one byte of any other flash, its sector erased first (`45_gba_save.md` R400). -/
def flashByteEvents (k : Nat) (v : Byte) : List BusEvent :=
  (if k = 0x10000 then bankEvents 1 else []) ++
    (if k % 4096 = 0 then
      saveWriteEvents [(0x5555, 0xAA), (0x2AAA, 0x55), (0x5555, 0x80), (0x5555, 0xAA), (0x2AAA, 0x55),
        (BitVec.ofNat 16 k, 0x30)] ++ [BusEvent.delay .flashErase]
    else []) ++
    saveWriteEvents [(0x5555, 0xAA), (0x2AAA, 0x55), (0x5555, 0xA0), (BitVec.ofNat 16 k, v)] ++
    [BusEvent.delay .flashProg]

/-- What writing a save of a type and manufacturer does, of bytes given by their place (`45_gba_save.md` R400). -/
def SaveWritten (type : SaveType) (mfr : Byte) (n : Nat) (byte : Nat → Byte) (es : List BusEvent) : Prop :=
  (∀ p ∈ [(SaveType.eeprom4k, Framing.k4), (.eeprom64k, .k64)], type = p.1 →
    es = ((List.range (n / 8)).map fun row => rowWrite p.2 row ((List.range 8).map fun j => byte (8 * row + j))).flatten) ∧
  (type = .sram256k ∨ type = .sram512k → es = (List.range n).map fun k => .saveW (BitVec.ofNat 16 k) (byte k)) ∧
  (type = .flash512k ∨ type = .flash1m → mfr = 0x1F → es = ((List.range (n / 128)).map (atmelEvents byte)).flatten ++
    if type = .flash1m then bankEvents 0 else []) ∧
  (type = .flash512k ∨ type = .flash1m → mfr ≠ 0x1F →
    es = ((List.range n).map fun k => flashByteEvents k (byte k)).flatten ++
      if type = .flash1m then bankEvents 0 else [])

section image
variable (m : Memory) (a : Nat) {sz : Nat}

/-- The rows of an EEPROM. -/
theorem eepromWrite_adds (frm : Framing) (n : Nat) (b : Bus) :
    Adds b (iter (n / 8) (fun row => eepWriteRow frm row (slice (8 * row) 8 (m.readBlock a n))) b)
      ((List.range (n / 8)).map fun row =>
        rowWrite frm row ((List.range 8).map fun j => m.read (a + (8 * row + j)))).flatten := by
  have adds := iter_adds _ _ (fun row b => (eepWriteRow_spec frm row (slice (8 * row) 8 (m.readBlock a n)) b).2) (n / 8) b
  rwa [range_map_congr fun row inside => by rw [row_of_buffer m a n (8 * row) 8 (by omega)]] at adds

theorem sramWrite_adds (n : Nat) (b : Bus) :
    Adds b (forBytes (fun k v => saveWrite (BitVec.ofNat 16 k) v) 0 (m.readBlock a n) b)
      ((List.range n).map fun k => .saveW (BitVec.ofNat 16 k) (m.read (a + k))) := by
  have adds := (forSaveWrites_spec (fun k => BitVec.ofNat 16 k) (m.readBlock a n) b).2
  rwa [readBlock_mapIdx] at adds

theorem atmelSector_events {n i : Nat} (inside : i < n / 128) :
    (if 128 * i = 0x10000 then
        saveWriteEvents [(0x5555, 0xAA), (0x2AAA, 0x55), (0x5555, 0xB0), (0x0000, 0x01)] else []) ++
      (saveWriteEvents [(0x5555, 0xAA), (0x2AAA, 0x55), (0x5555, 0xA0)] ++
        ((slice (128 * i) 128 (m.readBlock a n)).mapIdx fun k v =>
          .saveW (BitVec.ofNat 16 (128 * i) + BitVec.ofNat 16 k) v) ++ [.delay .flashAtmel]) =
      atmelEvents (fun k => m.read (a + k)) i := by
  have bytes : ((slice (128 * i) 128 (m.readBlock a n)).mapIdx fun k v =>
      BusEvent.saveW (BitVec.ofNat 16 (128 * i) + BitVec.ofNat 16 k) v) =
      (List.range 128).map fun k => .saveW (BitVec.ofNat 16 (128 * i + k)) (m.read (a + (128 * i + k))) := by
    rw [slice_readBlock_mapIdx, Nat.min_eq_left (by omega)]
    exact range_map_congr fun k _ => by rw [BitVec.ofNat_add, Nat.add_assoc]
  rw [bytes, atmelEvents, bankEvents]
  simp only [List.append_assoc]

theorem atmelWrite_adds (n : Nat) (b : Bus) :
    Adds b (flashHome n (iter (n / 128) (atmelSectorWrite (m.readBlock a n)) b))
      (((List.range (n / 128)).map (atmelEvents fun k => m.read (a + k))).flatten ++
        if 0x10000 < n then bankEvents 0 else []) := by
  have adds := iter_adds _ _ (fun i b => (atmelSectorWrite_spec (m.readBlock a n) i b).2) (n / 128) b
  rw [range_map_congr fun i inside => atmelSector_events m a inside] at adds
  exact adds.append (flashHome_spec n _).2

theorem flashWrite_adds (n : Nat) (b : Bus) :
    Adds b (flashHome n (forBytes flashByteWrite 0 (m.readBlock a n) b))
      (((List.range n).map fun k => flashByteEvents k (m.read (a + k))).flatten ++
        if 0x10000 < n then bankEvents 0 else []) := by
  have step (k : Nat) (v : Byte) (b : Bus) : Adds b (flashByteWrite k v b) (flashByteEvents k v) := by
    have adds := (flashByteWrite_spec k v b).2
    rwa [← List.append_assoc] at adds
  have adds := forBytes_adds flashByteWrite flashByteEvents step 0 (m.readBlock a n) b
  rw [readBlock_mapIdx, range_map_congr fun k _ => by rw [Nat.zero_add]] at adds
  exact adds.append (flashHome_spec n _).2

theorem saveImageWrite_eeprom4k (mfr : Byte) (b : Bus) : saveImageWrite .eeprom4k mfr (m.readBlock a sz) b =
    iter (sz / 8) (fun row => eepWriteRow .k4 row (slice (8 * row) 8 (m.readBlock a sz))) b := by
  rw [saveImageWrite, readBlock_length]
  rfl

theorem saveImageWrite_eeprom64k (mfr : Byte) (b : Bus) : saveImageWrite .eeprom64k mfr (m.readBlock a sz) b =
    iter (sz / 8) (fun row => eepWriteRow .k64 row (slice (8 * row) 8 (m.readBlock a sz))) b := by
  rw [saveImageWrite, readBlock_length]
  rfl

theorem saveImageWrite_flash {type : SaveType} (flash : type = .flash512k ∨ type = .flash1m) (mfr : Byte) (b : Bus) :
    saveImageWrite type mfr (m.readBlock a sz) b =
      if mfr = atmel then flashHome sz (iter (sz / 128) (atmelSectorWrite (m.readBlock a sz)) b)
      else flashHome sz (forBytes flashByteWrite 0 (m.readBlock a sz) b) := by
  rcases flash with rfl | rfl <;> rw [saveImageWrite, readBlock_length]

/-- Bank 0 is selected again where there are two (`45_gba_save.md` R396, R400). -/
theorem home_events {type : SaveType} (flash : type = .flash512k ∨ type = .flash1m)
    (size : sz = (saveTypeSize type).toNat) :
    (if 0x10000 < sz then bankEvents 0 else []) = if type = .flash1m then bankEvents 0 else [] := by
  rcases flash with rfl | rfl
  · have one : ¬ 0x10000 < sz := by rw [size]; decide
    rw [if_neg one, if_neg nofun]
  · have two : 0x10000 < sz := by rw [size]; decide
    rw [if_pos two, if_pos rfl]

/-- Writing a flash image, by manufacturer. -/
theorem flashImageWrite_events {type : SaveType} (flash : type = .flash512k ∨ type = .flash1m)
    (size : sz = (saveTypeSize type).toNat) (mfr : Byte) (b : Bus) : ∃ es,
    Adds b (saveImageWrite type mfr (m.readBlock a sz) b) es ∧ SaveWritten type mfr sz (fun k => m.read (a + k)) es := by
  have none : (∀ p ∈ [(SaveType.eeprom4k, Framing.k4), (.eeprom64k, .k64)], type ≠ p.1) ∧
      ¬ (type = .sram256k ∨ type = .sram512k) := by rcases flash with rfl | rfl <;> simp
  rw [saveImageWrite_flash m a flash]
  by_cases part : mfr = atmel
  · have adds := atmelWrite_adds m a sz b
    rw [home_events flash size] at adds
    rw [if_pos part]
    exact ⟨_, adds, fun p m e => absurd e (none.1 p m), fun sram => absurd sram none.2, fun _ _ => rfl,
      fun _ other => absurd part other⟩
  · have adds := flashWrite_adds m a sz b
    rw [home_events flash size] at adds
    rw [if_neg part]
    exact ⟨_, adds, fun p m e => absurd e (none.1 p m), fun sram => absurd sram none.2,
      fun _ same => absurd same part, fun _ _ => rfl⟩

/-- Writing an image, type by type. -/
theorem saveImageWrite_events {type : SaveType} (known : type ≠ .unknown) (size : sz = (saveTypeSize type).toNat)
    (mfr : Byte) (b : Bus) : ∃ es,
    Adds b (saveImageWrite type mfr (m.readBlock a sz) b) es ∧ SaveWritten type mfr sz (fun k => m.read (a + k)) es := by
  cases type with
  | unknown => exact absurd rfl known
  | eeprom4k =>
    rw [saveImageWrite_eeprom4k]
    refine ⟨_, eepromWrite_adds m a .k4 sz b, fun p mem e => ?_, by simp, by simp, by simp⟩
    simp only [List.mem_cons, List.not_mem_nil, or_false] at mem
    rcases mem with rfl | rfl
    · rfl
    · cases e
  | eeprom64k =>
    rw [saveImageWrite_eeprom64k]
    refine ⟨_, eepromWrite_adds m a .k64 sz b, fun p mem e => ?_, by simp, by simp, by simp⟩
    simp only [List.mem_cons, List.not_mem_nil, or_false] at mem
    rcases mem with rfl | rfl
    · cases e
    · rfl
  | sram256k => exact ⟨_, sramWrite_adds m a sz b, by simp, fun _ => rfl, by simp, by simp⟩
  | sram512k => exact ⟨_, sramWrite_adds m a sz b, by simp, fun _ => rfl, by simp, by simp⟩
  | flash512k => exact flashImageWrite_events m a (.inl rfl) size mfr b
  | flash1m => exact flashImageWrite_events m a (.inr rfl) size mfr b

end image

theorem exec_gbaWritesave (ready : ReadyGba s) (loaded : s.gba.loaded = true) (known : s.gba.saveType ≠ .unknown)
    (fits : BufferFits s.gba.saveSize.toNat s) : exec .gbaWritesave s =
      .next (finish (countWord s.gba.saveSize.toNat) { s with
        bus := gbaSaveStore s.gba.saveType s.gba.flashMfr
          (s.hbuf.readBlock s.me.bufp.toNat s.gba.saveSize.toNat) s.bus }) := by
  refine execGbaWritesave_eq.trans ?_
  rw [needInit_ok ready.ready.init, gbaWriteSave, if_neg (by simp [loaded, known]), needBuf_ok fits,
    gbaPowerReady_ok ready]
  rfl

theorem exec_gbaWritesave_empty (init : s.spiReady = true) (empty : s.gba.loaded = false ∨ s.gba.saveType = .unknown) :
    exec .gbaWritesave s = .next (finish 0 s) := by
  refine execGbaWritesave_eq.trans ?_
  rw [needInit_ok init, gbaWriteSave, if_pos empty]
  rfl

/-- Settles O51: the image written by its type and manufacturer. -/
theorem gbaWriteSaveByType : Obligations.GbaWriteSaveByType := by
  refine ⟨fun s ready loaded known size fits => ?_,
    fun s init empty => done_nothing (exec_gbaWritesave_empty init empty)⟩
  obtain ⟨es, adds, eeprom, sram, part, other⟩ := saveImageWrite_events s.hbuf s.me.bufp.toNat known
    (congrArg BitVec.toNat size) s.gba.flashMfr (gbaPowerUp s.bus)
  have run := GbaRun.save (saveImageWrite_cycles _ _ _ _) adds
  have eq := exec_gbaWritesave ready loaded known fits
  rw [countWord_toNat, gbaSaveStore] at eq
  generalize saveImageWrite s.gba.saveType s.gba.flashMfr _ (gbaPowerUp s.bus) = c at run eq
  exact ⟨_, es, eq, done_bus _ s _, run.grounded.tick _, run.side.tick _, run.crdActive.trans ready.ready.closed,
    run.crdChip, run.events, eeprom, sram, part, other⟩

end Sys2Proof.Machine
end

section
/-! PROOFS. `43_gb_engine.md` R260: normalised titles; R273: the restore sequence on the reference cartridge
(`20_memory.md` R100 to R104). -/

namespace Sys2Proof.Machine

/-! ## Titles -/

theorem trimUnderscores_append (t : List Byte) : ∃ n, trimUnderscores t ++ List.replicate n 0x5F = t := by
  have all : ∀ v ∈ (t.reverse.takeWhile (· == 0x5F)).reverse, v = 0x5F := fun v m => by
    simpa using List.mem_takeWhile_imp (List.mem_reverse.1 m)
  refine ⟨(t.reverse.takeWhile (· == 0x5F)).reverse.length, ?_⟩
  rw [← List.eq_replicate_of_mem all, trimUnderscores, ← List.reverse_append, List.takeWhile_append_dropWhile,
    List.reverse_reverse]

theorem trimUnderscores_getLast? (t : List Byte) : (trimUnderscores t).getLast? ≠ some 0x5F := by
  rw [trimUnderscores, List.getLast?_reverse]
  intro last
  have := List.head?_dropWhile_not (· == (0x5F : Byte)) t.reverse
  rw [last] at this
  cases this

theorem mem_of_mem_trimUnderscores {t : List Byte} {v : Byte} (m : v ∈ trimUnderscores t) : v ∈ t := by
  rw [trimUnderscores, List.mem_reverse] at m
  exact List.mem_reverse.1 ((List.dropWhile_sublist _).subset m)

/-- No byte that a title keeps is a NUL or a space. -/
theorem kept_byte {f : List Byte} {v : Byte}
    (m : v ∈ (f.filter (· != 0x00)).map fun v => if v = 0x20 then 0x5F else v) : v ≠ 0x00 ∧ v ≠ 0x20 := by
  obtain ⟨w, kept, rfl⟩ := List.mem_map.1 m
  have some : w ≠ 0x00 := by simpa using (List.mem_filter.1 kept).2
  by_cases space : w = 0x20
  · rw [if_pos space]; decide
  · rw [if_neg space]; exact ⟨some, space⟩

/-- Settles O39: what trimming leaves of the field's kept bytes. -/
theorem normalTitleShape : Obligations.NormalTitleShape := by
  intro f long
  refine ⟨trimUnderscores_append _, trimUnderscores_getLast? _, long ▸ normTitle_length f, fun v m => ?_⟩
  exact kept_byte (mem_of_mem_trimUnderscores m)

/-! ## The reference cartridge on the bus -/

/-- The powered slot holds the cartridge, and port C reads. -/
structure Plugged (c : GbCart) (b : Bus) : Prop where
  slot : b.env.gb = .ref c
  powered : b.pwrGb = true
  reads : b.exp.c.dir = 0xFF

theorem gbSlotAfter_write (c : GbCart) (a : Half) (d : Byte) :
    gbSlotAfter true (.gbW a d) (.ref c) = .ref (gbCartWrite c a d) := rfl

theorem gbWrite_slot (a : Half) (d : Byte) (b : Bus) :
    (gbWrite a d b).env.gb = gbSlotAfter b.pwrGb (.gbW a d) b.env.gb := by
  simp [gbWrite, envAfter]

theorem gbRead_slot (a : Half) (b : Bus) :
    (gbRead a b).2.env.gb = gbSlotAfter b.pwrGb (.gbR a (gbRead a b).1) b.env.gb := by
  simp [gbRead, envAfter]

theorem portMix_input {r : PortReg} (input : r.dir = 0xFF) (v : Byte) : portMix r v = v := by
  rw [portMix, input]
  have allOnes : (0xFF : Byte) = BitVec.allOnes 8 := rfl
  rw [allOnes, BitVec.not_allOnes, BitVec.and_zero, BitVec.zero_or, BitVec.and_allOnes]

theorem Plugged.write {c : GbCart} {b : Bus} (h : Plugged c b) (a : Half) (d : Byte) :
    Plugged (gbCartWrite c a d) (gbWrite a d b) where
  slot := by rw [gbWrite_slot, h.slot, h.powered, gbSlotAfter_write]
  powered := (gbWrite_cycles a d b).pwrGb.trans h.powered
  reads := by rw [(gbWrite_leaves a d b).2.2.2]

/-- The cartridge after register writes, in order. -/
def gbCartWrites (ws : List (Half × Byte)) (c : GbCart) : GbCart := ws.foldl (fun c w => gbCartWrite c w.1 w.2) c

theorem Plugged.writes {c : GbCart} {b : Bus} (h : Plugged c b) (ws : List (Half × Byte)) :
    Plugged (gbCartWrites ws c) (gbWrites ws b) := by
  induction ws generalizing c b with
  | nil => exact h
  | cons w ws ih => exact ih (h.write w.1 w.2)

theorem Plugged.bank {c : GbCart} {b : Bus} (h : Plugged c b) (m : Mbc) (i : BitVec 9) :
    Plugged (gbCartWrites (romBankWrites m i) c) (gbRomBank m i b) := { h.writes (romBankWrites m i) with }

theorem Plugged.tick {c : GbCart} {b : Bus} (h : Plugged c b) (n : Nat) : Plugged c { b with tick := n } := { h with }

/-- A read gives the cartridge's byte and leaves it as it is. -/
theorem Plugged.read {c : GbCart} {b : Bus} (h : Plugged c b) (a : Half) :
    (gbRead a b).1 = gbCartRead c a ∧ (gbRead a b).2.env.gb = .ref c := by
  constructor
  · have heard (b' : Bus) (env : b'.env = b.env) (power : b'.pwrGb = b.pwrGb) (port : b'.exp.c = b.exp.c) :
        (samplePort (.gbRead a) .c b').1 = gbCartRead c a := by
      have answered : answerValue (.gbRead a) b' = (gbCartRead c a).setWidth 16 := by
        rw [answerValue, envAnswer, gbSlotAnswer, env, power, h.slot, h.powered]
        rfl
      change portMix b'.exp.c (loByte (answerValue (.gbRead a) b')) = _
      rw [portMix_input (port ▸ h.reads), answered, loByte, BitVec.extractLsb'_setWidth_of_le (by decide), BitVec.extractLsb'_eq_self]
    exact heard _ (by simp) (by simp) (by simp)
  · rw [gbRead_slot, h.slot]
    rfl

/-! ## Its registers -/

theorem gbCartRegWrite_kept (c : GbCart) (a : Nat) (d : Byte) :
    (gbCartRegWrite c a d).kind = c.kind ∧ (gbCartRegWrite c a d).rom = c.rom := by
  unfold gbCartRegWrite
  split
  · exact ⟨rfl, rfl⟩
  · split_ifs <;> exact ⟨rfl, rfl⟩
  · split_ifs <;> exact ⟨rfl, rfl⟩
  · split_ifs <;> exact ⟨rfl, rfl⟩
  · split_ifs <;> exact ⟨rfl, rfl⟩

theorem gbCartWrite_kept (c : GbCart) (a : Half) (d : Byte) :
    (gbCartWrite c a d).kind = c.kind ∧ (gbCartWrite c a d).rom = c.rom := by
  unfold gbCartWrite
  dsimp only
  split
  · exact gbCartRegWrite_kept c _ d
  · split <;> exact ⟨rfl, rfl⟩

theorem gbCartWrites_kept (ws : List (Half × Byte)) (c : GbCart) :
    (gbCartWrites ws c).kind = c.kind ∧ (gbCartWrites ws c).rom = c.rom := by
  induction ws generalizing c with
  | nil => exact ⟨rfl, rfl⟩
  | cons w ws ih =>
    obtain ⟨kind, rom⟩ := ih (gbCartWrite c w.1 w.2)
    obtain ⟨kind', rom'⟩ := gbCartWrite_kept c w.1 w.2
    exact ⟨kind.trans kind', rom.trans rom'⟩

theorem gbCartWrite_reg {c : GbCart} {a : Half} (d : Byte) (low : a.toNat < 0x8000) :
    gbCartWrite c a d = gbCartRegWrite c a.toNat d := if_pos low

/-- The restore sequence maps bank 1, and puts an MBC1 in ROM mode (`43_gb_engine.md` R273). -/
theorem restore_maps_one {m : Mbc} {c : GbCart} (kind : c.kind = m) (some : m ≠ .noMbc) :
    gbCartBank (gbCartWrites (romBankWrites m 1) c) = 1 ∧
    (m = .mbc1 → (gbCartWrites (romBankWrites m 1) c).mode = false) := by
  cases m with
  | noMbc => exact absurd rfl some
  | mbc1 => simp [gbCartWrites, romBankWrites, gbCartWrite_reg, gbCartRegWrite, gbCartBank, kind]
  | mbc2 => simp [gbCartWrites, romBankWrites, gbCartWrite_reg, gbCartRegWrite, gbCartBank, kind]
  | mbc3 => simp [gbCartWrites, romBankWrites, gbCartWrite_reg, gbCartRegWrite, gbCartBank, kind]
  | mbc5 =>
    have low (x : BitVec 1) : (x ++ 1#8).extractLsb' 0 8 = 1#8 := by
      revert x
      decide
    simp [low, gbCartWrites, romBankWrites, gbCartWrite_reg, gbCartRegWrite, gbCartBank, kind]

theorem gbCartRead_window {c : GbCart} {o : Nat} (inside : o < 0x4000) :
    gbCartRead c (BitVec.ofNat 16 (0x4000 + o)) =
      imageGet c.rom (gbCartBank c % (c.rom.size / 0x4000) * 0x4000 + o) := by
  have address : (BitVec.ofNat 16 (0x4000 + o)).toNat = 0x4000 + o := by
    rw [BitVec.toNat_ofNat, Nat.mod_eq_of_lt (by omega)]
  rw [gbCartRead, address]
  rw [if_neg (by omega), if_pos (by omega), Nat.add_sub_cancel_left]

/-! ## The operations -/

theorem exec_gbRombank_inv {m : Mbc} {i : BitVec 9} {s t : State} (some : m ≠ .noMbc)
    (h : exec (.gbRombank m i) s = .next t) : t = finish 0 { s with bus := gbRomBank m i s.bus } := by
  rw [exec_gbRombank] at h
  obtain ⟨-, ⟨none, -⟩ | ⟨-, -, eq⟩⟩ := mbcOp_inv h
  · exact absurd none (romBankWrites_ne_nil i some)
  · exact eq

theorem exec_gbBusrd_inv {a : Half} {s t : State} (h : exec (.gbBusrd a) s = .next t) :
    t = finish ((gbRead a s.bus).1.setWidth 32) { s with bus := (gbRead a s.bus).2 } :=
  (cartridgeOp_inv ((execGbBusrd_eq a).symm.trans h)).2.2.2

/-- Settles O40: the cartridge's registers after both sequences, and the read that follows. -/
theorem restoreSelectsBankOne : Obligations.RestoreSelectsBankOne := by
  intro m i o c s t1 t2 t3 some kind banks inside slot powered reads run1 run2 run3
  have eq1 := exec_gbRombank_inv some run1
  have eq2 := exec_gbRombank_inv some run2
  have eq3 := exec_gbBusrd_inv run3
  have plugged : Plugged c s.bus := ⟨slot, powered, reads⟩
  have plugged1 : Plugged (gbCartWrites (romBankWrites m i) c) t1.bus := by
    rw [eq1]
    exact (plugged.bank m i).tick _
  have plugged2 : Plugged (gbCartWrites (romBankWrites m 1) (gbCartWrites (romBankWrites m i) c)) t2.bus := by
    rw [eq2]
    exact (plugged1.bank m 1).tick _
  obtain ⟨kind1, rom1⟩ := gbCartWrites_kept (romBankWrites m i) c
  obtain ⟨one, mode⟩ := restore_maps_one (c := gbCartWrites (romBankWrites m i) c) (kind1.trans kind) some
  have rom2 := ((gbCartWrites_kept (romBankWrites m 1) (gbCartWrites (romBankWrites m i) c)).2).trans rom1
  obtain ⟨value, slot3⟩ := plugged2.read (BitVec.ofNat 16 (0x4000 + o))
  subst eq3
  refine ⟨?_, fun mbc1 => ⟨_, slot3, mode mbc1⟩⟩
  simp only [finish_me]
  rw [value, gbCartRead_window inside, one, rom2, Nat.mod_eq_of_lt (by omega), Nat.one_mul]

end Sys2Proof.Machine
end

section
/-! PROOFS. Which steps of an operation can be held: the `LOCK` step alone (`40_transport_lock.md` R184), and before
it an operation has changed nothing. -/

namespace Sys2Proof.Machine

variable {α β : Type} {op : Instr}

/-- A step that is never held. -/
def Act.Free (a : Act) : Prop := ∀ s, a.run s ≠ .error .blocked

/-- Steps none of which is ever held. -/
def Prog.Free (p : Prog α) : Prop := p.Every Act.Free anyValue

/-! ## Putting free steps together -/

theorem Prog.Free.ret (v : α) : (Prog.ret v).Free := trivial

theorem Prog.Free.bind {p : Prog α} {f : α → Prog β} (h : p.Free) (g : ∀ v, (f v).Free) : (p.bind f).Free :=
  Prog.Every.bind h fun v _ => g v

theorem Prog.Free.then {p : Prog α} {q : Prog β} (h : p.Free) (g : q.Free) : (p.then q).Free := h.bind fun _ => g

theorem Prog.Free.map {p : Prog α} (h : p.Free) (f : α → β) : (p.map f).Free := h.bind fun v => .ret (f v)

theorem Prog.Free.step (kind : StepKind) (check : State → Except Fault Unit) (c : Coding α) (f : State → α × State) :
    (Prog.step kind check c f).Free := by
  refine ⟨fun s held => ?_, fun _ => trivial⟩
  simp only at held
  split at held
  · cases held
  · cases held

theorem Prog.Free.collect {f : Nat → Prog α} (h : ∀ i, (f i).Free) (i n : Nat) : (Prog.collect f i n).Free :=
  (Prog.Every.collect h i n).mono (fun _ k => k) fun _ _ => trivial

theorem Prog.Free.loop {f : Nat → Prog Unit} (h : ∀ i, (f i).Free) (i n : Nat) : (Prog.loop f i n).Free :=
  Prog.Every.loop h i n

theorem Prog.Free.nil : (Prog.steps []).Free := trivial

theorem Prog.Free.cons {p : Prog Unit} {ps : List (Prog Unit)} (h : p.Free) (k : (Prog.steps ps).Free) :
    (Prog.steps (p :: ps)).Free := h.then k

theorem Prog.Free.within {p : Prog α} (h : p.Free) : p.within.Free := Prog.Every.within h fun _ k => k

theorem Prog.Free.ite {c : Prop} [Decidable c] {p q : Prog α} (h : p.Free) (g : q.Free) : (if c then p else q).Free :=
  Prog.Every.ite (fun _ => h) fun _ => g

/-! ## Single steps -/

theorem busRead_free (kind : StepKind) (check : State → Except Fault Unit) (c : Coding α) (f : Bus → α × Bus) :
    (busRead kind check c f).Free := .step _ _ _ _

theorem busDo_free (kind : StepKind) (check : State → Except Fault Unit) (f : Bus → Bus) : (busDo kind check f).Free :=
  .step _ _ _ _

theorem delay_free (t : DelayName) : (delayStep t).Free := busDo_free _ _ _
theorem ensure_free (check : State → Except Fault Unit) : (ensure check).Free := .step _ _ _ _
theorem look_free (c : Coding α) (f : State → α) : (look c f).Free := .step _ _ _ _
theorem update_free (f : State → State) : (update f).Free := .step _ _ _ _
theorem memWrite_free (k : Nat) (bytes : List Byte) : (memWrite k bytes).Free := .step _ _ _ _
theorem memRead_free (k n : Nat) : (memRead k n).Free := .step _ _ _ _

theorem storeByte_free {k : Nat} {p : Prog Byte} (h : p.Free) : (storeByte k p).Free := h.bind fun _ => memWrite_free _ _

theorem init_free {p : Prog α} (h : p.Free) : ((ensure (needInit op)).then p).Free := (ensure_free _).then h

theorem oneStep_free (kind : StepKind) (check : State → Except Fault Unit) (c : Coding α) (f : Bus → α × Bus)
    (v : α → Word) : (oneStep op kind check c f v).Free := init_free ((busRead_free _ _ _ _).map _)

theorem oneWrite_free (kind : StepKind) (check : State → Except Fault Unit) (f : Bus → Bus) :
    (oneWrite op kind check f).Free := init_free ((busDo_free _ _ _).then (.ret _))

/-! ## Power sequences -/

theorem pin_free (f : Bus → Bus) : (pinStep op f).Free := busDo_free _ _ _
theorem frame_free (f : Bus → Bus) : (frameStep op f).Free := busDo_free _ _ _
theorem drive_free (p : Pin) (v : Bool) : (drive op p v).Free := (pin_free _).then (pin_free _)

theorem drivePower_free (p : Pin) (v : Bool) (slot : Slot) (on : Bool) : (drivePower op p v slot on).Free :=
  (pin_free _).then (pin_free _)

theorem gbDefaults_free : (gbDefaultsSteps op).Free :=
  .cons (drive_free _ _) <| .cons (drive_free _ _) <| .cons (drive_free _ _) <| .cons (frame_free _) <|
  .cons (frame_free _) <| .cons (frame_free _) <| .cons (frame_free _) <| .cons (frame_free _) .nil

theorem gbaDefaults_free : (gbaDefaultsSteps op).Free :=
  .cons (drive_free _ _) <| .cons (drive_free _ _) <| .cons (drive_free _ _) <| .cons (drive_free _ _) <|
  .cons (frame_free _) <| .cons (frame_free _) <| .cons (frame_free _) <| .cons (frame_free _) <|
  .cons (frame_free _) <| .cons (frame_free _) .nil

theorem gbPowerUp_free : (gbPowerUpSteps op).Free :=
  gbDefaults_free.then <| (look_free _ _).bind fun _ => .ite (.ret _) <|
    .cons (drivePower_free _ _ _ _) <| .cons (delay_free _) <| .cons (busDo_free _ _ _) .nil

theorem gbaPowerUp_free : (gbaPowerUpSteps op).Free :=
  gbaDefaults_free.then <| (look_free _ _).bind fun _ => .ite (.ret _) <|
    .cons (drivePower_free _ _ _ _) <| .cons (delay_free _) <| .cons (busDo_free _ _ _) .nil

theorem float_free : (floatSteps op).Free :=
  .cons (frame_free _) <| .cons (frame_free _) <| .cons (frame_free _) <| .cons (frame_free _) .nil

theorem ground_free : (groundSteps op).Free :=
  .cons (frame_free _) <| .cons (frame_free _) <| .cons (frame_free _) <| .cons (frame_free _) .nil

theorem gbPowerDown_free : (gbPowerDownSteps op).Free :=
  .cons float_free <| .cons (pin_free _) <| .cons (pin_free _) <| .cons (pin_free _) <|
  .cons (drivePower_free _ _ _ _) <| .cons ground_free <| .cons (drive_free _ _) <| .cons (drive_free _ _) <|
  .cons (drive_free _ _) .nil

theorem gbaPowerDown_free : (gbaPowerDownSteps op).Free :=
  .cons float_free <| .cons (pin_free _) <| .cons (pin_free _) <| .cons (pin_free _) <| .cons (pin_free _) <|
  .cons (drivePower_free _ _ _ _) <| .cons ground_free <| .cons (drive_free _ _) <| .cons (drive_free _ _) <|
  .cons (drive_free _ _) <| .cons (drive_free _ _) .nil

theorem gbFlagOff_free : gbFlagOffStep.Free := busDo_free _ _ _
theorem gbaFlagOff_free : gbaFlagOffStep.Free := busDo_free _ _ _

theorem withGbPower_free {body : Prog α} (h : body.Free) : (withGbPower op body).Free :=
  (ensure_free _).then <| ((gbPowerUp_free.then (h.bind fun _ => gbPowerDown_free.then (.ret _))).within).bind fun _ =>
    gbFlagOff_free.then (.ret _)

theorem withGbaPower_free {body : Prog α} (h : body.Free) : (withGbaPower op body).Free :=
  (ensure_free _).then <| ((gbaPowerUp_free.then (h.bind fun _ => gbaPowerDown_free.then (.ret _))).within).bind fun _ =>
    gbaFlagOff_free.then (.ret _)

/-! ## The GB/GBC engine -/

theorem gbRead_free (a : Half) : (gbReadStep op a).Free := busRead_free _ _ _ _
theorem gbWrite_free (a : Half) (d : Byte) : (gbWriteStep op a d).Free := busDo_free _ _ _
theorem gbReadMany_free (a n : Nat) : (gbReadMany op a n).Free := .collect (fun _ => gbRead_free _) _ _

theorem gbStore_free (off a n : Nat) : (gbStore op off a n).Free := .loop (fun _ => storeByte_free (gbRead_free _)) _ _

theorem gbFetch_free (off a n : Nat) : (gbFetch op off a n).Free :=
  .loop (fun _ => (memRead_free _ _).bind fun _ => gbWrite_free _ _) _ _

theorem gbWrites_free (ws : List (Half × Byte)) : (gbWriteSteps op ws).Free :=
  Prog.Every.steps fun p m => by
    obtain ⟨w, _, rfl⟩ := List.mem_map.mp m
    exact gbWrite_free _ _

theorem mbc_free (ws : List (Half × Byte)) (g : Mbcw → Mbcw) : (mbcSteps op ws g).Free :=
  (gbWrites_free ws).then (busDo_free _ _ _)

theorem gbJudge_free (h : List Byte) : (gbJudgeSteps h).Free := by
  unfold gbJudgeSteps
  cases gbSessionOf h (sha1Hex h) with
  | some g => exact .ret _
  | none => exact (update_free _).then (.ret _)

theorem gbLoad_free : (gbLoadSteps op).Free := by
  refine (withGbPower_free <| (gbReadMany_free 0 4).then <| (gbReadMany_free 0 1024).bind gbJudge_free).bind fun r => ?_
  cases r with
  | some g => exact (update_free _).then (.ret _)
  | none => exact .ret _

theorem gbCheck_free : (gbCheckSteps op).Free := withGbPower_free (gbReadMany_free _ _)

theorem gbIsLoaded_free : (gbIsLoadedSteps op).Free :=
  (look_free _ _).bind fun _ => .ite (.ret _) <| gbCheck_free.bind fun _ => (look_free _ _).bind fun _ =>
    .ite (.ret _) <| (update_free _).then (.ret _)

theorem gbReadRom_free : (gbReadRomSteps op).Free :=
  (look_free _ _).bind fun _ => .ite (.ret _) <| (ensure_free _).then <|
    (withGbPower_free <| (gbStore_free _ _ _).then <| .ite (gbStore_free _ _ _) <|
      (Prog.Free.loop (fun _ => (mbc_free _ _).then (gbStore_free _ _ _)) _ _).then (mbc_free _ _)).then (.ret _)

theorem gbReadSave_free : (gbReadSaveSteps op).Free :=
  (look_free _ _).bind fun _ => .ite (.ret _) <| (ensure_free _).then <|
    (withGbPower_free <| (mbc_free _ _).then <|
      (Prog.Free.loop (fun _ => (mbc_free _ _).then (gbStore_free _ _ _)) _ _).then (mbc_free _ _)).then (.ret _)

theorem gbWriteSave_free : (gbWriteSaveSteps op).Free :=
  (look_free _ _).bind fun _ => .ite (.ret _) <| (ensure_free _).then <|
    (withGbPower_free <| (mbc_free _ _).then <|
      (Prog.Free.loop (fun _ => (mbc_free _ _).then (gbFetch_free _ _ _)) _ _).then (mbc_free _ _)).then (.ret _)

/-! ## The GBA engines -/

theorem gbaLatch_free (ha : BitVec 24) : (gbaLatchStep op ha).Free := (busDo_free _ _ _).within
theorem gbaNext_free : (gbaNextStep op).Free := (busRead_free _ _ _ _).within
theorem gbaEnd_free : (gbaEndStep op).Free := busDo_free _ _ _

theorem gbaRomRead_free (ba n : Nat) : (gbaRomReadSteps op ba n).Free :=
  (gbaLatch_free _).then <|
    (Prog.Free.collect (fun _ => .ite (gbaEnd_free.then ((gbaLatch_free _).then gbaNext_free)) gbaNext_free) _ _).bind
    fun _ => gbaEnd_free.then (.ret _)

theorem gbaProbeSize_free (h : List Byte) : (gbaProbeSizeSteps op h).Free :=
  (gbaRomRead_free _ _).bind fun _ => .ite (.ret _) <| (gbaRomRead_free _ _).bind fun _ => .ite (.ret _) <|
    (gbaRomRead_free _ _).map _

theorem gbaHeader_free : (gbaHeaderSteps op).Free := gbaRomRead_free _ _

theorem gbaCheck_free : (gbaCheckSteps op).Free := withGbaPower_free (gbaRomRead_free _ _)

theorem gbaIsLoaded_free : (gbaIsLoadedSteps op).Free :=
  (look_free _ _).bind fun _ => .ite (.ret _) <| gbaCheck_free.bind fun _ => (look_free _ _).bind fun _ =>
    .ite (.ret _) <| (update_free _).then (.ret _)

theorem gbaReadRom_free : (gbaReadRomSteps op).Free :=
  (look_free _ _).bind fun _ => .ite (.ret _) <| (ensure_free _).then <|
    (withGbaPower_free <| (gbaRomRead_free _ _).bind fun _ => memWrite_free _ _).then (.ret _)

theorem saveRead_free (a : Half) : (saveReadStep op a).Free := busRead_free _ _ _ _
theorem saveWrite_free (a : Half) (d : Byte) : (saveWriteStep op a d).Free := busDo_free _ _ _
theorem saveReadMany_free (a n : Nat) : (saveReadMany op a n).Free := .collect (fun _ => saveRead_free _) _ _

theorem saveWrites_free (ws : List (Half × Byte)) : (saveWriteSteps op ws).Free :=
  Prog.Every.steps fun p m => by
    obtain ⟨w, _, rfl⟩ := List.mem_map.mp m
    exact saveWrite_free _ _

theorem eepOpen_free (request : List Bool) : (eepOpenSteps op request).Free :=
  (busDo_free _ _ _).then <| Prog.Every.steps fun p m => by
    obtain ⟨v, _, rfl⟩ := List.mem_map.mp m
    exact busDo_free _ _ _

theorem eepIn_free : (eepInStep op).Free := busRead_free _ _ _ _

theorem eepReadRow_free (frm : Framing) (row : Nat) : (eepReadRowSteps op frm row).Free :=
  (((eepOpen_free _).then <| (busDo_free _ _ _).then <| (Prog.Free.collect (fun _ => eepIn_free) 0 4).then
    (.collect (fun _ => eepIn_free) 0 64)).within).bind fun _ => (busDo_free _ _ _).then (.ret _)

theorem eepWriteRow_free (frm : Framing) (row : Nat) (data : List Byte) : (eepWriteRowSteps op frm row data).Free :=
  (((eepOpen_free _).then (busDo_free _ _ _)).within).then (delay_free _)

theorem flashId_free : (flashIdSteps op).Free :=
  (saveWrites_free _).then <| (saveRead_free _).bind fun _ => (saveRead_free _).bind fun _ =>
    (saveWrites_free _).then (.ret _)

theorem flashBank_free (bank : Bool) : (flashBankSteps op bank).Free := saveWrites_free _
theorem flashErase_free (a : Half) : (flashEraseSteps op a).Free := (saveWrites_free _).then (delay_free _)
theorem flashProg_free (a : Half) (d : Byte) : (flashProgSteps op a d).Free := (saveWrites_free _).then (delay_free _)

theorem flashProg128_free (sector : Half) (data : List Byte) : (flashProg128Steps op sector data).Free :=
  (saveWrites_free _).then <| (Prog.Every.steps fun p m => by
    obtain ⟨k, _, rfl⟩ := List.mem_mapIdx.mp m
    exact saveWrite_free _ _).then (delay_free _)

theorem classifyFlash_free : (classifyFlashSteps op).Free :=
  flashId_free.bind fun id => by
    unfold classifyFlashOf
    cases flashTable id.1 id.2 with
    | some t => exact .ret _
    | none =>
      exact ((saveReadMany_free _ _).bind fun _ => (flashBank_free _).then <|
        (saveReadMany_free _ _).bind fun _ => (flashBank_free _).then (.ret _)).map _

theorem classifyParallel_free : (classifyParallelSteps op).Free :=
  (((Prog.Free.collect (fun _ => saveReadMany_free _ _) _ _).map _).map _).bind fun _ => .ite
    (((saveRead_free _).bind fun _ => (saveWrite_free _ _).then <| (saveRead_free _).bind fun _ =>
      (saveWrite_free _ _).then <| (saveRead_free _).map _).bind fun _ => .ite
        (((saveReadMany_free _ _).bind fun _ => (saveReadMany_free _ _).map _).map _) classifyFlash_free)
    (.ret _)

theorem classify_free : (classifySteps op).Free :=
  withGbaPower_free <| ((Prog.Free.collect (fun _ => eepReadRow_free _ _) _ _).map _).bind fun e => by
    cases e with
    | some t => exact .ret _
    | none => exact classifyParallel_free

theorem gbaJudge_free (h : List Byte) : (gbaJudgeSteps op h).Free :=
  .ite ((gbaProbeSize_free h).map _) ((update_free _).then (.ret _))

theorem gbaLoad_free : (gbaLoadSteps op).Free := by
  refine (withGbaPower_free <| gbaHeader_free.bind gbaJudge_free).bind fun r => ?_
  cases r with
  | some x => exact classify_free.bind fun _ => (update_free _).then (.ret _)
  | none => exact .ret _

theorem flashTurn_free (a : Nat) : (flashTurnSteps op a).Free := .ite (flashBank_free _) (.ret _)
theorem flashHome_free (sz : Nat) : (flashHomeSteps op sz).Free := .ite (flashBank_free _) (.ret _)

theorem eepImageRead_free (t : SaveType) (sz : Nat) :
    (Prog.loop (fun row => (eepReadRowSteps op (framingFor t) row).bind fun bytes => memWrite (8 * row) bytes) 0
      (sz / 8)).Free :=
  .loop (fun _ => (eepReadRow_free _ _).bind fun _ => memWrite_free _ _) _ _

theorem sramImageRead_free (sz : Nat) :
    (Prog.loop (fun a => storeByte a (saveReadStep op (BitVec.ofNat 16 a))) 0 sz).Free :=
  .loop (fun _ => storeByte_free (saveRead_free _)) _ _

theorem flashImageRead_free (sz : Nat) :
    ((Prog.loop (fun a => (flashTurnSteps op a).then (storeByte a (saveReadStep op (BitVec.ofNat 16 a)))) 0
      sz).then (flashHomeSteps op sz)).Free :=
  (Prog.Free.loop (fun _ => (flashTurn_free _).then (storeByte_free (saveRead_free _))) _ _).then (flashHome_free _)

theorem saveImageRead_free (t : SaveType) (sz : Nat) : (saveImageReadSteps op t sz).Free := by
  cases t with
  | eeprom4k => exact eepImageRead_free _ sz
  | eeprom64k => exact eepImageRead_free _ sz
  | sram256k => exact sramImageRead_free sz
  | sram512k => exact sramImageRead_free sz
  | flash512k => exact flashImageRead_free sz
  | flash1m => exact flashImageRead_free sz
  | unknown => exact .ret _

theorem gbaReadSave_free : (gbaReadSaveSteps op).Free :=
  (look_free _ _).bind fun _ => .ite (.ret _) <| (ensure_free _).then <|
    (withGbaPower_free (saveImageRead_free _ _)).then (.ret _)

theorem flashImageWrite_free (sz : Nat) (mfr : Byte) : (flashImageWriteSteps op sz mfr).Free :=
  Prog.Free.then (.ite
    (.loop (fun _ => (flashTurn_free _).then <| (memRead_free _ _).bind fun _ => flashProg128_free _ _) _ _)
    (.loop (fun _ => (flashTurn_free _).then <| Prog.Free.then (.ite (flashErase_free _) (.ret ())) <|
      (memRead_free _ _).bind fun _ => flashProg_free _ _) _ _)) (flashHome_free _)

theorem eepImageWrite_free (t : SaveType) (sz : Nat) :
    (Prog.loop (fun row => (memRead (8 * row) 8).bind fun data => eepWriteRowSteps op (framingFor t) row data) 0
      (sz / 8)).Free :=
  .loop (fun _ => (memRead_free _ _).bind fun _ => eepWriteRow_free _ _ _) _ _

theorem sramImageWrite_free (sz : Nat) :
    (Prog.loop (fun a => (memRead a 1).bind fun v => saveWriteStep op (BitVec.ofNat 16 a) (v.headD 0)) 0 sz).Free :=
  .loop (fun _ => (memRead_free _ _).bind fun _ => saveWrite_free _ _) _ _

theorem saveImageWrite_free (t : SaveType) (sz : Nat) : (saveImageWriteSteps op t sz).Free := by
  cases t with
  | eeprom4k => exact eepImageWrite_free _ sz
  | eeprom64k => exact eepImageWrite_free _ sz
  | sram256k => exact sramImageWrite_free sz
  | sram512k => exact sramImageWrite_free sz
  | flash512k => exact (look_free _ _).bind fun _ => flashImageWrite_free _ _
  | flash1m => exact (look_free _ _).bind fun _ => flashImageWrite_free _ _
  | unknown => exact .ret _

theorem gbaWriteSave_free : (gbaWriteSaveSteps op).Free :=
  (look_free _ _).bind fun _ => .ite (.ret _) <| (ensure_free _).then <|
    (withGbaPower_free (saveImageWrite_free _ _)).then (.ret _)

/-! ## The dispatcher, and rows of the table by themselves -/

theorem delegate_free {p q : Prog Word} (h : p.Free) (k : q.Free) : (delegateSteps p q).Free :=
  (look_free _ _).bind fun x => by
    cases x with
    | gb => exact h
    | gba => exact k
    | none => exact .ret _

theorem gbxLoad_free : (gbxLoadSteps op).Free :=
  (busRead_free _ _ _ _).bind fun _ => .ite ((update_free _).then (gbaLoad_free.map _))
    ((update_free _).then (gbLoad_free.map _))

theorem writeAfter_free (v : Live) (clear : State → State) {w : Prog Word} (h : w.Free) :
    (writeAfterSteps v clear w).Free := by
  cases v with
  | absent => exact (update_free _).then (.ret _)
  | changed => exact (update_free _).then (.ret _)
  | same => exact h

theorem gbxWrite_free : (gbxWriteSteps op).Free :=
  (look_free _ _).bind fun x => by
    cases x with
    | none => exact .ret _
    | gb => exact gbCheck_free.bind fun _ => (look_free _ _).bind fun _ => writeAfter_free _ _ gbWriteSave_free
    | gba => exact gbaCheck_free.bind fun _ => (look_free _ _).bind fun _ => writeAfter_free _ _ gbaWriteSave_free

theorem text_free (f : State → Option (List Byte)) : (textSteps f).Free :=
  (look_free _ _).bind fun t => by
    cases t with
    | none => exact .ret _
    | some t => exact (ensure_free _).then <| (memWrite_free _ _).then (.ret _)

theorem frames_free (bytes : List Byte) : (frameSteps op bytes).Free :=
  init_free <| (busRead_free _ _ _ _).bind fun _ => (update_free _).then (.ret _)

theorem request_free (frm : Framing) (row : Nat) : (requestSteps op frm row).Free :=
  init_free <| (eepReadRow_free _ _).bind fun _ => (update_free _).then (.ret _)

theorem storeRequest_free (frm : Framing) (row : Nat) (data : BitVec 64) : (storeRequestSteps op frm row data).Free :=
  init_free <| (eepWriteRow_free _ _ _).then <| (update_free _).then (.ret _)

/-! ## Before the `LOCK` step nothing has changed -/

/-- Steps that can be held only while nothing has changed: a step after which none is ever held, or one that leaves
the state as it is. -/
def Prog.WaitsFirst (p : Prog α) : Prop :=
  match p with
  | .ret _ => True
  | .act a k => (∀ r, (k r).Free) ∨ (Moves Eq a ∧ ∀ r, (k r).WaitsFirst)

theorem Prog.Free.waitsFirst {p : Prog α} (h : p.Free) : p.WaitsFirst := by
  cases p with
  | ret v => trivial
  | act a k => exact .inl h.2

theorem Prog.WaitsFirst.after {p : Prog α} (h : p.WaitsFirst) (done : List Reply) : (p.after done).WaitsFirst := by
  induction done generalizing p with
  | nil => cases p <;> exact h
  | cons r rs ih =>
    cases p with
    | ret v => trivial
    | act a k =>
      rcases h with free | ⟨-, waits⟩
      · exact Prog.Free.waitsFirst (Prog.Every.after (free r) rs)
      · exact ih (waits r)

/-- Free steps are never held. -/
theorem Prog.Free.run_ne {p : Prog α} (h : p.Free) (s : State) : p.run s ≠ .error .blocked := by
  induction p generalizing s with
  | ret v => nofun
  | act a k ih =>
    unfold Prog.run
    cases e : a.run s with
    | ok x => exact ih x.1 (h.2 x.1) x.2
    | error x =>
      cases x with
      | blocked => exact absurd e (h.1 s)
      | fault f => nofun

/-- Steps that are held in the end have changed nothing where they paused. -/
theorem Prog.WaitsFirst.part {p : Prog α} (h : p.WaitsFirst) {n : Nat} {done done' : List Reply} {within wi : Bool}
    {kind : StepKind} {s t : State} (paused : p.part n done within s = .ok (.paused kind done' wi t))
    (held : p.run s = .error .blocked) : t = s := by
  induction p generalizing n done within s with
  | ret v => cases paused
  | act a k ih =>
    unfold Prog.part at paused
    unfold Prog.run at held
    cases n with
    | zero => cases paused; rfl
    | succ n =>
      cases e : a.run s with
      | error x => rw [e] at paused; cases paused
      | ok x =>
        obtain ⟨r, u⟩ := x
        rw [e] at paused held
        rcases h with free | ⟨still, waits⟩
        · exact absurd held ((free r).run_ne u)
        · cases still s r u e
          exact ih r (waits r) paused held

theorem ensure_then_waitsFirst (check : State → Except Fault Unit) {p : Prog α} (h : p.WaitsFirst) :
    ((ensure check).then p).WaitsFirst :=
  .inr ⟨(Prog.Every.ensure (fun _ => rfl) check).1, fun _ => h⟩

theorem lockStep_then_waitsFirst (force : Bool) (key : Word) {p : Prog α} (h : p.Free) :
    ((lockStep force key).then p).WaitsFirst := .inl fun _ => h

theorem underLock_waitsFirst {p : Prog α} (h : p.Free) : (underLock p).WaitsFirst :=
  lockStep_then_waitsFirst _ _ (h.bind fun _ => (update_free _).then (.ret _))

/-- Every operation can be held only where it has changed nothing. -/
theorem program_waitsFirst (i : Instr) : (program i).WaitsFirst := by
  cases i with
  | init hz => exact Prog.Free.waitsFirst (p := initSteps hz) (.step _ _ _ _)
  | xfer len =>
    exact (init_free <| (ensure_free _).then <| (memRead_free _ _).bind fun _ => (Prog.Free.step _ _ _ _).bind fun _ =>
      (memWrite_free _ _).then (.ret _)).waitsFirst
  | stbDir pin dir => exact (init_free ((busDo_free _ _ _).then (.ret _))).waitsFirst
  | stbWr pin level => exact (init_free ((busDo_free _ _ _).then (.ret _))).waitsFirst
  | stbRd pin => exact (init_free ((busRead_free _ _ _ _).map _)).waitsFirst
  | lock force key => exact lockStep_then_waitsFirst _ _ (.ret _)
  | unlock key => exact ((update_free _).then (.ret _)).waitsFirst
  | setbuf buf => exact ((update_free _).then (.ret _)).waitsFirst
  | expDir port mask => exact (oneWrite_free _ _ _).waitsFirst
  | expPull port mask => exact (oneWrite_free _ _ _).waitsFirst
  | expWr port val => exact (oneWrite_free _ _ _).waitsFirst
  | expRd port => exact (oneStep_free _ _ _ _ _).waitsFirst
  | expDir2 chip pair => exact (oneWrite_free _ _ _).waitsFirst
  | expPull2 chip pair => exact (oneWrite_free _ _ _).waitsFirst
  | expWr2 chip pair => exact (oneWrite_free _ _ _).waitsFirst
  | expRd2 chip => exact (oneStep_free _ _ _ _ _).waitsFirst
  | crdStart chip => exact (oneWrite_free _ _ _).waitsFirst
  | crdCont => exact (oneStep_free _ _ _ _ _).waitsFirst
  | crdEnd => exact (oneWrite_free _ _ _).waitsFirst
  | gbPwrup =>
    exact (init_free <| (ensure_free _).then <| gbPowerUp_free.within.then <| (update_free _).then (.ret _)).waitsFirst
  | gbPwrdn => exact (init_free <| gbPowerDown_free.then <| gbFlagOff_free.then (.ret _)).waitsFirst
  | gbaPwrup =>
    exact (init_free <| (ensure_free _).then <| gbaPowerUp_free.within.then <| (update_free _).then (.ret _)).waitsFirst
  | gbaPwrdn => exact (init_free <| gbaPowerDown_free.then <| gbaFlagOff_free.then (.ret _)).waitsFirst
  | gbBusrd addr => exact (init_free ((gbRead_free _).map _)).waitsFirst
  | gbBuswr addr data => exact (init_free <| (gbWrite_free _ _).then <| (update_free _).then (.ret _)).waitsFirst
  | gbRombank mbc bank => exact (init_free ((mbc_free _ _).then (.ret _))).waitsFirst
  | gbRamopen mbc => exact (init_free ((mbc_free _ _).then (.ret _))).waitsFirst
  | gbRambank mbc bank => exact (init_free ((mbc_free _ _).then (.ret _))).waitsFirst
  | gbRamclose mbc => exact (init_free ((mbc_free _ _).then (.ret _))).waitsFirst
  | gbLoadhdr => exact (init_free gbLoad_free).waitsFirst
  | gbIsloaded => exact (init_free gbIsLoaded_free).waitsFirst
  | gbReadrom => exact (init_free gbReadRom_free).waitsFirst
  | gbReadsave => exact (init_free gbReadSave_free).waitsFirst
  | gbWritesave => exact (init_free gbWriteSave_free).waitsFirst
  | gbClear => exact ((update_free _).then (.ret _)).waitsFirst
  | gbaRomrd addr len =>
    exact (init_free <| (ensure_free _).then <| (gbaRomRead_free _ _).bind fun _ =>
      (memWrite_free _ _).then (.ret _)).waitsFirst
  | gbaLoadhdr => exact (init_free gbaLoad_free).waitsFirst
  | gbaIsloaded => exact (init_free gbaIsLoaded_free).waitsFirst
  | gbaReadrom => exact (init_free gbaReadRom_free).waitsFirst
  | gbaProbesize => exact (init_free <| withGbaPower_free <| gbaHeader_free.bind gbaProbeSize_free).waitsFirst
  | gbaClear => exact ((update_free _).then (.ret _)).waitsFirst
  | gbaClassify => exact (init_free (classify_free.map _)).waitsFirst
  | eepRdrow frm row =>
    exact (init_free <| (ensure_free _).then <| (eepReadRow_free _ _).bind fun _ =>
      (memWrite_free _ _).then (.ret _)).waitsFirst
  | eepWrrow frm row =>
    exact (init_free <| (ensure_free _).then <| (memRead_free _ _).bind fun _ =>
      (eepWriteRow_free _ _ _).then (.ret _)).waitsFirst
  | saveRd addr => exact (init_free ((saveRead_free _).map _)).waitsFirst
  | saveWr addr data => exact (init_free ((saveWrite_free _ _).then (.ret _))).waitsFirst
  | flashId => exact (init_free (flashId_free.map _)).waitsFirst
  | flashBank bank => exact (init_free ((flashBank_free _).then (.ret _))).waitsFirst
  | flashErase addr => exact (init_free ((flashErase_free _).then (.ret _))).waitsFirst
  | flashProg addr data => exact (init_free ((flashProg_free _ _).then (.ret _))).waitsFirst
  | flashProg128 addr =>
    exact (init_free <| (ensure_free _).then <| (memRead_free _ _).bind fun _ =>
      (flashProg128_free _ _).then (.ret _)).waitsFirst
  | gbaReadsave => exact (init_free gbaReadSave_free).waitsFirst
  | gbaWritesave => exact (init_free gbaWriteSave_free).waitsFirst
  | gbxLoadhdr => exact ensure_then_waitsFirst _ (underLock_waitsFirst gbxLoad_free)
  | gbxIsloaded => exact ensure_then_waitsFirst _ (underLock_waitsFirst (delegate_free gbIsLoaded_free gbaIsLoaded_free))
  | gbxType => exact (look_free _ _).waitsFirst
  | gbxTitle => exact (text_free _).waitsFirst
  | gbxIdent => exact (text_free _).waitsFirst
  | gbxRomsize => exact (look_free _ _).waitsFirst
  | gbxSavesize => exact (look_free _ _).waitsFirst
  | gbxReadrom => exact ensure_then_waitsFirst _ (underLock_waitsFirst (delegate_free gbReadRom_free gbaReadRom_free))
  | gbxReadsave => exact ensure_then_waitsFirst _ (underLock_waitsFirst (delegate_free gbReadSave_free gbaReadSave_free))
  | gbxWritesave => exact ensure_then_waitsFirst _ (underLock_waitsFirst gbxWrite_free)
  | gbxTRom => exact (look_free _ _).waitsFirst
  | gbxTRdsave => exact (look_free _ _).waitsFirst
  | gbxTWrsave => exact (look_free _ _).waitsFirst
  | gbxClear => exact underLock_waitsFirst ((update_free _).then <| (update_free _).then (.ret _))
  | wireExpFrame3Wr chip reg data => exact (frames_free _).waitsFirst
  | wireExpFrame3Rd chip reg => exact (frames_free _).waitsFirst
  | wireExpFrame4Wr chip reg first second => exact (frames_free _).waitsFirst
  | wireExpFrame4Rd chip => exact (frames_free _).waitsFirst
  | wireCrdHeader chip => exact (init_free <| (busDo_free _ _ _).then <| (update_free _).then (.ret _)).waitsFirst
  | wireEepRead4k row => exact (request_free _ _).waitsFirst
  | wireEepRead64k row => exact (request_free _ _).waitsFirst
  | wireEepWrite4k row data => exact (storeRequest_free _ _ _).waitsFirst
  | wireEepWrite64k row data => exact (storeRequest_free _ _ _).waitsFirst

end Sys2Proof.Machine
end

section
/-! PROOFS. An operation stopped and taken up again (`10_state.md` R24): no step reads the sequencer or the inputs, so
the steps left do from the place of the stop what they do in one go. -/

namespace Sys2Proof.Machine

variable {α : Type} {i : Instr} {s t u : State}

/-- The outcome of a run, with another position of the sequencer and other inputs. -/
def retimed (q : Seq) (ins : List Input) : Except Stop (α × State) → Except Stop (α × State)
  | .ok (v, t) => .ok (v, retime q ins t)
  | .error e => .error e

/-- A run reads neither the sequencer nor the inputs. -/
theorem run_retime {p : Prog α} (h : p.Every (Lawful i) anyValue) (q : Seq) (ins : List Input) (s : State) :
    p.run (retime q ins s) = retimed q ins (p.run s) := by
  induction p generalizing s with
  | ret v => rfl
  | act a k ih =>
    unfold Prog.run
    rw [h.1.blind q ins s]
    cases a.run s with
    | ok x => exact ih x.1 (h.2 x.1) x.2
    | error e => rfl

/-- A retimed outcome settles as the outcome itself, where the inputs still to come are the same and a hold would be
at the same state. -/
theorem settle_retimed {q : Seq} {x : Except Stop (Word × State)} (inputs : ∀ v w, x = .ok (v, w) → w.inputs = [])
    (held : x = .error .blocked → hold i t = hold i u) : settle i t (retimed q [] x) = settle i u x := by
  cases x with
  | ok x =>
    obtain ⟨v, w⟩ := x
    have none : { w with inputs := [] } = w := by rw [← inputs v w rfl]
    change Host.Outcome.next (finish v { w with inputs := [] }) = .next (finish v w)
    rw [none]
  | error e =>
    cases e with
    | blocked => exact congrArg Host.Outcome.next (held rfl)
    | fault f => rfl

/-- The steps left after a stop, from its state at any position of the sequencer, do what the steps from before it do. -/
theorem resume_suspended {n : Nat} {mid within : Bool} {next : StepKind} {done : List Reply} (wf : i.wellFormed = true)
    (quiet : u.inputs = [])
    (stopped : (rest i u).part n (stepsDone u.me.seq) (busyAgent u.me) u = .ok (.paused next done within t)) :
    resume i (suspend i next done within mid t) = resume i u := by
  have lawful := (program_lawful i wf).after
  have agents : AgentsKept i u t := ((program_agents wf).after (stepsDone u.me.seq)).part AgentsKept.refl AgentsKept.trans stopped
  have inputs : t.inputs = [] := agents.inputs.trans quiet
  have whole := part_resume (rest i u) n (stepsDone u.me.seq) (busyAgent u.me) u
  rw [stopped] at whole
  obtain ⟨more, rfl, run⟩ := whole
  rw [rest, after_append] at run
  obtain ⟨q, eq⟩ : ∃ q, suspend i next (stepsDone u.me.seq ++ more) within mid t = retime q [] t :=
    ⟨(suspend i next (stepsDone u.me.seq ++ more) within mid t).me.seq, by rw [retime, ← inputs]; rfl⟩
  have left : rest i (suspend i next (stepsDone u.me.seq ++ more) within mid t) =
      (program i).after (stepsDone u.me.seq ++ more) := rfl
  have waits := ((program_waitsFirst i).after (stepsDone u.me.seq)).part stopped
  rw [resume, resume, perform, perform, left, eq, run_retime (lawful _), rest, run, guarded_ok wf,
    guarded_ok wf]
  refine settle_retimed (fun v w ends => ?_) fun held => ?_
  · exact ((((program_agents wf).after _).run AgentsKept.refl AgentsKept.trans ends).1).inputs.trans inputs
  · rw [waits (run.trans held), hold, hold, retime, quiet.symm]

/-- A step of an operation with no pause due in it takes the steps that are left of it. -/
theorem step_unpaused {r : Request} (pending : s.me.cmd = some r) (named : decodeRequest r = .ok i)
    (quiet : s.inputs = []) : step s = resume i s := by
  have first : interposed s = none := by simp [interposed, quiet]
  have due : pauseDue s = none := by simp [pauseDue, quiet]
  rw [step_of_decoded pending first named]
  cases begun : underway s.me.seq with
  | true => exact operate_begun due begun
  | false =>
    have fresh : stepsDone s.me.seq = [] := by
      cases seq : s.me.seq with
      | idle => rfl
      | held op => rfl
      | running op done busy selected => rw [seq] at begun; cases begun
    rw [operate_fresh due begun, exec_eq_perform, resume, rest, fresh, after_nil]

/-- Settles O5: the stop itself, then the steps that are left. -/
theorem pausesChangeNothing : Obligations.PausesChangeNothing := by
  intro s t n mid inputs stop begun
  have first : interposed s = none := by simp [interposed, inputs, comesFirst]
  have due : pauseDue s = some (n, mid, { s with inputs := [] }) := by simp [pauseDue, inputs]
  cases pending : s.me.cmd with
  | none =>
    rw [step_of_idle pending inputs] at stop
    cases stop
    rfl
  | some r =>
    cases named : decodeRequest r with
    | error e =>
      rw [step_of_reserved pending first named] at stop
      cases r with
      | word w => cases stop; cases begun
      | frame bytes => cases stop
      | eep bits => cases stop
    | ok i =>
      rw [step_of_decoded pending first named, operate_paused due] at stop
      rcases advance_inv stop with ⟨wf, ⟨v, u, -, rfl⟩ | ⟨next, done, within, u, part, rfl⟩ | rfl⟩ | ⟨-, rfl⟩
      · cases begun
      · have agents : AgentsKept i { s with inputs := [] } u :=
          ((program_agents wf).after _).part AgentsKept.refl AgentsKept.trans part
        calc step (suspend i next done within mid u)
            = resume i (suspend i next done within mid u) :=
              step_unpaused (agents.cmd.trans pending) named agents.inputs
          _ = resume i { s with inputs := [] } := resume_suspended wf rfl part
          _ = step { s with inputs := [] } := (step_unpaused (s := { s with inputs := [] }) pending named rfl).symm
      · cases begun
      · cases begun

end Sys2Proof.Machine
end

section
/-! PROOFS. What keeps an operation from running: `spi_ready`, a race, a continuous read, a chip select forced idle
(`60_exceptions.md` R469 to R471). -/

namespace Sys2Proof.Machine

variable {i : Instr} {s : State} {e : Fault}

/-! ## `INIT` first -/

/-- Every operation but the exempt ones begins with the check of `spi_ready`. -/
theorem program_begins (needs : initExempt i = false) : ∃ p, program i = (ensure (needInit i)).then p := by
  cases i with
  | init | setbuf | lock | unlock | gbClear | gbaClear | gbxClear | gbxType | gbxTitle | gbxIdent | gbxRomsize
  | gbxSavesize | gbxTRom | gbxTRdsave | gbxTWrsave => cases needs
  | _ => exact ⟨_, rfl⟩

theorem exec_uninitialised (wf : i.wellFormed = true) (uninit : s.spiReady = false) (needs : initExempt i = false) :
    exec i s = .fault (.notInitialised i) := by
  obtain ⟨p, begins⟩ := program_begins needs
  have missing : needInit i s = .error (.notInitialised i) := by simp [needInit, uninit]
  rw [exec_eq_perform, begins, perform_ensure, missing, guarded_ok wf]

theorem needBuf_ne (n : Nat) (op : Instr) : needBuf n s ≠ .error (.notInitialised op) := by
  unfold needBuf
  split
  · nofun
  · split <;> nofun

theorem textOf_ne (text : Option (List Byte)) (op : Instr) : textOf text s ≠ .fault (.notInitialised op) := by
  cases text with
  | none => nofun
  | some t =>
    intro faults
    rw [textOf, bytesGetter] at faults
    cases check : needBuf t.length s with
    | ok u => rw [check] at faults; cases faults
    | error f =>
      rw [check] at faults
      cases faults
      exact needBuf_ne _ _ check

theorem lockHeld_ne {op op' : Instr} {f : State → Word × State} :
    lockHeld op s (fun t => .ok (f t)) ≠ .fault (.notInitialised op') := by
  unfold lockHeld
  split <;> nofun

/-- An exempt operation never faults for want of `INIT`. -/
theorem exec_exempt (wf : i.wellFormed = true) (exempt : initExempt i = true) (op : Instr) :
    exec i s ≠ .fault (.notInitialised op) := by
  cases i with
  | init hz => rw [exec_init]; nofun
  | setbuf buf => rw [exec_setbuf]; nofun
  | lock force key =>
    rw [exec_lock force (by simpa [Instr.wellFormed] using wf)]
    split <;> nofun
  | unlock key => rw [exec_unlock s (by simpa [Instr.wellFormed] using wf)]; nofun
  | gbClear => rw [exec_gbClear]; nofun
  | gbaClear => rw [exec_gbaClear]; nofun
  | gbxClear => rw [exec_gbxClear]; exact lockHeld_ne
  | gbxType => rw [exec_gbxType]; nofun
  | gbxTitle => rw [exec_gbxTitle]; exact textOf_ne _ op
  | gbxIdent => rw [exec_gbxIdent]; exact textOf_ne _ op
  | gbxRomsize => rw [exec_gbxRomsize]; nofun
  | gbxSavesize => rw [exec_gbxSavesize]; nofun
  | gbxTRom => rw [exec_gbxTRom]; nofun
  | gbxTRdsave => rw [exec_gbxTRdsave]; nofun
  | gbxTWrsave => rw [exec_gbxTWrsave]; nofun
  | _ => cases exempt

/-- Settles O11: the check of `spi_ready` comes first where there is one, and the exempt operations have none. -/
theorem hardwareNeedsInit : Obligations.HardwareNeedsInit := fun _ _ uninit wf =>
  ⟨exec_uninitialised wf uninit, fun exempt => exec_exempt wf exempt⟩

/-! ## What keeps the first bus step from happening -/

theorem exec_stream_blocked (con : continues i = true) (init : s.spiReady = true) (h : streamReady i s = .error e) :
    exec i s = .fault e := by
  cases i with
  | crdCont => exact execCrdCont_eq.trans (by rw [streamOp, needInit_ok init, h]; rfl)
  | crdEnd => exact execCrdEnd_eq.trans (by rw [streamOp, needInit_ok init, h]; rfl)
  | _ => cases con

theorem exec_strobe_blocked (str : strobes i = true) (wf : i.wellFormed = true) (init : s.spiReady = true)
    (h : strobeReady i s = .error e) : exec i s = .fault e := by
  cases i with
  | stbDir p d => exact (execStbDir_eq p d).trans (by rw [guarded_ok wf, needInit_ok init, h]; rfl)
  | stbWr p v => exact (execStbWr_eq p v).trans (by rw [guarded_ok wf, needInit_ok init, h]; rfl)
  | stbRd p => exact (execStbRd_eq p).trans (by rw [needInit_ok init, h]; rfl)
  | _ => cases str

/-- `XFER` that comes to its exchange, with a fault there. -/
theorem exec_xfer_blocked {len : Half} (init : s.spiReady = true) (comes : ComesToBus (.xfer len) s)
    (h : xferReady (.xfer len) s = .error e) : exec (.xfer len) s = .fault e :=
  exec_xfer_fault (by simpa [Instr.wellFormed] using comes.1) init comes.2 (by rw [spiReady, h]; rfl)

/-- Settles O24: each of the three faults is the first check that fails. -/
theorem streamGuards : Obligations.StreamGuards := by
  intro i s init calm comes str
  have free : raceFree s = .ok () := raceFree_ok calm
  refine ⟨fun opened idle con => ?_, fun closed idle con => ?_, fun forced same notXfer => ?_⟩
  · by_cases xfer : ∃ len, i = .xfer len
    · obtain ⟨len, rfl⟩ := xfer
      exact exec_xfer_blocked init comes (by simp [xferReady, free, opened, bind, Except.bind])
    · exact exec_blocked i init comes str con (fun len is => xfer ⟨len, is⟩)
        (by simp [busReady, free, opened, bind, Except.bind])
  · exact exec_stream_blocked con init (by simp [streamReady, free, closed, bind, Except.bind])
  · cases con : continues i with
    | true => exact exec_stream_blocked con init (by simp [streamReady, free, same, con, forced, bind, Except.bind])
    | false =>
      exact exec_blocked i init comes str con notXfer (by simp [busReady, free, same, con, forced, bind, Except.bind])

/-! ## Races -/

/-- Any operation that comes to the bus where its agent breaks into another's session or transaction. -/
theorem exec_race (init : s.spiReady = true) (comes : ComesToBus i s) (h : raceFree s = .error e) :
    exec i s = .fault e := by
  cases str : strobes i with
  | true => exact exec_strobe_blocked str comes.1 init (strobeReady_eq.trans h)
  | false =>
    cases con : continues i with
    | true => exact exec_stream_blocked con init (by rw [streamReady, h]; rfl)
    | false =>
      by_cases xfer : ∃ len, i = .xfer len
      · obtain ⟨len, rfl⟩ := xfer
        exact exec_xfer_blocked init comes (by rw [xferReady, h]; rfl)
      · exact exec_blocked i init comes str con (fun len is => xfer ⟨len, is⟩) (race_of h)

theorem raceFree_of_intruded {o : Nat} (h : intruded s = some o) :
    raceFree s = .error (.busRace (.agent o) (.agent s.me.id)) := by rw [raceFree, h]

theorem otherOwner_other {o me : Nat} (other : o ≠ me) : otherOwner (some o) me = some o := if_neg other

theorem otherOwner_mine {owner : Option Nat} {me : Nat} (mine : owner = none ∨ owner = some me) :
    otherOwner owner me = none := by
  rcases mine with rfl | rfl
  · rfl
  · exact if_pos rfl

theorem busyAgent_iff (a : Agent) : busyAgent a = true ↔ MidTransaction a := by
  unfold busyAgent MidTransaction
  cases a.seq with
  | idle => simp
  | held op => simp
  | running op done busy selected => simp

theorem selecting_iff (a : Agent) : selecting a = true ↔ MidSelect a := by
  unfold selecting MidSelect
  cases a.seq with
  | idle => simp
  | held op => simp
  | running op done busy selected => simp

/-- The first agent that stands in the middle of a transaction. -/
theorem find_busyAgent {before behind : List Agent} {a : Agent} (none : ∀ b ∈ before, ¬ MidTransaction b)
    (mid : MidTransaction a) : (before ++ a :: behind).find? busyAgent = some a := by
  have earlier : before.find? busyAgent = .none :=
    List.find?_eq_none.mpr fun b m busy => none b m ((busyAgent_iff b).mp busy)
  rw [List.find?_append, earlier, Option.none_or, List.find?_cons_of_pos ((busyAgent_iff a).mpr mid)]

/-- GBXC has `SPI_CS0` asserted inside an open continuous read, and in the middle of a frame. -/
theorem selected_iff (s : State) : (spiCs0Asserted s || (s.me :: s.others).any selecting) = true ↔
    (s.bus.crdActive = true ∧ s.csForceIdle = false ∨ ∃ a ∈ s.me :: s.others, MidSelect a) := by
  simp only [Bool.or_eq_true, List.any_eq_true, selecting_iff, spiCs0Asserted, Bool.and_eq_true, Bool.not_eq_true']

/-- Settles O25: the owner of a power session is named first, then the first agent in the middle of a transaction; a
radio transfer is an input that comes first. -/
theorem racesFault : Obligations.RacesFault := by
  refine ⟨fun i s o init comes _ _ _ broken => exec_race init comes (raceFree_of_intruded ?_),
    fun s rest free next => ?_⟩
  · rcases broken with ⟨gb, other⟩ | ⟨mine, gba, other⟩ | ⟨mineGb, mineGba, before, a, behind, others, none, mid, rfl⟩
    · rw [intruded, gb, otherOwner_other other]; rfl
    · rw [intruded, gba, otherOwner_other other, otherOwner_mine mine]; rfl
    · rw [intruded, otherOwner_mine mineGb, otherOwner_mine mineGba, others, find_busyAgent none mid]; rfl
  · rw [step_of_idle_or_underway free rfl next]
    exact ⟨fun asserted => if_pos ((selected_iff _).mpr asserted), fun idle => if_neg (mt (selected_iff _).mp idle)⟩

end Sys2Proof.Machine
end

section
/-! PROOFS. The buffer is checked before any bus activity (`60_exceptions.md` R468, R471 (5)). -/

namespace Sys2Proof.Machine

variable {α : Type} {i op : Instr} {s : State} {e : Fault} {n : Nat}

/-! ## The check -/

theorem needBuf_unset (n : Nat) (unset : s.me.bufSet = false) : needBuf n s = .error .bufferUnset := if_pos unset

theorem needBuf_outside (isSet : s.me.bufSet = true) (outside : 4294967296 < s.me.bufp.toNat + n) :
    needBuf n s = .error (.bufferRange s.me.bufp.toNat n) := by
  rw [needBuf, if_neg (by simp [isSet]), if_neg (by simpa [Config.hbufSize] using outside)]

theorem needBuf_fails {p : Prog α} (h : needBuf n s = .error e) :
    ((ensure (needBuf n)).then p).run s = .error (.fault e) := run_then_error (by rw [run_ensure, h])

/-! ## The steps that begin with it -/

theorem gbReadRom_unfit (loaded : s.gb.loaded = true) (h : needBuf (gbDumpTotal s.gb) s = .error e) :
    (gbReadRomSteps op).run s = .error (.fault e) := by
  rw [gbReadRomSteps, run_bind_ok (run_look asGb_faithful _ _), if_neg (by simp [loaded])]
  exact needBuf_fails h

theorem gbReadSave_unfit (loaded : s.gb.loaded = true) (some : s.gb.saveSize ≠ 0)
    (h : needBuf s.gb.saveSize.toNat s = .error e) : (gbReadSaveSteps op).run s = .error (.fault e) := by
  rw [gbReadSaveSteps, run_bind_ok (run_look asGb_faithful _ _), if_neg (by simpa [loaded] using some)]
  exact needBuf_fails h

theorem gbWriteSave_unfit (loaded : s.gb.loaded = true) (some : s.gb.saveSize ≠ 0)
    (h : needBuf s.gb.saveSize.toNat s = .error e) : (gbWriteSaveSteps op).run s = .error (.fault e) := by
  rw [gbWriteSaveSteps, run_bind_ok (run_look asGb_faithful _ _), if_neg (by simpa [loaded] using some)]
  exact needBuf_fails h

theorem gbaReadRom_unfit (loaded : s.gba.loaded = true) (h : needBuf s.gba.romSize.toNat s = .error e) :
    (gbaReadRomSteps op).run s = .error (.fault e) := by
  rw [gbaReadRomSteps, run_bind_ok (run_look asGba_faithful _ _), if_neg (by simp [loaded])]
  exact needBuf_fails h

theorem gbaReadSave_unfit (loaded : s.gba.loaded = true) (known : s.gba.saveType ≠ .unknown)
    (h : needBuf s.gba.saveSize.toNat s = .error e) : (gbaReadSaveSteps op).run s = .error (.fault e) := by
  rw [gbaReadSaveSteps, run_bind_ok (run_look asGba_faithful _ _), if_neg (by simp [loaded, known])]
  exact needBuf_fails h

theorem gbaWriteSave_unfit (loaded : s.gba.loaded = true) (known : s.gba.saveType ≠ .unknown)
    (h : needBuf s.gba.saveSize.toNat s = .error e) : (gbaWriteSaveSteps op).run s = .error (.fault e) := by
  rw [gbaWriteSaveSteps, run_bind_ok (run_look asGba_faithful _ _), if_neg (by simp [loaded, known])]
  exact needBuf_fails h

/-- A delegated operation of the engine that holds the active session. -/
theorem delegate_gb_fails {p q : Prog Word} (gb : s.gb.romSize ≠ 0) (h : p.run s = .error (.fault e)) :
    (delegateSteps p q).run s = .error (.fault e) :=
  delegate_blocked (gb := True) (gba := False) ⟨fun _ => trivial, fun zero => absurd zero gb⟩ (fun _ => h) False.elim

theorem delegate_gba_fails {p q : Prog Word} (gb : s.gb.romSize = 0) (gba : s.gba.romSize ≠ 0)
    (h : q.run s = .error (.fault e)) : (delegateSteps p q).run s = .error (.fault e) :=
  delegate_blocked (gb := False) (gba := True) ⟨fun some => absurd gb some, fun _ => ⟨gba, trivial⟩⟩ False.elim fun _ => h

theorem textOf_fails {text : List Byte} (h : needBuf text.length s = .error e) : textOf (some text) s = .fault e := by
  rw [textOf, bytesGetter, h]
  rfl

/-! ## The operations -/

/-- An operation that needs `n` bytes of buffer and comes to the check (`60_exceptions.md` R471 (5)), in the words of
the obligation. -/
def ChecksBuffer (s : State) (i : Instr) (n : Nat) : Prop :=
  (s.spiReady = true ∧ (
      (∃ len, len ≠ 0 ∧ i = .xfer len ∧ n = len.toNat) ∨
      (∃ a len, (Instr.gbaRomrd a len).wellFormed = true ∧ i = .gbaRomrd a len ∧ n = len.toNat) ∨
      (∃ frm row, row.toNat < frm.rowLimit ∧ (i = .eepRdrow frm row ∨ i = .eepWrrow frm row) ∧ n = 8) ∨
      (∃ a, a.toNat % 128 = 0 ∧ i = .flashProg128 a ∧ n = 128) ∨
      (s.gb.loaded = true ∧ n = gbDumpTotal s.gb ∧
        (i = .gbReadrom ∨ (i = .gbxReadrom ∧ s.gb.romSize ≠ 0 ∧ LockFree s))) ∨
      (s.gb.loaded = true ∧ s.gb.saveSize ≠ 0 ∧ n = s.gb.saveSize.toNat ∧
        (i = .gbReadsave ∨ i = .gbWritesave ∨
          (i = .gbxReadsave ∧ s.gb.romSize ≠ 0 ∧ LockFree s))) ∨
      (s.gba.loaded = true ∧ n = s.gba.romSize.toNat ∧
        (i = .gbaReadrom ∨ (i = .gbxReadrom ∧ s.gb.romSize = 0 ∧ s.gba.romSize ≠ 0 ∧ LockFree s))) ∨
      (s.gba.loaded = true ∧ s.gba.saveType ≠ .unknown ∧ n = s.gba.saveSize.toNat ∧
        (i = .gbaReadsave ∨ i = .gbaWritesave ∨
          (i = .gbxReadsave ∧ s.gb.romSize = 0 ∧ s.gba.romSize ≠ 0 ∧ LockFree s))))) ∨
  (s.gb.romSize ≠ 0 ∧
    ((i = .gbxTitle ∧ n = s.gb.title.length) ∨ (i = .gbxIdent ∧ n = s.gb.sha1.length))) ∨
  (s.gb.romSize = 0 ∧ s.gba.romSize ≠ 0 ∧
    ((i = .gbxTitle ∧ n = s.gba.title.length) ∨ (i = .gbxIdent ∧ n = s.gba.code.length)))

/-- A check of the buffer that fails is the operation's fault. -/
theorem exec_unfit (checks : ChecksBuffer s i n) (h : needBuf n s = .error e) : exec i s = .fault e := by
  rcases checks with ⟨init, hardware⟩ | ⟨gb, ⟨rfl, rfl⟩ | ⟨rfl, rfl⟩⟩ | ⟨gb, gba, ⟨rfl, rfl⟩ | ⟨rfl, rfl⟩⟩
  · rw [exec_eq_perform]
    rcases hardware with ⟨len, nonzero, rfl, rfl⟩ | ⟨a, len, wf, rfl, rfl⟩ | ⟨frm, row, wf, rfl | rfl, rfl⟩ |
      ⟨a, aligned, rfl, rfl⟩ | ⟨loaded, rfl, rfl | ⟨rfl, gb, free⟩⟩ |
      ⟨loaded, some, rfl, rfl | rfl | ⟨rfl, gb, free⟩⟩ | ⟨loaded, rfl, rfl | ⟨rfl, gb, gba, free⟩⟩ |
      ⟨loaded, known, rfl, rfl | rfl | ⟨rfl, gb, gba, free⟩⟩
    · exact perform_init_error (by simpa [Instr.wellFormed] using nonzero) init (needBuf_fails h)
    · exact perform_init_error wf init (needBuf_fails h)
    · exact perform_init_error (by simpa [Instr.wellFormed] using wf) init (needBuf_fails h)
    · exact perform_init_error (by simpa [Instr.wellFormed] using wf) init (needBuf_fails h)
    · exact perform_init_error (by simpa [Instr.wellFormed] using aligned) init (needBuf_fails h)
    · exact perform_init_error rfl init (gbReadRom_unfit loaded h)
    · exact perform_underLock_error rfl init free (delegate_gb_fails gb (gbReadRom_unfit loaded h))
    · exact perform_init_error rfl init (gbReadSave_unfit loaded some h)
    · exact perform_init_error rfl init (gbWriteSave_unfit loaded some h)
    · exact perform_underLock_error rfl init free (delegate_gb_fails gb (gbReadSave_unfit loaded some h))
    · exact perform_init_error rfl init (gbaReadRom_unfit loaded h)
    · exact perform_underLock_error rfl init free (delegate_gba_fails gb gba (gbaReadRom_unfit loaded h))
    · exact perform_init_error rfl init (gbaReadSave_unfit loaded known h)
    · exact perform_init_error rfl init (gbaWriteSave_unfit loaded known h)
    · exact perform_underLock_error rfl init free (delegate_gba_fails gb gba (gbaReadSave_unfit loaded known h))
  · exact (exec_gbxTitle s).trans (by rw [activeTitle, active_gb gb]; exact textOf_fails h)
  · exact (exec_gbxIdent s).trans (by rw [activeIdent, active_gb gb]; exact textOf_fails h)
  · exact (exec_gbxTitle s).trans (by rw [activeTitle, active_gba gb gba]; exact textOf_fails h)
  · exact (exec_gbxIdent s).trans (by rw [activeIdent, active_gba gb gba]; exact textOf_fails h)

/-- Settles O26: unset comes first, then out of range, wherever the operation comes to its check. -/
theorem bufferChecks : Obligations.BufferChecks := fun _ _ n checks =>
  ⟨fun unset => exec_unfit checks (needBuf_unset n unset),
    fun isSet outside => exec_unfit checks (needBuf_outside isSet outside)⟩

end Sys2Proof.Machine
end

section
/-! PROOFS. What an operation returns is no negative number (`60_exceptions.md` R462): the value its steps end in,
whatever the steps before handed on, or a size of a session. -/

namespace Sys2Proof.Machine

variable {α : Type} {i op : Instr} {s : State}

/-- The value of an operation's steps from a state is no negative number. -/
def Prog.NonnegAt (p : Prog Word) (s : State) : Prop := ∀ v u, p.run s = .ok (v, u) → v.msb = false

theorem msb_of_lt {v : Word} (h : v.toNat < 2147483648) : v.msb = false := by
  rw [BitVec.msb_eq_decide]
  simpa using h

theorem countWord_msb {n : Nat} (h : n < 2147483648) : (countWord n).msb = false :=
  msb_of_lt (Nat.lt_of_le_of_lt (Nat.mod_le _ _) h)

theorem setWidth_msb {w : Nat} (v : BitVec w) (narrow : w < 32) : (v.setWidth 32).msb = false := by
  refine msb_of_lt ?_
  rw [BitVec.toNat_setWidth_of_le (Nat.le_of_lt narrow)]
  exact Nat.lt_of_lt_of_le v.isLt (Nat.pow_le_pow_right (by decide) (Nat.le_of_lt_succ narrow))

/-! ## Steps put together -/

theorem ret_nonneg {v : Word} (h : v.msb = false) (s : State) : (Prog.ret v).NonnegAt s := by
  intro w u run
  cases run
  exact h

/-- The value is that of the last steps. -/
theorem bind_nonneg {p : Prog α} {f : α → Prog Word} (h : ∀ v t, (f v).NonnegAt t) (s : State) :
    (p.bind f).NonnegAt s := by
  intro v u run
  rw [run_bind] at run
  cases first : p.run s with
  | error e => rw [first] at run; cases run
  | ok x => rw [first] at run; exact h x.1 x.2 v u run

theorem then_nonneg {p : Prog α} {q : Prog Word} (h : ∀ t, q.NonnegAt t) (s : State) : (p.then q).NonnegAt s :=
  bind_nonneg (fun _ => h) s

theorem map_nonneg {p : Prog α} {f : α → Word} (h : ∀ v, (f v).msb = false) (s : State) : (p.map f).NonnegAt s :=
  bind_nonneg (fun v => ret_nonneg (h v)) s

theorem then_ret_nonneg {p : Prog α} {v : Word} (h : v.msb = false) (s : State) : (p.then (.ret v)).NonnegAt s :=
  then_nonneg (ret_nonneg h) s

/-- A check leaves the state to the steps behind it. -/
theorem ensure_nonneg {check : State → Except Fault Unit} {p : Prog Word} (h : p.NonnegAt s) :
    ((ensure check).then p).NonnegAt s := by
  intro v u run
  cases c : check s with
  | error e => rw [run_then_error (by rw [run_ensure, c])] at run; cases run
  | ok x => rw [run_then_ok (v := ()) (t := s) (by rw [run_ensure, c])] at run; exact h v u run

/-- A state read hands on what it reads. -/
theorem look_nonneg {c : Coding α} (faithful : c.Faithful) {g : State → α} {f : α → Prog Word}
    (h : (f (g s)).NonnegAt s) : ((look c g).bind f).NonnegAt s := by
  intro v u run
  rw [run_bind_ok (run_look faithful _ _)] at run
  exact h v u run

/-- An operation under the lock gives the value of its body. -/
theorem underLock_nonneg {p : Prog Word} (h : p.NonnegAt (locked s)) : (underLock p).NonnegAt s := by
  intro v u run
  rw [underLock] at run
  cases free : lockFree Config.gbxKey s with
  | false =>
    rw [run_then_error (by rw [run_lockStep, free]; rfl)] at run
    cases run
  | true =>
    rw [run_then_ok (v := ()) (t := locked s) (by rw [run_lockStep, free]; rfl)] at run
    cases body : p.run (locked s) with
    | error e => rw [run_bind_error body] at run; cases run
    | ok x =>
      rw [run_bind_ok (v := x.1) (t := x.2) body, run_then_ok (run_update _ _)] at run
      cases run
      exact h _ _ body

theorem ite_nonneg {c : Prop} [Decidable c] {p q : Prog Word} (h : p.NonnegAt s) (g : q.NonnegAt s) :
    (if c then p else q).NonnegAt s := by
  split
  · exact h
  · exact g

/-! ## The engines -/

theorem gbKeep_nonneg (r : Option GbSession) (s : State) : (gbKeepSteps r).NonnegAt s := by
  cases r with
  | some g => exact then_ret_nonneg rfl s
  | none => exact ret_nonneg rfl s

theorem gbaKeep_nonneg (r : Option (List Byte × Word)) (s : State) : (gbaKeepSteps op r).NonnegAt s := by
  cases r with
  | some x => exact bind_nonneg (fun _ => then_ret_nonneg rfl) s
  | none => exact ret_nonneg rfl s

theorem gbIsLoaded_nonneg (s : State) : (gbIsLoadedSteps op).NonnegAt s :=
  bind_nonneg (fun _ _ => ite_nonneg (ret_nonneg rfl _) (bind_nonneg (fun _ =>
    bind_nonneg fun _ _ => ite_nonneg (ret_nonneg rfl _) (then_ret_nonneg rfl _)) _)) s

theorem gbaIsLoaded_nonneg (s : State) : (gbaIsLoadedSteps op).NonnegAt s :=
  bind_nonneg (fun _ _ => ite_nonneg (ret_nonneg rfl _) (bind_nonneg (fun _ =>
    bind_nonneg fun _ _ => ite_nonneg (ret_nonneg rfl _) (then_ret_nonneg rfl _)) _)) s

/-- A bulk operation returns the size it works on. -/
theorem bulk_nonneg {p : Prog α} {c : Prop} [Decidable c] {n m : Nat} (small : m < 2147483648) :
    (if c then .ret 0 else (ensure (needBuf n)).then (p.then (.ret (countWord m)))).NonnegAt s :=
  ite_nonneg (ret_nonneg rfl s) (ensure_nonneg (then_ret_nonneg (countWord_msb small) s))

/-- The sizes of a GB/GBC session (`10_state.md` R34, R35). -/
theorem GbSessionOk.small {g : GbSession} (ok : GbSessionOk g) :
    g.romSize.toNat ≤ 8388608 ∧ gbDumpTotal g ≤ 8388608 ∧ g.saveSize.toNat ≤ 131072 := by
  have rom : g.romSize.toNat ≤ 8388608 := by
    cases loaded : g.loaded with
    | false => rw [ok.empty loaded]; decide
    | true =>
      obtain ⟨n, small, size⟩ := ok.size loaded
      have bound : 2 ^ n ≤ 2 ^ 8 := Nat.pow_le_pow_right (by decide) small
      omega
  refine ⟨rom, ?_, ok.save⟩
  unfold gbDumpTotal
  split <;> omega

/-- The sizes of a GBA session (`10_state.md` R38, R41). -/
theorem GbaSessionOk.small {g : GbaSession} (ok : GbaSessionOk g) :
    g.romSize.toNat ≤ 33554432 ∧ g.saveSize.toNat ≤ 131072 := by
  constructor
  · cases loaded : g.loaded with
    | false => rw [ok.empty loaded]; decide
    | true => rcases ok.size loaded with size | size | size | size <;> (rw [size]; decide)
  · rw [ok.save]
    cases g.saveType <;> decide

theorem gbReadRom_nonneg (ok : GbSessionOk s.gb) : (gbReadRomSteps op).NonnegAt s :=
  look_nonneg asGb_faithful (bulk_nonneg (by have := ok.small; omega))

theorem gbReadSave_nonneg (ok : GbSessionOk s.gb) : (gbReadSaveSteps op).NonnegAt s :=
  look_nonneg asGb_faithful (bulk_nonneg (by have := ok.small; omega))

theorem gbWriteSave_nonneg (ok : GbSessionOk s.gb) : (gbWriteSaveSteps op).NonnegAt s :=
  look_nonneg asGb_faithful (bulk_nonneg (by have := ok.small; omega))

theorem gbaReadRom_nonneg (ok : GbaSessionOk s.gba) : (gbaReadRomSteps op).NonnegAt s :=
  look_nonneg asGba_faithful (bulk_nonneg (by have := ok.small; omega))

theorem gbaReadSave_nonneg (ok : GbaSessionOk s.gba) : (gbaReadSaveSteps op).NonnegAt s :=
  look_nonneg asGba_faithful (bulk_nonneg (by have := ok.small; omega))

theorem gbaWriteSave_nonneg (ok : GbaSessionOk s.gba) : (gbaWriteSaveSteps op).NonnegAt s :=
  look_nonneg asGba_faithful (bulk_nonneg (by have := ok.small; omega))

theorem probesize_nonneg (s : State) :
    (withGbaPower .gbaProbesize <| (gbaHeaderSteps .gbaProbesize).bind (gbaProbeSizeSteps .gbaProbesize)).NonnegAt s := by
  intro v u run
  have probed := (withGbaPower_lawful (op := .gbaProbesize) rfl <| gbaHeader_lawful.bind fun h _ =>
    gbaProbeSize_lawful h).mono (P' := Moves fun _ _ => True) (fun _ _ _ _ _ _ => trivial) fun _ size => size
  rcases (probed.run (fun _ => trivial) (fun _ _ => trivial) run).2 with rfl | rfl | rfl | rfl <;> rfl

/-! ## The dispatcher -/

theorem delegate_nonneg {p q : Prog Word} (h : p.NonnegAt s) (k : q.NonnegAt s) : (delegateSteps p q).NonnegAt s := by
  refine look_nonneg asPlatform_faithful ?_
  cases active s with
  | gb => exact h
  | gba => exact k
  | none => exact ret_nonneg rfl s

theorem loadedCode_msb (p : Platform) (ok : Word) : (loadedCode p ok).msb = false := by
  unfold loadedCode
  split
  · cases p <;> rfl
  · rfl

theorem gbxLoad_nonneg (s : State) : (gbxLoadSteps op).NonnegAt s :=
  bind_nonneg (fun _ _ => ite_nonneg (then_nonneg (map_nonneg (loadedCode_msb .gba)) _)
    (then_nonneg (map_nonneg (loadedCode_msb .gb)) _)) s

theorem text_nonneg {f : State → Option (List Byte)} (short : ∀ t, f s = some t → t.length < 2147483648) :
    (textSteps f).NonnegAt s := by
  refine look_nonneg asText_faithful ?_
  cases text : f s with
  | none => exact ret_nonneg rfl s
  | some t => exact ensure_nonneg (then_ret_nonneg (countWord_msb (short t text)) s)

theorem getter_nonneg {f : State → Word} (h : (f s).msb = false) : (getterSteps f).NonnegAt s := by
  intro v u run
  rw [getterSteps, run_look asWord_faithful] at run
  cases run
  exact h

theorem activeTitle_short (gb : GbSessionOk s.gb) (gba : GbaSessionOk s.gba) (t : List Byte)
    (h : activeTitle s = some t) : t.length < 2147483648 := by
  unfold activeTitle at h
  split at h
  · cases h; exact Nat.lt_of_le_of_lt gb.title (by decide)
  · cases h; rw [gba.title]; decide
  · cases h

theorem activeIdent_short (gb : GbSessionOk s.gb) (gba : GbaSessionOk s.gba) (t : List Byte)
    (h : activeIdent s = some t) : t.length < 2147483648 := by
  unfold activeIdent at h
  split at h
  · cases h
    cases loaded : s.gb.loaded with
    | false => rw [gb.empty loaded]; decide
    | true => rw [gb.sha1 loaded]; decide
  · cases h; rw [gba.code]; decide
  · cases h

theorem activeRomSize_msb (gb : GbSessionOk s.gb) (gba : GbaSessionOk s.gba) : (activeRomSize s).msb = false := by
  have := gb.small
  have := gba.small
  unfold activeRomSize
  split
  · exact msb_of_lt (by omega)
  · exact msb_of_lt (by omega)
  · rfl

theorem activeSaveSize_msb (gb : GbSessionOk s.gb) (gba : GbaSessionOk s.gba) : (activeSaveSize s).msb = false := by
  have := gb.small
  have := gba.small
  unfold activeSaveSize
  split
  · exact msb_of_lt (by omega)
  · exact msb_of_lt (by omega)
  · rfl

theorem estimate_msb (e : EstOp) (kind : EstKind) (size : Word) : (estimate e kind size).msb = false :=
  countWord_msb (Nat.lt_of_le_of_lt (Nat.min_le_left _ _) (by decide))

theorem romTime_msb (s : State) : (romTime s).msb = false := by
  unfold romTime
  split
  · rfl
  · exact estimate_msb _ _ _
  · exact estimate_msb _ _ _

theorem saveTime_msb (e : EstOp) (s : State) : (saveTime e s).msb = false := by
  unfold saveTime
  split
  · rfl
  · exact estimate_msb _ _ _

/-! ## Every operation -/

/-- Every operation but the two ends in no negative number, from a state with whole sessions. -/
theorem program_nonneg (gb : GbSessionOk s.gb) (gba : GbaSessionOk s.gba) (notInit : ∀ hz, i ≠ .init hz)
    (notWrite : i ≠ .gbxWritesave) : (program i).NonnegAt s := by
  cases i with
  | init hz => exact absurd rfl (notInit hz)
  | gbxWritesave => exact absurd rfl notWrite
  | xfer len =>
    exact then_nonneg (then_nonneg <| bind_nonneg fun _ => bind_nonneg fun _ => then_ret_nonneg
      (countWord_msb (Nat.lt_trans len.isLt (by decide)))) s
  | gbaRomrd addr len =>
    exact then_nonneg (then_nonneg <| bind_nonneg fun _ => then_ret_nonneg
      (countWord_msb (Nat.lt_trans len.isLt (by decide)))) s
  | stbDir | stbWr | expDir | expPull | expWr | expDir2 | expPull2 | expWr2 | crdStart | crdEnd | gbRombank | gbRamopen
  | gbRambank | gbRamclose | saveWr | flashBank | flashErase | flashProg =>
    exact then_nonneg (then_ret_nonneg rfl) s
  | lock | unlock | setbuf | gbClear | gbaClear => exact then_ret_nonneg rfl s
  | stbRd pin => exact then_nonneg (map_nonneg fun v => by cases v <;> rfl) s
  | expRd | expRd2 | crdCont | gbBusrd | saveRd | flashId =>
    exact then_nonneg (map_nonneg fun v => setWidth_msb _ (by decide)) s
  | gbPwrup | gbaPwrup => exact then_nonneg (then_nonneg <| then_nonneg <| then_ret_nonneg rfl) s
  | gbPwrdn | gbaPwrdn | gbBuswr | wireCrdHeader | wireEepWrite4k | wireEepWrite64k =>
    exact then_nonneg (then_nonneg <| then_ret_nonneg rfl) s
  | gbLoadhdr => exact then_nonneg (bind_nonneg gbKeep_nonneg) s
  | gbaLoadhdr => exact then_nonneg (bind_nonneg gbaKeep_nonneg) s
  | gbIsloaded => exact then_nonneg gbIsLoaded_nonneg s
  | gbaIsloaded => exact then_nonneg gbaIsLoaded_nonneg s
  | gbReadrom => exact ensure_nonneg (gbReadRom_nonneg gb)
  | gbReadsave => exact ensure_nonneg (gbReadSave_nonneg gb)
  | gbWritesave => exact ensure_nonneg (gbWriteSave_nonneg gb)
  | gbaReadrom => exact ensure_nonneg (gbaReadRom_nonneg gba)
  | gbaReadsave => exact ensure_nonneg (gbaReadSave_nonneg gba)
  | gbaWritesave => exact ensure_nonneg (gbaWriteSave_nonneg gba)
  | gbaProbesize => exact then_nonneg probesize_nonneg s
  | gbaClassify => exact then_nonneg (map_nonneg fun c => by cases c.kind <;> rfl) s
  | eepRdrow => exact then_nonneg (then_nonneg <| bind_nonneg fun _ => then_ret_nonneg rfl) s
  | eepWrrow | flashProg128 =>
    exact then_nonneg (then_nonneg <| bind_nonneg fun _ => then_ret_nonneg rfl) s
  | gbxLoadhdr => exact ensure_nonneg (underLock_nonneg (gbxLoad_nonneg _))
  | gbxIsloaded =>
    exact ensure_nonneg (underLock_nonneg (delegate_nonneg (gbIsLoaded_nonneg _) (gbaIsLoaded_nonneg _)))
  | gbxReadrom =>
    exact ensure_nonneg (underLock_nonneg (delegate_nonneg (gbReadRom_nonneg gb) (gbaReadRom_nonneg gba)))
  | gbxReadsave =>
    exact ensure_nonneg (underLock_nonneg (delegate_nonneg (gbReadSave_nonneg gb) (gbaReadSave_nonneg gba)))
  | gbxClear => exact underLock_nonneg (then_nonneg (then_ret_nonneg rfl) _)
  | gbxType => exact getter_nonneg (by cases active s <;> rfl)
  | gbxTitle => exact text_nonneg (activeTitle_short gb gba)
  | gbxIdent => exact text_nonneg (activeIdent_short gb gba)
  | gbxRomsize => exact getter_nonneg (activeRomSize_msb gb gba)
  | gbxSavesize => exact getter_nonneg (activeSaveSize_msb gb gba)
  | gbxTRom => exact getter_nonneg (romTime_msb s)
  | gbxTRdsave => exact getter_nonneg (saveTime_msb _ s)
  | gbxTWrsave => exact getter_nonneg (saveTime_msb _ s)
  | wireExpFrame3Wr | wireExpFrame3Rd | wireExpFrame4Wr | wireExpFrame4Rd | wireEepRead4k | wireEepRead64k =>
    exact then_nonneg (bind_nonneg fun _ => then_ret_nonneg rfl) s

/-- Settles O14: the result is the value that the steps end in. -/
theorem negativeResultsOnlyFromTwo : Obligations.NegativeResultsOnlyFromTwo := by
  intro i s t inv wf ran idle negative
  by_contra others
  obtain ⟨notInit, notWrite⟩ := not_or.mp others
  rcases exec_inv ran with ⟨-, ⟨v, u, run, rfl⟩ | ⟨-, rfl⟩⟩ | ⟨ill, -⟩
  · have nonneg := program_nonneg inv.gb inv.gba (fun hz is => notInit ⟨hz, is⟩) notWrite v u run
    exact Bool.noConfusion (nonneg.symm.trans negative)
  · cases idle
  · exact Bool.noConfusion (ill.symm.trans wf)

end Sys2Proof.Machine
end

section
/-! PROOFS. What the steps of an operation do to the power flags and to the continuous read (`10_state.md` R31 to R33):
one that ends where it began, or only ever turns off. -/

namespace Sys2Proof.Machine

variable {α β : Type} {op : Instr}

/-! ## Three flags, before and after -/

/-- How far a flag is held. -/
inductive Hold where
  | same
  | off
  | any

/-- A flag before and after: the same, not turned on, or anything. -/
def Hold.Holds : Hold → Bool → Bool → Prop
  | .same, old, new => new = old
  | .off, old, new => new = true → old = true
  | .any, _, _ => True

theorem Hold.holds_of_eq (h : Hold) {old new : Bool} (eq : new = old) : h.Holds old new := by
  cases h with
  | same => exact eq
  | off => exact fun on => eq.symm.trans on
  | any => trivial

theorem Hold.trans (h : Hold) {a b c : Bool} (first : h.Holds a b) (next : h.Holds b c) : h.Holds a c := by
  cases h with
  | same => exact Eq.trans next first
  | off => exact fun on => first (next on)
  | any => trivial

/-- The continuous read and the two power flags, each as far as it is held. -/
structure Held (w x y : Hold) (b c : Bus) : Prop where
  crd : w.Holds b.crdActive c.crdActive
  gb : x.Holds b.pwrGb c.pwrGb
  gba : y.Holds b.pwrGba c.pwrGba

variable {w x y : Hold}

/-- The three flags are the same. -/
structure Alike (b c : Bus) : Prop where
  crd : c.crdActive = b.crdActive
  gb : c.pwrGb = b.pwrGb
  gba : c.pwrGba = b.pwrGba

theorem Alike.held {b c : Bus} (h : Alike b c) : Held w x y b c where
  crd := w.holds_of_eq h.crd
  gb := x.holds_of_eq h.gb
  gba := y.holds_of_eq h.gba

theorem Alike.refl (b : Bus) : Alike b b := ⟨rfl, rfl, rfl⟩

theorem Held.trans {b c d : Bus} (h : Held w x y b c) (k : Held w x y c d) : Held w x y b d where
  crd := w.trans h.crd k.crd
  gb := x.trans h.gb k.gb
  gba := y.trans h.gba k.gba

theorem GbCycles.alike {b c : Bus} (h : GbCycles b c) : Alike b c := ⟨h.crdActive, h.slots.pwrGb, h.slots.pwrGba⟩

theorem SaveCycles.alike {b c : Bus} (h : SaveCycles b c) : Alike b c :=
  ⟨h.crdActive, h.toGbaCycles.slots.pwrGb, h.toGbaCycles.slots.pwrGba⟩

theorem OnlyPorts.alike {b c : Bus} (h : OnlyPorts b c) : Alike b c := ⟨h.crdActive, h.pwrGb, h.pwrGba⟩

/-- Steps that leave the three flags so. -/
def Prog.Keeps (w x y : Hold) (p : Prog α) : Prop := ∀ s v t, p.run s = .ok (v, t) → Held w x y s.bus t.bus

/-! ## Putting steps together -/

theorem Prog.Keeps.ret (v : α) : (Prog.ret v).Keeps w x y := by
  intro s u t run
  cases run
  exact (Alike.refl _).held

/-- A run of two parts. -/
theorem bind_run_inv {p : Prog α} {f : α → Prog β} {s t : State} {v : β} (run : (p.bind f).run s = .ok (v, t)) :
    ∃ u m, p.run s = .ok (u, m) ∧ (f u).run m = .ok (v, t) := by
  rw [run_bind] at run
  cases first : p.run s with
  | error e => rw [first] at run; cases run
  | ok r => rw [first] at run; exact ⟨r.1, r.2, rfl, run⟩

theorem Prog.Keeps.bind {p : Prog α} {f : α → Prog β} (h : p.Keeps w x y) (g : ∀ v, (f v).Keeps w x y) :
    (p.bind f).Keeps w x y := by
  intro s u t run
  obtain ⟨v, m, first, rest⟩ := bind_run_inv run
  exact (h s v m first).trans (g v m u t rest)

theorem Prog.Keeps.then {p : Prog α} {q : Prog β} (h : p.Keeps w x y) (g : q.Keeps w x y) : (p.then q).Keeps w x y :=
  h.bind fun _ => g

theorem Prog.Keeps.map {p : Prog α} (h : p.Keeps w x y) (f : α → β) : (p.map f).Keeps w x y :=
  h.bind fun v => .ret (f v)

/-- A single step, by what it does where its check lets it by. -/
theorem Prog.Keeps.step {kind : StepKind} {check : State → Except Fault Unit} {c : Coding α} {f : State → α × State}
    (h : ∀ s, check s = .ok () → Held w x y s.bus (f s).2.bus) : (Prog.step kind check c f).Keeps w x y := by
  intro s v t run
  simp only [Prog.step, Prog.run] at run
  cases checked : check s with
  | error e => rw [checked] at run; cases run
  | ok u =>
    rw [checked] at run
    cases run
    exact h s checked

theorem Prog.Keeps.loop {f : Nat → Prog Unit} (h : ∀ i, (f i).Keeps w x y) (i n : Nat) :
    (Prog.loop f i n).Keeps w x y := by
  induction n generalizing i with
  | zero => exact .ret _
  | succ n ih => exact (h i).then (ih (i + 1))

theorem Prog.Keeps.collect {f : Nat → Prog α} (h : ∀ i, (f i).Keeps w x y) (i n : Nat) :
    (Prog.collect f i n).Keeps w x y := by
  induction n generalizing i with
  | zero => exact .ret _
  | succ n ih => exact (h i).bind fun _ => (ih (i + 1)).map _

theorem Prog.Keeps.nil : (Prog.steps []).Keeps w x y := .ret _

theorem Prog.Keeps.cons {p : Prog Unit} {ps : List (Prog Unit)} (h : p.Keeps w x y)
    (k : (Prog.steps ps).Keeps w x y) : (Prog.steps (p :: ps)).Keeps w x y := h.then k

theorem Prog.Keeps.steps {ps : List (Prog Unit)} (h : ∀ p ∈ ps, p.Keeps w x y) : (Prog.steps ps).Keeps w x y := by
  induction ps with
  | nil => exact .nil
  | cons p ps ih => exact .cons (h p (.head _)) (ih fun q m => h q (.tail _ m))

theorem Prog.Keeps.within {p : Prog α} (h : p.Keeps w x y) : p.within.Keeps w x y := by
  intro s v t run
  rw [run_within] at run
  exact h s v t run

theorem Prog.Keeps.ite {c : Prop} [Decidable c] {p q : Prog α} (h : p.Keeps w x y) (g : q.Keeps w x y) :
    (if c then p else q).Keeps w x y := by
  split
  · exact h
  · exact g

/-! ## Single steps -/

theorem busRead_keeps {kind : StepKind} {check : State → Except Fault Unit} {c : Coding α} {f : Bus → α × Bus}
    (h : ∀ b, Alike b (f b).2) : (busRead kind check c f).Keeps w x y := .step fun s _ => (h s.bus).held

theorem busDo_keeps {kind : StepKind} {check : State → Except Fault Unit} {f : Bus → Bus} (h : ∀ b, Alike b (f b)) :
    (busDo kind check f).Keeps w x y := .step fun s _ => (h s.bus).held

theorem update_keeps {f : State → State} (h : ∀ s, Alike s.bus (f s).bus) : (update f).Keeps w x y :=
  .step fun s _ => (h s).held

/-- A step that leaves the bus as it is. -/
theorem still_keeps {kind : StepKind} {check : State → Except Fault Unit} {c : Coding α} {f : State → α × State}
    (h : ∀ s, (f s).2.bus = s.bus) : (Prog.step kind check c f).Keeps w x y :=
  .step fun s _ => by rw [h s]; exact (Alike.refl _).held

theorem delay_keeps (t : DelayName) : (delayStep t).Keeps w x y := busDo_keeps fun _ => ⟨rfl, rfl, rfl⟩
theorem ensure_keeps (check : State → Except Fault Unit) : (ensure check).Keeps w x y := still_keeps fun _ => rfl
theorem look_keeps (c : Coding α) (f : State → α) : (look c f).Keeps w x y := still_keeps fun _ => rfl
theorem memWrite_keeps (k : Nat) (bytes : List Byte) : (memWrite k bytes).Keeps w x y := still_keeps fun _ => rfl
theorem memRead_keeps (k n : Nat) : (memRead k n).Keeps w x y := still_keeps fun _ => rfl
theorem gbClear_keeps : (update gbClear).Keeps w x y := still_keeps fun _ => rfl
theorem gbaClear_keeps : (update gbaClear).Keeps w x y := still_keeps fun _ => rfl

theorem setGb_keeps (g : GbSession) : (setGb g).Keeps w x y :=
  show (update fun s => { s with gb := g }).Keeps w x y from still_keeps fun _ => rfl

theorem setGba_keeps (g : GbaSession) : (setGba g).Keeps w x y :=
  show (update fun s => { s with gba := g }).Keeps w x y from still_keeps fun _ => rfl

theorem keepRx_keeps (rx : List Byte) : (keepRx rx).Keeps w x y :=
  show (update fun s => { s with rx := rx }).Keeps w x y from still_keeps fun _ => rfl

theorem storeByte_keeps {k : Nat} {p : Prog Byte} (h : p.Keeps w x y) : (storeByte k p).Keeps w x y :=
  h.bind fun _ => memWrite_keeps _ _

theorem init_keeps {p : Prog α} (h : p.Keeps w x y) : ((ensure (needInit op)).then p).Keeps w x y :=
  (ensure_keeps _).then h

theorem oneStep_keeps {kind : StepKind} {check : State → Except Fault Unit} {c : Coding α} {f : Bus → α × Bus}
    {v : α → Word} (h : ∀ b, Alike b (f b).2) : (oneStep op kind check c f v).Keeps w x y :=
  init_keeps ((busRead_keeps h).map _)

theorem oneWrite_keeps {kind : StepKind} {check : State → Except Fault Unit} {f : Bus → Bus}
    (h : ∀ b, Alike b (f b)) : (oneWrite op kind check f).Keeps w x y := init_keeps ((busDo_keeps h).then (.ret _))

theorem lockStep_keeps (force : Bool) (key : Word) : (lockStep force key).Keeps w x y := by
  intro s v t run
  rw [run_lockStep] at run
  split at run
  · cases run
    exact (Alike.refl _).held
  · cases run

theorem releaseLock_keeps (key : Word) : (update (releaseLock key)).Keeps w x y := still_keeps fun s => by
  change (releaseLock key s).bus = s.bus
  unfold releaseLock
  split <;> rfl

theorem underLock_keeps {p : Prog α} (h : p.Keeps w x y) : (underLock p).Keeps w x y :=
  (lockStep_keeps _ _).then <| h.bind fun _ => (releaseLock_keeps _).then (.ret _)

/-! ## Power sequences -/

theorem pin_keeps {f : Bus → Bus} (h : ∀ b, Alike b (f b)) : (pinStep op f).Keeps w x y := busDo_keeps h

theorem pinWrite_keeps (p : Pin) (v : Bool) : (pinStep op (pinWrite p v)).Keeps w x y :=
  pin_keeps fun _ => ⟨rfl, rfl, rfl⟩

theorem pinDirect_keeps (p : Pin) (d : PinDir) : (pinStep op (pinDirect p d)).Keeps w x y :=
  pin_keeps fun _ => ⟨rfl, rfl, rfl⟩

theorem powered_keeps (p : Pin) (slot : Slot) (on : Bool) :
    (pinStep op fun b => record (.power slot on) (pinDirect p .output b)).Keeps w x y :=
  pin_keeps fun _ => ⟨rfl, rfl, rfl⟩

theorem drive_keeps (p : Pin) (v : Bool) : (drive op p v).Keeps w x y := (pinWrite_keeps p v).then (pinDirect_keeps p _)

theorem drivePower_keeps (p : Pin) (v : Bool) (slot : Slot) (on : Bool) : (drivePower op p v slot on).Keeps w x y :=
  (pinWrite_keeps p v).then (powered_keeps p slot on)

theorem port_keeps (k : RegKind) (p : Port) (v : Byte) : (frameStep op (portWrite k p v)).Keeps w x y :=
  busDo_keeps fun _ => ⟨rfl, rfl, rfl⟩

theorem chip_keeps (k : RegKind) (c : Chip) (v v' : Byte) : (frameStep op (chipWrite k c v v')).Keeps w x y :=
  busDo_keeps fun _ => ⟨rfl, rfl, rfl⟩

theorem gbDefaults_keeps : (gbDefaultsSteps op).Keeps w x y :=
  .cons (drive_keeps _ _) <| .cons (drive_keeps _ _) <| .cons (drive_keeps _ _) <| .cons (chip_keeps _ _ _ _) <|
  .cons (chip_keeps _ _ _ _) <| .cons (chip_keeps _ _ _ _) <| .cons (port_keeps _ _ _) <| .cons (port_keeps _ _ _) .nil

theorem gbaDefaults_keeps : (gbaDefaultsSteps op).Keeps w x y :=
  .cons (drive_keeps _ _) <| .cons (drive_keeps _ _) <| .cons (drive_keeps _ _) <| .cons (drive_keeps _ _) <|
  .cons (chip_keeps _ _ _ _) <| .cons (port_keeps _ _ _) <| .cons (chip_keeps _ _ _ _) <| .cons (port_keeps _ _ _) <|
  .cons (chip_keeps _ _ _ _) <| .cons (port_keeps _ _ _) .nil

/-- A power-up holds the continuous read and the other slot's flag. -/
theorem gbPowerUp_keeps : (gbPowerUpSteps op).Keeps w .any y :=
  gbDefaults_keeps.then <| (look_keeps _ _).bind fun _ => .ite (.ret _) <|
    .cons (drivePower_keeps _ _ _ _) <| .cons (delay_keeps _) <|
    .cons (.step fun _ _ => ⟨w.holds_of_eq rfl, trivial, y.holds_of_eq rfl⟩) .nil

theorem gbaPowerUp_keeps : (gbaPowerUpSteps op).Keeps w x .any :=
  gbaDefaults_keeps.then <| (look_keeps _ _).bind fun _ => .ite (.ret _) <|
    .cons (drivePower_keeps _ _ _ _) <| .cons (delay_keeps _) <|
    .cons (.step fun _ _ => ⟨w.holds_of_eq rfl, x.holds_of_eq rfl, trivial⟩) .nil

theorem floatLines_keeps : (floatSteps op).Keeps w x y :=
  .cons (chip_keeps _ _ _ _) <| .cons (chip_keeps _ _ _ _) <| .cons (chip_keeps _ _ _ _) <|
  .cons (chip_keeps _ _ _ _) .nil

theorem groundLines_keeps : (groundSteps op).Keeps w x y :=
  .cons (chip_keeps _ _ _ _) <| .cons (chip_keeps _ _ _ _) <| .cons (chip_keeps _ _ _ _) <|
  .cons (chip_keeps _ _ _ _) .nil

theorem gbPowerDown_keeps : (gbPowerDownSteps op).Keeps w x y :=
  .cons floatLines_keeps <| .cons (pinDirect_keeps _ _) <| .cons (pinDirect_keeps _ _) <| .cons (pinDirect_keeps _ _) <|
  .cons (drivePower_keeps _ _ _ _) <| .cons groundLines_keeps <| .cons (drive_keeps _ _) <| .cons (drive_keeps _ _) <|
  .cons (drive_keeps _ _) .nil

theorem gbaPowerDown_keeps : (gbaPowerDownSteps op).Keeps w x y :=
  .cons floatLines_keeps <| .cons (pinDirect_keeps _ _) <| .cons (pinDirect_keeps _ _) <| .cons (pinDirect_keeps _ _) <|
  .cons (pinDirect_keeps _ _) <| .cons (drivePower_keeps _ _ _ _) <| .cons groundLines_keeps <| .cons (drive_keeps _ _) <|
  .cons (drive_keeps _ _) <| .cons (drive_keeps _ _) <| .cons (drive_keeps _ _) .nil

theorem gbFlagOff_keeps : gbFlagOffStep.Keeps w .off y :=
  show (busDo .quiet always gbFlagOff).Keeps w .off y from .step fun _ _ => ⟨w.holds_of_eq rfl, fun on => Bool.noConfusion on, y.holds_of_eq rfl⟩

theorem gbaFlagOff_keeps : gbaFlagOffStep.Keeps w x .off :=
  show (busDo .quiet always gbaFlagOff).Keeps w x .off from .step fun _ _ => ⟨w.holds_of_eq rfl, x.holds_of_eq rfl, fun on => Bool.noConfusion on⟩

/-- Steps that end in the GB slot's flag turned off. -/
theorem gbFlagOff_ends {p : Prog α} (h : p.Keeps w .any y) :
    (p.bind fun v => gbFlagOffStep.then (.ret v)).Keeps w .off y := by
  intro s v t run
  obtain ⟨u, m, first, rest⟩ := bind_run_inv run
  have held := h s u m first
  cases rest
  exact ⟨held.crd, fun on => Bool.noConfusion on, held.gba⟩

theorem gbaFlagOff_ends {p : Prog α} (h : p.Keeps w x .any) :
    (p.bind fun v => gbaFlagOffStep.then (.ret v)).Keeps w x .off := by
  intro s v t run
  obtain ⟨u, m, first, rest⟩ := bind_run_inv run
  have held := h s u m first
  cases rest
  exact ⟨held.crd, held.gb, fun on => Bool.noConfusion on⟩

/-- A power session leaves its slot off. -/
theorem withGbPower_keeps {body : Prog α} (h : body.Keeps w .any y) : (withGbPower op body).Keeps w .off y :=
  (ensure_keeps _).then <| gbFlagOff_ends
    (gbPowerUp_keeps.then (h.bind fun _ => gbPowerDown_keeps.then (.ret _))).within

theorem withGbaPower_keeps {body : Prog α} (h : body.Keeps w x .any) : (withGbaPower op body).Keeps w x .off :=
  (ensure_keeps _).then <| gbaFlagOff_ends
    (gbaPowerUp_keeps.then (h.bind fun _ => gbaPowerDown_keeps.then (.ret _))).within

/-! ## The GB/GBC engine -/

theorem gbRead_keeps (a : Half) : (gbReadStep op a).Keeps w x y :=
  busRead_keeps fun b => (gbRead_cycles a b).alike

theorem gbWrite_keeps (a : Half) (d : Byte) : (gbWriteStep op a d).Keeps w x y :=
  busDo_keeps fun b => (gbWrite_cycles a d b).alike

theorem gbReadMany_keeps (a n : Nat) : (gbReadMany op a n).Keeps w x y := .collect (fun _ => gbRead_keeps _) _ _

theorem gbStore_keeps (off a n : Nat) : (gbStore op off a n).Keeps w x y := .loop (fun _ => storeByte_keeps (gbRead_keeps _)) _ _

theorem gbFetch_keeps (off a n : Nat) : (gbFetch op off a n).Keeps w x y :=
  .loop (fun _ => (memRead_keeps _ _).bind fun _ => gbWrite_keeps _ _) _ _

theorem gbWrites_keeps (ws : List (Half × Byte)) : (gbWriteSteps op ws).Keeps w x y :=
  Prog.Keeps.steps fun p m => by
    obtain ⟨w, _, rfl⟩ := List.mem_map.mp m
    exact gbWrite_keeps _ _

theorem mbc_keeps (ws : List (Half × Byte)) (g : Mbcw → Mbcw) : (mbcSteps op ws g).Keeps w x y :=
  (gbWrites_keeps ws).then (busDo_keeps fun _ => ⟨rfl, rfl, rfl⟩)

theorem gbJudge_keeps (h : List Byte) : (gbJudgeSteps h).Keeps w x y := by
  unfold gbJudgeSteps
  cases gbSessionOf h (sha1Hex h) with
  | some g => exact .ret _
  | none => exact gbClear_keeps.then (.ret _)

theorem gbLoad_keeps : (gbLoadSteps op).Keeps w .off y := by
  refine (withGbPower_keeps <| (gbReadMany_keeps 0 4).then <| (gbReadMany_keeps 0 1024).bind gbJudge_keeps).bind fun r => ?_
  cases r with
  | some g => exact (setGb_keeps g).then (.ret _)
  | none => exact .ret _

theorem gbCheck_keeps : (gbCheckSteps op).Keeps w .off y := withGbPower_keeps (gbReadMany_keeps _ _)

theorem gbIsLoaded_keeps : (gbIsLoadedSteps op).Keeps w .off y :=
  (look_keeps _ _).bind fun _ => .ite (.ret _) <| gbCheck_keeps.bind fun _ => (look_keeps _ _).bind fun _ =>
    .ite (.ret _) <| gbClear_keeps.then (.ret _)

theorem gbReadRom_keeps : (gbReadRomSteps op).Keeps w .off y :=
  (look_keeps _ _).bind fun _ => .ite (.ret _) <| (ensure_keeps _).then <|
    (withGbPower_keeps <| (gbStore_keeps _ _ _).then <| .ite (gbStore_keeps _ _ _) <|
      (Prog.Keeps.loop (fun _ => (mbc_keeps _ _).then (gbStore_keeps _ _ _)) _ _).then (mbc_keeps _ _)).then (.ret _)

theorem gbReadSave_keeps : (gbReadSaveSteps op).Keeps w .off y :=
  (look_keeps _ _).bind fun _ => .ite (.ret _) <| (ensure_keeps _).then <|
    (withGbPower_keeps <| (mbc_keeps _ _).then <|
      (Prog.Keeps.loop (fun _ => (mbc_keeps _ _).then (gbStore_keeps _ _ _)) _ _).then (mbc_keeps _ _)).then (.ret _)

theorem gbWriteSave_keeps : (gbWriteSaveSteps op).Keeps w .off y :=
  (look_keeps _ _).bind fun _ => .ite (.ret _) <| (ensure_keeps _).then <|
    (withGbPower_keeps <| (mbc_keeps _ _).then <|
      (Prog.Keeps.loop (fun _ => (mbc_keeps _ _).then (gbFetch_keeps _ _ _)) _ _).then (mbc_keeps _ _)).then (.ret _)

/-! ## The GBA engines -/

theorem gbaLatch_keeps (ha : BitVec 24) : (gbaLatchStep op ha).Keeps .any x y :=
  Prog.Keeps.within <| .step fun s _ =>
    ⟨trivial, x.holds_of_eq (gbaLatch_cycles ha s.bus).slots.pwrGb, y.holds_of_eq (gbaLatch_cycles ha s.bus).slots.pwrGba⟩

theorem gbaNext_keeps : (gbaNextStep op).Keeps w x y :=
  Prog.Keeps.within <| busRead_keeps fun b =>
    ⟨gbaNext_crdActive b, (gbaNext_cycles b).slots.pwrGb, (gbaNext_cycles b).slots.pwrGba⟩

theorem gbaEnd_keeps : (gbaEndStep op).Keeps .any x y :=
  .step fun s _ => ⟨trivial, x.holds_of_eq (gbaEnd_cycles s.bus).slots.pwrGb, y.holds_of_eq (gbaEnd_cycles s.bus).slots.pwrGba⟩

/-- A burst from its latch on, whatever its continuous read does. -/
theorem gbaRomRead_keeps_power (ba n : Nat) : (gbaRomReadSteps op ba n).Keeps .any x y :=
  (gbaLatch_keeps _).then <|
    (Prog.Keeps.collect (fun _ => .ite (gbaEnd_keeps.then ((gbaLatch_keeps _).then gbaNext_keeps)) gbaNext_keeps) _ _).bind
    fun _ => gbaEnd_keeps.then (.ret _)

theorem gbaEnd_closes {s t : State} {u : Unit} (run : (gbaEndStep op).run s = .ok (u, t)) : t.bus.crdActive = false := by
  rw [gbaEndStep, busDo, run_step _ _ asUnit_faithful] at run
  cases ready : streamReady op s with
  | error e => rw [ready] at run; cases run
  | ok u => rw [ready] at run; cases run; exact gbaEnd_crdActive _

/-- A latch finds no continuous read open. -/
theorem gbaLatch_opens {ha : BitVec 24} {s t : State} {u : Unit} (run : (gbaLatchStep op ha).run s = .ok (u, t)) :
    s.bus.crdActive = false := by
  rw [gbaLatchStep, run_within, busDo, run_step _ _ asUnit_faithful] at run
  cases ready : busReady op s with
  | error e => rw [ready] at run; cases run
  | ok u =>
    by_contra opened
    rw [busReady] at ready
    cases free : raceFree s with
    | error e => rw [free] at ready; cases ready
    | ok u => simp [free, opened, bind, Except.bind] at ready

/-- A burst finds and leaves no continuous read open. -/
theorem gbaRomRead_keeps (ba n : Nat) : (gbaRomReadSteps op ba n).Keeps w x y := by
  intro s v t run
  have power := gbaRomRead_keeps_power (x := x) (y := y) ba n s v t run
  obtain ⟨_, _, latched, rest⟩ := bind_run_inv run
  obtain ⟨_, _, -, last⟩ := bind_run_inv rest
  obtain ⟨_, _, ended, done⟩ := bind_run_inv last
  cases done
  exact ⟨w.holds_of_eq ((gbaEnd_closes ended).trans (gbaLatch_opens latched).symm), power.gb, power.gba⟩

theorem gbaProbeSize_keeps (h : List Byte) : (gbaProbeSizeSteps op h).Keeps w x y :=
  (gbaRomRead_keeps _ _).bind fun _ => .ite (.ret _) <| (gbaRomRead_keeps _ _).bind fun _ => .ite (.ret _) <|
    (gbaRomRead_keeps _ _).map _

theorem gbaHeader_keeps : (gbaHeaderSteps op).Keeps w x y := gbaRomRead_keeps _ _

theorem gbaCheck_keeps : (gbaCheckSteps op).Keeps w x .off := withGbaPower_keeps (gbaRomRead_keeps _ _)

theorem gbaIsLoaded_keeps : (gbaIsLoadedSteps op).Keeps w x .off :=
  (look_keeps _ _).bind fun _ => .ite (.ret _) <| gbaCheck_keeps.bind fun _ => (look_keeps _ _).bind fun _ =>
    .ite (.ret _) <| gbaClear_keeps.then (.ret _)

theorem gbaReadRom_keeps : (gbaReadRomSteps op).Keeps w x .off :=
  (look_keeps _ _).bind fun _ => .ite (.ret _) <| (ensure_keeps _).then <|
    (withGbaPower_keeps <| (gbaRomRead_keeps _ _).bind fun _ => memWrite_keeps _ _).then (.ret _)

theorem saveRead_keeps (a : Half) : (saveReadStep op a).Keeps w x y :=
  busRead_keeps fun b => (saveRead_cycles a b).alike

theorem saveWrite_keeps (a : Half) (d : Byte) : (saveWriteStep op a d).Keeps w x y :=
  busDo_keeps fun b => (saveWrite_cycles a d b).alike

theorem saveReadMany_keeps (a n : Nat) : (saveReadMany op a n).Keeps w x y := .collect (fun _ => saveRead_keeps _) _ _

theorem saveWrites_keeps (ws : List (Half × Byte)) : (saveWriteSteps op ws).Keeps w x y :=
  Prog.Keeps.steps fun p m => by
    obtain ⟨w, _, rfl⟩ := List.mem_map.mp m
    exact saveWrite_keeps _ _

theorem eepOpen_keeps (request : List Bool) : (eepOpenSteps op request).Keeps w x y :=
  (busDo_keeps fun b => (eepBegin_cycles b).alike).then <| Prog.Keeps.steps fun p m => by
    obtain ⟨v, _, rfl⟩ := List.mem_map.mp m
    exact busDo_keeps fun b => (eepOut_cycles v b).alike

theorem eepIn_keeps : (eepInStep op).Keeps w x y := busRead_keeps fun b => (eepIn_cycles b).alike

theorem eepReadRow_keeps (frm : Framing) (row : Nat) : (eepReadRowSteps op frm row).Keeps w x y :=
  (((eepOpen_keeps _).then <| (busDo_keeps fun b => (eepTurn_cycles b).alike).then <| (Prog.Keeps.collect (fun _ => eepIn_keeps) 0 4).then
    (.collect (fun _ => eepIn_keeps) 0 64)).within).bind fun _ => (busDo_keeps fun b => (eepEnd_cycles b).alike).then (.ret _)

theorem eepWriteRow_keeps (frm : Framing) (row : Nat) (data : List Byte) : (eepWriteRowSteps op frm row data).Keeps w x y :=
  (((eepOpen_keeps _).then (busDo_keeps fun b => (eepEnd_cycles b).alike)).within).then (delay_keeps _)

theorem flashId_keeps : (flashIdSteps op).Keeps w x y :=
  (saveWrites_keeps _).then <| (saveRead_keeps _).bind fun _ => (saveRead_keeps _).bind fun _ =>
    (saveWrites_keeps _).then (.ret _)

theorem flashBank_keeps (bank : Bool) : (flashBankSteps op bank).Keeps w x y := saveWrites_keeps _
theorem flashErase_keeps (a : Half) : (flashEraseSteps op a).Keeps w x y := (saveWrites_keeps _).then (delay_keeps _)
theorem flashProg_keeps (a : Half) (d : Byte) : (flashProgSteps op a d).Keeps w x y := (saveWrites_keeps _).then (delay_keeps _)

theorem flashProg128_keeps (sector : Half) (data : List Byte) : (flashProg128Steps op sector data).Keeps w x y :=
  (saveWrites_keeps _).then <| (Prog.Keeps.steps fun p m => by
    obtain ⟨k, _, rfl⟩ := List.mem_mapIdx.mp m
    exact saveWrite_keeps _ _).then (delay_keeps _)

theorem classifyFlash_keeps : (classifyFlashSteps op).Keeps w x y :=
  flashId_keeps.bind fun id => by
    unfold classifyFlashOf
    cases flashTable id.1 id.2 with
    | some t => exact .ret _
    | none =>
      exact ((saveReadMany_keeps _ _).bind fun _ => (flashBank_keeps _).then <|
        (saveReadMany_keeps _ _).bind fun _ => (flashBank_keeps _).then (.ret _)).map _

theorem classifyParallel_keeps : (classifyParallelSteps op).Keeps w x y :=
  (((Prog.Keeps.collect (fun _ => saveReadMany_keeps _ _) _ _).map _).map _).bind fun _ => .ite
    (((saveRead_keeps _).bind fun _ => (saveWrite_keeps _ _).then <| (saveRead_keeps _).bind fun _ =>
      (saveWrite_keeps _ _).then <| (saveRead_keeps _).map _).bind fun _ => .ite
        (((saveReadMany_keeps _ _).bind fun _ => (saveReadMany_keeps _ _).map _).map _) classifyFlash_keeps)
    (.ret _)

theorem classify_keeps : (classifySteps op).Keeps w x .off :=
  withGbaPower_keeps <| ((Prog.Keeps.collect (fun _ => eepReadRow_keeps _ _) _ _).map _).bind fun e => by
    cases e with
    | some t => exact .ret _
    | none => exact classifyParallel_keeps

theorem gbaJudge_keeps (h : List Byte) : (gbaJudgeSteps op h).Keeps w x y :=
  .ite ((gbaProbeSize_keeps h).map _) (gbaClear_keeps.then (.ret _))

theorem gbaLoad_keeps : (gbaLoadSteps op).Keeps w x .off := by
  refine (withGbaPower_keeps <| gbaHeader_keeps.bind gbaJudge_keeps).bind fun r => ?_
  cases r with
  | some x => exact classify_keeps.bind fun _ => (setGba_keeps _).then (.ret _)
  | none => exact .ret _

theorem flashTurn_keeps (a : Nat) : (flashTurnSteps op a).Keeps w x y := .ite (flashBank_keeps _) (.ret _)
theorem flashHome_keeps (sz : Nat) : (flashHomeSteps op sz).Keeps w x y := .ite (flashBank_keeps _) (.ret _)

theorem eepImageRead_keeps (t : SaveType) (sz : Nat) :
    (Prog.loop (fun row => (eepReadRowSteps op (framingFor t) row).bind fun bytes => memWrite (8 * row) bytes) 0
      (sz / 8)).Keeps w x y :=
  .loop (fun _ => (eepReadRow_keeps _ _).bind fun _ => memWrite_keeps _ _) _ _

theorem sramImageRead_keeps (sz : Nat) :
    (Prog.loop (fun a => storeByte a (saveReadStep op (BitVec.ofNat 16 a))) 0 sz).Keeps w x y :=
  .loop (fun _ => storeByte_keeps (saveRead_keeps _)) _ _

theorem flashImageRead_keeps (sz : Nat) :
    ((Prog.loop (fun a => (flashTurnSteps op a).then (storeByte a (saveReadStep op (BitVec.ofNat 16 a)))) 0
      sz).then (flashHomeSteps op sz)).Keeps w x y :=
  (Prog.Keeps.loop (fun _ => (flashTurn_keeps _).then (storeByte_keeps (saveRead_keeps _))) _ _).then (flashHome_keeps _)

theorem saveImageRead_keeps (t : SaveType) (sz : Nat) : (saveImageReadSteps op t sz).Keeps w x y := by
  cases t with
  | eeprom4k => exact eepImageRead_keeps _ sz
  | eeprom64k => exact eepImageRead_keeps _ sz
  | sram256k => exact sramImageRead_keeps sz
  | sram512k => exact sramImageRead_keeps sz
  | flash512k => exact flashImageRead_keeps sz
  | flash1m => exact flashImageRead_keeps sz
  | unknown => exact .ret _

theorem gbaReadSave_keeps : (gbaReadSaveSteps op).Keeps w x .off :=
  (look_keeps _ _).bind fun _ => .ite (.ret _) <| (ensure_keeps _).then <|
    (withGbaPower_keeps (saveImageRead_keeps _ _)).then (.ret _)

theorem flashImageWrite_keeps (sz : Nat) (mfr : Byte) : (flashImageWriteSteps op sz mfr).Keeps w x y :=
  Prog.Keeps.then (.ite
    (.loop (fun _ => (flashTurn_keeps _).then <| (memRead_keeps _ _).bind fun _ => flashProg128_keeps _ _) _ _)
    (.loop (fun _ => (flashTurn_keeps _).then <| Prog.Keeps.then (.ite (flashErase_keeps _) (.ret ())) <|
      (memRead_keeps _ _).bind fun _ => flashProg_keeps _ _) _ _)) (flashHome_keeps _)

theorem eepImageWrite_keeps (t : SaveType) (sz : Nat) :
    (Prog.loop (fun row => (memRead (8 * row) 8).bind fun data => eepWriteRowSteps op (framingFor t) row data) 0
      (sz / 8)).Keeps w x y :=
  .loop (fun _ => (memRead_keeps _ _).bind fun _ => eepWriteRow_keeps _ _ _) _ _

theorem sramImageWrite_keeps (sz : Nat) :
    (Prog.loop (fun a => (memRead a 1).bind fun v => saveWriteStep op (BitVec.ofNat 16 a) (v.headD 0)) 0 sz).Keeps w x y :=
  .loop (fun _ => (memRead_keeps _ _).bind fun _ => saveWrite_keeps _ _) _ _

theorem saveImageWrite_keeps (t : SaveType) (sz : Nat) : (saveImageWriteSteps op t sz).Keeps w x y := by
  cases t with
  | eeprom4k => exact eepImageWrite_keeps _ sz
  | eeprom64k => exact eepImageWrite_keeps _ sz
  | sram256k => exact sramImageWrite_keeps sz
  | sram512k => exact sramImageWrite_keeps sz
  | flash512k => exact (look_keeps _ _).bind fun _ => flashImageWrite_keeps _ _
  | flash1m => exact (look_keeps _ _).bind fun _ => flashImageWrite_keeps _ _
  | unknown => exact .ret _

theorem gbaWriteSave_keeps : (gbaWriteSaveSteps op).Keeps w x .off :=
  (look_keeps _ _).bind fun _ => .ite (.ret _) <| (ensure_keeps _).then <|
    (withGbaPower_keeps (saveImageWrite_keeps _ _)).then (.ret _)

/-! ## The dispatcher, and rows of the table by themselves -/

theorem delegate_keeps {p q : Prog Word} (h : p.Keeps w x y) (k : q.Keeps w x y) : (delegateSteps p q).Keeps w x y :=
  (look_keeps _ _).bind fun x => by
    cases x with
    | gb => exact h
    | gba => exact k
    | none => exact .ret _

theorem detRead_alike (b : Bus) : Alike b (pinRead .det b).2 := by
  unfold pinRead
  split <;> exact ⟨rfl, rfl, rfl⟩

theorem gbxLoad_keeps : (gbxLoadSteps op).Keeps w .off .off :=
  (busRead_keeps fun b => detRead_alike b).bind fun _ => .ite (gbClear_keeps.then (gbaLoad_keeps.map _))
    (gbaClear_keeps.then (gbLoad_keeps.map _))

theorem writeAfter_keeps (v : Live) {clear : State → State} {p : Prog Word} (c : (update clear).Keeps w x y)
    (h : p.Keeps w x y) : (writeAfterSteps v clear p).Keeps w x y := by
  cases v with
  | absent => exact c.then (.ret _)
  | changed => exact c.then (.ret _)
  | same => exact h

theorem gbxWrite_keeps : (gbxWriteSteps op).Keeps w .off .off :=
  (look_keeps _ _).bind fun x => by
    cases x with
    | none => exact .ret _
    | gb => exact gbCheck_keeps.bind fun _ => (look_keeps _ _).bind fun _ => writeAfter_keeps _ gbClear_keeps gbWriteSave_keeps
    | gba => exact gbaCheck_keeps.bind fun _ => (look_keeps _ _).bind fun _ => writeAfter_keeps _ gbaClear_keeps gbaWriteSave_keeps

theorem text_keeps (f : State → Option (List Byte)) : (textSteps f).Keeps w x y :=
  (look_keeps _ _).bind fun t => by
    cases t with
    | none => exact .ret _
    | some t => exact (ensure_keeps _).then <| (memWrite_keeps _ _).then (.ret _)

theorem frames_keeps (bytes : List Byte) : (frameSteps op bytes).Keeps w x y :=
  init_keeps <| (busRead_keeps fun b => (sendFrame_spec bytes b).1.alike).bind fun _ => (keepRx_keeps _).then (.ret _)

theorem request_keeps (frm : Framing) (row : Nat) : (requestSteps op frm row).Keeps w x y :=
  init_keeps <| (eepReadRow_keeps _ _).bind fun _ => (keepRx_keeps _).then (.ret _)

theorem storeRequest_keeps (frm : Framing) (row : Nat) (data : BitVec 64) : (storeRequestSteps op frm row data).Keeps w x y :=
  init_keeps <| (eepWriteRow_keeps _ _ _).then <| (keepRx_keeps _).then (.ret _)


end Sys2Proof.Machine
end

section
/-! PROOFS. The owners of the flags, the lock and the sessions (`10_state.md` R25 to R42): what every step of an
operation may do, and what its run leaves of the flags. -/

namespace Sys2Proof.Machine

variable {i op : Instr} {s t u : State} {w x y : Hold}

/-! ## Steps of the transport -/

theorem initialise_alike (hz : Word) (s : State) : Alike s.bus (initialise hz s).2.bus := by
  unfold initialise
  dsimp only
  split <;> exact ⟨rfl, rfl, rfl⟩

theorem strobe_alike (p : Pin) (v : Bool) (b : Bus) : Alike b (strobe p v b) := by
  unfold strobe
  split <;> exact ⟨rfl, rfl, rfl⟩

theorem pinRead_alike (p : Pin) (b : Bus) : Alike b (pinRead p b).2 := by
  unfold pinRead
  split <;> exact ⟨rfl, rfl, rfl⟩

theorem spi_alike (tx : List Byte) (s : State) : Alike s.bus (spi tx s).2.bus := by
  have idle := (anyReplies_spec tx (trace (.bare tx) s.bus)).1.alike
  have selected := (sendFrame_spec tx s.bus).1.alike
  cases forced : s.csForceIdle with
  | true => rw [spi_idle forced]; exact ⟨idle.crd, idle.gb, idle.gba⟩
  | false => rw [spi_selected forced]; exact selected

theorem initSteps_keeps (hz : Word) : (initSteps hz).Keeps w x y :=
  Prog.Keeps.step (kind := .quiet) (check := always) (c := asWord) (f := initialise hz) fun s _ =>
    (initialise_alike hz s).held

theorem setBuffer_keeps (buf : Word) : (update (setBuffer buf)).Keeps w x y := update_keeps fun _ => Alike.refl _

theorem gbClaim_keeps : (update gbClaim).Keeps w x y := update_keeps fun _ => ⟨rfl, rfl, rfl⟩

theorem gbaClaim_keeps : (update gbaClaim).Keeps w x y := update_keeps fun _ => ⟨rfl, rfl, rfl⟩

theorem mbcwRaw_keeps (a : Half) (d : Byte) :
    (update fun s => { s with bus := { s.bus with mbcw := mbcwRaw s.gb a d s.bus.mbcw } }).Keeps w x y :=
  update_keeps fun _ => ⟨rfl, rfl, rfl⟩

theorem crdStart_keeps {check : State → Except Fault Unit} (c : Chip) :
    (busDo .frame check (crdStart c)).Keeps .any x y :=
  .step fun _ _ => ⟨trivial, x.holds_of_eq rfl, y.holds_of_eq rfl⟩

theorem crdEnd_keeps {check : State → Except Fault Unit} : (busDo .frame check crdEnd).Keeps .any x y :=
  .step fun _ _ => ⟨trivial, x.holds_of_eq rfl, y.holds_of_eq rfl⟩

/-! ## Every operation -/

/-- The continuous read is its three operations' to open and close. -/
def streamHold : Instr → Hold
  | .crdStart _ | .crdEnd | .wireCrdHeader _ => .any
  | _ => .same

/-- A power flag is its slot's `PWRUP`'s to set. -/
def gbHold : Instr → Hold
  | .gbPwrup => .any
  | _ => .off

def gbaHold : Instr → Hold
  | .gbaPwrup => .any
  | _ => .off

/-- Every operation holds the three flags so. -/
theorem program_keeps (i : Instr) : (program i).Keeps (streamHold i) (gbHold i) (gbaHold i) := by
  cases i with
  | init hz => exact initSteps_keeps hz
  | xfer len =>
    exact init_keeps <| (ensure_keeps _).then <| (memRead_keeps _ _).bind fun tx =>
      (Prog.Keeps.step (f := spi tx) fun s _ => (spi_alike tx s).held).bind fun _ => (memWrite_keeps _ _).then (.ret _)
  | stbDir pin dir => exact oneWrite_keeps fun _ => ⟨rfl, rfl, rfl⟩
  | stbWr pin level => exact oneWrite_keeps (strobe_alike pin level)
  | stbRd pin => exact oneStep_keeps (pinRead_alike pin)
  | lock force key => exact (lockStep_keeps _ _).then (.ret _)
  | unlock key => exact (releaseLock_keeps _).then (.ret _)
  | setbuf buf => exact (setBuffer_keeps buf).then (.ret _)
  | expDir | expPull | expWr | expDir2 | expPull2 | expWr2 => exact oneWrite_keeps fun _ => ⟨rfl, rfl, rfl⟩
  | expRd | expRd2 | crdCont => exact oneStep_keeps fun _ => ⟨rfl, rfl, rfl⟩
  | crdStart chip => exact init_keeps ((crdStart_keeps chip).then (.ret _))
  | crdEnd => exact init_keeps (crdEnd_keeps.then (.ret _))
  | gbPwrup =>
    exact init_keeps <| (ensure_keeps _).then <| gbPowerUp_keeps.within.then <| gbClaim_keeps.then (.ret _)
  | gbPwrdn => exact init_keeps <| gbPowerDown_keeps.then <| gbFlagOff_keeps.then (.ret _)
  | gbaPwrup =>
    exact init_keeps <| (ensure_keeps _).then <| gbaPowerUp_keeps.within.then <| gbaClaim_keeps.then (.ret _)
  | gbaPwrdn => exact init_keeps <| gbaPowerDown_keeps.then <| gbaFlagOff_keeps.then (.ret _)
  | gbBusrd addr => exact init_keeps ((gbRead_keeps _).map _)
  | gbBuswr addr data =>
    exact init_keeps <| (gbWrite_keeps _ _).then <| (mbcwRaw_keeps addr data).then (.ret _)
  | gbRombank | gbRamopen | gbRambank | gbRamclose => exact init_keeps ((mbc_keeps _ _).then (.ret _))
  | gbLoadhdr => exact init_keeps gbLoad_keeps
  | gbIsloaded => exact init_keeps gbIsLoaded_keeps
  | gbReadrom => exact init_keeps gbReadRom_keeps
  | gbReadsave => exact init_keeps gbReadSave_keeps
  | gbWritesave => exact init_keeps gbWriteSave_keeps
  | gbClear => exact gbClear_keeps.then (.ret _)
  | gbaRomrd addr len =>
    exact init_keeps <| (ensure_keeps _).then <| (gbaRomRead_keeps _ _).bind fun _ => (memWrite_keeps _ _).then (.ret _)
  | gbaLoadhdr => exact init_keeps gbaLoad_keeps
  | gbaIsloaded => exact init_keeps gbaIsLoaded_keeps
  | gbaReadrom => exact init_keeps gbaReadRom_keeps
  | gbaProbesize => exact init_keeps <| withGbaPower_keeps <| gbaHeader_keeps.bind gbaProbeSize_keeps
  | gbaClear => exact gbaClear_keeps.then (.ret _)
  | gbaClassify => exact init_keeps (classify_keeps.map _)
  | eepRdrow frm row =>
    exact init_keeps <| (ensure_keeps _).then <| (eepReadRow_keeps _ _).bind fun _ => (memWrite_keeps _ _).then (.ret _)
  | eepWrrow frm row =>
    exact init_keeps <| (ensure_keeps _).then <| (memRead_keeps _ _).bind fun _ => (eepWriteRow_keeps _ _ _).then (.ret _)
  | saveRd addr => exact init_keeps ((saveRead_keeps _).map _)
  | saveWr addr data => exact init_keeps ((saveWrite_keeps _ _).then (.ret _))
  | flashId => exact init_keeps (flashId_keeps.map _)
  | flashBank bank => exact init_keeps ((flashBank_keeps _).then (.ret _))
  | flashErase addr => exact init_keeps ((flashErase_keeps _).then (.ret _))
  | flashProg addr data => exact init_keeps ((flashProg_keeps _ _).then (.ret _))
  | flashProg128 addr =>
    exact init_keeps <| (ensure_keeps _).then <| (memRead_keeps _ _).bind fun _ => (flashProg128_keeps _ _).then (.ret _)
  | gbaReadsave => exact init_keeps gbaReadSave_keeps
  | gbaWritesave => exact init_keeps gbaWriteSave_keeps
  | gbxLoadhdr => exact init_keeps (underLock_keeps gbxLoad_keeps)
  | gbxIsloaded => exact init_keeps (underLock_keeps (delegate_keeps gbIsLoaded_keeps gbaIsLoaded_keeps))
  | gbxReadrom => exact init_keeps (underLock_keeps (delegate_keeps gbReadRom_keeps gbaReadRom_keeps))
  | gbxReadsave => exact init_keeps (underLock_keeps (delegate_keeps gbReadSave_keeps gbaReadSave_keeps))
  | gbxWritesave => exact init_keeps (underLock_keeps gbxWrite_keeps)
  | gbxType | gbxRomsize | gbxSavesize | gbxTRom | gbxTRdsave | gbxTWrsave => exact look_keeps _ _
  | gbxTitle => exact text_keeps _
  | gbxIdent => exact text_keeps _
  | gbxClear => exact underLock_keeps (gbClear_keeps.then <| gbaClear_keeps.then (.ret _))
  | wireExpFrame3Wr | wireExpFrame3Rd | wireExpFrame4Wr | wireExpFrame4Rd => exact frames_keeps _
  | wireCrdHeader chip => exact init_keeps <| (crdStart_keeps chip).then <| (keepRx_keeps _).then (.ret _)
  | wireEepRead4k row => exact request_keeps _ _
  | wireEepRead64k row => exact request_keeps _ _
  | wireEepWrite4k row data => exact storeRequest_keeps _ _ _
  | wireEepWrite64k row data => exact storeRequest_keeps _ _ _

/-- An operation that gives a state holds the three flags so. -/
theorem exec_held (h : exec i s = .next t) : Held (streamHold i) (gbHold i) (gbaHold i) s.bus t.bus := by
  rcases exec_inv h with ⟨-, ⟨v, u, run, rfl⟩ | ⟨-, rfl⟩⟩ | ⟨-, rfl⟩
  · have held := program_keeps i s v u run
    exact ⟨held.crd, held.gb, held.gba⟩
  · exact Alike.held ⟨rfl, rfl, rfl⟩
  · exact Alike.held ⟨rfl, rfl, rfl⟩

/-! ## Registers, lock and sessions -/

/-- What the steps of an operation do that is not its own: the registers of `INIT`, the lock, a power flag it may not
clear, a session it may not empty or load. -/
structure OwnersKept (op : Instr) (s t : State) : Prop where
  init : (∀ hz, op ≠ .init hz) → t.spiReady = s.spiReady ∧ t.spiDiv = s.spiDiv ∧ t.fifo = s.fifo
  lock : dispatches op = false → (∀ f k, op ≠ .lock f k) → (∀ k, op ≠ .unlock k) →
    t.lock = s.lock ∧ t.csForceIdle = s.csForceIdle
  gbOff : t.bus.pwrGb = false → s.bus.pwrGb = false ∨ powersDownGb op = true
  gbaOff : t.bus.pwrGba = false → s.bus.pwrGba = false ∨ powersDownGba op = true
  gb : t.gb = s.gb ∨ (t.gb = .empty ∧ emptiesGb op = true) ∨ op = .gbLoadhdr ∨ op = .gbxLoadhdr
  gba : t.gba = s.gba ∨ (t.gba = .empty ∧ emptiesGba op = true) ∨ op = .gbaLoadhdr ∨ op = .gbxLoadhdr

theorem OwnersKept.refl (s : State) : OwnersKept op s s :=
  ⟨fun _ => ⟨rfl, rfl, rfl⟩, fun _ _ _ => ⟨rfl, rfl⟩, .inl, .inl, .inl rfl, .inl rfl⟩

theorem OwnersKept.trans (h : OwnersKept op s t) (k : OwnersKept op t u) : OwnersKept op s u where
  init n := ⟨(k.init n).1.trans (h.init n).1, (k.init n).2.1.trans (h.init n).2.1, (k.init n).2.2.trans (h.init n).2.2⟩
  lock d l n := ⟨(k.lock d l n).1.trans (h.lock d l n).1, (k.lock d l n).2.trans (h.lock d l n).2⟩
  gbOff off := (k.gbOff off).elim h.gbOff .inr
  gbaOff off := (k.gbaOff off).elim h.gbaOff .inr
  gb := k.gb.elim (fun same => by rw [same]; exact h.gb) .inr
  gba := k.gba.elim (fun same => by rw [same]; exact h.gba) .inr

theorem Effect.owners (e : Effect op s t) : OwnersKept op s t := by
  cases e with
  | none => exact .refl _
  | bus b kept =>
    exact { OwnersKept.refl s with
      gbOff := fun off => .inl (kept.pwrGb.symm.trans off), gbaOff := fun off => .inl (kept.pwrGba.symm.trans off) }
  | gbOn => exact { OwnersKept.refl s with gbOff := nofun }
  | gbaOn => exact { OwnersKept.refl s with gbaOff := nofun }
  | gbOff own => exact { OwnersKept.refl s with gbOff := fun _ => .inr own }
  | gbaOff own => exact { OwnersKept.refl s with gbaOff := fun _ => .inr own }
  | claimGb => exact { OwnersKept.refl s with }
  | claimGba => exact { OwnersKept.refl s with }
  | bytes => exact { OwnersKept.refl s with }
  | gb g ok src => exact { OwnersKept.refl s with gb := .inr src }
  | gba g ok src => exact { OwnersKept.refl s with gba := .inr src }
  | take force key nonzero src =>
    refine { OwnersKept.refl s with lock := fun d l _ => ?_ }
    rcases src with dispatcher | rfl
    · exact Bool.noConfusion (d.symm.trans dispatcher)
    · exact absurd rfl (l force key)
  | release key src =>
    unfold releaseLock
    split
    · refine { OwnersKept.refl s with lock := fun d _ n => ?_ }
      rcases src with dispatcher | rfl
      · exact Bool.noConfusion (d.symm.trans dispatcher)
      · exact absurd rfl (n key)
    · exact .refl s
  | init hz src =>
    unfold initialise
    dsimp only
    split <;> exact { OwnersKept.refl s with init := fun n => absurd src (n hz) }
  | setbuf => exact { OwnersKept.refl s with }
  | rx => exact { OwnersKept.refl s with }

/-- An operation that gives a state leaves what is not its own. -/
theorem exec_owners (h : exec i s = .next t) : OwnersKept i s t := by
  rcases exec_inv h with ⟨wf, ⟨v, u, run, rfl⟩ | ⟨-, rfl⟩⟩ | ⟨-, rfl⟩
  · have kept := (((program_effects wf).mono (fun _ m => m.mono fun _ _ => Effect.owners) fun _ k => k).run
      OwnersKept.refl OwnersKept.trans run).1
    exact { kept with }
  · exact { OwnersKept.refl s with }
  · exact { OwnersKept.refl s with }

/-- Settles O13: what the single steps can do, and the flags before and after the whole run. -/
theorem flagsHaveOwners : Obligations.FlagsHaveOwners := by
  intro i s t ran
  have owners := exec_owners ran
  have held := exec_held ran
  refine ⟨owners.init, owners.lock, fun start ends header => ?_, fun on => ?_, fun on => ?_, owners.gbOff, owners.gbaOff,
    owners.gb, owners.gba⟩
  · have crd := held.crd
    cases i with
    | crdStart chip => exact absurd rfl (start chip)
    | crdEnd => exact absurd rfl ends
    | wireCrdHeader chip => exact absurd rfl (header chip)
    | _ => exact crd
  · have gb := held.gb
    cases i with
    | gbPwrup => exact .inr rfl
    | _ => exact .inl (gb on)
  · have gba := held.gba
    cases i with
    | gbaPwrup => exact .inr rfl
    | _ => exact .inl (gba on)

end Sys2Proof.Machine
end

section
/-! PROOFS. What an engine does is the same under the dispatcher's name as under its own: an operation's name is in its
faults alone (`46_dispatcher.md` R425, R432, R434). -/

namespace Sys2Proof.Machine

variable {α β : Type} {o o' : Instr}

/-- Steps that do what other steps do, wherever those come to an end. -/
def Prog.Follows (q p : Prog α) : Prop := ∀ s v t, p.run s = .ok (v, t) → q.run s = .ok (v, t)

/-- A check that lets by where another does. -/
def Weaker (c c' : State → Except Fault Unit) : Prop := ∀ s, c' s = .ok () → c s = .ok ()

/-! ## Putting steps together -/

theorem Prog.Follows.refl (p : Prog α) : p.Follows p := fun _ _ _ run => run

theorem Prog.Follows.bind {p q : Prog α} {f g : α → Prog β} (h : q.Follows p) (k : ∀ v, (g v).Follows (f v)) :
    (q.bind g).Follows (p.bind f) := by
  intro s v t run
  obtain ⟨u, m, first, rest⟩ := bind_run_inv run
  rw [run_bind_ok (h s u m first)]
  exact k u m v t rest

theorem Prog.Follows.then {p q : Prog α} {p' q' : Prog β} (h : q.Follows p) (k : q'.Follows p') :
    (q.then q').Follows (p.then p') := h.bind fun _ => k

theorem Prog.Follows.map {p q : Prog α} (h : q.Follows p) (f : α → β) : (q.map f).Follows (p.map f) :=
  h.bind fun _ => .refl _

theorem Prog.Follows.loop {f g : Nat → Prog Unit} (h : ∀ i, (g i).Follows (f i)) (i n : Nat) :
    (Prog.loop g i n).Follows (Prog.loop f i n) := by
  induction n generalizing i with
  | zero => exact .refl _
  | succ n ih => exact (h i).then (ih (i + 1))

theorem Prog.Follows.collect {f g : Nat → Prog α} (h : ∀ i, (g i).Follows (f i)) (i n : Nat) :
    (Prog.collect g i n).Follows (Prog.collect f i n) := by
  induction n generalizing i with
  | zero => exact .refl _
  | succ n ih => exact (h i).bind fun _ => (ih (i + 1)).map _

theorem Prog.Follows.nil : (Prog.steps []).Follows (Prog.steps []) := .refl _

theorem Prog.Follows.cons {p q : Prog Unit} {ps qs : List (Prog Unit)} (h : q.Follows p)
    (k : (Prog.steps qs).Follows (Prog.steps ps)) : (Prog.steps (q :: qs)).Follows (Prog.steps (p :: ps)) := h.then k

theorem Prog.Follows.steps {γ : Type} {f g : γ → Prog Unit} (h : ∀ x, (g x).Follows (f x)) (xs : List γ) :
    (Prog.steps (xs.map g)).Follows (Prog.steps (xs.map f)) := by
  induction xs with
  | nil => exact .nil
  | cons x xs ih => exact .cons (h x) ih

theorem Prog.Follows.within {p q : Prog α} (h : q.Follows p) : q.within.Follows p.within := by
  intro s v t run
  rw [run_within] at run ⊢
  exact h s v t run

theorem Prog.Follows.ite {c : Prop} [Decidable c] {p q p' q' : Prog α} (h : q.Follows p) (k : q'.Follows p') :
    (if c then q else q').Follows (if c then p else p') := by
  split
  · exact h
  · exact k

theorem Prog.Follows.step {kind : StepKind} {check check' : State → Except Fault Unit} {c : Coding α}
    {f : State → α × State} (h : Weaker check' check) :
    (Prog.step kind check' c f).Follows (Prog.step kind check c f) := by
  intro s v t run
  simp only [Prog.step, Prog.run] at run ⊢
  cases checked : check s with
  | error e => rw [checked] at run; cases run
  | ok u =>
    rw [checked] at run
    rw [h s checked]
    exact run

/-! ## The checks -/

theorem raceFree_then {f : State → Except Fault Unit} {s : State} (h : (do raceFree s; f s) = .ok ()) :
    raceFree s = .ok () ∧ f s = .ok () := by
  cases free : raceFree s with
  | error e => rw [free] at h; cases h
  | ok u => rw [free] at h; exact ⟨rfl, h⟩

theorem busReady_weaker : Weaker (busReady o') (busReady o) := by
  intro s h
  obtain ⟨free, rest⟩ := raceFree_then (f := fun s => if s.bus.crdActive then .error (.continuousReadActive o)
    else if s.csForceIdle then .error (.chipSelectForcedIdle o) else .ok ()) h
  cases closed : s.bus.crdActive with
  | true => simp [closed] at rest
  | false =>
    cases forced : s.csForceIdle with
    | true => simp [closed, forced] at rest
    | false => simp [busReady, free, closed, forced, bind, Except.bind]

theorem streamReady_weaker : Weaker (streamReady o') (streamReady o) := by
  intro s h
  obtain ⟨free, rest⟩ := raceFree_then (f := fun s => if s.bus.crdActive = false then .error (.continuousReadInactive o)
    else if s.csForceIdle then .error (.chipSelectForcedIdle o) else .ok ()) h
  cases closed : s.bus.crdActive with
  | false => simp [closed] at rest
  | true =>
    cases forced : s.csForceIdle with
    | true => simp [closed, forced] at rest
    | false => simp [streamReady, free, closed, forced, bind, Except.bind]

theorem strobeReady_weaker : Weaker (strobeReady o') (strobeReady o) :=
  fun _ h => strobeReady_eq.trans (strobeReady_eq.symm.trans h)

/-! ## Power sequences -/

theorem pinStep_follows (f : Bus → Bus) : (pinStep o' f).Follows (pinStep o f) := .step strobeReady_weaker
theorem frameStep_follows (f : Bus → Bus) : (frameStep o' f).Follows (frameStep o f) := .step busReady_weaker

theorem drive_follows (p : Pin) (v : Bool) : (drive o' p v).Follows (drive o p v) :=
  (pinStep_follows _).then (pinStep_follows _)

theorem drivePower_follows (p : Pin) (v : Bool) (slot : Slot) (on : Bool) :
    (drivePower o' p v slot on).Follows (drivePower o p v slot on) := (pinStep_follows _).then (pinStep_follows _)

theorem gbDefaults_follows : (gbDefaultsSteps o').Follows (gbDefaultsSteps o) :=
  .cons (drive_follows _ _) <| .cons (drive_follows _ _) <| .cons (drive_follows _ _) <| .cons (frameStep_follows _) <|
  .cons (frameStep_follows _) <| .cons (frameStep_follows _) <| .cons (frameStep_follows _) <|
  .cons (frameStep_follows _) .nil

theorem gbaDefaults_follows : (gbaDefaultsSteps o').Follows (gbaDefaultsSteps o) :=
  .cons (drive_follows _ _) <| .cons (drive_follows _ _) <| .cons (drive_follows _ _) <| .cons (drive_follows _ _) <|
  .cons (frameStep_follows _) <| .cons (frameStep_follows _) <| .cons (frameStep_follows _) <|
  .cons (frameStep_follows _) <| .cons (frameStep_follows _) <| .cons (frameStep_follows _) .nil

theorem gbPowerUp_follows : (gbPowerUpSteps o').Follows (gbPowerUpSteps o) :=
  gbDefaults_follows.then <| (Prog.Follows.refl _).bind fun _ => .ite (.refl _) <|
    .cons (drivePower_follows _ _ _ _) (.refl _)

theorem gbaPowerUp_follows : (gbaPowerUpSteps o').Follows (gbaPowerUpSteps o) :=
  gbaDefaults_follows.then <| (Prog.Follows.refl _).bind fun _ => .ite (.refl _) <|
    .cons (drivePower_follows _ _ _ _) (.refl _)

theorem float_follows : (floatSteps o').Follows (floatSteps o) :=
  .cons (frameStep_follows _) <| .cons (frameStep_follows _) <| .cons (frameStep_follows _) <|
  .cons (frameStep_follows _) .nil

theorem ground_follows : (groundSteps o').Follows (groundSteps o) :=
  .cons (frameStep_follows _) <| .cons (frameStep_follows _) <| .cons (frameStep_follows _) <|
  .cons (frameStep_follows _) .nil

theorem gbPowerDown_follows : (gbPowerDownSteps o').Follows (gbPowerDownSteps o) :=
  .cons float_follows <| .cons (pinStep_follows _) <| .cons (pinStep_follows _) <| .cons (pinStep_follows _) <|
  .cons (drivePower_follows _ _ _ _) <| .cons ground_follows <| .cons (drive_follows _ _) <|
  .cons (drive_follows _ _) <| .cons (drive_follows _ _) .nil

theorem gbaPowerDown_follows : (gbaPowerDownSteps o').Follows (gbaPowerDownSteps o) :=
  .cons float_follows <| .cons (pinStep_follows _) <| .cons (pinStep_follows _) <| .cons (pinStep_follows _) <|
  .cons (pinStep_follows _) <| .cons (drivePower_follows _ _ _ _) <| .cons ground_follows <|
  .cons (drive_follows _ _) <| .cons (drive_follows _ _) <| .cons (drive_follows _ _) <| .cons (drive_follows _ _) .nil

theorem withGbPower_follows {p q : Prog α} (h : q.Follows p) : (withGbPower o' q).Follows (withGbPower o p) :=
  (Prog.Follows.refl _).then <| (gbPowerUp_follows.then (h.bind fun _ => gbPowerDown_follows.then (.refl _))).within.bind
    fun _ => .refl _

theorem withGbaPower_follows {p q : Prog α} (h : q.Follows p) : (withGbaPower o' q).Follows (withGbaPower o p) :=
  (Prog.Follows.refl _).then <|
    (gbaPowerUp_follows.then (h.bind fun _ => gbaPowerDown_follows.then (.refl _))).within.bind fun _ => .refl _

/-! ## The engines -/

theorem gbRead_follows (a : Half) : (gbReadStep o' a).Follows (gbReadStep o a) := .step busReady_weaker

theorem gbStore_follows (off a n : Nat) : (gbStore o' off a n).Follows (gbStore o off a n) :=
  .loop (fun _ => (gbRead_follows _).bind fun _ => .refl _) _ _

theorem mbc_follows (ws : List (Half × Byte)) (g : Mbcw → Mbcw) : (mbcSteps o' ws g).Follows (mbcSteps o ws g) :=
  (Prog.Follows.steps (fun _ => .step busReady_weaker) ws).then (.refl _)

theorem gbIsLoaded_follows : (gbIsLoadedSteps o').Follows (gbIsLoadedSteps o) :=
  (Prog.Follows.refl _).bind fun _ => .ite (.refl _) <|
    (withGbPower_follows (.collect (fun _ => gbRead_follows _) _ _)).bind fun _ => .refl _

theorem gbReadRom_follows : (gbReadRomSteps o').Follows (gbReadRomSteps o) :=
  (Prog.Follows.refl _).bind fun _ => .ite (.refl _) <| (Prog.Follows.refl _).then <|
    (withGbPower_follows <| (gbStore_follows _ _ _).then <| .ite (gbStore_follows _ _ _) <|
      (Prog.Follows.loop (fun _ => (mbc_follows _ _).then (gbStore_follows _ _ _)) _ _).then (mbc_follows _ _)).then
    (.refl _)

theorem gbReadSave_follows : (gbReadSaveSteps o').Follows (gbReadSaveSteps o) :=
  (Prog.Follows.refl _).bind fun _ => .ite (.refl _) <| (Prog.Follows.refl _).then <|
    (withGbPower_follows <| (mbc_follows _ _).then <|
      (Prog.Follows.loop (fun _ => (mbc_follows _ _).then (gbStore_follows _ _ _)) _ _).then (mbc_follows _ _)).then
    (.refl _)

theorem gbaLatch_follows (ha : BitVec 24) : (gbaLatchStep o' ha).Follows (gbaLatchStep o ha) :=
  Prog.Follows.within (.step busReady_weaker)

theorem gbaNext_follows : (gbaNextStep o').Follows (gbaNextStep o) := Prog.Follows.within (.step streamReady_weaker)
theorem gbaEnd_follows : (gbaEndStep o').Follows (gbaEndStep o) := .step streamReady_weaker

theorem burst_follows (ha k : Nat) : (burstSteps o' ha k).Follows (burstSteps o ha k) :=
  .ite (gbaEnd_follows.then ((gbaLatch_follows _).then gbaNext_follows)) gbaNext_follows

theorem gbaRomRead_follows (ba n : Nat) : (gbaRomReadSteps o' ba n).Follows (gbaRomReadSteps o ba n) :=
  (gbaLatch_follows _).then <| (Prog.Follows.collect (fun _ => burst_follows _ _) _ _).bind fun _ =>
    gbaEnd_follows.then (.refl _)

theorem gbaIsLoaded_follows : (gbaIsLoadedSteps o').Follows (gbaIsLoadedSteps o) :=
  (Prog.Follows.refl _).bind fun _ => .ite (.refl _) <| (withGbaPower_follows (gbaRomRead_follows _ _)).bind fun _ =>
    .refl _

theorem gbaReadRom_follows : (gbaReadRomSteps o').Follows (gbaReadRomSteps o) :=
  (Prog.Follows.refl _).bind fun _ => .ite (.refl _) <| (Prog.Follows.refl _).then <|
    (withGbaPower_follows <| (gbaRomRead_follows _ _).bind fun _ => .refl _).then (.refl _)

theorem saveRead_follows (a : Half) : (saveReadStep o' a).Follows (saveReadStep o a) := .step busReady_weaker

theorem flashBank_follows (bank : Bool) : (flashBankSteps o' bank).Follows (flashBankSteps o bank) :=
  .steps (fun _ => .step busReady_weaker) _

theorem eepOpen_follows (request : List Bool) : (eepOpenSteps o' request).Follows (eepOpenSteps o request) :=
  (Prog.Follows.step busReady_weaker).then (.steps (fun _ => .step busReady_weaker) _)

theorem eepIn_follows : (eepInStep o').Follows (eepInStep o) := .step busReady_weaker

theorem eepReadRow_follows (frm : Framing) (row : Nat) : (eepReadRowSteps o' frm row).Follows (eepReadRowSteps o frm row) :=
  (((eepOpen_follows _).then <| (Prog.Follows.step busReady_weaker).then <|
    (Prog.Follows.collect (fun _ => eepIn_follows) 0 4).then (.collect (fun _ => eepIn_follows) 0 64)).within).bind
  fun _ => (Prog.Follows.step busReady_weaker).then (.refl _)

theorem flashImageRead_follows (sz : Nat) :
    ((Prog.loop (fun a => (flashTurnSteps o' a).then (storeByte a (saveReadStep o' (BitVec.ofNat 16 a)))) 0
      sz).then (flashHomeSteps o' sz)).Follows
    ((Prog.loop (fun a => (flashTurnSteps o a).then (storeByte a (saveReadStep o (BitVec.ofNat 16 a)))) 0
      sz).then (flashHomeSteps o sz)) :=
  (Prog.Follows.loop (fun _ => Prog.Follows.then (.ite (flashBank_follows _) (.refl _))
    ((saveRead_follows _).bind fun _ => .refl _)) _ _).then (.ite (flashBank_follows _) (.refl _))

theorem saveImageRead_follows (t : SaveType) (sz : Nat) :
    (saveImageReadSteps o' t sz).Follows (saveImageReadSteps o t sz) := by
  cases t with
  | eeprom4k => exact .loop (fun _ => (eepReadRow_follows _ _).bind fun _ => .refl _) _ _
  | eeprom64k => exact .loop (fun _ => (eepReadRow_follows _ _).bind fun _ => .refl _) _ _
  | sram256k => exact .loop (fun _ => (saveRead_follows _).bind fun _ => .refl _) _ _
  | sram512k => exact .loop (fun _ => (saveRead_follows _).bind fun _ => .refl _) _ _
  | flash512k => exact flashImageRead_follows sz
  | flash1m => exact flashImageRead_follows sz
  | unknown => exact .refl _

theorem gbaReadSave_follows : (gbaReadSaveSteps o').Follows (gbaReadSaveSteps o) :=
  (Prog.Follows.refl _).bind fun _ => .ite (.refl _) <| (Prog.Follows.refl _).then <|
    (withGbaPower_follows (saveImageRead_follows _ _)).then (.refl _)

end Sys2Proof.Machine
end

section
/-! PROOFS. The dispatcher's delegations: the active engine's own operation under the lock (`46_dispatcher.md` R425,
R432, R434). -/

namespace Sys2Proof.Machine

variable {i e : Instr} {s t u : State} {v : Word} {p q : Prog Word}

/-! ## An engine's steps under the lock -/

/-- The state with the lock freed after an operation (`46_dispatcher.md` R420). -/
def freed (u : State) : State := { u with lock := 0, csForceIdle := false }

theorem ready_locked (init : s.spiReady = true) (calm : Calm (locked s)) (closed : s.bus.crdActive = false)
    (idle : s.csForceIdle = false) : Ready (locked s) := ⟨init, calm, closed, by simp [locked, takeLock, idle]⟩

/-- What an engine's operation that gives a state has run. -/
theorem engine_run (begins : program e = (ensure (needInit e)).then p) (free : p.Free) (wf : e.wellFormed = true)
    (ran : exec e s = .next t) : ∃ v u, p.run s = .ok (v, u) ∧ t = finish v u := by
  have whole : (program e).Free := begins ▸ (ensure_free _).then free
  rcases exec_inv ran with ⟨-, ⟨v, u, run, ended⟩ | ⟨held, -⟩⟩ | ⟨ill, -⟩
  · rw [begins] at run
    obtain ⟨_, m, check, rest⟩ := bind_run_inv run
    have same : m = s := by
      rw [run_ensure] at check
      cases ready : needInit e s with
      | ok x => rw [ready] at check; cases check; rfl
      | error f => rw [ready] at check; cases check
    exact ⟨v, u, same ▸ rest, ended⟩
  · exact absurd held (whole.run_ne s)
  · exact Bool.noConfusion (ill.symm.trans wf)

/-- Steps that end under the lock, the lock freed after them. -/
theorem exec_underLock (begins : program i = (ensure (needInit i)).then (underLock p)) (wf : i.wellFormed = true)
    (init : s.spiReady = true) (open_ : LockFree s) (run : p.run (locked s) = .ok (v, u))
    (own : u.lock = Config.gbxKey) : exec i s = .next (freed (finish v u)) := by
  have under : settle i s ((underLock p).run s) = lockHeld i s fun _ => .ok (v, u) :=
    underLock_eq (body := fun _ => .ok (v, u)) run
  rw [exec_eq_perform, begins, perform_ensure, needInit_ok init, guarded_ok wf]
  refine under.trans ((lockHeld_free _ open_).trans ?_)
  simp only [bind, Except.bind, releaseLock_locked u own]
  rfl

theorem delegate_gb (gb : s.gb.romSize ≠ 0) : (delegateSteps p q).run s = p.run s := by
  rw [delegateSteps, activeStep, run_bind_ok (asPlatform_active s), active_gb gb]

theorem delegate_gba (gb : s.gb.romSize = 0) (gba : s.gba.romSize ≠ 0) : (delegateSteps p q).run s = q.run s := by
  rw [delegateSteps, activeStep, run_bind_ok (asPlatform_active s), active_gba gb gba]

theorem delegate_none (gb : s.gb.romSize = 0) (gba : s.gba.romSize = 0) : (delegateSteps p q).run s = .ok (0, s) := by
  rw [delegateSteps, activeStep, run_bind_ok (asPlatform_active s), active_none gb gba]
  rfl

/-- An engine's own operation leaves the lock. -/
theorem engine_lock (ran : exec e s = .next t) (own : dispatches e = false) (notLock : ∀ f k, e ≠ .lock f k)
    (notUnlock : ∀ k, e ≠ .unlock k) : t.lock = s.lock := ((exec_owners ran).lock own notLock notUnlock).1

/-- An engine's operation: its steps behind the check of `spi_ready`, with a name that is in its faults alone. -/
structure EngineOp (e : Instr) (steps : Instr → Prog Word) : Prop where
  begins : program e = (ensure (needInit e)).then (steps e)
  wf : e.wellFormed = true
  own : dispatches e = false
  notLock : ∀ f k, e ≠ .lock f k
  notUnlock : ∀ k, e ≠ .unlock k
  free : (steps e).Free
  follows : ∀ o, (steps o).Follows (steps e)

/-- The dispatcher's operation that delegates to two engines' (`46_dispatcher.md` R425, R432, R434). -/
structure Delegates (i gb gba : Instr) (gbSteps gbaSteps : Instr → Prog Word) : Prop where
  begins : program i = (ensure (needInit i)).then (underLock (delegateSteps (gbSteps i) (gbaSteps i)))
  wf : i.wellFormed = true
  gb : EngineOp gb gbSteps
  gba : EngineOp gba gbaSteps

theorem gbIsloaded_engine : EngineOp .gbIsloaded gbIsLoadedSteps :=
  ⟨rfl, rfl, rfl, nofun, nofun, gbIsLoaded_free, fun _ => gbIsLoaded_follows⟩
theorem gbaIsloaded_engine : EngineOp .gbaIsloaded gbaIsLoadedSteps :=
  ⟨rfl, rfl, rfl, nofun, nofun, gbaIsLoaded_free, fun _ => gbaIsLoaded_follows⟩
theorem gbReadrom_engine : EngineOp .gbReadrom gbReadRomSteps :=
  ⟨rfl, rfl, rfl, nofun, nofun, gbReadRom_free, fun _ => gbReadRom_follows⟩
theorem gbaReadrom_engine : EngineOp .gbaReadrom gbaReadRomSteps :=
  ⟨rfl, rfl, rfl, nofun, nofun, gbaReadRom_free, fun _ => gbaReadRom_follows⟩
theorem gbReadsave_engine : EngineOp .gbReadsave gbReadSaveSteps :=
  ⟨rfl, rfl, rfl, nofun, nofun, gbReadSave_free, fun _ => gbReadSave_follows⟩
theorem gbaReadsave_engine : EngineOp .gbaReadsave gbaReadSaveSteps :=
  ⟨rfl, rfl, rfl, nofun, nofun, gbaReadSave_free, fun _ => gbaReadSave_follows⟩

theorem gbxIsloaded_delegates : Delegates .gbxIsloaded .gbIsloaded .gbaIsloaded gbIsLoadedSteps gbaIsLoadedSteps :=
  ⟨rfl, rfl, gbIsloaded_engine, gbaIsloaded_engine⟩
theorem gbxReadrom_delegates : Delegates .gbxReadrom .gbReadrom .gbaReadrom gbReadRomSteps gbaReadRomSteps :=
  ⟨rfl, rfl, gbReadrom_engine, gbaReadrom_engine⟩
theorem gbxReadsave_delegates : Delegates .gbxReadsave .gbReadsave .gbaReadsave gbReadSaveSteps gbaReadSaveSteps :=
  ⟨rfl, rfl, gbReadsave_engine, gbaReadsave_engine⟩

/-- An engine's own operation under the dispatcher's name. -/
theorem EngineOp.exec_dispatched {steps : Instr → Prog Word} (engine : EngineOp e steps)
    (begins : program i = (ensure (needInit i)).then (underLock p)) (wf : i.wellFormed = true)
    (init : s.spiReady = true) (open_ : LockFree s) (delegated : p.run (locked s) = (steps i).run (locked s))
    (ran : exec e (locked s) = .next t) : exec i s = .next (freed t) := by
  have own := engine_lock ran engine.own engine.notLock engine.notUnlock
  obtain ⟨v, u, run, rfl⟩ := engine_run engine.begins engine.free engine.wf ran
  exact exec_underLock begins wf init open_ (delegated.trans (engine.follows i _ _ _ run)) own

section
variable {gb gba : Instr} {gbSteps gbaSteps : Instr → Prog Word}

theorem Delegates.toGb (d : Delegates i gb gba gbSteps gbaSteps) (init : s.spiReady = true) (open_ : LockFree s)
    (active : s.gb.romSize ≠ 0) (ran : exec gb (locked s) = .next t) : exec i s = .next (freed t) :=
  d.gb.exec_dispatched d.begins d.wf init open_ (delegate_gb (s := locked s) active) ran

theorem Delegates.toGba (d : Delegates i gb gba gbSteps gbaSteps) (init : s.spiReady = true) (open_ : LockFree s)
    (noGb : s.gb.romSize = 0) (active : s.gba.romSize ≠ 0) (ran : exec gba (locked s) = .next t) :
    exec i s = .next (freed t) :=
  d.gba.exec_dispatched d.begins d.wf init open_ (delegate_gba (s := locked s) noGb active) ran

theorem Delegates.toNone (d : Delegates i gb gba gbSteps gbaSteps) (init : s.spiReady = true) (open_ : LockFree s)
    (noGb : s.gb.romSize = 0) (noGba : s.gba.romSize = 0) : exec i s = .next (finish 0 (freed s)) :=
  exec_underLock (u := locked s) d.begins d.wf init open_ (delegate_none (s := locked s) noGb noGba) rfl

end

/-! ## The engines' own operations complete -/

/-- An operation that completes, and writes the buffer at most. -/
def Completes (e : Instr) (s : State) : Prop := ∃ t v, exec e s = .next t ∧ Done v { s with hbuf := t.hbuf } t

theorem Done.buffer (d : Done v s t) : Done v { s with hbuf := t.hbuf } t := { d with hbuf := rfl }

theorem completes_of_nothing (h : ∃ t, exec e s = .next t ∧ Done 0 s t ∧ QuietBus s.bus t.bus) : Completes e s := by
  obtain ⟨t, eq, nothing, -⟩ := h
  exact ⟨t, 0, eq, nothing.buffer⟩

theorem gbReadrom_completes (ready : ReadyGb s) (ok : GbSessionOk s.gb) (fits : BufferFits (gbDumpTotal s.gb) s) :
    Completes .gbReadrom s := by
  cases loaded : s.gb.loaded with
  | false => exact completes_of_nothing (gbReadRomDumps.2 s ready.ready.init loaded)
  | true =>
    obtain ⟨t, bytes, eq, -, stored, -⟩ := gbReadRomDumps.1 s ready loaded ok fits
    exact ⟨t, _, eq, stored⟩

theorem gbReadsave_completes (ready : ReadyGb s) (fits : BufferFits s.gb.saveSize.toNat s) :
    Completes .gbReadsave s := by
  by_cases nothing : s.gb.loaded = false ∨ s.gb.saveSize = 0
  · exact completes_of_nothing (gbReadSaveDumps.2 s ready.ready.init nothing)
  · obtain ⟨loaded, some⟩ := not_or.mp nothing
    obtain ⟨t, bytes, eq, -, stored, -⟩ := gbReadSaveDumps.1 s ready (by simpa using loaded) some fits
    exact ⟨t, _, eq, stored⟩

theorem gbaReadrom_completes (ready : ReadyGba s) (ok : GbaSessionOk s.gba) (fits : BufferFits s.gba.romSize.toNat s) :
    Completes .gbaReadrom s := by
  cases loaded : s.gba.loaded with
  | false => exact completes_of_nothing (gbaReadRomDumps.2 s ready.ready.init loaded)
  | true =>
    obtain ⟨t, vs, eq, -, stored, -⟩ := gbaReadRomDumps.1 s ready loaded ok fits
    exact ⟨t, _, eq, stored⟩

theorem gbaReadsave_completes (ready : ReadyGba s) (ok : GbaSessionOk s.gba)
    (fits : BufferFits s.gba.saveSize.toNat s) : Completes .gbaReadsave s := by
  by_cases nothing : s.gba.loaded = false ∨ s.gba.saveType = .unknown
  · exact completes_of_nothing (gbaReadSaveByType.2 s ready.ready.init nothing)
  · obtain ⟨loaded, known⟩ := not_or.mp nothing
    obtain ⟨t, bytes, es, eq, -, stored, -⟩ := gbaReadSaveByType.1 s ready (by simpa using loaded) known ok.save fits
    exact ⟨t, _, eq, stored⟩

/-- A session with a ROM size is loaded. -/
theorem GbSessionOk.loaded_of_size {g : GbSession} (ok : GbSessionOk g) (some : g.romSize ≠ 0) : g.loaded = true := by
  cases loaded : g.loaded with
  | true => rfl
  | false => exact absurd (by rw [ok.empty loaded]; rfl) some

theorem GbaSessionOk.loaded_of_size {g : GbaSession} (ok : GbaSessionOk g) (some : g.romSize ≠ 0) : g.loaded = true := by
  cases loaded : g.loaded with
  | true => rfl
  | false => exact absurd (by rw [ok.empty loaded]; rfl) some

/-! ## The dispatcher's operations complete -/

/-- A completed engine's operation, and the lock freed after it. -/
theorem freed_done (idle : s.csForceIdle = false) (d : Done v { locked s with hbuf := t.hbuf } t) :
    Returned (freed t).me.res (freed t) ∧ OnlyBus { s with lock := 0, hbuf := (freed t).hbuf } (freed t) :=
  ⟨⟨rfl, d.resSet, d.cmd, d.seq⟩, { d.toOnlyBus with lock := rfl, csForceIdle := idle.symm, hbuf := rfl }⟩

theorem Delegates.completes {gb gba : Instr} {gbSteps gbaSteps : Instr → Prog Word}
    (d : Delegates i gb gba gbSteps gbaSteps) (init : s.spiReady = true) (open_ : LockFree s)
    (idle : s.csForceIdle = false) (onGb : Completes gb (locked s)) (onGba : Completes gba (locked s)) :
    ∃ t, exec i s = .next t ∧ Returned t.me.res t ∧ OnlyBus { s with lock := 0, hbuf := t.hbuf } t := by
  by_cases noGb : s.gb.romSize = 0
  · by_cases noGba : s.gba.romSize = 0
    · have none : Done 0 (freed s) (finish 0 (freed s)) := done_finish_self 0 _
      exact ⟨_, d.toNone init open_ noGb noGba, ⟨rfl, rfl, rfl, rfl⟩,
        { none.toOnlyBus with csForceIdle := idle.symm }⟩
    · obtain ⟨t, v, eq, done⟩ := onGba
      exact ⟨_, d.toGba init open_ noGb noGba eq, freed_done idle done⟩
  · obtain ⟨t, v, eq, done⟩ := onGb
    exact ⟨_, d.toGb init open_ noGb eq, freed_done idle done⟩

/-- A re-check of the active session that has come to its end. -/
def Rechecked (s t : State) : Prop :=
  Done 1 s t ∨ Done 0 { s with gb := .empty } t ∨ Done 0 { s with gba := .empty } t

theorem gbIsloaded_rechecks (ready : ReadyGb s) (loaded : s.gb.loaded = true) :
    ∃ t, exec .gbIsloaded s = .next t ∧ Rechecked s t := by
  obtain ⟨t, g, eq, -, -, -, -, -, still, gone⟩ := gbIsLoadedRechecks.1 s ready loaded
  by_cases same : GbStill g s.gb
  · exact ⟨t, eq, .inl (still same)⟩
  · exact ⟨t, eq, .inr (.inl (gone same))⟩

theorem gbaIsloaded_rechecks (ready : ReadyGba s) (loaded : s.gba.loaded = true) :
    ∃ t, exec .gbaIsloaded s = .next t ∧ Rechecked s t := by
  obtain ⟨t, vs, eq, -, -, -, -, -, -, still, gone⟩ := gbaIsLoadedRechecks.1 s ready loaded
  by_cases same : GbaStill (burstBytes vs) s.gba
  · exact ⟨t, eq, .inl (still same)⟩
  · exact ⟨t, eq, .inr (.inr (gone same))⟩

/-- What the dispatcher's re-check leaves (`46_dispatcher.md` R425). -/
def RecheckCompletes (s t : State) : Prop :=
  Returned t.me.res t ∧ OnlyBus { s with lock := 0, gb := t.gb, gba := t.gba } t ∧
    (t.me.res = 1 ∧ t.gb = s.gb ∧ t.gba = s.gba ∨ t.me.res = 0)

theorem freed_rechecked (idle : s.csForceIdle = false) (checked : Rechecked (locked s) t) :
    RecheckCompletes s (freed t) := by
  rcases checked with d | d | d
  · exact ⟨⟨rfl, d.resSet, d.cmd, d.seq⟩,
      { d.toOnlyBus with lock := rfl, csForceIdle := idle.symm, gb := rfl, gba := rfl }, .inl ⟨d.res, d.gb, d.gba⟩⟩
  · exact ⟨⟨rfl, d.resSet, d.cmd, d.seq⟩,
      { d.toOnlyBus with lock := rfl, csForceIdle := idle.symm, gb := rfl, gba := rfl }, .inr d.res⟩
  · exact ⟨⟨rfl, d.resSet, d.cmd, d.seq⟩,
      { d.toOnlyBus with lock := rfl, csForceIdle := idle.symm, gb := rfl, gba := rfl }, .inr d.res⟩

theorem gbxIsloaded_completes (open_ : LockFree s) (idle : s.csForceIdle = false) (ready : Ready (locked s))
    (gbOff : s.bus.pwrGb = false) (gbaOff : s.bus.pwrGba = false) (gb : GbSessionOk s.gb) (gba : GbaSessionOk s.gba) :
    ∃ t, exec .gbxIsloaded s = .next t ∧ RecheckCompletes s t := by
  by_cases noGb : s.gb.romSize = 0
  · by_cases noGba : s.gba.romSize = 0
    · have none : Done 0 (freed s) (finish 0 (freed s)) := done_finish_self 0 _
      exact ⟨_, gbxIsloaded_delegates.toNone ready.init open_ noGb noGba, ⟨rfl, rfl, rfl, rfl⟩,
        { none.toOnlyBus with csForceIdle := idle.symm }, .inr rfl⟩
    · obtain ⟨t, eq, checked⟩ := gbaIsloaded_rechecks (s := locked s) ⟨ready, gbOff⟩ (gba.loaded_of_size noGba)
      exact ⟨_, gbxIsloaded_delegates.toGba ready.init open_ noGb noGba eq, freed_rechecked idle checked⟩
  · obtain ⟨t, eq, checked⟩ := gbIsloaded_rechecks (s := locked s) ⟨ready, gbaOff⟩ (gb.loaded_of_size noGb)
    exact ⟨_, gbxIsloaded_delegates.toGb ready.init open_ noGb eq, freed_rechecked idle checked⟩

/-- The delegation's three cases, as the obligation states them. -/
theorem Delegates.cases {gb gba : Instr} {gbSteps gbaSteps : Instr → Prog Word}
    (d : Delegates i gb gba gbSteps gbaSteps) (init : s.spiReady = true) (open_ : LockFree s) :
    (s.gb.romSize ≠ 0 → ∀ t, exec gb (locked s) = .next t → exec i s = .next { t with lock := 0, csForceIdle := false }) ∧
    (s.gb.romSize = 0 → s.gba.romSize ≠ 0 → ∀ t, exec gba (locked s) = .next t →
      exec i s = .next { t with lock := 0, csForceIdle := false }) ∧
    (s.gb.romSize = 0 → s.gba.romSize = 0 →
      ∃ t, exec i s = .next t ∧ QuietBus s.bus t.bus ∧ Done 0 { s with lock := 0, csForceIdle := false } t) :=
  ⟨fun active _ ran => d.toGb init open_ active ran, fun noGb active _ ran => d.toGba init open_ noGb active ran,
    fun noGb noGba => ⟨_, d.toNone init open_ noGb noGba, quiet_finish 0 _, done_finish_self 0 (freed s)⟩⟩

/-- Settles O54: the three delegations case by case, and each engine's operation completes. -/
theorem dispatcherDelegates : Obligations.DispatcherDelegates := by
  refine ⟨fun s init open_ p m => ?_, fun s init open_ calm closed idle gbOff gbaOff gb gba fits => ?_⟩
  · simp only [List.mem_cons, List.not_mem_nil, or_false] at m
    rcases m with rfl | rfl | rfl
    · exact gbxIsloaded_delegates.cases init open_
    · exact gbxReadrom_delegates.cases init open_
    · exact gbxReadsave_delegates.cases init open_
  · have ready := ready_locked init calm closed idle
    have onGb : ReadyGb (locked s) := ⟨ready, gbaOff⟩
    have onGba : ReadyGba (locked s) := ⟨ready, gbOff⟩
    have within {n : Nat} (le : n ≤ max (gbDumpTotal s.gb) (max s.gb.saveSize.toNat (max s.gba.romSize.toNat
        s.gba.saveSize.toNat))) : BufferFits n (locked s) := BufferFits.mono (s := locked s) fits le
    have gbRom : BufferFits (gbDumpTotal s.gb) (locked s) := within (by omega)
    have gbSave : BufferFits s.gb.saveSize.toNat (locked s) := within (by omega)
    have gbaRom : BufferFits s.gba.romSize.toNat (locked s) := within (by omega)
    have gbaSave : BufferFits s.gba.saveSize.toNat (locked s) := within (by omega)
    refine ⟨gbxIsloaded_completes open_ idle ready gbOff gbaOff gb gba, fun i m => ?_⟩
    simp only [List.mem_cons, List.not_mem_nil, or_false] at m
    rcases m with rfl | rfl
    · exact gbxReadrom_delegates.completes init open_ idle
        (gbReadrom_completes onGb gb gbRom) (gbaReadrom_completes onGba gba gbaRom)
    · exact gbxReadsave_delegates.completes init open_ idle
        (gbReadsave_completes onGb gbSave) (gbaReadsave_completes onGba gba gbaSave)

end Sys2Proof.Machine
end

section
/-! PROOFS. `GBX_LOADHDR`: the detector, the other session's clear, the selected engine's load (`46_dispatcher.md` R421
to R423). -/

namespace Sys2Proof.Machine

variable {s t : State} {op : Instr}

/-- The state in which the selected engine's load runs: the lock taken, the detector read. -/
def detected (s : State) : State := { locked s with bus := (pinRead .det s.bus).2 }

theorem detected_bus (s : State) : ∃ n, (pinRead .det s.bus).2 = { s.bus with tick := n } := ⟨_, pinRead_quiet .det s.bus⟩

theorem ready_detected (ready : Ready (locked s)) : Ready (detected s) := by
  obtain ⟨n, bus⟩ := detected_bus s
  obtain ⟨init, calm, closed, selected⟩ := ready
  rw [detected, bus]
  exact ⟨init, calm, closed, selected⟩

/-- The body of the load, with the detector at the GBA level and at the other (R421). -/
theorem gbxLoad_gba (strobe : strobeReady op s = .ok ()) (level : (pinRead .det s.bus).1 = Config.detGbaLevel)
    (ready : gbaPowerReady op (gbClear { s with bus := (pinRead .det s.bus).2 }) = .ok ()) : gbxLoad op s =
      .ok (loadedCode .gba (gbaLoadHeader (gbClear { s with bus := (pinRead .det s.bus).2 })).1,
        (gbaLoadHeader (gbClear { s with bus := (pinRead .det s.bus).2 })).2) := by
  unfold gbxLoad
  generalize gbaLoadHeader = load
  simp only [strobe, level, ready, if_true, bind, Except.bind, loadedCode]

theorem gbxLoad_gb (strobe : strobeReady op s = .ok ()) (level : (pinRead .det s.bus).1 ≠ Config.detGbaLevel)
    (ready : gbPowerReady op (gbaClear { s with bus := (pinRead .det s.bus).2 }) = .ok ()) : gbxLoad op s =
      .ok (loadedCode .gb (gbLoadHeader (gbaClear { s with bus := (pinRead .det s.bus).2 })).1,
        (gbLoadHeader (gbaClear { s with bus := (pinRead .det s.bus).2 })).2) := by
  unfold gbxLoad
  generalize gbLoadHeader = load
  simp only [strobe, level, ready, if_false, bind, Except.bind, loadedCode]

/-- A load's result under the dispatcher's code, the lock freed (R422, R423). -/
def loadEnded (u : State) (code : Word) : State :=
  { u with me := { u.me with res := if u.me.res = 1 then code else 0 }, lock := 0, csForceIdle := false }

/-- The load under the lock is the engine's, with the platform's code for its 1. -/
theorem exec_gbxLoadhdr {r : Word × State} {p : Platform} (init : s.spiReady = true) (open_ : LockFree s)
    (body : gbxLoad .gbxLoadhdr (locked s) = .ok (loadedCode p r.1, r.2)) (own : r.2.lock = Config.gbxKey) :
    exec .gbxLoadhdr s = .next (loadEnded (finish r.1 r.2) (platformCode p)) := by
  refine (exec_underLock (u := r.2) rfl rfl init open_ (gbxLoad_run.trans (by rw [body]; rfl)) own).trans ?_
  rfl

/-- A header load that came to its end: the session of a header that verified, or none. -/
theorem gbaLoadhdr_outcome (ready : ReadyGba s) : ∃ t v g, exec .gbaLoadhdr s = .next t ∧
    Done v { s with gba := g } t ∧ (v = 1 ∧ g.loaded = true ∨ v = 0 ∧ g = .empty) ∧
    GbaGrounded t.bus ∧ GbSideKept s.bus t.bus ∧ t.bus.crdActive = false := by
  obtain ⟨t, vs, es, eq, -, -, grounded, side, crd, -, bad, good⟩ := gbaLoadHeaderVerifies s ready
  cases ok : gbaChecksumOk (burstBytes vs) with
  | false => exact ⟨t, 0, .empty, eq, (bad ok).2, .inr ⟨rfl, rfl⟩, grounded, side, crd⟩
  | true =>
    obtain ⟨size, probes, c, rest, -, -, -, loaded⟩ := good ok
    exact ⟨t, 1, _, eq, loaded, .inl ⟨rfl, rfl⟩, grounded, side, crd⟩

theorem gbLoadhdr_outcome (ready : ReadyGb s) : ∃ t v g, exec .gbLoadhdr s = .next t ∧
    Done v { s with gb := g } t ∧ (v = 1 ∧ g.loaded = true ∨ v = 0 ∧ g = .empty) ∧
    GbGrounded t.bus ∧ GbaSideKept s.bus t.bus := by
  obtain ⟨t, wake, h, eq, -, -, -, grounded, side, -, good, bad⟩ := gbLoadHeaderVerifies s ready
  by_cases ok : GbHeaderOk h
  · obtain ⟨loaded, isLoaded, -⟩ := good ok
    exact ⟨t, 1, t.gb, eq, loaded, .inl ⟨rfl, isLoaded⟩, grounded, side⟩
  · exact ⟨t, 0, .empty, eq, bad ok, .inr ⟨rfl, rfl⟩, grounded, side⟩

theorem GbSideKept.of_tick {b c d : Bus} {n : Nat} (h : GbSideKept c d) (tick : c = { b with tick := n }) :
    GbSideKept b d := by
  subst tick
  exact { h with }

theorem GbaSideKept.of_tick {b c d : Bus} {n : Nat} (h : GbaSideKept c d) (tick : c = { b with tick := n }) :
    GbaSideKept b d := by
  subst tick
  exact { h with }

/-- Settles O53: each engine's own load, in its two outcomes, and the lock freed after it. -/
theorem dispatcherLoadsOneSession : Obligations.DispatcherLoadsOneSession := by
  intro s init open_ calm closed idle
  have ready := ready_detected (ready_locked init calm closed idle)
  obtain ⟨n, bus⟩ := detected_bus s
  have strobe : strobeReady .gbxLoadhdr (locked s) = .ok () := strobeReady_ok calm
  refine ⟨fun level off => ?_, fun level off => ?_⟩
  · have readyGba : ReadyGba (gbClear (detected s)) :=
      ⟨⟨ready.init, ready.calm, ready.closed, ready.selected⟩, (congrArg Bus.pwrGb bus).trans off⟩
    obtain ⟨t, v, g, eq, d, outcome, grounded, side, crd⟩ := gbaLoadhdr_outcome readyGba
    have own : t.lock = Config.gbxKey := d.lock
    have body : gbxLoad .gbxLoadhdr (locked s) = .ok (loadedCode .gba (gbaLoadHeader (gbClear (detected s))).1,
      (gbaLoadHeader (gbClear (detected s))).2) := gbxLoad_gba strobe level (gbaPowerReady_ok readyGba)
    have ended := (exec_gbaLoadhdr readyGba).symm.trans eq
    generalize gbaLoadHeader (gbClear (detected s)) = r at body ended
    cases ended
    refine ⟨_, eq, exec_gbxLoadhdr init open_ body own, d.gb, grounded, side.of_tick bus, crd, ?_⟩
    rcases outcome with ⟨one, loaded⟩ | ⟨zero, empty⟩
    · exact .inl ⟨d.res.trans one, (congrArg GbaSession.loaded d.gba).trans loaded⟩
    · exact .inr ⟨d.res.trans zero, d.gba.trans empty⟩
  · have readyGb : ReadyGb (gbaClear (detected s)) :=
      ⟨⟨ready.init, ready.calm, ready.closed, ready.selected⟩, (congrArg Bus.pwrGba bus).trans off⟩
    obtain ⟨t, v, g, eq, d, outcome, grounded, side⟩ := gbLoadhdr_outcome readyGb
    have own : t.lock = Config.gbxKey := d.lock
    have body : gbxLoad .gbxLoadhdr (locked s) = .ok (loadedCode .gb (gbLoadHeader (gbaClear (detected s))).1,
      (gbLoadHeader (gbaClear (detected s))).2) := gbxLoad_gb strobe level (gbPowerReady_ok readyGb)
    have ended := (exec_gbLoadhdr readyGb).symm.trans eq
    generalize gbLoadHeader (gbaClear (detected s)) = r at body ended
    cases ended
    refine ⟨_, eq, exec_gbxLoadhdr init open_ body own, d.gba, grounded, side.of_tick bus, ?_⟩
    rcases outcome with ⟨one, loaded⟩ | ⟨zero, empty⟩
    · exact .inl ⟨d.res.trans one, (congrArg GbSession.loaded d.gb).trans loaded⟩
    · exact .inr ⟨d.res.trans zero, d.gb.trans empty⟩

end Sys2Proof.Machine
end

section
/-! PROOFS. `GBX_WRITESAVE`: the live cartridge verified, then three codes or the engine's own write
(`46_dispatcher.md` R436 to R438). -/

namespace Sys2Proof.Machine

variable {s s' t u : State} {v : Word} {op : Instr} {e : Fault} {b : Bus} {live : Live} {clear : State → State}
  {write : State → Except Fault (Word × State)}

/-! ## The body under the lock -/

theorem exec_gbxWritesave_ok (init : s.spiReady = true) (open_ : LockFree s)
    (body : gbxWrite .gbxWritesave (locked s) = .ok (v, u)) (own : u.lock = Config.gbxKey) :
    exec .gbxWritesave s = .next (freed (finish v u)) :=
  exec_underLock rfl rfl init open_ (gbxWrite_run.trans (by rw [body]; rfl)) own

theorem exec_gbxWritesave_fault (init : s.spiReady = true) (open_ : LockFree s)
    (body : gbxWrite .gbxWritesave (locked s) = .error e) : exec .gbxWritesave s = .fault e :=
  (exec_eq_perform _ _).trans
    (perform_underLock_error (op := .gbxWritesave) rfl init open_ (gbxWrite_run.trans (by rw [body]; rfl)))

/-- The state the check of the live cartridge leaves: the lock taken, the slot read and powered down. -/
def checkedAt (s : State) (b : Bus) : State := { locked s with bus := b }

/-- A result code with nothing written: the lock freed, the session as the check leaves it. -/
theorem returned_code (v : Word) (s : State) (b : Bus) :
    QuietBus b (freed (finish v (checkedAt s b))).bus ∧ Done v (freed s) (freed (finish v (checkedAt s b))) :=
  ⟨rfl, done_bus v (freed s) b⟩

/-- What a save write does once the live cartridge has been read: a verdict, the clear that goes with it, and the
engine's own write. -/
structure Verdict (s s' : State) (b : Bus) (live : Live) (clear : State → State)
    (write : State → Except Fault (Word × State)) : Prop where
  init : s.spiReady = true
  unlocked : LockFree s
  body : gbxWrite .gbxWritesave (locked s) = writeAfter live clear write (checkedAt s b)
  cleared : clear (checkedAt s b) = checkedAt s' b
  own : s'.lock = s.lock

theorem Verdict.absent (h : Verdict s s' b .absent clear write) :
    ∃ t, exec .gbxWritesave s = .next t ∧ QuietBus b t.bus ∧ Done 0xFFFFFFFF (freed s') t :=
  ⟨_, exec_gbxWritesave_ok h.init h.unlocked (h.body.trans (by rw [writeAfter, h.cleared]; rfl)) rfl, returned_code _ s' b⟩

theorem Verdict.changed (h : Verdict s s' b .changed clear write) :
    ∃ t, exec .gbxWritesave s = .next t ∧ QuietBus b t.bus ∧ Done 0xFFFFFFFE (freed s') t :=
  ⟨_, exec_gbxWritesave_ok h.init h.unlocked (h.body.trans (by rw [writeAfter, h.cleared]; rfl)) rfl, returned_code _ s' b⟩

theorem Verdict.same {c : Bus} (h : Verdict s s' b .same clear write)
    (written : write (checkedAt s b) = .ok (v, checkedAt s c)) :
    exec .gbxWritesave s = .next (freed (finish v (checkedAt s c))) :=
  exec_gbxWritesave_ok h.init h.unlocked (h.body.trans written) rfl

theorem Verdict.fault (h : Verdict s s' b .same clear write) (faults : write (checkedAt s b) = .error e) :
    exec .gbxWritesave s = .fault e := exec_gbxWritesave_fault h.init h.unlocked (h.body.trans faults)

/-- Where the engine's write would complete, the operation does. -/
theorem Verdict.completes {c : Bus} (h : Verdict s s' b live clear write)
    (written : write (checkedAt s b) = .ok (v, checkedAt s c)) :
    ∃ t, exec .gbxWritesave s = .next t ∧ Returned t.me.res t ∧ (OnlyBus (freed s) t ∨ OnlyBus (freed s') t) := by
  cases live with
  | absent =>
    obtain ⟨t, eq, -, d⟩ := h.absent
    exact ⟨t, eq, ⟨rfl, d.resSet, d.cmd, d.seq⟩, .inr d.toOnlyBus⟩
  | changed =>
    obtain ⟨t, eq, -, d⟩ := h.changed
    exact ⟨t, eq, ⟨rfl, d.resSet, d.cmd, d.seq⟩, .inr d.toOnlyBus⟩
  | same => exact ⟨_, h.same written, ⟨rfl, rfl, rfl, rfl⟩, .inl (returned_code v s c).2.toOnlyBus⟩

/-! ## The GB/GBC slot -/

/-- The check of a GB/GBC cartridge is what the save write reads first. -/
theorem gbLiveCheck_run (ready : ReadyGb (locked s)) :
    (gbCheckSteps .gbxWritesave).run (locked s) = .ok ((gbCheckRead s.bus).1, checkedAt s (gbCheckRead s.bus).2) :=
  gbCheck_plays.run (gbPowerReady_going (gbPowerReady_ok (op := .gbxWritesave) ready) (room_zero _))

theorem gbLiveCheck_eq (ready : ReadyGb (locked s)) : gbLiveCheck s = gbCheckRead s.bus := by
  rw [gbLiveCheck, gbLiveCheck_run ready]
  rfl

theorem calm_iff (s : State) : Calm s ↔ otherOwner s.bus.ownGb s.me.id = none ∧
    otherOwner s.bus.ownGba s.me.id = none ∧ s.others.find? busyAgent = none := by
  simp [Calm, intruded, Option.or_eq_none_iff, and_assoc]

/-- After the check the slot is off and nobody's, and the engine's write may power it up again. -/
theorem ready_checkedGb (ready : ReadyGb (locked s)) (grounded : GbGrounded b) (side : GbaSideKept s.bus b) :
    ReadyGb (checkedAt s b) := by
  obtain ⟨⟨init, calm, closed, selected⟩, other⟩ := ready
  obtain ⟨-, gba, others⟩ := (calm_iff _).mp calm
  refine ⟨⟨init, (calm_iff _).mpr ⟨?_, ?_, others⟩, side.crdActive.trans closed, selected⟩, side.pwrGba.trans other⟩
  · change otherOwner b.ownGb _ = none
    rw [grounded.owner]
    rfl
  · change otherOwner b.ownGba _ = none
    rw [side.ownGba]
    exact gba

/-- A save write that fits leaves the bus alone changed, under either name. -/
theorem gbWriteSave_runs (ready : ReadyGb s)
    (fits : s.gb.loaded = true → s.gb.saveSize ≠ 0 → BufferFits s.gb.saveSize.toNat s) :
    ∃ v c, ∀ op, gbWriteSave op s = .ok (v, { s with bus := c }) := by
  by_cases nothing : s.gb.loaded = false ∨ s.gb.saveSize = 0
  · exact ⟨0, s.bus, fun op => if_pos nothing⟩
  · obtain ⟨loaded, some⟩ := not_or.mp nothing
    refine ⟨countWord s.gb.saveSize.toNat,
      gbSaveStore s.gb.mbc (s.hbuf.readBlock s.me.bufp.toNat s.gb.saveSize.toNat) s.bus, fun op => ?_⟩
    rw [gbWriteSave, if_neg nothing, needBuf_ok (fits (by simpa using loaded) some), gbPowerReady_ok ready]
    rfl

theorem gbWriteSave_unfits {f : Fault} (loaded : s.gb.loaded = true) (some : s.gb.saveSize ≠ 0)
    (check : needBuf s.gb.saveSize.toNat s = .error f) : gbWriteSave op s = .error f := by
  rw [gbWriteSave, if_neg (by simpa [loaded] using some), check]
  rfl

theorem exec_gbWritesave_of {c : Bus} (init : s.spiReady = true)
    (written : gbWriteSave .gbWritesave s = .ok (v, { s with bus := c })) :
    exec .gbWritesave s = .next (finish v { s with bus := c }) := by
  refine execGbWritesave_eq.trans ?_
  rw [needInit_ok init, written]
  rfl

theorem gbVerdict (init : s.spiReady = true) (unlocked : LockFree s) (ready : ReadyGb (locked s))
    (active : s.gb.romSize ≠ 0) : Verdict s { s with gb := .empty } (gbCheckRead s.bus).2
      (gbLive (gbCheckRead s.bus).1 s.gb.title) gbClear (gbWriteSave .gbxWritesave) where
  init := init
  unlocked := unlocked
  body := by
    rw [gbxWrite, active_gb (s := locked s) active, gbPowerReady_ok ready]
    rfl
  cleared := rfl
  own := rfl

/-! ## The GBA slot -/

theorem gbaLiveCheck_run (ready : ReadyGba (locked s)) :
    (gbaCheckSteps .gbxWritesave).run (locked s) = .ok ((gbaCheckRead s.bus).1, checkedAt s (gbaCheckRead s.bus).2) :=
  gbaCheck_plays.run (gbaPowerReady_going (gbaPowerReady_ok (op := .gbxWritesave) ready) (room_zero _))

theorem gbaLiveCheck_eq (ready : ReadyGba (locked s)) : gbaLiveCheck s = gbaCheckRead s.bus := by
  rw [gbaLiveCheck, gbaLiveCheck_run ready]
  rfl

theorem ready_checkedGba (ready : ReadyGba (locked s)) (grounded : GbaGrounded b) (side : GbSideKept s.bus b)
    (crd : b.crdActive = false) : ReadyGba (checkedAt s b) := by
  obtain ⟨⟨init, calm, closed, selected⟩, other⟩ := ready
  obtain ⟨gb, -, others⟩ := (calm_iff _).mp calm
  refine ⟨⟨init, (calm_iff _).mpr ⟨?_, ?_, others⟩, crd, selected⟩, side.pwrGb.trans other⟩
  · change otherOwner b.ownGb _ = none
    rw [side.ownGb]
    exact gb
  · change otherOwner b.ownGba _ = none
    rw [grounded.owner]
    rfl

theorem gbaWriteSave_runs (ready : ReadyGba s)
    (fits : s.gba.loaded = true → s.gba.saveType ≠ .unknown → BufferFits s.gba.saveSize.toNat s) :
    ∃ v c, ∀ op, gbaWriteSave op s = .ok (v, { s with bus := c }) := by
  by_cases nothing : s.gba.loaded = false ∨ s.gba.saveType = .unknown
  · exact ⟨0, s.bus, fun op => if_pos nothing⟩
  · obtain ⟨loaded, known⟩ := not_or.mp nothing
    refine ⟨countWord s.gba.saveSize.toNat, gbaSaveStore s.gba.saveType s.gba.flashMfr
      (s.hbuf.readBlock s.me.bufp.toNat s.gba.saveSize.toNat) s.bus, fun op => ?_⟩
    rw [gbaWriteSave, if_neg nothing, needBuf_ok (fits (by simpa using loaded) known), gbaPowerReady_ok ready]
    rfl

theorem gbaWriteSave_unfits {f : Fault} (loaded : s.gba.loaded = true) (known : s.gba.saveType ≠ .unknown)
    (check : needBuf s.gba.saveSize.toNat s = .error f) : gbaWriteSave op s = .error f := by
  rw [gbaWriteSave, if_neg (by simp [loaded, known]), check]
  rfl

theorem exec_gbaWritesave_of {c : Bus} (init : s.spiReady = true)
    (written : gbaWriteSave .gbaWritesave s = .ok (v, { s with bus := c })) :
    exec .gbaWritesave s = .next (finish v { s with bus := c }) := by
  refine execGbaWritesave_eq.trans ?_
  rw [needInit_ok init, written]
  rfl

theorem gbaVerdict (init : s.spiReady = true) (unlocked : LockFree s) (ready : ReadyGba (locked s))
    (noGb : s.gb.romSize = 0) (active : s.gba.romSize ≠ 0) :
    Verdict s { s with gba := .empty } (gbaCheckRead s.bus).2 (gbaLive (gbaCheckRead s.bus).1 s.gba) gbaClear
      (gbaWriteSave .gbxWritesave) where
  init := init
  unlocked := unlocked
  body := by
    change _ = writeAfter (gbaLive (gbaCheckRead (locked s).bus).1 (locked s).gba) gbaClear _
      { locked s with bus := (gbaCheckRead (locked s).bus).2 }
    rw [gbxWrite, active_gba (s := locked s) noGb active, gbaPowerReady_ok ready]
    generalize gbaCheckRead (locked s).bus = r
    rfl
  cleared := rfl
  own := rfl

/-! ## The verdicts, as the obligation states them -/

theorem gbLive_absent {g title : List Byte} (none : g.take 48 ≠ logo) : gbLive g title = .absent := if_pos none

theorem gbLive_changed {g title : List Byte} (isLogo : g.take 48 = logo) (other : normTitle (g.drop 48) ≠ title) :
    gbLive g title = .changed := (if_neg (not_not_intro isLogo)).trans (if_pos other)

theorem gbaLive_absent {h : List Byte} (g : GbaSession) (bad : gbaChecksumOk h = false) : gbaLive h g = .absent :=
  if_pos bad

theorem gbaLive_changed {h : List Byte} {g : GbaSession} (ok : gbaChecksumOk h = true) (other : ¬ GbaStill h g) :
    gbaLive h g = .changed := by
  have changed : gbaTitle h ≠ g.title ∨ gbaCode h ≠ g.code ∨ gbaMaker h ≠ g.maker := by
    by_contra same
    obtain ⟨title, code, maker⟩ := by simpa only [not_or, not_not] using same
    exact other ⟨ok, title, code, maker⟩
  exact (if_neg (by simp [ok])).trans (if_pos changed)

/-- With no session, a code and nothing else (R436). -/
theorem writesave_without_session (init : s.spiReady = true) (unlocked : LockFree s) (noGb : s.gb.romSize = 0)
    (noGba : s.gba.romSize = 0) :
    ∃ t, exec .gbxWritesave s = .next t ∧ Done 0xFFFFFFFD (freed s) t ∧ QuietBus s.bus t.bus :=
  ⟨_, exec_gbxWritesave_ok (u := locked s) init unlocked
    (by rw [gbxWrite, active_none (s := locked s) noGb noGba]; rfl) rfl, done_finish_self _ (freed s), rfl⟩

/-- Settles O55: the check's reads, and what each verdict leads to. -/
theorem writeSaveVerifiesFirst : Obligations.WriteSaveVerifiesFirst := by
  intro s init unlocked
  refine ⟨writesave_without_session init unlocked, fun calm closed idle => ⟨fun active off => ?_, fun noGb active off => ?_⟩⟩
  · have ready : ReadyGb (locked s) := ⟨ready_locked init calm closed idle, off⟩
    obtain ⟨long, run⟩ := gbCheckRead_run s.bus
    have checked := ready_checkedGb ready run.grounded run.side
    have verdict := gbVerdict init unlocked ready active
    rw [gbLiveCheck_eq ready]
    have check := gbLiveCheck_run ready
    generalize gbCheckRead s.bus = r at *
    refine ⟨check, long, run.grounded, run.side, run.events, fun none => ?_, fun isLogo other => ?_, fun still fits => ?_,
      fun still loaded some => ⟨fun unset => ?_, fun isSet outside => ?_⟩, fun fits => ?_⟩
    · rw [gbLive_absent none] at verdict
      exact verdict.absent
    · rw [gbLive_changed isLogo other] at verdict
      exact verdict.changed
    · rw [(gbLive_same_iff _ _).mpr still] at verdict
      obtain ⟨v, c, written⟩ := gbWriteSave_runs checked fits
      exact ⟨_, exec_gbWritesave_of init (written _), verdict.same (written _)⟩
    · rw [(gbLive_same_iff _ _).mpr still] at verdict
      exact verdict.fault (gbWriteSave_unfits (s := checkedAt s r.2) loaded some (needBuf_unset _ unset))
    · rw [(gbLive_same_iff _ _).mpr still] at verdict
      exact verdict.fault (gbWriteSave_unfits (s := checkedAt s r.2) loaded some (needBuf_outside isSet outside))
    · obtain ⟨v, c, written⟩ := gbWriteSave_runs checked fun _ _ => fits
      obtain ⟨t, eq, returned, kept | cleared⟩ := verdict.completes (written _)
      · exact ⟨t, eq, returned, { kept with gb := rfl }⟩
      · exact ⟨t, eq, returned, { cleared with gb := rfl }⟩
  · have ready : ReadyGba (locked s) := ⟨ready_locked init calm closed idle, off⟩
    obtain ⟨vs, long, bytes, run⟩ := gbaCheckRead_run s.bus
    have checked := ready_checkedGba ready run.grounded run.side run.crdActive
    have verdict := gbaVerdict init unlocked ready noGb active
    rw [gbaLiveCheck_eq ready]
    have check := gbaLiveCheck_run ready
    generalize gbaCheckRead s.bus = r at *
    refine ⟨check, run.grounded, run.side, run.crdActive, ⟨vs, long, bytes, run.events⟩, fun bad => ?_,
      fun ok other => ?_, fun still fits => ?_,
      fun still loaded known => ⟨fun unset => ?_, fun isSet outside => ?_⟩, fun fits => ?_⟩
    · rw [gbaLive_absent _ bad] at verdict
      exact verdict.absent
    · rw [gbaLive_changed ok other] at verdict
      exact verdict.changed
    · rw [(gbaLive_same_iff _ _).mpr still] at verdict
      obtain ⟨v, c, written⟩ := gbaWriteSave_runs checked fits
      exact ⟨_, exec_gbaWritesave_of init (written _), verdict.same (written _)⟩
    · rw [(gbaLive_same_iff _ _).mpr still] at verdict
      exact verdict.fault (gbaWriteSave_unfits (s := checkedAt s r.2) loaded known (needBuf_unset _ unset))
    · rw [(gbaLive_same_iff _ _).mpr still] at verdict
      exact verdict.fault (gbaWriteSave_unfits (s := checkedAt s r.2) loaded known (needBuf_outside isSet outside))
    · obtain ⟨v, c, written⟩ := gbaWriteSave_runs checked fun _ _ => fits
      obtain ⟨t, eq, returned, kept | cleared⟩ := verdict.completes (written _)
      · exact ⟨t, eq, returned, { kept with gba := rfl }⟩
      · exact ⟨t, eq, returned, { cleared with gba := rfl }⟩

end Sys2Proof.Machine
end

section
/-! PROOFS. The pin-level order of the power sequences and of every cartridge cycle (`20_memory.md` R96). -/

namespace Sys2Proof.Machine

variable {s : State}

/-! ## Power sequences (`42_power.md` R230 to R237) -/

/-- The frames and strobes that set the GB/GBC default pin state. -/
theorem gbDefaults_traces (b : Bus) : Traces b (gbDefaults b)
    (driven .gbCs true ++ driven .gbRd true ++ driven .gbWr true ++
      frames [[0x40, 0x12, 0x00, 0x00], [0x40, 0x0C, 0x00, 0x00], [0x40, 0x00, 0x00, 0x00], [0x42, 0x0C, 0xFF],
        [0x42, 0x00, 0xFF]]) := by
  simp [Traces, gbDefaults, drivePin, driven, frames, expWrite2, expPull2, expDir2, expPull, expDir, devOpcode, regAddr,
    portChip, isSecond]

theorem gbaDefaults_traces (b : Bus) : Traces b (gbaDefaults b)
    (driven .gbaCs true ++ driven .gbaCs2 true ++ driven .gbaRd true ++ driven .gbaWr true ++
      frames [[0x40, 0x12, 0x00, 0x00], [0x42, 0x12, 0x00], [0x40, 0x0C, 0xFF, 0xFF], [0x42, 0x0C, 0xFF],
        [0x40, 0x00, 0x00, 0x00], [0x42, 0x00, 0x00]]) := by
  simp [Traces, gbaDefaults, drivePin, driven, frames, expWrite2, expWrite, expPull2, expDir2, expPull, expDir, devOpcode,
    regAddr, portChip, isSecond]

/-- Power is applied, and waited for, only to a slot that has none. -/
theorem gbPowerUp_traces (b : Bus) : Traces b (gbPowerUp b)
    (driven .gbCs true ++ driven .gbRd true ++ driven .gbWr true ++
      frames [[0x40, 0x12, 0x00, 0x00], [0x40, 0x0C, 0x00, 0x00], [0x40, 0x00, 0x00, 0x00], [0x42, 0x0C, 0xFF],
        [0x42, 0x00, 0xFF]] ++
      if b.pwrGb then [] else driven .gbPwr (Config.pwrOnLevel .gb) ++ [.wait .settle]) := by
  refine (gbDefaults_traces b).append ?_
  obtain ⟨_, _, _, kept, _⟩ := gbDefaults_spec b
  cases flag : b.pwrGb
  · simp [Traces, gbPowerUp, drivePin, driven, kept, flag]
  · simp [Traces, gbPowerUp, kept, flag]

theorem gbaPowerUp_traces (b : Bus) : Traces b (gbaPowerUp b)
    (driven .gbaCs true ++ driven .gbaCs2 true ++ driven .gbaRd true ++ driven .gbaWr true ++
      frames [[0x40, 0x12, 0x00, 0x00], [0x42, 0x12, 0x00], [0x40, 0x0C, 0xFF, 0xFF], [0x42, 0x0C, 0xFF],
        [0x40, 0x00, 0x00, 0x00], [0x42, 0x00, 0x00]] ++
      if b.pwrGba then [] else driven .gbaPwr (Config.pwrOnLevel .gba) ++ [.wait .settle]) := by
  refine (gbaDefaults_traces b).append ?_
  obtain ⟨_, _, _, kept, _⟩ := gbaDefaults_spec b
  cases flag : b.pwrGba
  · simp [Traces, gbaPowerUp, drivePin, driven, kept, flag]
  · simp [Traces, gbaPowerUp, kept, flag]

theorem floatLines_traces (b : Bus) : Traces b (floatLines b)
    (frames [[0x40, 0x0C, 0x00, 0x00], [0x42, 0x0C, 0x00, 0x00], [0x40, 0x00, 0xFF, 0xFF],
      [0x42, 0x00, 0xFF, 0xFF]]) := by
  simp [Traces, floatLines, frames, expPull2, expDir2, devOpcode, regAddr]

theorem groundLines_traces (b : Bus) : Traces b (groundLines b)
    (frames [[0x40, 0x12, 0x00, 0x00], [0x42, 0x12, 0x00, 0x00], [0x40, 0x00, 0x00, 0x00],
      [0x42, 0x00, 0x00, 0x00]]) := by
  simp [Traces, groundLines, frames, expWrite2, expDir2, devOpcode, regAddr]

theorem gbPowerDown_traces (b : Bus) : Traces b (gbPowerDown b)
    (frames [[0x40, 0x0C, 0x00, 0x00], [0x42, 0x0C, 0x00, 0x00], [0x40, 0x00, 0xFF, 0xFF], [0x42, 0x00, 0xFF, 0xFF]] ++
      released [.gbCs, .gbRd, .gbWr] ++ driven .gbPwr (!Config.pwrOnLevel .gb) ++
      frames [[0x40, 0x12, 0x00, 0x00], [0x42, 0x12, 0x00, 0x00], [0x40, 0x00, 0x00, 0x00], [0x42, 0x00, 0x00, 0x00]] ++
      driven .gbCs false ++ driven .gbRd false ++ driven .gbWr false) := by
  have floated := floatLines_traces b
  have grounded := groundLines_traces (gbRelease b)
  simp only [Traces] at floated grounded ⊢
  simp [gbPowerDown, gbGround, drivePin, driven, grounded]
  simp [gbRelease, drivePin, released, floated]

theorem gbaPowerDown_traces (b : Bus) : Traces b (gbaPowerDown b)
    (frames [[0x40, 0x0C, 0x00, 0x00], [0x42, 0x0C, 0x00, 0x00], [0x40, 0x00, 0xFF, 0xFF], [0x42, 0x00, 0xFF, 0xFF]] ++
      released [.gbaCs, .gbaCs2, .gbaRd, .gbaWr] ++ driven .gbaPwr (!Config.pwrOnLevel .gba) ++
      frames [[0x40, 0x12, 0x00, 0x00], [0x42, 0x12, 0x00, 0x00], [0x40, 0x00, 0x00, 0x00], [0x42, 0x00, 0x00, 0x00]] ++
      driven .gbaCs false ++ driven .gbaCs2 false ++ driven .gbaRd false ++ driven .gbaWr false) := by
  have floated := floatLines_traces b
  have grounded := groundLines_traces (gbaRelease b)
  simp only [Traces] at floated grounded ⊢
  simp [gbaPowerDown, gbaGround, drivePin, driven, grounded]
  simp [gbaRelease, drivePin, released, floated]

/-! ## Cartridge cycles (`43_gb_engine.md` R251, R252, `45_gba_save.md` R351, R352) -/

theorem expWrite2_ab_traces (a : Half) (b : Bus) : Traces b (expWrite2 .ab (loByte a) (hiByte a) b)
    (frames [[0x40, 0x12, a.extractLsb' 0 8, a.extractLsb' 8 8]]) := by
  simp [Traces, frames, expWrite2, devOpcode, regAddr, loByte, hiByte]

theorem pinWrite_traces (p : Pin) (v : Bool) (b : Bus) : Traces b (pinWrite p v b) (levels [(p, v)]) := by
  simp [Traces, levels]

theorem expReadAs_c_traces (q : Query) (b : Bus) : Traces b (expReadAs q .c b).2 (frames [[0x43, 0x12, 0x00]]) := by
  simp [Traces, expReadAs, frames, devOpcode, regAddr, portChip, isSecond]

theorem gbRead_traces (a : Half) (b : Bus) : Traces b (gbRead a b).2
    (frames [[0x40, 0x12, a.extractLsb' 0 8, a.extractLsb' 8 8]] ++
      (if inRamWindow a then levels [(.gbCs, false)] else []) ++ levels [(.gbRd, false)] ++
      frames [[0x43, 0x12, 0x00]] ++ levels [(.gbRd, true)] ++
      if inRamWindow a then levels [(.gbCs, true)] else []) :=
  (((((expWrite2_ab_traces a b).append (ramSelect_traces a false _)).append (pinWrite_traces .gbRd false _)).append
    (expReadAs_c_traces (.gbRead a) _)).append (pinWrite_traces .gbRd true _)).append (ramSelect_traces a true _)

theorem expData_c_traces (a : Half) (d : Byte) (b : Bus) :
    Traces b (expWrite .c d (expWrite2 .ab (loByte a) (hiByte a) b))
      (frames [[0x40, 0x12, a.extractLsb' 0 8, a.extractLsb' 8 8], [0x42, 0x12, d]]) := by
  simp [Traces, frames, expWrite, expWrite2, devOpcode, regAddr, loByte, hiByte, portChip, isSecond]

theorem expDir_c_traces (m : Byte) (b : Bus) : Traces b (expDir .c m b) (frames [[0x42, 0x00, m]]) := by
  simp [Traces, frames, expDir, devOpcode, regAddr, portChip, isSecond]

theorem strobe_traces (p : Pin) (b : Bus) :
    Traces b (pinWrite p true (pinWrite p false b)) (levels [(p, false), (p, true)]) :=
  (pinWrite_traces p false b).append (pinWrite_traces p true _)

theorem gbWrite_traces (a : Half) (d : Byte) (b : Bus) : Traces b (gbWrite a d b)
    (frames [[0x40, 0x12, a.extractLsb' 0 8, a.extractLsb' 8 8], [0x42, 0x12, d], [0x42, 0x00, 0x00]] ++
      (if inRamWindow a then levels [(.gbCs, false)] else []) ++ levels [(.gbWr, false), (.gbWr, true)] ++
      (if inRamWindow a then levels [(.gbCs, true)] else []) ++ frames [[0x42, 0x00, 0xFF]]) :=
  (((((expData_c_traces a d b).append (expDir_c_traces 0x00 _)).append (ramSelect_traces a false _)).append
    (strobe_traces .gbWr _)).append (ramSelect_traces a true _)).append (expDir_c_traces 0xFF _)

theorem saveRead_traces (a : Half) (b : Bus) : Traces b (saveRead a b).2
    (frames [[0x40, 0x12, a.extractLsb' 0 8, a.extractLsb' 8 8], [0x42, 0x00, 0xFF]] ++
      levels [(.gbaCs2, false), (.gbaRd, false)] ++ frames [[0x43, 0x12, 0x00]] ++
      levels [(.gbaRd, true), (.gbaCs2, true)] ++ frames [[0x42, 0x00, 0x00]]) :=
  (((((expWrite2_ab_traces a b).append (expDir_c_traces 0xFF _)).append
    ((pinWrite_traces .gbaCs2 false _).append (pinWrite_traces .gbaRd false _))).append
    (expReadAs_c_traces (.saveRead a) _)).append
    ((pinWrite_traces .gbaRd true _).append (pinWrite_traces .gbaCs2 true _))).append (expDir_c_traces 0x00 _)

theorem saveWrite_traces (a : Half) (d : Byte) (b : Bus) : Traces b (saveWrite a d b)
    (frames [[0x40, 0x12, a.extractLsb' 0 8, a.extractLsb' 8 8], [0x42, 0x12, d]] ++
      levels [(.gbaCs2, false), (.gbaWr, false), (.gbaWr, true), (.gbaCs2, true)]) :=
  (expData_c_traces a d b).append ((pinWrite_traces .gbaCs2 false _).append
    ((strobe_traces .gbaWr _).append (pinWrite_traces .gbaCs2 true _)))

/-! ## A burst of one halfword (`44_gba_rom.md` R311 to R313) -/

theorem gbaLatch_traces (ha : BitVec 24) (b : Bus) : Traces b (gbaLatch ha b)
    (frames [[0x40, 0x12, haByte0 ha, haByte1 ha], [0x42, 0x12, haByte2 ha]] ++ levels [(.gbaCs, false)] ++
      frames [[0x40, 0x00, 0xFF, 0xFF]] ++ [.crdOpen [0x41, 0x12]]) := by
  simp [Traces, gbaLatch, frames, levels, expWrite, expWrite2, expDir2, crdStart, devOpcode, regAddr, portChip,
    isSecond]

theorem gbaNext_traces (b : Bus) : Traces b (gbaNext b).2
    [.pinLevel .gbaRd false, .crdBytes [0x00, 0x00], .pinLevel .gbaRd true] := by
  simp [Traces, gbaNext, crdContRom]

theorem gbaEnd_traces (b : Bus) : Traces b (gbaEnd b)
    ([.crdClose] ++ levels [(.gbaCs, true)] ++ frames [[0x40, 0x00, 0x00, 0x00]]) := by
  simp [Traces, gbaEnd, crdEnd, frames, levels, expDir2, devOpcode, regAddr]

theorem gbaRomRead_two (ba : Nat) (b : Bus) :
    (gbaRomRead ba 2 b).2 = gbaEnd (gbaNext (gbaLatch (BitVec.ofNat 24 (ba / 2)) b)).2 := by
  simp [gbaRomRead, gather, gatherRev, burstStep]

/-- The halfword address of an even byte address, byte by byte (`44_gba_rom.md` R311). -/
theorem haBytes_half (r : BitVec 25) : haByte0 (BitVec.ofNat 24 (r.toNat / 2)) = r.extractLsb' 1 8 ∧
    haByte1 (BitVec.ofNat 24 (r.toNat / 2)) = r.extractLsb' 9 8 ∧
    haByte2 (BitVec.ofNat 24 (r.toNat / 2)) = r.extractLsb' 17 8 := by
  have shift : r.toNat >>> 1 = r.toNat / 2 := by simp [Nat.shiftRight_eq_div_pow]
  have half : BitVec.ofNat 24 (r.toNat / 2) = r.extractLsb' 1 24 := by rw [← shift]; rfl
  simp only [haByte0, haByte1, haByte2, half]
  refine ⟨?_, ?_, ?_⟩ <;> ext i <;> simp [← Nat.add_assoc] <;> omega

theorem gbaRomRead_two_traces (r : BitVec 25) (b : Bus) : Traces b (gbaRomRead r.toNat 2 b).2
    (frames [[0x40, 0x12, r.extractLsb' 1 8, r.extractLsb' 9 8], [0x42, 0x12, r.extractLsb' 17 8]] ++
      levels [(.gbaCs, false)] ++ frames [[0x40, 0x00, 0xFF, 0xFF]] ++
      ([.crdOpen [0x41, 0x12], .pinLevel .gbaRd false, .crdBytes [0x00, 0x00], .pinLevel .gbaRd true, .crdClose] :
        List WireEvent) ++
      levels [(.gbaCs, true)] ++ frames [[0x40, 0x00, 0x00, 0x00]]) := by
  obtain ⟨low, mid, high⟩ := haBytes_half r
  have latched := gbaLatch_traces (BitVec.ofNat 24 (r.toNat / 2)) b
  rw [low, mid, high] at latched
  have whole := (latched.append (gbaNext_traces _)).append (gbaEnd_traces _)
  rw [gbaRomRead_two]
  simpa using whole

theorem delay_traces (d : DelayName) (b : Bus) : Traces b (delay d b) [.wait d] := by
  simp [Traces]

/-! ## EEPROM rows (`45_gba_save.md` R370 to R379) -/

/-- A row read, where a bit out leaves `out` and a bit in leaves `inn`: the request, then the nibble nobody reads and
the 64 bits of the row. -/
theorem eepReadRow_traces {out : Bool → List WireEvent} {inn : List WireEvent}
    (bitOut : ∀ v b, Traces b (eepOut v b) (out v)) (bitIn : ∀ b, Traces b (eepIn b).2 inn)
    (frm : Framing) (row : Nat) (b : Bus) : Traces b (eepReadRow frm row b).2
    (frames [[0x40, 0x12, 0x80, 0xFF], [0x42, 0x12, 0xFF]] ++ levels [(.gbaCs, false)] ++
      ((eepReadRequest frm row).map out).flatten ++ frames [[0x40, 0x00, 0x01]] ++ (List.replicate 68 inn).flatten ++
      (levels [(.gbaCs, true)] ++ frames [[0x40, 0x00, 0x00]])) := by
  have split : (List.replicate 68 inn).flatten = (List.replicate 4 inn).flatten ++ (List.replicate 64 inn).flatten := by
    rw [← List.flatten_append, ← List.replicate_add]
  rw [split]
  exact ((((eepBegin_traces b).append (eepSend_traces bitOut _ _)).append (eepTurn_traces _)).append
    ((gather_traces _ (fun _ => bitIn) 4 _).append (gather_traces _ (fun _ => bitIn) 64 _))).append (eepEnd_traces _)

theorem eepWriteRow_traces {out : Bool → List WireEvent} (bitOut : ∀ v b, Traces b (eepOut v b) (out v))
    (frm : Framing) (row : Nat) (data : List Byte) (b : Bus) : Traces b (eepWriteRow frm row data b)
    (frames [[0x40, 0x12, 0x80, 0xFF], [0x42, 0x12, 0xFF]] ++ levels [(.gbaCs, false)] ++
      ((eepWriteRequest frm row data).map out).flatten ++
      (levels [(.gbaCs, true)] ++ frames [[0x40, 0x00, 0x00]]) ++ [.wait .eepWrite]) :=
  ((((eepBegin_traces b).append (eepSend_traces bitOut _ _)).append (eepEnd_traces _))).append
    (delay_traces .eepWrite _)

/-! ## The operations -/

/-- What came over the wire is the wire's own record: the rest of the bus is free. -/
theorem Traces.of_wire {b c d : Bus} {x : List WireEvent} (h : Traces b c x) (same : d.wire = c.wire) :
    Traces b d x := by
  simpa only [Traces, same] using h

/-- A burst of one halfword, where its two bytes fit. -/
theorem gbaRomrd_two_wellFormed {r : BitVec 25} (even : r.toNat % 2 = 0) : (Instr.gbaRomrd r 2).wellFormed = true := by
  have bit : r[0] = false := by simp [← BitVec.getLsbD_eq_getElem, BitVec.getLsbD, Nat.testBit_zero, even]
  simp [Instr.wellFormed, bit]

/-- Settles O30: each operation's run, and what its bus sequence leaves on the wire. -/
theorem pinTraceOrder : Obligations.PinTraceOrder := by
  refine ⟨fun s ready => ⟨_, exec_gbPwrup ready, gbPowerUp_traces s.bus⟩,
    fun s ready => ⟨_, exec_gbaPwrup ready, gbaPowerUp_traces s.bus⟩, fun a d s ready => ⟨?_, ?_, ?_, ?_⟩⟩
  · exact ⟨⟨_, exec_gbPwrdn ready, gbPowerDown_traces s.bus⟩, ⟨_, exec_gbaPwrdn ready, gbaPowerDown_traces s.bus⟩⟩
  · exact ⟨⟨_, exec_gbBusrd a ready, gbRead_traces a s.bus⟩, ⟨_, exec_gbBuswr a d ready, gbWrite_traces a d s.bus⟩,
      ⟨_, exec_saveRd a ready, saveRead_traces a s.bus⟩, ⟨_, exec_saveWr a d ready, saveWrite_traces a d s.bus⟩⟩
  · intro r even fits
    exact ⟨_, exec_gbaRomrd (gbaRomrd_two_wellFormed even) ready fits, gbaRomRead_two_traces r s.bus⟩
  · intro frm row inside fits
    have reads := eepReadRow_traces eepOut_traces eepIn_traces frm row.toNat s.bus
    have writes := eepWriteRow_traces eepOut_traces frm row.toNat (s.hbuf.readBlock s.me.bufp.toNat 8) s.bus
    exact ⟨⟨_, exec_eepRdrow inside ready fits, reads.of_wire rfl⟩,
      ⟨_, exec_eepWrrow inside ready fits, writes.of_wire rfl⟩⟩

end Sys2Proof.Machine
end
